-- ==== Sys2Proof/Word.lean ====
section
/-! DEFINITION. The words and numbers of the TB256 (spec 00, "Geometry and fixed numbers"). -/

namespace Sys2Proof

/-- A byte of a packet or of the array. -/
abbrev Byte := BitVec 8
/-- A 2-byte field, sent low byte first (spec 11). -/
abbrev Half := BitVec 16
/-- A 4-byte field, sent low byte first (spec 11). -/
abbrev Long := BitVec 32

/-- A client number 0..7; client 0 is the supervisor client. -/
abbrev ClientId := Fin 8
/-- A slot of the region table, 0..63. -/
abbrev SlotId := Fin 64
/-- A frame number, 0..4095. -/
abbrev FrameId := Fin 4096
/-- A segment number, 0..127. -/
abbrev SegId := Fin 128
/-- A bank number, 0..3. -/
abbrev BankId := Fin 4
/-- A set drawn from the nine notice flags, bit k for the flag of code k (spec 11, closed codes). -/
abbrev NoticeSet := BitVec 9

/-- The low byte of a 2-byte field. -/
def Half.lo (w : Half) : Byte := w.extractLsb' 0 8
/-- The high byte of a 2-byte field. -/
def Half.hi (w : Half) : Byte := w.extractLsb' 8 8

end Sys2Proof
end

