-- ==== Sys2Proof/Config.lean ====
section
/-! DEFINITION. What the part fixes (spec 00, "Geometry and fixed numbers") and the two free values. -/

namespace Sys2Proof.Config

/-- Lines of a frame (00). -/
def linesPerFrame : Nat := 1024
/-- Bytes of a line (00). -/
def bytesPerLine : Nat := 64
/-- Bytes of the array, 256 MiB (00). -/
def arrayBytes : Nat := 4096 * 1024 * 64
/-- Frames of a segment (00). -/
def framesPerSegment : Nat := 32
/-- Lines of one WIPE, ZERO, COPY or SCRUB STEP (R119). -/
def linesPerStep : Nat := 64
/-- Steps that cover a frame (R16, R64, R145, R150). -/
def stepsPerFrame : Nat := 16
/-- Largest region, in frames (00). -/
def maxRegionFrames : Nat := 128
/-- Longest access, in lines (00). -/
def maxAccessLines : Nat := 64
/-- Entries of an access list (R35). -/
def maxAccessEntries : Nat := 4
/-- Offsets of a poison list (R38). -/
def maxPoison : Nat := 16
/-- Requests of a queue (R104). -/
def maxQueue : Nat := 4
/-- Commands of a batch (R69). -/
def maxBatch : Nat := 8
/-- Entries of the write queue (R95). -/
def maxWriteQueue : Nat := 32
/-- The write queue is heavy at this many entries or more (R95). -/
def heavyMark : Nat := 24
/-- Frames of the retire queue (R141). -/
def maxRetireQueue : Nat := 16
/-- The copy wait count at which the copy goes first (R125). -/
def maxCopyWait : Nat := 16
/-- Milliseconds between two samples of the temperature (R130). -/
def samplePeriod : Nat := 250
/-- Default of the spare target (R9). -/
def defaultSpareTarget : Nat := 32
/-- Default of the retire threshold (R140). -/
def defaultRetireThreshold : Nat := 16
/-- Default of the outlier margin (R140). -/
def defaultOutlierMargin : Nat := 8
/-- Default of the scrub interval, in units of 100 ms (R140). -/
def defaultScrubInterval : Nat := 10
/-- Default of the idle timeout, in units of 10 ms (R163). -/
def defaultIdleTimeout : Nat := 50
/-- Default quota of a client (R112). -/
def defaultQuota : Nat := 1024
/-- Vendor code, part code and revision number (11.5, IDENTIFY). -/
def vendorCode : Nat := 3121
def partCode : Nat := 256
def revision : Nat := 1

/-- FREE VALUE (log 6): the byte that the n-th reading of an array byte of unknown contents gives, by address.
The manual calls these contents unknown (R1, R33, R170, R174); nothing constrains the value. -/
opaque unknownByte : Nat → Nat → Byte

/-- FREE VALUE (log 28): which of two sentences the part follows for the handle that a BATCH_CLOSE response gives of a region
released since its GRANT: the slot's generation at the response (R190) if true, the generation that the GRANT gave (R47, R77,
R78) if false. The manual states both and ranks neither; nothing constrains the value. -/
opaque releasedHandleIsCurrent : Bool

end Sys2Proof.Config
end

