-- ==== Sys2Proof/Syntax.lean ====
section
/-! DEFINITION. The requests of the link (spec 11.3) and the commands of the block: one constructor of Instr per row of
spec/opcode_table.json. -/

namespace Sys2Proof

/-- The class of a region, chosen at its grant (spec 02). -/
inductive RegionClass where
  | keep | volatile
  deriving DecidableEq, Repr

/-- The right of an access list entry (R35). -/
inductive Right where
  | read | readWrite
  deriving DecidableEq, Repr

/-- A region handle: slot and generation (2.2). -/
structure RegionHandle where
  slot : SlotId
  generation : Byte
  deriving DecidableEq, Repr

/-- A handle field: a region handle or a batch reference, a staged position (R26, 11.2). -/
inductive Handle where
  | region (h : RegionHandle)
  | batchRef (position : Fin 8)
  deriving DecidableEq, Repr

/-- What a FLUSH names: a handle, or the selector ALL (R82). -/
inductive FlushSelector where
  | all
  | handle (h : Handle)
  deriving DecidableEq, Repr

/-- The nine region commands that a batch stages (R71). -/
inductive RegionCommand where
  | grant (size : Byte) (cls : RegionClass) (lease : Option Half)
  | release (h : Handle)
  | resize (h : Handle) (size : Byte)
  | handover (h : Handle) (newOwner : ClientId)
  | share (h : Handle) (base mask : Fin 8) (right : Right)
  | unshare (h : Handle) (base mask : Fin 8)
  | lock (h : Handle)
  | unlock (h : Handle)
  | wipe (h : Handle)
  deriving DecidableEq, Repr

/-- The pages of HEALTH (11.3, closed codes). -/
inductive HealthPage where
  | summary | frame | retired | segments | temperature
  deriving DecidableEq, Repr

/-- A well-formed request: the command table of 11.3 with its fields. -/
inductive Request where
  | attach
  | detach
  | notices (clear : NoticeSet) (enable : Option NoticeSet)
  | identify
  | health (page : HealthPage) (argument : Half)
  | command (cmd : RegionCommand)
  | renew (h : Handle)
  | describe (h : Handle) (page : Byte)
  | list
  | read (h : Handle) (offset : Long) (length : Byte)
  | write (h : Handle) (offset : Long) (length : Byte) (payload : List Byte)
  | verify (h : Handle) (offset : Long) (length : Byte)
  | flush (sel : FlushSelector)
  | batchOpen
  | batchClose
  | batchDrop
  | configure (selector client : Byte) (value : Half)
  | evict (client : Byte)
  | retire (frame : Half)
  | standby
  | powerdown
  | reset
  deriving DecidableEq, Repr

/-- The condition of a line that an operation read (R121). -/
inductive LineCondition where
  | good | corrected | uncorrectable
  deriving DecidableEq, Repr

/-- THE COMMANDS OF THE BLOCK, one constructor per row of spec/opcode_table.json. A request row is the arrival of that
request from client `c` with tag `tag` (log 1). An event row carries what the environment decides: a slot, a bank, a
temperature in degrees Celsius, the conditions of the lines read (the k-th of the list for the k-th line; lines past the
list's end are good, log 8). -/
inductive Instr where
  | requestArrival (stamp : Byte) (rest : List Byte)
  | attach (c : ClientId) (tag : Byte)
  | detach (c : ClientId) (tag : Byte)
  | notices (c : ClientId) (tag : Byte) (clear : NoticeSet) (enable : Option NoticeSet)
  | identify (c : ClientId) (tag : Byte)
  | healthSummary (c : ClientId) (tag : Byte) (argument : Half)
  | healthFrame (c : ClientId) (tag : Byte) (argument : Half)
  | healthRetired (c : ClientId) (tag : Byte) (argument : Half)
  | healthSegments (c : ClientId) (tag : Byte) (argument : Half)
  | healthTemperature (c : ClientId) (tag : Byte) (argument : Half)
  | grant (c : ClientId) (tag : Byte) (size : Byte) (cls : RegionClass) (lease : Option Half)
  | release (c : ClientId) (tag : Byte) (h : Handle)
  | resize (c : ClientId) (tag : Byte) (h : Handle) (size : Byte)
  | handover (c : ClientId) (tag : Byte) (h : Handle) (newOwner : ClientId)
  | share (c : ClientId) (tag : Byte) (h : Handle) (base mask : Fin 8) (right : Right)
  | unshare (c : ClientId) (tag : Byte) (h : Handle) (base mask : Fin 8)
  | lock (c : ClientId) (tag : Byte) (h : Handle)
  | unlock (c : ClientId) (tag : Byte) (h : Handle)
  | wipe (c : ClientId) (tag : Byte) (h : Handle)
  | renew (c : ClientId) (tag : Byte) (h : Handle)
  | describe (c : ClientId) (tag : Byte) (h : Handle) (page : Byte)
  | list (c : ClientId) (tag : Byte)
  | read (c : ClientId) (tag : Byte) (h : Handle) (offset : Long) (length : Byte)
  | write (c : ClientId) (tag : Byte) (h : Handle) (offset : Long) (length : Byte) (payload : List Byte)
  | verify (c : ClientId) (tag : Byte) (h : Handle) (offset : Long) (length : Byte)
  | flush (c : ClientId) (tag : Byte) (sel : FlushSelector)
  | batchOpen (c : ClientId) (tag : Byte)
  | batchClose (c : ClientId) (tag : Byte)
  | batchDrop (c : ClientId) (tag : Byte)
  | configureSpareTarget (c : ClientId) (tag : Byte) (client : Byte) (value : Half)
  | configureRetireThreshold (c : ClientId) (tag : Byte) (client : Byte) (value : Half)
  | configureOutlierMargin (c : ClientId) (tag : Byte) (client : Byte) (value : Half)
  | configureScrubInterval (c : ClientId) (tag : Byte) (client : Byte) (value : Half)
  | configureIdleTimeout (c : ClientId) (tag : Byte) (client : Byte) (value : Half)
  | configureQuota (c : ClientId) (tag : Byte) (client : Byte) (value : Half)
  | evict (c : ClientId) (tag : Byte) (client : Byte)
  | retire (c : ClientId) (tag : Byte) (frame : Half)
  | standby (c : ClientId) (tag : Byte)
  | powerdown (c : ClientId) (tag : Byte)
  | reset (c : ClientId) (tag : Byte)
  | leaseExpiry (slot : SlotId)
  | idleTimerExpiry
  | scrubIntervalExpiry
  | refreshSlotExpiry (bank : BankId)
  | thermalSample (temperature : Int)
  | lineReadComplete (bank : BankId) (conditions : List LineCondition)
  | drainComplete (bank : BankId)
  | wipeStepComplete (bank : BankId)
  | copyReadHalfComplete (bank : BankId) (conditions : List LineCondition)
  | copyStepComplete (bank : BankId) (conditions : List LineCondition)
  | zeroStepComplete (bank : BankId)
  | scrubStepComplete (bank : BankId) (conditions : List LineCondition)
  | refreshComplete (bank : BankId)
  | wakingEnd
  | powerOnReset
  | pinReset
  | resetRelease
  | trainingEnd
  | configureUnknownSelector (c : ClientId) (tag : Byte) (selector client : Byte) (value : Half)
  deriving DecidableEq, Repr

end Sys2Proof
end

