-- ==== Sys2Proof/Decode.lean ====
section
/-! DEFINITION. Packets and requests (spec 11): the form check of the link port as a total function on bytes, and the
encoder of requests. spec/opcode_table.json gives its rows no bits, so decodeTableWord answers none. -/

namespace Sys2Proof

/-- No row of spec/opcode_table.json has bits: no word spells a command. -/
def decodeTableWord (_nbits _w : Nat) : Option Instr := none

/-! ### Fields -/

/-- The slot of a region handle: bits 5..0 of its first byte (11.2). -/
def slotOfByte (b : Byte) : SlotId := Fin.ofNat 64 b.toNat

/-- A number 0..7 in a byte, or none: the closed codes of clients, bases and masks (R188 point 5). -/
def eightOfByte (b : Byte) : Option (Fin 8) :=
  if h : b.toNat < 8 then some ⟨b.toNat, h⟩ else none

/-- The handle table of 11.2, kinds 0 and 1; kind 2 (ALL) and kind 3 fail. -/
def decodeHandle (b0 b1 : Byte) : Option Handle :=
  match b0.toNat / 64 with
  | 0 => some (.region ⟨slotOfByte b0, b1⟩)
  | 1 => if b1 = 0 then (eightOfByte (b0 - 64)).map .batchRef else none
  | _ => none

/-- The handle field of a FLUSH, where ALL may stand: kind 2 with every other bit zero (11.2). -/
def decodeFlushSelector (b0 b1 : Byte) : Option FlushSelector :=
  if b0 = 128 ∧ b1 = 0 then some .all else (decodeHandle b0 b1).map .handle

/-- A 2-byte field, low byte first. -/
def half (lo hi : Byte) : Half := hi ++ lo

/-- A 4-byte field, low byte first. -/
def long (b0 b1 b2 b3 : Byte) : Long := b3 ++ b2 ++ b1 ++ b0

/-- A notice flag set: bits 9..15 must be zero (R188 point 5). -/
def decodeNoticeSet (lo hi : Byte) : Option NoticeSet :=
  if (half lo hi).toNat < 512 then some ((half lo hi).setWidth 9) else none

/-- Closed code of a class: 0 KEEP, 1 VOLATILE. -/
def decodeClass (b : Byte) : Option RegionClass :=
  if b = 0 then some .keep else if b = 1 then some .volatile else none

/-- Closed code of a right: 0 READ, 1 READ_WRITE. -/
def decodeRight (b : Byte) : Option Right :=
  if b = 0 then some .read else if b = 1 then some .readWrite else none

/-- Closed code of a health page. -/
def decodePage (b : Byte) : Option HealthPage :=
  match b.toNat with
  | 0 => some .summary
  | 1 => some .frame
  | 2 => some .retired
  | 3 => some .segments
  | 4 => some .temperature
  | _ => none

/-- A field read only when the byte before it, a closed code, is 1 (lease period, enable set; 11.3). -/
def decodeOptional {α : Type} (given : Byte) (field : Option α) : Option (Option α) :=
  if given = 0 then some none else if given = 1 then field.map some else none

/-! ### Bodies: one reader per shape of body in the command table of 11.3 -/

def bodyNone (r : Request) : List Byte → Option Request
  | [] => some r
  | _ => none

def bodyHandle (f : Handle → Request) : List Byte → Option Request
  | [h0, h1] => (decodeHandle h0 h1).map f
  | _ => none

def bodyNotices : List Byte → Option Request
  | [c0, c1, given, e0, e1] =>
    (decodeNoticeSet c0 c1).bind fun clear =>
      (decodeOptional given (decodeNoticeSet e0 e1)).map (.notices clear)
  | _ => none

def bodyHealth : List Byte → Option Request
  | [page, a0, a1] => (decodePage page).map fun p => .health p (half a0 a1)
  | _ => none

def bodyGrant : List Byte → Option Request
  | [size, cls, requested, p0, p1] =>
    (decodeClass cls).bind fun k =>
      (decodeOptional requested (some (half p0 p1))).map fun lease => .command (.grant size k lease)
  | _ => none

def bodyResize : List Byte → Option Request
  | [h0, h1, size] => (decodeHandle h0 h1).map fun h => .command (.resize h size)
  | _ => none

def bodyHandover : List Byte → Option Request
  | [h0, h1, d] =>
    (decodeHandle h0 h1).bind fun h => (eightOfByte d).map fun d' => .command (.handover h d')
  | _ => none

def bodyShare : List Byte → Option Request
  | [h0, h1, base, mask, right] =>
    (decodeHandle h0 h1).bind fun h => (eightOfByte base).bind fun b =>
      (eightOfByte mask).bind fun m => (decodeRight right).map fun r => .command (.share h b m r)
  | _ => none

def bodyUnshare : List Byte → Option Request
  | [h0, h1, base, mask] =>
    (decodeHandle h0 h1).bind fun h => (eightOfByte base).bind fun b =>
      (eightOfByte mask).map fun m => .command (.unshare h b m)
  | _ => none

def bodyDescribe : List Byte → Option Request
  | [h0, h1, page] => (decodeHandle h0 h1).map fun h => .describe h page
  | _ => none

def bodyAccess (f : Handle → Long → Byte → Request) : List Byte → Option Request
  | [h0, h1, o0, o1, o2, o3, n] => (decodeHandle h0 h1).map fun h => f h (long o0 o1 o2 o3) n
  | _ => none

def bodyWrite : List Byte → Option Request
  | h0 :: h1 :: o0 :: o1 :: o2 :: o3 :: n :: payload =>
    if payload.length = n.toNat * Config.bytesPerLine then
      (decodeHandle h0 h1).map fun h => .write h (long o0 o1 o2 o3) n payload
    else none
  | _ => none

def bodyFlush : List Byte → Option Request
  | [h0, h1] => (decodeFlushSelector h0 h1).map .flush
  | _ => none

def bodyConfigure : List Byte → Option Request
  | [selector, client, v0, v1] => some (.configure selector client (half v0 v1))
  | _ => none

def bodyEvict : List Byte → Option Request
  | [client] => some (.evict client)
  | _ => none

def bodyRetire : List Byte → Option Request
  | [f0, f1] => some (.retire (half f0 f1))
  | _ => none

/-- R188 points 2 to 5: the command table of 11.3. None for an unknown code or a body that fails its form. -/
def decodeBody (code : Byte) (body : List Byte) : Option Request :=
  match code.toNat with
  | 1 => bodyNone .attach body
  | 2 => bodyNone .detach body
  | 3 => bodyNotices body
  | 8 => bodyNone .identify body
  | 9 => bodyHealth body
  | 16 => bodyGrant body
  | 17 => bodyHandle (fun h => .command (.release h)) body
  | 18 => bodyResize body
  | 19 => bodyHandover body
  | 20 => bodyShare body
  | 21 => bodyUnshare body
  | 22 => bodyHandle (fun h => .command (.lock h)) body
  | 23 => bodyHandle (fun h => .command (.unlock h)) body
  | 24 => bodyHandle (fun h => .command (.wipe h)) body
  | 25 => bodyHandle .renew body
  | 26 => bodyDescribe body
  | 27 => bodyNone .list body
  | 32 => bodyAccess .read body
  | 33 => bodyWrite body
  | 34 => bodyAccess .verify body
  | 35 => bodyFlush body
  | 40 => bodyNone .batchOpen body
  | 41 => bodyNone .batchClose body
  | 42 => bodyNone .batchDrop body
  | 48 => bodyConfigure body
  | 49 => bodyEvict body
  | 50 => bodyRetire body
  | 51 => bodyNone .standby body
  | 52 => bodyNone .powerdown body
  | 53 => bodyNone .reset body
  | _ => none

/-- What the link port makes of a packet (R188): a well-formed request, or MALFORMED with the code and the tag its response
carries (0 where the byte was absent, R188 point 1, R189). -/
inductive Arrival where
  | malformed (c : ClientId) (code tag : Byte)
  | request (c : ClientId) (tag : Byte) (r : Request)
  deriving DecidableEq, Repr

/-- R187: the client number is the three low bits of the stamped byte. -/
def clientOfStamp (stamp : Byte) : ClientId := Fin.ofNat 8 stamp.toNat

/-- R187, R188: the form check of a packet, its stamped first byte apart. -/
def decodePacket (stamp : Byte) : List Byte → Arrival
  | [] => .malformed (clientOfStamp stamp) 0 0
  | [code] => .malformed (clientOfStamp stamp) code 0
  | code :: tag :: body =>
    match decodeBody code body with
    | some r => .request (clientOfStamp stamp) tag r
    | none => .malformed (clientOfStamp stamp) code tag

/-! ### The encoder, from the same tables -/

/-- The command codes of the nine stageable commands (11.3). -/
def RegionCommand.code : RegionCommand → Byte
  | .grant _ _ _ => 16
  | .release _ => 17
  | .resize _ _ => 18
  | .handover _ _ => 19
  | .share _ _ _ _ => 20
  | .unshare _ _ _ => 21
  | .lock _ => 22
  | .unlock _ => 23
  | .wipe _ => 24

/-- The command codes of 11.3. -/
def Request.code : Request → Byte
  | .attach => 1
  | .detach => 2
  | .notices _ _ => 3
  | .identify => 8
  | .health _ _ => 9
  | .command cmd => cmd.code
  | .renew _ => 25
  | .describe _ _ => 26
  | .list => 27
  | .read _ _ _ => 32
  | .write _ _ _ _ => 33
  | .verify _ _ _ => 34
  | .flush _ => 35
  | .batchOpen => 40
  | .batchClose => 41
  | .batchDrop => 42
  | .configure _ _ _ => 48
  | .evict _ => 49
  | .retire _ => 50
  | .standby => 51
  | .powerdown => 52
  | .reset => 53

/-- A region handle as its 2 bytes (11.2). -/
def RegionHandle.bytes (h : RegionHandle) : List Byte := [BitVec.ofNat 8 h.slot.val, h.generation]

/-- A handle field as its 2 bytes (11.2). -/
def Handle.bytes : Handle → List Byte
  | .region h => h.bytes
  | .batchRef k => [BitVec.ofNat 8 (64 + k.val), 0]

/-- A FLUSH selector as its 2 bytes (11.2). -/
def FlushSelector.bytes : FlushSelector → List Byte
  | .all => [128, 0]
  | .handle h => h.bytes

/-- A 2-byte field, low byte first. -/
def halfBytes (w : Half) : List Byte := [w.extractLsb' 0 8, w.extractLsb' 8 8]

/-- A 4-byte field, low byte first. -/
def longBytes (w : Long) : List Byte :=
  [w.extractLsb' 0 8, w.extractLsb' 8 8, w.extractLsb' 16 8, w.extractLsb' 24 8]

/-- A notice flag set as its 2 bytes. -/
def noticeBytes (n : NoticeSet) : List Byte := halfBytes (n.setWidth 16)

/-- The code of a region class (11.3). -/
def RegionClass.code : RegionClass → Byte
  | .keep => 0
  | .volatile => 1

/-- The code of a right (11.3). -/
def Right.code : Right → Byte
  | .read => 0
  | .readWrite => 1

/-- The code of a health page (11.3). -/
def HealthPage.code : HealthPage → Byte
  | .summary => 0
  | .frame => 1
  | .retired => 2
  | .segments => 3
  | .temperature => 4

/-- The body of a stageable command (11.3). -/
def RegionCommand.body : RegionCommand → List Byte
  | .grant size cls none => [size, cls.code, 0, 0, 0]
  | .grant size cls (some period) => [size, cls.code, 1] ++ halfBytes period
  | .release h => h.bytes
  | .resize h size => h.bytes ++ [size]
  | .handover h d => h.bytes ++ [BitVec.ofNat 8 d.val]
  | .share h base mask right => h.bytes ++ [BitVec.ofNat 8 base.val, BitVec.ofNat 8 mask.val, right.code]
  | .unshare h base mask => h.bytes ++ [BitVec.ofNat 8 base.val, BitVec.ofNat 8 mask.val]
  | .lock h => h.bytes
  | .unlock h => h.bytes
  | .wipe h => h.bytes

/-- The body of a request (11.3). -/
def Request.body : Request → List Byte
  | .attach => []
  | .detach => []
  | .notices clear none => noticeBytes clear ++ [0, 0, 0]
  | .notices clear (some enable) => noticeBytes clear ++ [1] ++ noticeBytes enable
  | .identify => []
  | .health page argument => page.code :: halfBytes argument
  | .command cmd => cmd.body
  | .renew h => h.bytes
  | .describe h page => h.bytes ++ [page]
  | .list => []
  | .read h offset length => h.bytes ++ longBytes offset ++ [length]
  | .write h offset length payload => h.bytes ++ longBytes offset ++ [length] ++ payload
  | .verify h offset length => h.bytes ++ longBytes offset ++ [length]
  | .flush sel => sel.bytes
  | .batchOpen => []
  | .batchClose => []
  | .batchDrop => []
  | .configure selector client value => [selector, client] ++ halfBytes value
  | .evict client => [client]
  | .retire frame => halfBytes frame
  | .standby => []
  | .powerdown => []
  | .reset => []

/-- A request as its packet, the stamped byte apart: code, tag, body (11.2). -/
def encodePacket (tag : Byte) (r : Request) : List Byte := r.code :: tag :: r.body

end Sys2Proof
end

