-- ==== Sys2Proof/Machine/State.lean ====
section
/-! DEFINITION. The state of the TB256 as plain data, block by block, and its value right after power-on reset. -/

namespace Sys2Proof.Machine

/-! ### Answers of the part -/

/-- The statuses of 11.4. -/
inductive Status where
  | done | staged | notReady | poweredDown | malformed | queueFull | aborted | notAttached | alreadyAttached
  | notPermitted | notFound | denied | badRange | boundary | badValue | locked | faulted | lost | busy | noSlot
  | noFrames | tooLarge | quota | reserveShort | thermalLimit | shared | cls | listFull | notLeased | batchOpen
  | noBatch | batchFull | batchFailed | uncorrectable
  deriving DecidableEq, Repr

/-- A response packet (R189): the flags byte is its attention bit. -/
structure Response where
  client : ClientId
  code : Byte
  tag : Byte
  status : Status
  attention : Bool
  body : List Byte
  deriving DecidableEq, Repr

/-- The nine notice flags (R114). -/
inductive Notice where
  | damage | fault | lost | leaseExpired | handedOver | revoked | thermal | reserve | evicted
  deriving DecidableEq, Repr

/-! ### Frame pool (01) -/

/-- The seven frame states (R1). -/
inductive FrameState where
  | free | dirty | spare | claimed | held | target | retired
  deriving DecidableEq, Repr

/-- A frame record (1.1). -/
structure Frame where
  state : FrameState
  region : Option SlotId
  doomed : Bool
  corrected : Nat
  lastCorrected : Option Nat
  uncorrectable : Nat
  deriving DecidableEq, Repr

/-- The class of a segment (R5). -/
inductive SegmentClass where
  | unclaimed | keep | volatile
  deriving DecidableEq, Repr

/-- A segment record (1.2). -/
structure Segment where
  cls : SegmentClass
  claims : Nat
  deriving DecidableEq, Repr

/-- The frame table, the segment table and the spare target (01). -/
structure Pool where
  frames : Vector Frame 4096
  segments : Vector Segment 128
  spareTarget : Nat
  deriving DecidableEq, Repr

/-- A fill (R15): it names a region's frame list, or its pending extension. -/
structure Fill where
  slot : SlotId
  extension : Bool
  deriving DecidableEq, Repr

/-- The zeroing engine (1.5): its current frame and the number of the step it is at. -/
structure ZeroEngine where
  current : Option FrameId
  step : Nat
  deriving DecidableEq, Repr

/-! ### Region table (02) -/

/-- The states of a region; UNUSED is a slot without a region record (2.3). -/
inductive RegionState where
  | filling | live | locked | faulted | lost | releasing
  deriving DecidableEq, Repr

/-- An entry of an access list (R35). -/
structure AccessEntry where
  base : Fin 8
  mask : Fin 8
  right : Right
  deriving DecidableEq, Repr

/-- A lease: period in seconds, remaining time in milliseconds (R40). -/
structure Lease where
  period : Nat
  remaining : Nat
  deriving DecidableEq, Repr

/-- How far a WIPE has come: waiting (R63), or zeroing a frame-list entry at a step (R64). -/
inductive WipePhase where
  | waiting
  | zeroing (entry step : Nat)
  deriving DecidableEq, Repr

/-- The migration field (R43). -/
structure Migration where
  index : Nat
  source : FrameId
  target : FrameId
  cursor : Nat
  deriving DecidableEq, Repr

/-- A region record (2.1). Wipe pending is `wipe` being present. -/
structure Region where
  state : RegionState
  owner : ClientId
  cls : RegionClass
  frames : List FrameId
  extension : Option (List FrameId)
  access : List AccessEntry
  lease : Option Lease
  poison : List Nat
  inUse : Nat
  wipe : Option WipePhase
  migration : Option Migration
  deriving DecidableEq, Repr

/-- A slot of the region table (2.1): an UNUSED slot carries its generation alone. -/
structure Slot where
  generation : Byte
  region : Option Region
  deriving DecidableEq, Repr

/-! ### Client table (04, 06) -/

/-- A READ, VERIFY or WRITE that has been taken: the handle as taken and its range of region lines (R82). -/
structure Access where
  handle : RegionHandle
  offset : Nat
  length : Nat
  deriving DecidableEq, Repr

/-- The phases of a READ or VERIFY (R85). The wait set is named by the offsets of its entries, all of the access's
region: no two entries of a region present together share an offset (R95), and an entry that leaves the queue leaves
every wait set in the same act (R86, log 23). -/
inductive ReadPhase where
  | wipeHold
  | ordering (waitSet : List Nat)
  | issued
  deriving DecidableEq, Repr

/-- The phases of a WRITE (R85). -/
inductive WritePhase where
  | wipeHold
  | posting
  deriving DecidableEq, Repr

/-- What a region command waits for (R47, R51, R62, R77). -/
inductive Wait where
  | fill (slot : SlotId)
  | extension (slot : SlotId)
  | wipe (slot : SlotId)
  deriving DecidableEq, Repr

/-- One position's result in a BATCH_CLOSE (R77), with what it still waits for. -/
structure BatchResult where
  status : Status
  handle : Option RegionHandle
  wait : Option Wait
  deriving DecidableEq, Repr

/-- A request that has been taken and has not ended (R105). `waiting` is a GRANT, RESIZE or WIPE. -/
inductive Work where
  | waiting (w : Wait)
  | batchClose (results : List BatchResult)
  | read (verify : Bool) (a : Access) (phase : ReadPhase)
  | write (a : Access) (payload : List Byte) (phase : WritePhase)
  | flush (slot : Option SlotId)
  | evict (client : ClientId)
  deriving DecidableEq, Repr

/-- The executing request with its tag. -/
structure Executing where
  tag : Byte
  work : Work
  deriving DecidableEq, Repr

/-- A queued request with its tag (R104). -/
structure Queued where
  tag : Byte
  request : Request
  deriving DecidableEq, Repr

/-- A client context (6.1). -/
structure Client where
  attached : Bool
  evictionPending : Bool
  quota : Nat
  queue : List Queued
  executing : Option Executing
  batch : Option (List RegionCommand)
  flags : NoticeSet
  enable : NoticeSet
  line : Bool
  deriving DecidableEq, Repr

/-! ### Access unit (05) -/

/-- An entry of the write queue (R92, R95). -/
structure Entry where
  client : ClientId
  handle : RegionHandle
  offset : Nat
  length : Nat
  payload : List Byte
  deriving DecidableEq, Repr

/-! ### Array controller (07) -/

/-- A LINE READ waiting at a bank (R119). -/
structure LineRead where
  client : ClientId
  frame : FrameId
  line : Nat
  length : Nat
  deriving DecidableEq, Repr

/-- What waits at rank 3 of a bank, in ready order (R123). -/
inductive Turn where
  | drainOffer
  | wipeStep (slot : SlotId) (frame : FrameId) (step : Nat)
  deriving DecidableEq, Repr

/-- A COPY STEP or a half of one waiting at a bank (R126). The write half holds its 64 lines as bytes, none where the
contents are unknown, and the conditions its read found. -/
inductive CopyOp where
  | whole (source target : FrameId) (step : Nat)
  | readHalf (source target : FrameId) (step : Nat)
  | writeHalf (source target : FrameId) (step : Nat) (lines : List (Option Byte)) (conditions : List LineCondition)
  deriving DecidableEq, Repr

/-- A bank operation (R119). A DRAIN names its entry and frame from its acceptance on (R97, R98). -/
inductive BankOp where
  | lineRead (r : LineRead)
  | drain (e : Entry) (frame : FrameId)
  | wipeStep (slot : SlotId) (frame : FrameId) (step : Nat)
  | copy (c : CopyOp)
  | zeroStep (frame : FrameId) (step : Nat)
  | scrubStep (frame : FrameId) (step : Nat)
  | refresh (segment : SegId)
  deriving DecidableEq, Repr

/-- An operation in progress. `live` is clear once its issuer has given it up; it still completes (R120, log 24). -/
structure Running where
  op : BankOp
  live : Bool
  deriving DecidableEq, Repr

/-- A bank (7.1 to 7.3). `fresh` holds the LINE READs issued in the act in progress, by client number (R123); it is
empty between acts. The slot timer counts quarters of a millisecond and is none while stopped. -/
structure Bank where
  running : Option Running
  reads : List LineRead
  fresh : List LineRead
  turns : List Turn
  copy : Option CopyOp
  zero : Option (FrameId × Nat)
  scrub : Option (FrameId × Nat)
  owed : Option SegId
  copyWait : Nat
  cursor : SegId
  slotTimer : Option Nat
  deriving DecidableEq, Repr

/-! ### Thermal monitor (07), scrub engine and retirement unit (08) -/

/-- The thermal classes (R131). -/
inductive ThermalClass where
  | freeze | cool | normal | warm | hot | overheat
  deriving DecidableEq, Repr

/-- The thermal monitor (7.5); `timer` is the time to the next sample in milliseconds (R130). -/
structure Thermal where
  last : Option Int
  cls : ThermalClass
  updated : Bool
  timer : Nat
  deriving DecidableEq, Repr

/-- The scrub engine (R143); the interval timer is none while it does not run. -/
structure Scrub where
  cursor : FrameId
  passes : Nat
  current : Option (FrameId × Nat)
  timer : Option Nat
  interval : Nat
  deriving DecidableEq, Repr

/-- The states of the migration engine (R148). -/
inductive EngineState where
  | idle | blocked | noTarget | copying
  deriving DecidableEq, Repr

/-- The retirement unit (8.1, 8.2, 8.4). -/
structure Retirement where
  queue : List FrameId
  totalCorrected : Nat
  totalUncorrectable : Nat
  engine : EngineState
  threshold : Nat
  margin : Nat
  deriving DecidableEq, Repr

/-! ### Power controller (09), start-up unit (10) -/

/-- What WAKING leaves (09). -/
inductive WakeOrigin where
  | standby | down
  deriving DecidableEq, Repr

/-- The power states (R162). -/
inductive PowerState where
  | initializing | active | standby
  | waking (origin : WakeOrigin)
  | down
  deriving DecidableEq, Repr

/-- The power controller (09); the idle timer, in milliseconds, is none while it does not run. -/
structure Power where
  state : PowerState
  idleTimer : Option Nat
  idleTimeout : Nat
  masked : List SegId
  deriving DecidableEq, Repr

/-- The reset causes (R181). -/
inductive ResetCause where
  | powerOn | pin | soft
  deriving DecidableEq, Repr

/-- Why the part is held in reset (R176); a pin reset during a power-on reset leaves powerOn (R181). -/
inductive Hold where
  | powerOn | pin
  deriving DecidableEq, Repr

/-! ### The part, the array and the state -/

/-- Everything but the contents of the array and the queue of commands. -/
structure Part where
  clients : Vector Client 8
  slots : Vector Slot 64
  pool : Pool
  fills : List Fill
  zero : ZeroEngine
  writeQueue : List Entry
  posting : List ClientId
  wipeHold : List ClientId
  banks : Vector Bank 4
  thermal : Thermal
  scrub : Scrub
  retire : Retirement
  power : Power
  cause : ResetCause
  hold : Option Hold
  tx : List Response
  phase : Nat
  deriving DecidableEq, Repr

/-- The contents of the array: the bytes that are known, by rising address; an unlisted byte is unknown (log 6).
`draws` is the model's own counter for the free value Config.unknownByte. -/
structure Store where
  cells : List Host.Cell
  draws : Nat
  deriving DecidableEq, Repr

/-- The reasons a step stops with a fault: none. The manual gives every command an effect and every check a status. -/
inductive Fault where
  deriving DecidableEq, Repr

/-- The reasons a step is refused. -/
inductive Refusal where
  /-- Raised by an arm of exec whose command has no meaning yet (no arm, in this model). Safe: the step stops. -/
  | notModelled (mnemonic : String)
  deriving DecidableEq, Repr

/-- THE STATE: the waiting commands, the array's contents and the part. -/
structure State where
  pending : List Instr
  store : Store
  part : Part
  deriving DecidableEq, Repr

/-! ### After reset -/

/-- A frame after power-on (R3). -/
def Frame.reset : Frame := ⟨.dirty, none, false, 0, none, 0⟩

/-- A client context after power-on and pin reset (R117). -/
def Client.reset : Client := ⟨false, false, Config.defaultQuota, [], none, none, 0, 0, false⟩

/-- A bank after power-on and pin reset (R129); its cursor stands at its first segment (log 21). -/
def Bank.reset (b : BankId) : Bank :=
  ⟨none, [], [], [], none, none, none, none, 0, Fin.ofNat 128 (32 * b.val), none⟩

/-- The part right after it leaves reset, with the frames it then has and the cause of the reset (R177, table): R6, R9,
R12, R21, R44, R69, R101, R117, R129, R135, R147, R156, R175, R181, R183. -/
def Part.reset (frames : Vector Frame 4096) (cause : ResetCause) : Part where
  clients := Vector.replicate 8 Client.reset
  slots := Vector.replicate 64 ⟨0, none⟩
  pool := ⟨frames, Vector.replicate 128 ⟨.unclaimed, 0⟩, Config.defaultSpareTarget⟩
  fills := []
  zero := ⟨none, 0⟩
  writeQueue := []
  posting := []
  wipeHold := []
  banks := ⟨⟨[Bank.reset 0, Bank.reset 1, Bank.reset 2, Bank.reset 3]⟩, rfl⟩
  thermal := ⟨none, .normal, false, Config.samplePeriod⟩
  scrub := ⟨0, 0, none, none, Config.defaultScrubInterval⟩
  retire := ⟨[], 0, 0, .idle, Config.defaultRetireThreshold, Config.defaultOutlierMargin⟩
  power := ⟨.initializing, none, Config.defaultIdleTimeout, []⟩
  cause := cause
  hold := none
  tx := []
  phase := 0

/-- The machine right after a power-on reset has been released (R3, R177): every frame DIRTY, the array unknown, no
command waiting. -/
def State.reset : State where
  pending := []
  store := ⟨[], 0⟩
  part := Part.reset (Vector.replicate 4096 Frame.reset) .powerOn

end Sys2Proof.Machine
end

