-- ==== Sys2Proof/Machine/Ops.lean ====
section
/-! DEFINITION. Named operations over tables, the array's bytes, packets' bytes and the records of the part. -/

namespace Sys2Proof.Machine

/-! ### Tables -/

/-- The record at an index. -/
def tget {α : Type} {n : Nat} (v : Vector α n) (i : Fin n) : α := v[i.val]

/-- The table with the record at an index replaced. -/
def tset {α : Type} {n : Nat} (v : Vector α n) (i : Fin n) (x : α) : Vector α n := v.set i.val x

/-- The table with the record at an index changed. -/
def tmod {α : Type} {n : Nat} (v : Vector α n) (i : Fin n) (f : α → α) : Vector α n := tset v i (f (tget v i))

/-- The table with every record changed. -/
def tmap {α : Type} {n : Nat} (f : α → α) (v : Vector α n) : Vector α n :=
  ⟨⟨v.toList.map f⟩, by simp⟩

/-- The table with every record changed by its index. -/
def tmapIdx {α : Type} {n : Nat} (f : Nat → α → α) (v : Vector α n) : Vector α n :=
  ⟨⟨List.zipWith f (List.range n) v.toList⟩, by simp⟩

/-- The indices, from i on, of the records of a list that meet a condition. -/
def indicesFrom {α : Type} (n : Nat) [NeZero n] (P : Fin n → α → Bool) : List α → Nat → List (Fin n)
  | [], _ => []
  | x :: xs, i =>
    if P (Fin.ofNat n i) x then Fin.ofNat n i :: indicesFrom n P xs (i + 1) else indicesFrom n P xs (i + 1)

/-- The indices, ascending, of the records of a table that meet a condition. -/
def indices {α : Type} {n : Nat} [NeZero n] (P : Fin n → α → Bool) (v : Vector α n) : List (Fin n) :=
  indicesFrom n P v.toList 0

/-- The number of records that meet a condition. -/
def tcount {α : Type} {n : Nat} (P : α → Bool) (v : Vector α n) : Nat := v.toList.countP P

/-- The clients, banks and slots in ascending order. -/
def allClients : List ClientId := [0, 1, 2, 3, 4, 5, 6, 7]
def allBanks : List BankId := [0, 1, 2, 3]
def allSlots : List SlotId := List.ofFn fun i => i

/-- The first check that fails decides the status. -/
def firstFail : List (Bool × Status) → Option Status
  | [] => none
  | (true, st) :: _ => some st
  | (false, _) :: rest => firstFail rest

/-- A counter that stays at its largest value (00, "Numbers"). -/
def saturate (limit n : Nat) : Nat := if n < limit then n else limit

/-! ### The array's bytes (00, "Geometry"; log 6) -/

/-- The address of the first byte of a frame's line. -/
def lineAddress (f : FrameId) (line : Nat) : Nat := f.val * 65536 + line * 64

/-- The byte listed at an address; none where the contents are unknown. -/
def Memory.read (m : List Host.Cell) (a : Nat) : Option Byte := (m.find? fun c => c.1 == a).map (·.2)

/-- The n bytes from an address on. -/
def Memory.load (m : List Host.Cell) (a : Nat) : Nat → List (Option Byte)
  | 0 => []
  | n + 1 => Memory.read m a :: Memory.load m (a + 1) n

/-- The cells of a run of bytes laid from an address on; an unknown byte has none. -/
def Memory.cellsOf : Nat → List (Option Byte) → List Host.Cell
  | _, [] => []
  | a, none :: rest => Memory.cellsOf (a + 1) rest
  | a, some b :: rest => (a, b) :: Memory.cellsOf (a + 1) rest

/-- The memory with a run of bytes written from an address on; an unknown byte leaves its address unlisted. -/
def Memory.place (m : List Host.Cell) (a : Nat) (bytes : List (Option Byte)) : List Host.Cell :=
  m.filter (fun c => c.1 < a) ++ (Memory.cellsOf a bytes ++ m.filter (fun c => a + bytes.length ≤ c.1))

/-- Addresses strictly rising. -/
def Memory.rising : List Host.Cell → Bool
  | [] => true
  | [_] => true
  | c :: d :: rest => decide (c.1 < d.1) && Memory.rising (d :: rest)

/-- THE CANONICAL FORM: addresses strictly rising. An unlisted address has no value (log 6), so no listed byte can
equal what an unlisted address reads as. -/
def Memory.wf (m : List Host.Cell) : Bool := Memory.rising m

/-- The lines of a step written with zeros (R119: WIPE STEP, ZERO STEP). -/
def Store.zeroStep (s : Store) (f : FrameId) (step : Nat) : Store :=
  { s with cells := Memory.place s.cells (lineAddress f (64 * step)) (List.replicate (64 * 64) (some 0)) }

/-- The lines of a write-queue entry written into a frame (R98). -/
def Store.drain (s : Store) (f : FrameId) (e : Entry) : Store :=
  { s with cells := Memory.place s.cells (lineAddress f (e.offset % 1024)) (e.payload.map some) }

/-- The condition of the k-th line that an operation read; a line past the list's end is good (log 8). -/
def conditionAt (conditions : List LineCondition) (k : Nat) : LineCondition := conditions.getD k .good

/-- The lines that an operation of n lines found in a condition, counted from its first line, ascending. -/
def linesFound (kind : LineCondition) (conditions : List LineCondition) (n : Nat) : List Nat :=
  (List.range n).filter fun k => conditionAt conditions k == kind

/-- An uncorrectable line is not written back (R121); what it holds is unknown (log 7). -/
def Store.forgetLines (s : Store) (f : FrameId) (line : Nat) : List Nat → Store
  | [] => s
  | k :: rest =>
    Store.forgetLines
      { s with cells := Memory.place s.cells (lineAddress f (line + k)) (List.replicate 64 none) } f line rest

/-- Frames whose contents are declared unknown (R170, R174). -/
def Store.forgetFrames (s : Store) (lost : FrameId → Bool) : Store :=
  { s with cells := s.cells.filter fun c => !lost (Fin.ofNat 4096 (c.1 / 65536)) }

/-- The data of a run of lines: a byte of unknown contents is a free value (log 6). -/
def Store.data (s : Store) (f : FrameId) (line length : Nat) : List Byte :=
  let a := lineAddress f line
  (Memory.load s.cells a (length * 64)).mapIdx fun k b => b.getD (Config.unknownByte s.draws (a + k))

/-- The 64 lines that a COPY STEP takes from the source: zeros for an uncorrectable line (R121). -/
def Store.copyLines (s : Store) (source : FrameId) (step : Nat) (conditions : List LineCondition) :
    List (Option Byte) :=
  ((List.range 64).map fun k =>
    if conditionAt conditions k == .uncorrectable then List.replicate 64 (some 0)
    else Memory.load s.cells (lineAddress source (64 * step + k)) 64).flatten

/-- The 64 lines of a COPY STEP written to the target. -/
def Store.placeStep (s : Store) (target : FrameId) (step : Nat) (lines : List (Option Byte)) : Store :=
  { s with cells := Memory.place s.cells (lineAddress target (64 * step)) lines }

/-! ### Geometry (00) -/

/-- Frame f lies in segment f div 32. -/
def segmentOf (f : FrameId) : SegId := ⟨f.val / 32, by have := f.isLt; omega⟩
/-- Frame f lies in bank f div 1024. -/
def bankOf (f : FrameId) : BankId := ⟨f.val / 1024, by have := f.isLt; omega⟩

/-! ### Bytes of a report (11) -/

def byte (n : Nat) : Byte := BitVec.ofNat 8 n
def bytes2 (n : Nat) : List Byte := halfBytes (BitVec.ofNat 16 n)
def bytes4 (n : Nat) : List Byte := longBytes (BitVec.ofNat 32 n)
def flagByte (b : Bool) : Byte := if b then 1 else 0

/-! ### Records of the part -/

def Part.client (p : Part) (c : ClientId) : Client := tget p.clients c
def Part.modClient (p : Part) (c : ClientId) (f : Client → Client) : Part :=
  { p with clients := tmod p.clients c f }

/-- The region record of a slot; none while the slot is UNUSED. -/
def Part.region (p : Part) (s : SlotId) : Option Region := (tget p.slots s).region
def Part.generation (p : Part) (s : SlotId) : Byte := (tget p.slots s).generation
def Part.modRegion (p : Part) (s : SlotId) (f : Region → Region) : Part :=
  { p with slots := tmod p.slots s fun x => { x with region := x.region.map f } }

def Part.bank (p : Part) (b : BankId) : Bank := tget p.banks b
def Part.modBank (p : Part) (b : BankId) (f : Bank → Bank) : Part := { p with banks := tmod p.banks b f }
def Part.modBanks (p : Part) (f : Bank → Bank) : Part := { p with banks := tmap f p.banks }

def Part.frame (p : Part) (f : FrameId) : Frame := tget p.pool.frames f
def Part.modFrame (p : Part) (f : FrameId) (g : Frame → Frame) : Part :=
  { p with pool := { p.pool with frames := tmod p.pool.frames f g } }

/-- The slots, ascending, whose region meets a condition. -/
def Part.slotsWhere (p : Part) (P : Region → Bool) : List SlotId :=
  indices (fun _ x => match x.region with | some r => P r | none => false) p.slots

/-- The migration in flight with the slot of its region: at most one region carries the field (R43). -/
def Part.migration (p : Part) : Option (SlotId × Migration) :=
  match p.slotsWhere fun r => r.migration.isSome with
  | [] => none
  | s :: _ => (p.region s).bind fun r => r.migration.map fun m => (s, m)

/-- Whether a frame is the source named by a migration field (R97). -/
def Part.isSource (p : Part) (f : FrameId) : Bool :=
  !(p.slotsWhere fun r => r.migration.any (·.source == f)).isEmpty

/-- Whether the power state is ACTIVE and the part is out of reset: the engines run (R20, R148). -/
def Part.running (p : Part) : Bool := p.hold.isNone && p.power.state == .active

end Sys2Proof.Machine
end

