-- ==== Sys2Proof/Machine/Flags.lean ====
section
/-! DEFINITION. Notice flags, notice lines, the attention indicator and responses (06 6.7, 11.4). -/

namespace Sys2Proof.Machine

/-- The bit of a notice flag in a flag set (11.3, closed codes). -/
def Notice.bit : Notice → NoticeSet
  | .damage => 1
  | .fault => 2
  | .lost => 4
  | .leaseExpired => 8
  | .handedOver => 16
  | .revoked => 32
  | .thermal => 64
  | .reserve => 128
  | .evicted => 256

/-- All nine flags, the enable set that ATTACH gives (R106). -/
def allNotices : NoticeSet := 511

/-- R114: a flag is set, whether or not it is enabled. -/
def Part.notify (p : Part) (n : Notice) (c : ClientId) : Part :=
  p.modClient c fun k => { k with flags := k.flags ||| n.bit }

/-- A flag set for several clients. -/
def Part.notifyAll (p : Part) (n : Notice) (cs : List ClientId) : Part := cs.foldl (fun q c => q.notify n c) p

/-- R115: a line is asserted exactly when one of the client's enabled flags is set; in reset it is deasserted (R176). -/
def Client.lineLevel (held : Bool) (k : Client) : Bool := !held && (k.flags &&& k.enable) != 0

/-- R115: every notice line follows its flags. -/
def Part.driveLines (p : Part) : Part :=
  { p with clients := tmap (fun k => { k with line := k.lineLevel p.hold.isSome }) p.clients }

/-- The attention indicator: some flag of the client is set, enabled or not (R115). -/
def Client.attention (k : Client) : Bool := k.flags != 0

/-- The status codes of 11.4. -/
def Status.code : Status → Byte
  | .done => 0 | .staged => 1 | .notReady => 2 | .poweredDown => 3 | .malformed => 4 | .queueFull => 5
  | .aborted => 6 | .notAttached => 7 | .alreadyAttached => 8 | .notPermitted => 9 | .notFound => 10
  | .denied => 11 | .badRange => 12 | .boundary => 13 | .badValue => 14 | .locked => 15 | .faulted => 16
  | .lost => 17 | .busy => 18 | .noSlot => 19 | .noFrames => 20 | .tooLarge => 21 | .quota => 22
  | .reserveShort => 23 | .thermalLimit => 24 | .shared => 25 | .cls => 26 | .listFull => 27 | .notLeased => 28
  | .batchOpen => 29 | .noBatch => 30 | .batchFull => 31 | .batchFailed => 32 | .uncorrectable => 33

/-- R189: a response as its packet. -/
def Response.bytes (r : Response) : List Byte :=
  [byte r.client.val, r.code, r.tag, r.status.code, flagByte r.attention] ++ r.body

/-- R189: a response is made. It carries the attention indicator of its client as it stands. -/
def Part.answer (p : Part) (c : ClientId) (code tag : Byte) (st : Status) (body : List Byte) : Part :=
  { p with tx := p.tx ++ [⟨c, code, tag, st, (p.client c).attention, body⟩] }

/-- The command code of the request that is executing (11.3). -/
def Work.code : Work → Byte
  | .waiting (.fill _) => 16
  | .waiting (.extension _) => 18
  | .waiting (.wipe _) => 24
  | .batchClose _ => 41
  | .read false _ _ => 32
  | .read true _ _ => 34
  | .write _ _ _ => 33
  | .flush _ => 35
  | .evict _ => 49

/-- The executing request ends: its response leaves (R105, R189). -/
def Part.finish (p : Part) (c : ClientId) (st : Status) (body : List Byte) : Part :=
  match (p.client c).executing with
  | some e => (p.modClient c fun k => { k with executing := none }).answer c e.work.code e.tag st body
  | none => p

/-- A request becomes the executing request (R105). -/
def Part.execute (p : Part) (c : ClientId) (tag : Byte) (w : Work) : Part :=
  p.modClient c fun k => { k with executing := some ⟨tag, w⟩ }

/-- The executing request goes on in another phase. -/
def Part.setWork (p : Part) (c : ClientId) (w : Work) : Part :=
  p.modClient c fun k => { k with executing := k.executing.map fun e => { e with work := w } }

/-- The work of the executing request. -/
def Part.work (p : Part) (c : ClientId) : Option Work := (p.client c).executing.map (·.work)

end Sys2Proof.Machine
end

