-- ==== Sys2Proof/Machine/Operands.lean ====
section
/-! DEFINITION. How the operands of requests are judged: handles and batch references, owners, rights, ranges, held
frames (02, 03 3.1, 05 5.1, 06 6.5). -/

namespace Sys2Proof.Machine

/-! ### Handles (R25, R26) -/

/-- R25: the region that a live handle names; none for a dead handle. -/
def Part.named (p : Part) (h : RegionHandle) : Option Region :=
  match p.region h.slot with
  | some r => if r.state != .releasing && h.generation == p.generation h.slot then some r else none
  | none => none

/-- R26: outside staging a batch reference names nothing; otherwise the handle must be live. -/
def Part.resolve (p : Part) : Handle → Option (RegionHandle × Region)
  | .region h => (p.named h).map fun r => (h, r)
  | .batchRef _ => none

/-- R45: the checks common to the region commands: NOT_FOUND, BUSY, DENIED. -/
def Part.judgeCommon (p : Part) (c : ClientId) (h : Handle) : Except Status (RegionHandle × Region) :=
  match p.resolve h with
  | none => .error .notFound
  | some (rh, r) =>
    if r.state == .filling then .error .busy
    else if r.owner != c then .error .denied
    else .ok (rh, r)

/-! ### Rights (R36) -/

/-- R36: client and base agree in every bit that is clear in the mask. -/
def AccessEntry.covers (e : AccessEntry) (c : ClientId) : Bool :=
  ((c.val ^^^ e.base.val) &&& (7 ^^^ e.mask.val)) == 0

/-- R36: whether a client other than the owner matches some entry. -/
def Region.inMatchSet (r : Region) (c : ClientId) : Bool := c != r.owner && r.access.any (·.covers c)

/-- R36: the match set, ascending. -/
def Region.matchSet (r : Region) : List ClientId := allClients.filter r.inMatchSet

/-- The right of a client over a region (R36). -/
inductive Grade where
  | none | read | readWrite | full
  deriving DecidableEq, Repr

/-- R36: the table of rights. -/
def Region.grade (r : Region) (c : ClientId) : Grade :=
  if c == r.owner then .full
  else if r.access.any fun e => e.covers c && e.right == .readWrite then .readWrite
  else if r.access.any (·.covers c) then .read
  else .none

/-- R36: READ, VERIFY and FLUSH need READ or better. -/
def Grade.mayRead : Grade → Bool
  | .none => false
  | _ => true

/-- R36: WRITE needs READ_WRITE or full. -/
def Grade.mayWrite : Grade → Bool
  | .readWrite => true
  | .full => true
  | _ => false

/-- The owner and the match set: the clients that DAMAGE and FAULT tell (R114). -/
def Region.audience (r : Region) : List ClientId := r.owner :: r.matchSet

/-! ### Ranges (R83, R84) -/

/-- R84: the length of a region in lines. -/
def Region.lines (r : Region) : Nat := 1024 * r.frames.length

/-- Two runs of lines have a line in common. -/
def overlaps (o1 n1 o2 n2 : Nat) : Bool := decide (o1 < o2 + n2) && decide (o2 < o1 + n1)

/-- Whether an offset lies in a run of lines. -/
def inRange (o n x : Nat) : Bool := decide (o ≤ x) && decide (x < o + n)

/-- R83, check 3: the status that the region's state gives to a READ, VERIFY or WRITE. -/
def Region.refusesAccess (r : Region) (isWrite : Bool) : Option Status :=
  match r.state with
  | .filling => some .busy
  | .faulted => some .faulted
  | .lost => some .lost
  | .locked => if isWrite then some .locked else none
  | .live => none
  | .releasing => some .notFound

/-- R83: the six checks of a READ, VERIFY or WRITE, in their order. -/
def Part.judgeAccess (p : Part) (c : ClientId) (h : Handle) (isWrite : Bool) (offset length : Nat) :
    Except Status (RegionHandle × Region) :=
  match p.resolve h with
  | none => .error .notFound
  | some (rh, r) =>
    if !(if isWrite then (r.grade c).mayWrite else (r.grade c).mayRead) then .error .denied
    else match r.refusesAccess isWrite with
      | some st => .error st
      | none =>
        match firstFail
          [(decide (r.lines < offset + length), .badRange),
           (decide (length < 1) || decide (Config.maxAccessLines < length), .badRange),
           (offset / 1024 != (offset + length - 1) / 1024, .boundary)] with
        | some st => .error st
        | none => .ok (rh, r)

/-- R83: a FLUSH naming a handle is judged by checks 1 to 3 alone. -/
def Part.judgeFlush (p : Part) (c : ClientId) (h : Handle) : Except Status RegionHandle :=
  match p.resolve h with
  | none => .error .notFound
  | some (rh, r) =>
    if !(r.grade c).mayRead then .error .denied
    else if r.state == .filling then .error .busy
    else .ok rh

/-! ### Held frames (R111) -/

/-- The frames of a region's list and pending extension. -/
def Region.held (r : Region) : Nat := r.frames.length + (r.extension.getD []).length

/-- R111: the held frames of a client, counted from the region table. -/
def Part.heldFrames (p : Part) (c : ClientId) : Nat :=
  (p.slots.toList.map fun x =>
    match x.region with
    | some r => if r.owner == c && r.state != .releasing then r.held else 0
    | none => 0).sum

/-- The slots, ascending, of the regions a client owns in a state other than RELEASING. -/
def Part.ownedSlots (p : Part) (c : ClientId) : List SlotId :=
  p.slotsWhere fun r => r.owner == c && r.state != .releasing

/-- R133: grants and grows are refused in FREEZE and OVERHEAT. -/
def Part.thermalLimit (p : Part) : Bool := p.thermal.cls == .freeze || p.thermal.cls == .overheat

end Sys2Proof.Machine
end

