-- ==== Sys2Proof/Machine/Pool.lean ====
section
/-! DEFINITION. The frame pool (01): frame moves with their segments, the spare pool, the allocator. -/

namespace Sys2Proof.Machine

/-! ### Frame moves (R2, R4, R5) -/

/-- R4: the states that a claim count counts. -/
def FrameState.counted : FrameState → Bool
  | .claimed | .held | .target => true
  | .free | .dirty | .spare | .retired => false

/-- The segment class of a region's class. -/
def segmentClass : RegionClass → SegmentClass
  | .keep => .keep
  | .volatile => .volatile

/-- R4, R5: a frame of the segment becomes counted; at 0 to 1 the segment takes the class. -/
def Segment.gain (g : Segment) (k : RegionClass) : Segment :=
  ⟨if g.claims == 0 then segmentClass k else g.cls, g.claims + 1⟩

/-- R4, R5: a frame of the segment stops being counted; at 1 to 0 the segment becomes UNCLAIMED. -/
def Segment.drop (g : Segment) : Segment :=
  ⟨if g.claims ≤ 1 then .unclaimed else g.cls, g.claims - 1⟩

/-- A frame enters CLAIMED, HELD or TARGET for a region (R2, R4, R5). From FREE, DIRTY or SPARE its segment counts it;
moving among the three leaves the count, the region field and the doomed flag's rule: TARGET clears it. -/
def Pool.enter (p : Pool) (f : FrameId) (st : FrameState) (slot : SlotId) (k : RegionClass) : Pool :=
  let old := tget p.frames f
  { p with
    frames := tset p.frames f { old with state := st, region := some slot, doomed := old.doomed && st != .target }
    segments := if old.state.counted then p.segments else tmod p.segments (segmentOf f) (·.gain k) }

/-- A frame enters FREE, DIRTY, SPARE or RETIRED: no region, no doomed flag; a counted frame leaves its segment's count
(R2, R4, R5). -/
def Pool.leave (p : Pool) (f : FrameId) (st : FrameState) : Pool :=
  let old := tget p.frames f
  { p with
    frames := tset p.frames f { old with state := st, region := none, doomed := false }
    segments := if old.state.counted then tmod p.segments (segmentOf f) Segment.drop else p.segments }

/-- R2: a frame that leaves a region becomes RETIRED if doomed and DIRTY otherwise. -/
def Pool.vacate (p : Pool) (f : FrameId) : Pool :=
  p.leave f (if (tget p.frames f).doomed then .retired else .dirty)

/-- R2 for a run of frames. -/
def Pool.vacateAll (p : Pool) (fs : List FrameId) : Pool := fs.foldl Pool.vacate p

/-! ### The spare pool (1.3) -/

/-- The frames, ascending, in a state. -/
def Pool.framesIn (p : Pool) (st : FrameState) : List FrameId := indices (fun _ g => g.state == st) p.frames

/-- The number of frames in a state. -/
def Pool.count (p : Pool) (st : FrameState) : Nat := tcount (fun g => g.state == st) p.frames

/-- A spare shortfall exists: the SPARE count is below the spare target (1.3). While it does, the grant lock is in
force (R10). -/
def Pool.shortfall (p : Pool) : Bool := decide (p.count .spare < p.spareTarget)

/-- R8: FREE frames move to SPARE, lowest first, until the count reaches the target or none remains. -/
def Pool.topUp (p : Pool) : Pool :=
  ((p.framesIn .free).take (p.spareTarget - p.count .spare)).foldl (fun q f => q.leave f .spare) p

/-- R9: SPARE frames in excess of the target move to FREE, highest first. -/
def Pool.shed (p : Pool) : Pool :=
  ((p.framesIn .spare).reverse.take (p.count .spare - p.spareTarget)).foldl (fun q f => q.leave f .free) p

/-- R8, R11: an event has changed the pool; top-up runs, and if a shortfall begins by the event, client 0 gets RESERVE.
`before` is the pool as the event found it. -/
def Part.settleSpare (p : Part) (before : Pool) : Part :=
  let q := { p with pool := p.pool.topUp }
  if !before.shortfall && q.pool.shortfall then q.notify .reserve 0 else q

/-- R7: a frame that was DIRTY at the end of its zeroing becomes SPARE during a shortfall and FREE otherwise. -/
def Pool.refill (p : Pool) (f : FrameId) : Pool := p.leave f (if p.shortfall then .spare else .free)

/-! ### The allocator (1.4) -/

/-- The frames in a state that lie in a segment of a class, ascending. -/
def Pool.framesOf (p : Pool) (st : FrameState) (k : SegmentClass) : List FrameId :=
  indices (fun f g => g.state == st && (tget p.segments (segmentOf f)).cls == k) p.frames

/-- R13, R14: the frames of a state in the allocator's order: the segments of class K ascending, then the UNCLAIMED
segments ascending, and ascending frame number in each. -/
def Pool.candidates (p : Pool) (st : FrameState) (k : RegionClass) : List FrameId :=
  p.framesOf st (segmentClass k) ++ p.framesOf st .unclaimed

/-- What an allocator call gives: the pool, the frames in the order taken, and whether it leaves a fill (R14, R15). -/
structure Allocation where
  pool : Pool
  frames : List FrameId
  fill : Bool

/-- R14: none (NO_FRAMES) when the eligible count is below n; otherwise n frames, FREE ones first, which become HELD,
then DIRTY ones, which become CLAIMED. -/
def Pool.allocate (p : Pool) (n : Nat) (k : RegionClass) (slot : SlotId) : Option Allocation :=
  let free := p.candidates .free k
  let dirty := p.candidates .dirty k
  if free.length + dirty.length < n then none
  else
    let first := free.take n
    let second := dirty.take (n - first.length)
    let p1 := first.foldl (fun q f => q.enter f .held slot k) p
    let p2 := second.foldl (fun q f => q.enter f .claimed slot k) p1
    some ⟨p2, first ++ second, !second.isEmpty⟩

/-- R149: whether a frame lies in a segment that fits a region of a class. -/
def Pool.fits (p : Pool) (f : FrameId) (k : RegionClass) : Bool :=
  let cls := (tget p.segments (segmentOf f)).cls
  cls == segmentClass k || cls == .unclaimed

/-- The lowest-numbered frame in a state that fits a class (R64, R149). -/
def Pool.lowestFitting (p : Pool) (st : FrameState) (k : RegionClass) : Option FrameId :=
  (indices (fun f g => g.state == st && p.fits f k) p.frames).head?

end Sys2Proof.Machine
end

