-- ==== Sys2Proof/Machine/Banks.lean ====
section
/-! DEFINITION. The array controller (07 7.1 to 7.4): issuing and withdrawing operations, drain candidates and offers,
the arbiter's choice, refresh slots. -/

namespace Sys2Proof.Machine

/-! ### Drain candidates (R96, R97) -/

/-- R96: the current frame of an entry: the frame that entry offset div 1024 of its slot's frame list holds. -/
def Part.currentFrame (p : Part) (e : Entry) : Option FrameId :=
  (p.region e.handle.slot).bind fun r => r.frames[e.offset / 1024]?

/-- Whether two entries are the same entry of the queue: one region and one offset (R95). -/
def Entry.same (e d : Entry) : Bool := e.handle.slot == d.handle.slot && e.offset == d.offset

/-- Whether a bank carries out a DRAIN. -/
def Bank.draining (k : Bank) : Bool :=
  match k.running with
  | some ⟨.drain _ _, _⟩ => true
  | _ => false

/-- Whether a DRAIN of the entry is in progress at a bank. -/
def Bank.drains (k : Bank) (e : Entry) : Bool :=
  match k.running with
  | some ⟨.drain d _, true⟩ => d.same e
  | _ => false

/-- R97: an entry is drainable when it has a current frame that is no migration source; it is of the bank of that
frame. An entry whose DRAIN is in progress is no candidate again. -/
def Part.drainableAt (p : Part) (b : BankId) (e : Entry) : Bool :=
  match p.currentFrame e with
  | some f => bankOf f == b && !p.isSource f && !(p.banks.toList.any (·.drains e))
  | none => false

/-- R97: a bank's drain candidate is its oldest drainable entry. -/
def Part.candidate (p : Part) (b : BankId) : Option Entry := p.writeQueue.find? (p.drainableAt b)

/-- Whether a bank's DRAIN offer waits. -/
def Bank.offers (k : Bank) : Bool := k.turns.contains .drainOffer

/-- R120: the offer of a bank that no longer has a candidate is withdrawn. -/
def Part.withdrawOffers (p : Part) : Part :=
  allBanks.foldl
    (fun q b =>
      if (q.bank b).offers && (q.candidate b).isNone then
        q.modBank b fun k => { k with turns := k.turns.filter (· != .drainOffer) }
      else q) p

/-- R97, R123: a bank with a candidate, no DRAIN in progress and no offer waiting gets an offer, behind what waits at
rank 3. -/
def Part.makeOffers (p : Part) : Part :=
  allBanks.foldl
    (fun q b =>
      if !(q.bank b).offers && !(q.bank b).draining && (q.candidate b).isSome then
        q.modBank b fun k => { k with turns := k.turns ++ [.drainOffer] }
      else q) p

/-! ### Issue and withdrawal (R119, R120) -/

/-- A LINE READ placed among those issued in the same act by ascending client number (R123). -/
def insertRead (r : LineRead) : List LineRead → List LineRead
  | [] => [r]
  | x :: xs => if r.client < x.client then r :: x :: xs else x :: insertRead r xs

def Part.issueRead (p : Part) (r : LineRead) : Part :=
  p.modBank (bankOf r.frame) fun k => { k with fresh := insertRead r k.fresh }

def Part.issueWipe (p : Part) (slot : SlotId) (f : FrameId) (step : Nat) : Part :=
  p.modBank (bankOf f) fun k => { k with turns := k.turns ++ [.wipeStep slot f step] }

def Part.issueZero (p : Part) (f : FrameId) (step : Nat) : Part :=
  p.modBank (bankOf f) fun k => { k with zero := some (f, step) }

def Part.issueScrub (p : Part) (f : FrameId) (step : Nat) : Part :=
  p.modBank (bankOf f) fun k => { k with scrub := some (f, step) }

/-- R126: a COPY STEP is one operation inside a bank and is issued as its read half across two. -/
def Part.issueCopy (p : Part) (source target : FrameId) (step : Nat) : Part :=
  p.modBank (bankOf source) fun k =>
    { k with copy := some (if bankOf source == bankOf target then .whole source target step
                           else .readHalf source target step) }

/-- The operations in progress that meet a condition are given up by their issuer; they still complete (R120). -/
def Part.disown (p : Part) (P : BankOp → Bool) : Part :=
  p.modBanks fun k => { k with running := k.running.map fun r => { r with live := r.live && !P r.op } }

/-- Whether a bank still holds a client's LINE READ unaccepted. -/
def Bank.holdsRead (c : ClientId) (k : Bank) : Bool := (k.reads ++ k.fresh).any (·.client == c)

/-- Whether the LINE READ of a client's issued READ or VERIFY has not yet been accepted. -/
def Part.readWaits (p : Part) (c : ClientId) : Bool := p.banks.toList.any (Bank.holdsRead c)

def Part.withdrawRead (p : Part) (c : ClientId) : Part :=
  p.modBanks fun k => { k with reads := k.reads.filter (·.client != c), fresh := k.fresh.filter (·.client != c) }

def Turn.isWipeOf (slot : SlotId) : Turn → Bool
  | .wipeStep s _ _ => s == slot
  | .drainOffer => false

def BankOp.isWipeOf (slot : SlotId) : BankOp → Bool
  | .wipeStep s _ _ => s == slot
  | _ => false

/-- A WIPE is ended: its waiting step is withdrawn, a step in progress counts no more (R65, R120). -/
def Part.endWipeSteps (p : Part) (slot : SlotId) : Part :=
  (p.modBanks fun k => { k with turns := k.turns.filter fun t => !t.isWipeOf slot }).disown (·.isWipeOf slot)

def BankOp.isCopy : BankOp → Bool
  | .copy _ => true
  | _ => false

/-- A migration is aborted: its waiting COPY STEP or half is withdrawn with its count, one in progress counts no more
(R120, R125, R153). -/
def Part.endCopy (p : Part) : Part :=
  (p.modBanks fun k => { k with copy := none, copyWait := 0 }).disown (·.isCopy)

/-- R155: at STANDBY entry a step whose read or single operation is unaccepted is withdrawn; a write half is kept. -/
def Bank.pauseCopy (k : Bank) : Bank :=
  match k.copy with
  | some (.writeHalf _ _ _ _ _) => k
  | _ => { k with copy := none, copyWait := 0 }

def BankOp.isZeroOf (f : FrameId) : BankOp → Bool
  | .zeroStep g _ => g == f
  | _ => false

/-- The zeroing engine gives up a frame's step (R18, R120). -/
def Part.endZero (p : Part) (f : FrameId) : Part :=
  (p.modBank (bankOf f) fun k => { k with zero := none }).disown (·.isZeroOf f)

def BankOp.isScrub : BankOp → Bool
  | .scrubStep _ _ => true
  | _ => false

/-- The scrub engine withdraws its waiting step (R146, R147). -/
def Part.withdrawScrub (p : Part) : Part := p.modBanks fun k => { k with scrub := none }

/-! ### The arbiter (R122 to R125) -/

/-- What an arbiter chooses. -/
inductive Choice where
  | refresh (segment : SegId)
  | read (r : LineRead)
  | turn (t : Turn)
  | copy (c : CopyOp)
  | zero (f : FrameId) (step : Nat)
  | scrub (f : FrameId) (step : Nat)
  deriving DecidableEq, Repr

/-- R122 with the exceptions of R124 and R125: an owed REFRESH; a COPY at count 16; the DRAIN offer while the write queue
is heavy; LINE READs; DRAIN offers and WIPE STEPs; COPY; ZERO; SCRUB. -/
def Bank.choose (k : Bank) (heavy : Bool) : Option Choice :=
  match k.owed with
  | some s => some (.refresh s)
  | none =>
    match (if Config.maxCopyWait ≤ k.copyWait then k.copy else none) with
    | some c => some (.copy c)
    | none =>
      if heavy && k.offers then some (.turn .drainOffer)
      else match k.reads with
        | r :: _ => some (.read r)
        | [] => match k.turns with
          | t :: _ => some (.turn t)
          | [] => match k.copy with
            | some c => some (.copy c)
            | none => match k.zero with
              | some (f, n) => some (.zero f n)
              | none => k.scrub.map fun x => .scrub x.1 x.2

/-- R125: an operation of rank 2 or 3 is accepted while a COPY may wait. -/
def Bank.passCopy (k : Bank) : Bank :=
  if k.copy.isSome then { k with copyWait := saturate Config.maxCopyWait (k.copyWait + 1) } else k

/-- The bank takes an operation (R119). -/
def Bank.start (k : Bank) (op : BankOp) : Bank := { k with running := some ⟨op, true⟩ }

/-- R124: the write queue is heavy. -/
def Part.heavy (p : Part) : Bool := decide (Config.heavyMark ≤ p.writeQueue.length)

/-- R98: the bank accepts its DRAIN offer: the candidate and its frame are fixed in this act. -/
def Part.acceptDrain (p : Part) (b : BankId) : Part :=
  let taken := fun k : Bank => { k with turns := k.turns.filter (· != .drainOffer) }
  match p.candidate b with
  | some e =>
    match p.currentFrame e with
    | some f => p.modBank b fun k => ((taken k).passCopy).start (.drain e f)
    | none => p.modBank b taken
  | none => p.modBank b taken

/-- R122: a bank with no operation in progress accepts the one its arbiter chooses. -/
def Part.acceptAt (p : Part) (b : BankId) : Part :=
  if (p.bank b).running.isSome then p
  else match (p.bank b).choose p.heavy with
    | none => p
    | some (.refresh s) => p.modBank b fun k => ({ k with owed := none }).start (.refresh s)
    | some (.read r) => p.modBank b fun k => (({ k with reads := k.reads.tail }).passCopy).start (.lineRead r)
    | some (.turn .drainOffer) => p.acceptDrain b
    | some (.turn (.wipeStep s f n)) =>
      p.modBank b fun k => (({ k with turns := k.turns.tail }).passCopy).start (.wipeStep s f n)
    | some (.copy c) => p.modBank b fun k => ({ k with copy := none, copyWait := 0 }).start (.copy c)
    | some (.zero f n) => p.modBank b fun k => ({ k with zero := none }).start (.zeroStep f n)
    | some (.scrub f n) => p.modBank b fun k => ({ k with scrub := none }).start (.scrubStep f n)

/-- The LINE READs issued in this act stand behind the older ones (R123). -/
def Bank.admitReads (k : Bank) : Bank := { k with reads := k.reads ++ k.fresh, fresh := [] }

/-- The banks at the end of an act: reads admitted, offers made, and every free bank chooses (R119, log 9). -/
def Part.arbitrate (p : Part) : Part :=
  allBanks.foldl Part.acceptAt (p.modBanks Bank.admitReads).withdrawOffers.makeOffers

/-- The operation in progress at a bank has completed; the bank is free. -/
def Part.freeBank (p : Part) (b : BankId) : Part := p.modBank b fun k => { k with running := none }

/-! ### Refresh (R127, R128) -/

/-- The slot length of a class in quarters of a millisecond: one thirty-second of its window (R127, R131). -/
def ThermalClass.slot : ThermalClass → Nat
  | .freeze => 8
  | .cool => 8
  | .normal => 4
  | .warm => 2
  | .hot => 1
  | .overheat => 1

/-- R127: the cursor advances within the bank's 32 segments. -/
def nextSegment (s : SegId) : SegId := Fin.ofNat 128 (s.val / 32 * 32 + (s.val % 32 + 1) % 32)

/-- R128: in STANDBY and WAKING a masked segment owes no REFRESH. In ACTIVE no masked set is held (R170). -/
def Part.refreshSlot (p : Part) (b : BankId) : Part :=
  p.modBank b fun k =>
    { k with
      owed := if p.power.masked.contains k.cursor then k.owed else some k.cursor
      cursor := nextSegment k.cursor
      slotTimer := some p.thermal.cls.slot }

/-- Every bank's slot timer starts with the slot length of the class held (R129, R174). -/
def Part.startSlots (p : Part) : Part :=
  p.modBanks fun k => { k with slotTimer := some p.thermal.cls.slot }

end Sys2Proof.Machine
end

