-- ==== Sys2Proof/Machine/Access.lean ====
section
/-! DEFINITION. The access unit (05): in-use counts and freeing, READ and VERIFY, WRITE and the write queue, FLUSH. -/

namespace Sys2Proof.Machine

/-! ### In-use count and freeing (R32, R42) -/

/-- R32: a RELEASING region whose in-use count is 0 is freed: its frames leave and the slot becomes UNUSED. -/
def Part.freeRegion (p : Part) (s : SlotId) : Part :=
  match p.region s with
  | some r =>
    if r.state == .releasing && r.inUse == 0 then
      { p with
        pool := p.pool.vacateAll r.frames
        slots := tmod p.slots s fun x => { x with region := none } }
    else p
  | none => p

/-- R42: an access is counted. -/
def Part.countUse (p : Part) (s : SlotId) : Part := p.modRegion s fun r => { r with inUse := r.inUse + 1 }

/-- R42: the count falls by 1; at 0 a RELEASING region is freed (R32). -/
def Part.endUse (p : Part) (s : SlotId) : Part :=
  (p.modRegion s fun r => { r with inUse := r.inUse - 1 }).freeRegion s

/-! ### READ and VERIFY (5.2, 5.3) -/

/-- R87: a READ meets the poison list first, a VERIFY does not (R90); then the range is translated by the frame list as it
stands, and BAD_RANGE answers an access whose entry is gone; otherwise its LINE READ is issued. -/
def Part.proceedRead (p : Part) (c : ClientId) : Part :=
  match p.work c with
  | some (.read verify a _) =>
    match p.region a.handle.slot with
    | none => p.finish c .badRange []
    | some r =>
      match (if verify then none else r.poison.find? (inRange a.offset a.length)) with
      | some x => (p.finish c .uncorrectable (bytes4 x)).endUse a.handle.slot
      | none =>
        match r.frames[a.offset / 1024]? with
        | none => (p.finish c .badRange []).endUse a.handle.slot
        | some f => (p.setWork c (.read verify a .issued)).issueRead ⟨c, f, a.offset % 1024, a.length⟩
  | _ => p

/-- The entries of the write queue that cover a line of an access, by their offsets (R86). -/
def Part.waitSet (p : Part) (a : Access) : List Nat :=
  (p.writeQueue.filter fun e =>
    e.handle.slot == a.handle.slot && overlaps e.offset e.length a.offset a.length).map (·.offset)

/-- R86: a READ or VERIFY enters ordering wait and fixes its wait set; with an empty one it proceeds. -/
def Part.enterOrdering (p : Part) (c : ClientId) : Part :=
  match p.work c with
  | some (.read verify a _) =>
    if (p.waitSet a).isEmpty then p.proceedRead c else p.setWork c (.read verify a (.ordering (p.waitSet a)))
  | _ => p

/-- R86: an entry leaves the wait set of one client's READ or VERIFY, which proceeds when the set empties. -/
def Part.leaveSet (e : Entry) (p : Part) (c : ClientId) : Part :=
  match p.work c with
  | some (.read verify a (.ordering ws)) =>
    if a.handle.slot == e.handle.slot && ws.contains e.offset then
      if (ws.filter (· != e.offset)).isEmpty then p.proceedRead c
      else p.setWork c (.read verify a (.ordering (ws.filter (· != e.offset))))
    else p
  | _ => p

/-! ### FLUSH (R94) -/

/-- R94: no entry carries the client and, for a FLUSH naming a region, its slot. -/
def Part.flushed (p : Part) (c : ClientId) (slot : Option SlotId) : Bool :=
  !(p.writeQueue.any fun e => e.client == c && (slot.isNone || slot == some e.handle.slot))

/-- R94: the test of one client's FLUSH. -/
def Part.testFlush (p : Part) (c : ClientId) : Part :=
  match p.work c with
  | some (.flush slot) => if p.flushed c slot then p.finish c .done [] else p
  | _ => p

/-! ### The write queue (5.4, 5.6) -/

def BankOp.isDrainOf (e : Entry) : BankOp → Bool
  | .drain d _ => d.same e
  | _ => false

/-- An entry leaves the queue (R96, R98): the offers of banks left without a candidate, the in-use count and freeing, the
wait sets, the FLUSHes. -/
def Part.entryLeaves (p : Part) (e : Entry) : Part :=
  let p1 := { p with writeQueue := p.writeQueue.filter fun d => !d.same e }
  let p2 := p1.withdrawOffers.endUse e.handle.slot
  allClients.foldl Part.testFlush (allClients.foldl (Part.leaveSet e) p2)

/-- R96: an entry without a current frame is discarded: nothing is written and no poison offset is removed. A DRAIN of it
that a bank has accepted still completes (R98). -/
def Part.discard (p : Part) (e : Entry) : Part := (p.disown (·.isDrainOf e)).entryLeaves e

/-- R91: a WRITE of the posting list is postable: room in the queue, and no entry covers a line of its range. -/
def Part.postable (p : Part) (c : ClientId) : Bool :=
  match p.work c with
  | some (.write a _ .posting) =>
    decide (p.writeQueue.length < Config.maxWriteQueue) && (p.waitSet a).isEmpty
  | _ => false

/-- R92: a WRITE is posted and answered DONE; its entry is discarded at once if it has no current frame (R96). -/
def Part.post (p : Part) (c : ClientId) : Part :=
  match p.work c with
  | some (.write a payload _) =>
    let e : Entry := ⟨c, a.handle, a.offset, a.length, payload⟩
    let q := ({ p with posting := p.posting.filter (· != c), writeQueue := p.writeQueue ++ [e] }).finish c .done []
    if (q.currentFrame e).isNone then q.discard e else q
  | _ => p

/-- R92: the oldest postable WRITE is posted, again and again; each round takes one WRITE from the list. -/
def postRounds : Nat → Part → Part
  | 0, p => p
  | n + 1, p =>
    match p.posting.find? p.postable with
    | none => p
    | some c => postRounds n (p.post c)

def Part.postWrites (p : Part) : Part := postRounds p.posting.length p

/-- R91: a WRITE joins the posting list. -/
def Part.joinPosting (p : Part) (c : ClientId) : Part :=
  match p.work c with
  | some (.write a payload _) =>
    ({ p.setWork c (.write a payload .posting) with posting := p.posting ++ [c] }).postWrites
  | _ => p

/-- R96, R53: every entry without a current frame is discarded, in queue order, then postings are made (R92). The rule lists no
order for the responses of one such act: those of an entry's discard stand behind those of the entries before it (log 32). -/
def Part.discardHomeless (p : Part) : Part :=
  ((p.writeQueue.filter fun e => (p.currentFrame e).isNone).foldl Part.discard p).postWrites

/-- R98 points 1 to 6: a DRAIN has completed. -/
def Part.drained (p : Part) (e : Entry) : Part :=
  ((p.modRegion e.handle.slot fun r => { r with poison := r.poison.filter fun x => !inRange e.offset e.length x })
    |>.entryLeaves e).postWrites

/-! ### Wipe hold (R34, R86, R91) -/

/-- The region of the access a client executes. -/
def Part.accessSlot (p : Part) (c : ClientId) : Option SlotId :=
  match p.work c with
  | some (.read _ a _) => some a.handle.slot
  | some (.write a _ _) => some a.handle.slot
  | _ => none

/-- An access leaves wipe hold: a READ or VERIFY enters ordering wait, a WRITE joins the posting list. -/
def Part.leaveHold (p : Part) (c : ClientId) : Part :=
  match p.work c with
  | some (.read _ _ _) => p.enterOrdering c
  | some (.write _ _ _) => p.joinPosting c
  | _ => p

/-- Whether a client's access names one of these slots. -/
def Part.accesses (p : Part) (slots : List SlotId) (c : ClientId) : Bool :=
  match p.accessSlot c with
  | some s => slots.contains s
  | none => false

/-- R86, R91: the accesses that waited for the WIPEs of these regions go on in one act, in the order they were taken, whichever
of the regions they name (log 16). -/
def Part.endHolds (p : Part) (slots : List SlotId) : Part :=
  (p.wipeHold.filter (p.accesses slots)).foldl Part.leaveHold
    { p with wipeHold := p.wipeHold.filter fun c => !p.accesses slots c }

/-- R86, R91: the accesses that waited for one region's WIPE go on. -/
def Part.endHold (p : Part) (s : SlotId) : Part := p.endHolds [s]

/-! ### Taking the four accesses (5.1) -/

/-- R86, R90: READ and VERIFY: the checks, the count, wipe hold or ordering wait. -/
def Part.takeRead (p : Part) (c : ClientId) (code tag : Byte) (verify : Bool) (h : Handle) (offset length : Nat) : Part :=
  match p.judgeAccess c h false offset length with
  | .error st => p.answer c code tag st []
  | .ok (rh, r) =>
    let a : Access := ⟨rh, offset, length⟩
    let q := (p.countUse rh.slot).execute c tag (.read verify a .wipeHold)
    if r.wipe.isSome then { q with wipeHold := q.wipeHold ++ [c] } else q.enterOrdering c

/-- R91: WRITE: the checks, the count, wipe hold or the posting list. -/
def Part.takeWrite (p : Part) (c : ClientId) (code tag : Byte) (h : Handle) (offset length : Nat)
    (payload : List Byte) : Part :=
  match p.judgeAccess c h true offset length with
  | .error st => p.answer c code tag st []
  | .ok (rh, r) =>
    let a : Access := ⟨rh, offset, length⟩
    let q := (p.countUse rh.slot).execute c tag (.write a payload .wipeHold)
    if r.wipe.isSome then { q with wipeHold := q.wipeHold ++ [c] } else q.joinPosting c

/-- R94: FLUSH: the checks of a handle, then the test. -/
def Part.takeFlush (p : Part) (c : ClientId) (code tag : Byte) : FlushSelector → Part
  | .all => (p.execute c tag (.flush none)).testFlush c
  | .handle h =>
    match p.judgeFlush c h with
    | .error st => p.answer c code tag st []
    | .ok rh => (p.execute c tag (.flush (some rh.slot))).testFlush c

/-! ### The end of a READ or VERIFY (R88, R90), and an eviction (R102) -/

/-- R88, R90: the lowest offset of the range that the LINE READ found uncorrectable or that the poison list holds. -/
def firstUncorrectable (a : Access) (conditions : List LineCondition) (poison : List Nat) : Option Nat :=
  (List.range a.length).find? (fun k =>
    conditionAt conditions k == .uncorrectable || poison.contains (a.offset + k)) |>.map (a.offset + ·)

/-- R90, R191: the body of a VERIFY's response. -/
def verifyBody (corrected : Nat) (first : Option Nat) : List Byte :=
  [byte corrected, flagByte first.isSome] ++ bytes4 (first.getD 0)

/-- R88, R90: a READ or VERIFY is answered and its in-use count falls. -/
def Part.answerRead (p : Part) (c : ClientId) (conditions : List LineCondition) (data : List Byte) : Part :=
  match p.work c with
  | some (.read verify a _) =>
    let poison := match p.region a.handle.slot with
      | some r => r.poison
      | none => []
    let first := firstUncorrectable a conditions poison
    let body :=
      if verify then verifyBody (linesFound .corrected conditions a.length).length first
      else match first with
        | some x => bytes4 x
        | none => data
    (p.finish c (if first.isSome then .uncorrectable else .done) body).endUse a.handle.slot
  | _ => p

/-- R102: an eviction drops an access that is waiting; an issued READ or VERIFY is left to complete. -/
def Part.dropAccess (p : Part) (c : ClientId) : Part :=
  let q := { p with wipeHold := p.wipeHold.filter (· != c), posting := p.posting.filter (· != c) }
  match p.work c with
  | some (.write a _ _) => ((q.finish c .aborted []).endUse a.handle.slot).postWrites
  | some (.read _ a .wipeHold) => (q.finish c .aborted []).endUse a.handle.slot
  | some (.read _ a (.ordering _)) => (q.finish c .aborted []).endUse a.handle.slot
  | some (.flush _) => q.finish c .aborted []
  | _ => p

/-- R54, R87: a shrink withdraws the unaccepted LINE READ of an access it has left without an entry; BAD_RANGE. -/
def Part.cutRead (s : SlotId) (p : Part) (c : ClientId) : Part :=
  match p.work c with
  | some (.read _ a .issued) =>
    match p.region s with
    | some r =>
      if a.handle.slot == s && decide (r.lines < a.offset + a.length) && p.readWaits c then
        ((p.withdrawRead c).finish c .badRange []).endUse s
      else p
    | none => p
  | _ => p

end Sys2Proof.Machine
end

