-- ==== Sys2Proof/Machine/Retirement.lean ====
section
/-! DEFINITION. The retirement unit (08 8.1, 8.2): frame health, the doomed flag, the retire queue, reports of lines. -/

namespace Sys2Proof.Machine

/-! ### Where a frame stands (R24, R38) -/

/-- A frame's place in the frame list of the region its region field names: slot, region, entry. -/
structure Place where
  slot : SlotId
  region : Region
  entry : Nat
  deriving DecidableEq, Repr

/-- R24: the entry of a frame list that holds a frame; none for a frame of a pending extension, for a TARGET and for a
frame that belongs to no region. -/
def Part.placeOf (p : Part) (f : FrameId) : Option Place :=
  (p.frame f).region.bind fun s =>
    (p.region s).bind fun r => (r.frames.findIdx? (· == f)).map fun i => ⟨s, r, i⟩

/-! ### The retire queue (R139, R141, R142) -/

/-- R141: a frame qualifies for the retire queue. -/
def Part.qualifies (p : Part) (f : FrameId) : Bool :=
  (p.frame f).doomed && (p.frame f).state == .held && !p.retire.queue.contains f &&
    (match p.placeOf f with
     | some x => x.region.state != .releasing
     | none => false)

def Part.setQueue (p : Part) (q : List FrameId) : Part := { p with retire := { p.retire with queue := q } }

def Part.setEngine (p : Part) (e : EngineState) : Part := { p with retire := { p.retire with engine := e } }

/-- R141: a frame that has come to qualify joins at the tail while the queue holds fewer than 16. -/
def Part.joinQueue (p : Part) (f : FrameId) : Part :=
  if p.qualifies f && decide (p.retire.queue.length < Config.maxRetireQueue) then
    p.setQueue (p.retire.queue ++ [f])
  else p

/-- R141: the waiting doomed frames, ascending: every frame that qualifies and is not in the queue. -/
def Part.waitingDoomed (p : Part) : List FrameId :=
  (indices (fun _ g => g.doomed && g.state == .held) p.pool.frames).filter p.qualifies

/-- R141: waiting doomed frames join a queue that has lost a frame, in ascending number, until it holds 16. -/
def Part.refillQueue (p : Part) : Part :=
  p.setQueue (p.retire.queue ++ p.waitingDoomed.take (Config.maxRetireQueue - p.retire.queue.length))

/-- R142: frames leave the retire queue. -/
def Part.leaveQueue (p : Part) (fs : List FrameId) : Part :=
  p.setQueue (p.retire.queue.filter fun f => !fs.contains f)

/-- R139: a CLAIMED or HELD frame is doomed; a HELD frame of a frame list joins the queue at once. -/
def Part.doom (p : Part) (f : FrameId) : Part :=
  (p.modFrame f fun g => { g with doomed := true }).joinQueue f

/-- Whether the doomed flag can be set on a frame: CLAIMED or HELD and not yet doomed (R137, R138). -/
def Frame.condemnable (g : Frame) : Bool := (g.state == .claimed || g.state == .held) && !g.doomed

/-! ### Health reports (R136 to R138) -/

/-- The frames not in RETIRED. -/
def Pool.inService (p : Pool) : List Frame := p.frames.toList.filter fun g => g.state != .retired

/-- R137: the floor mean; 0 if every frame is RETIRED. -/
def Pool.floorMean (p : Pool) : Nat := ((p.inService.map (·.corrected)).sum) / p.inService.length

/-- R137: the two retirement tests. -/
def Part.failsTests (p : Part) (g : Frame) : Bool :=
  decide (p.retire.threshold ≤ g.corrected) ||
    (p.retire.margin != 0 && decide (p.pool.floorMean + p.retire.margin ≤ g.corrected))

/-- The largest value of the two part-wide totals and of the scrub pass count (R136, R143). -/
def fourByteLimit : Nat := 4294967295

/-- R136, R137: a corrected line. -/
def Part.reportCorrected (p : Part) (f : FrameId) (line : Nat) : Part :=
  let p1 := (p.modFrame f fun g =>
    { g with corrected := saturate 65535 (g.corrected + 1), lastCorrected := some line })
  let p2 := { p1 with retire := { p1.retire with
    totalCorrected := saturate fourByteLimit (p1.retire.totalCorrected + 1) } }
  if (p2.frame f).condemnable && p2.failsTests (p2.frame f) then p2.doom f else p2

/-- An offset inserted in ascending place (R38). -/
def insertOffset (x : Nat) : List Nat → List Nat
  | [] => [x]
  | y :: ys => if x < y then x :: y :: ys else y :: insertOffset x ys

/-- R38, R29: the region table receives an uncorrectable line at an offset of a region. -/
def Part.damage (p : Part) (x : Place) (offset : Nat) : Part :=
  if x.region.state == .releasing || x.region.poison.contains offset then p
  else if x.region.poison.length < Config.maxPoison then
    (p.modRegion x.slot fun r => { r with poison := insertOffset offset r.poison }).notifyAll .damage x.region.audience
  else if x.region.state == .live || x.region.state == .locked then
    (p.modRegion x.slot fun r => { r with state := .faulted }).notifyAll .fault x.region.audience
  else p

/-- R136, R138: an uncorrectable line, judged by the state at the report. So is a line read by an operation accepted before a
soft reset whose frame a GRANT has taken since: it dooms that frame and adds its offset to the new region (log 34). -/
def Part.reportUncorrectable (p : Part) (f : FrameId) (line : Nat) : Part :=
  let p1 := p.modFrame f fun g => { g with uncorrectable := saturate 255 (g.uncorrectable + 1) }
  let p2 := { p1 with retire := { p1.retire with
    totalUncorrectable := saturate fourByteLimit (p1.retire.totalUncorrectable + 1) } }
  let p3 := if (p2.frame f).condemnable then p2.doom f else p2
  match p3.placeOf f with
  | some x => p3.damage x (1024 * x.entry + line)
  | none => p3

/-- R136: one line of a report. -/
def Part.reportLine (f : FrameId) (line : Nat) (conditions : List LineCondition) (p : Part) (k : Nat) : Part :=
  match conditionAt conditions k with
  | .good => p
  | .corrected => p.reportCorrected f (line + k)
  | .uncorrectable => p.reportUncorrectable f (line + k)

/-- R136: the n lines an operation read from a line on are reported in ascending order. -/
def Part.reportLines (p : Part) (f : FrameId) (line n : Nat) (conditions : List LineCondition) : Part :=
  (List.range n).foldl (Part.reportLine f line conditions) p

end Sys2Proof.Machine
end

