-- ==== Sys2Proof/Machine/Migration.lean ====
section
/-! DEFINITION. The scrub engine (08 8.3) and the migration engine (08 8.4). -/

namespace Sys2Proof.Machine

/-! ### The scrub engine (R143 to R147) -/

/-- R133: the scrub interval is halved in WARM, HOT and OVERHEAT. -/
def ThermalClass.scrubUnit : ThermalClass → Nat
  | .freeze => 100
  | .cool => 100
  | .normal => 100
  | .warm => 50
  | .hot => 50
  | .overheat => 50

/-- R143: the interval timer starts, with a length taken from the interval and the class then held; at interval 0 it does
not run. -/
def Part.startScrubTimer (p : Part) : Part :=
  { p with scrub := { p.scrub with
    timer := if p.scrub.interval == 0 then none else some (p.scrub.interval * p.thermal.cls.scrubUnit) } }

/-- Whether a region is LOST, by its slot. -/
def Part.lostAt (p : Part) (s : Option SlotId) : Bool :=
  match s.bind p.region with
  | some r => r.state == .lost
  | none => false

/-- R144: a frame the engine may scrub: HELD, no migration source, its region not LOST. -/
def Part.scrubbable (p : Part) (f : FrameId) : Bool :=
  (p.frame f).state == .held && !p.isSource f && !p.lostAt (p.frame f).region

/-- R144: the next frame to scrub: from the cursor upward, then from 0. -/
def Part.nextScrub (p : Part) : Option FrameId :=
  let fs := (p.pool.framesIn .held).filter p.scrubbable
  match fs.find? fun f => decide (p.scrub.cursor ≤ f) with
  | some f => some f
  | none => fs.head?

/-- R144: the laps that taking frame f ends: one if the search wrapped, one if f is 4095. -/
def scrubLaps (cursor f : FrameId) : Nat := (if f < cursor then 1 else 0) + (if f.val = 4095 then 1 else 0)

/-- R144: the interval timer expires. -/
def Part.scrubExpiry (p : Part) : Part :=
  match p.nextScrub with
  | none => p.startScrubTimer
  | some f =>
    ({ p with scrub := { p.scrub with
        cursor := Fin.ofNat 4096 (f.val + 1)
        passes := saturate fourByteLimit (p.scrub.passes + scrubLaps p.scrub.cursor f)
        current := some (f, 0)
        timer := none } }).issueScrub f 0

/-- R146: the engine abandons its current frame: its waiting step is withdrawn, an accepted one counts no more, and the
interval timer starts. -/
def Part.abandonScrub (p : Part) : Part :=
  let p1 := (p.withdrawScrub.disown (·.isScrub))
  ({ p1 with scrub := { p1.scrub with current := none } }).startScrubTimer

/-- R146: the current frame is abandoned when it has left HELD or has become a migration source. -/
def Part.checkScrub (p : Part) : Part :=
  match p.scrub.current with
  | some (f, _) => if (p.frame f).state != .held || p.isSource f then p.abandonScrub else p
  | none => p

/-- R145: a step of the current frame has completed: the next one is issued (in STANDBY it is not, R147), or the frame
is done and the timer starts. -/
def Part.scrubStepped (p : Part) (f : FrameId) (step : Nat) : Part :=
  if step + 1 < Config.stepsPerFrame then
    let p1 := { p with scrub := { p.scrub with current := some (f, step + 1) } }
    if p.running then p1.issueScrub f (step + 1) else p1
  else ({ p with scrub := { p.scrub with current := none } }).startScrubTimer

/-! ### Interruptions and the switch (R151, R153, R158) -/

/-- The engine leaves COPYING; it is IDLE until the evaluation that follows (R148, log 20). -/
def Part.stopCopying (p : Part) : Part := if p.retire.engine == .copying then p.setEngine .idle else p

/-- R153, R158: the migration of a region is aborted and its target becomes DIRTY, or RETIRED when RETIRE named it. -/
def Part.abortMigration (p : Part) (s : SlotId) (st : FrameState) : Part :=
  match (p.region s).bind (·.migration) with
  | none => p
  | some m =>
    ({ (p.modRegion s fun r => { r with migration := none }).endCopy with
        pool := p.pool.leave m.target st }).stopCopying

/-- R151: the switch: the target stands in the source's entry and is HELD; the source is RETIRED and leaves the queue. -/
def Part.switch (p : Part) (s : SlotId) (m : Migration) : Part :=
  match p.region s with
  | none => p
  | some r =>
    let p1 := p.modRegion s fun r => { r with frames := r.frames.set m.index m.target, migration := none }
    (({ p1 with pool := (p.pool.enter m.target .held s r.cls).leave m.source .retired }).leaveQueue
      [m.source]).stopCopying

/-- R154: a wake that makes the region LOST puts the target in the source's place at once. -/
def Part.abortAtWake (p : Part) (s : SlotId) : Part :=
  match (p.region s).bind (·.migration) with
  | none => p
  | some m => p.endCopy.switch s m

/-! ### Evaluation and selection (R148, R149, R152) -/

/-- R149: the target for a head of class k: the lowest fitting SPARE frame, else the lowest fitting FREE frame. -/
def Pool.target (p : Pool) (k : RegionClass) : Option FrameId :=
  match p.lowestFitting .spare k with
  | some t => some t
  | none => p.lowestFitting .free k

/-- R149: the act of selection: TARGET, the migration field, held entries, the scrub engine, the spare pool; then the first
COPY STEP, or the switch at once for a LOST region (R152). R149 and R158 have COPY STEP 0 issued in this act, while R126 has the
next COPY STEP issued after the previous one completes: a step that a bank accepted for an ended migration may still be in
progress. DESIGN CHOICE: step 0 is issued at once, and R126's order is that of the steps of one migration (log 35). -/
def Part.selectTarget (p : Part) (x : Place) (f t : FrameId) : Part :=
  let m : Migration := ⟨x.entry, f, t, 0⟩
  let p1 := { p with pool := p.pool.enter t .target x.slot x.region.cls }
  let p2 := (p1.modRegion x.slot fun r => { r with migration := some m }).setEngine .copying
  let p3 := (p2.withdrawOffers.checkScrub).settleSpare p.pool
  if x.region.state == .lost then p3.switch x.slot m else p3.issueCopy f t 0

/-- R148, R149: no frame fits; RESERVE is set when the engine comes from another state. -/
def Part.lackTarget (p : Part) : Part :=
  (if p.retire.engine == .noTarget then p else p.notify .reserve 0).setEngine .noTarget

/-- R148: the engine evaluates the head. -/
def Part.evaluateHead (p : Part) : Part :=
  match p.retire.queue with
  | [] => p.setEngine .idle
  | f :: _ =>
    match p.placeOf f with
    | none => p
    | some x =>
      if x.region.wipe.isSome then p.setEngine .blocked
      else match p.pool.target x.region.cls with
        | none => p.lackTarget
        | some t => p.selectTarget x f t

/-- R148, R152: evaluations follow one another while heads of LOST regions are replaced. -/
def evaluateRounds : Nat → Part → Part
  | 0, p => p
  | n + 1, p =>
    if p.retire.engine == .copying then p
    else
      let q := p.evaluateHead
      if q.retire.queue.head? == p.retire.queue.head? then q else evaluateRounds n q.refillQueue

/-- R148: while ACTIVE, an engine that is not COPYING evaluates. The rounds are bounded by the doomed frames. -/
def Part.evaluate (p : Part) : Part :=
  if p.running then evaluateRounds (tcount (·.doomed) p.pool.frames + 1) p.refillQueue else p.refillQueue

/-- R150: a COPY STEP of the migration in flight has completed: the cursor rises; the switch, or the next step (none is
issued outside ACTIVE, R155). -/
def Part.copyStepped (p : Part) : Part :=
  match p.migration with
  | none => p
  | some (s, m) =>
    let m' := { m with cursor := m.cursor + Config.linesPerStep }
    let p1 := p.modRegion s fun r => { r with migration := some m' }
    if m'.cursor < Config.linesPerFrame then
      if p.running then p1.issueCopy m.source m.target (m'.cursor / Config.linesPerStep) else p1
    else p1.switch s m'

/-! ### WIPE and the migration (R64, R154) -/

/-- R64: when a WIPE's wait ends, the migration of its region is aborted, and the source is replaced by the lowest
fitting SPARE frame or moved from the head to the tail. -/
def Part.settleForWipe (p : Part) (s : SlotId) : Part :=
  match p.region s with
  | none => p
  | some r =>
    match r.migration with
    | none => p
    | some m =>
      let p1 := p.abortMigration s .dirty
      match p1.pool.lowestFitting .spare r.cls with
      | some t =>
        let p2 := p1.modRegion s fun r => { r with frames := r.frames.set m.index t }
        (({ p2 with pool := (p1.pool.enter t .held s r.cls).leave m.source .retired }).leaveQueue
          [m.source]).settleSpare p1.pool
      | none => p1.setQueue ((p1.retire.queue.filter (· != m.source)) ++ [m.source])

end Sys2Proof.Machine
end

