-- ==== Sys2Proof/Machine/Regions.lean ====
section
/-! DEFINITION. The region table at work (02, 03): waits and their ends, the release of a region, the shrink, WIPE. -/

namespace Sys2Proof.Machine

/-! ### Waits (R47, R51, R65, R77) -/

/-- R191: the body of the DONE response to a waiting GRANT, RESIZE or WIPE. -/
def Part.waitBody (p : Part) : Wait → List Byte
  | .fill s =>
    match p.region s with
    | some r => (RegionHandle.mk s (p.generation s)).bytes ++ [byte r.frames.length, r.cls.code]
    | none => []
  | .extension s =>
    match p.region s with
    | some r => [byte r.frames.length]
    | none => []
  | .wipe _ => []

/-- The handle of a BATCH_CLOSE result as the response gives it. While the region lives, the generation that its GRANT gave is
the slot's, as R47, R77, R78 and R190 have it alike. For a region released since they differ, and a free value decides which
of the two generations stands in the response (log 28). -/
def Part.returnedHandle (p : Part) (h : RegionHandle) : RegionHandle :=
  if p.generation h.slot != h.generation && Config.releasedHandleIsCurrent then ⟨h.slot, p.generation h.slot⟩ else h

/-- R191: one result of a BATCH_CLOSE: a status and a handle, two bytes of zero where there is none. -/
def BatchResult.bytes (p : Part) (r : BatchResult) : List Byte :=
  r.status.code :: (match r.handle with
    | some h => (p.returnedHandle h).bytes
    | none => [0, 0])

/-- R191: the body of the DONE response to BATCH_CLOSE, from the part as it stands when the response is made. -/
def Part.batchBody (p : Part) (rs : List BatchResult) : List Byte := byte rs.length :: rs.flatMap (BatchResult.bytes p)

/-- A result whose wait has ended with a status (R77, R78). -/
def BatchResult.resolve (w : Wait) (st : Status) (r : BatchResult) : BatchResult :=
  if r.wait == some w then { r with status := st, wait := none } else r

/-- The wait of one client's request is over: DONE with its body, or ABORTED without one; a BATCH_CLOSE is answered when
its last wait is over (R77, R78). -/
def Part.endWait (w : Wait) (st : Status) (p : Part) (c : ClientId) : Part :=
  match p.work c with
  | some (.waiting x) =>
    if x == w then p.finish c st (if st == .done then p.waitBody w else []) else p
  | some (.batchClose rs) =>
    let rs' := rs.map (BatchResult.resolve w st)
    if rs'.all fun r => r.wait.isNone then p.finish c .done (p.batchBody rs') else p.setWork c (.batchClose rs')
  | _ => p

/-- What waited for a fill, an extension or a WIPE is told its end. -/
def Part.resolveWait (p : Part) (w : Wait) (st : Status) : Part := allClients.foldl (Part.endWait w st) p

/-! ### Release (R30, R31) -/

/-- R30, points 1 to 8: the slot enters RELEASING. -/
def Part.enterReleasing (p : Part) (s : SlotId) (r : Region) : Part :=
  let p1 := { p with slots := tmod p.slots s fun x => { x with generation := x.generation + 1 } }
  let p2 := (p1.abortMigration s .dirty).endWipeSteps s
  let p3 := ({ p2 with
    pool := p2.pool.vacateAll (r.extension.getD [])
    fills := p2.fills.filter fun x => x.slot != s }).leaveQueue r.frames
  (p3.modRegion s fun x =>
    { x with state := .releasing, lease := none, wipe := none, extension := none, access := [] }).notifyAll
      .revoked r.matchSet

/-- R31: the requests that waited on the region end ABORTED. -/
def Part.abortWaits (p : Part) (s : SlotId) : Part :=
  ((p.resolveWait (.fill s) .aborted).resolveWait (.extension s) .aborted).resolveWait (.wipe s) .aborted

/-- R31, R32: the requests that waited on the region end ABORTED, its wipe hold ends, and it is freed if nothing uses it. -/
def Part.endRelease (p : Part) (s : SlotId) : Part := ((p.abortWaits s).endHold s).freeRegion s

/-- R30: a release; `expired` for the expiry of the lease, which tells the owner (point 9). -/
def Part.releaseRegion (p : Part) (s : SlotId) (expired : Bool) : Part :=
  match p.region s with
  | none => p
  | some r =>
    if r.state == .releasing then p
    else
      let p1 := p.enterReleasing s r
      (if expired then p1.notify .leaseExpired r.owner else p1).endRelease s

/-- R30, R31: one of the releases of an act, but for the end of its wipe hold and its freeing. -/
def Part.beginRelease (p : Part) (s : SlotId) : Part :=
  match p.region s with
  | none => p
  | some r => if r.state == .releasing then p else (p.enterReleasing s r).abortWaits s

/-- R30, R107: the releases of one act, in the order given. The accesses that their wipe holds let go join in the order they
were taken, across the regions, since R91 has it so for one act (log 16); then what nothing uses is freed. -/
def Part.releaseRegions (p : Part) (slots : List SlotId) : Part :=
  slots.foldl Part.freeRegion ((slots.foldl Part.beginRelease p).endHolds slots)

/-! ### Shrink (R53, R54) -/

/-- R53: the entries from m on leave the frame list, with their poison offsets, queue places and migration; accesses and
entries meet it as R54 says: the LINE READs cut off are answered before the discarded entries' requests (log 32). -/
def Part.shrink (p : Part) (s : SlotId) (m : Nat) : Part :=
  match p.region s with
  | none => p
  | some r =>
    let removed := r.frames.drop m
    let p1 := match r.migration with
      | some g => if m ≤ g.index then p.abortMigration s .dirty else p
      | none => p
    let p2 := ({ p1 with pool := p1.pool.vacateAll removed }).leaveQueue removed
    let p3 := p2.modRegion s fun x =>
      { x with frames := x.frames.take m, poison := x.poison.filter fun o => decide (o < 1024 * m) }
    (allClients.foldl (Part.cutRead s) p3.withdrawOffers).discardHomeless

/-! ### WIPE (R63 to R65) -/

/-- Whether a client's access of a region was taken before the region's WIPE and has neither ended nor been posted: an
access in wipe hold was taken after it (R63). -/
def Part.usesBefore (p : Part) (s : SlotId) (c : ClientId) : Bool :=
  match p.work c with
  | some (.read _ a ph) => a.handle.slot == s && ph != .wipeHold
  | some (.write a _ ph) => a.handle.slot == s && ph != .wipeHold
  | _ => false

/-- R63: the wait of a WIPE is over. -/
def Part.wipeReady (p : Part) (s : SlotId) : Bool :=
  !(allClients.any (p.usesBefore s)) && !(p.writeQueue.any fun e => e.handle.slot == s)

/-- R64: the first WIPE STEP of an entry is issued. -/
def Part.wipeEntry (p : Part) (s : SlotId) (entry step : Nat) : Part :=
  match (p.region s).bind fun r => r.frames[entry]? with
  | some f => (p.modRegion s fun r => { r with wipe := some (.zeroing entry step) }).issueWipe s f step
  | none => p

/-- R64: a WIPE whose wait is over settles the migration and issues its first step. -/
def Part.startWipe (p : Part) (s : SlotId) : Part :=
  match p.region s with
  | some r =>
    if r.wipe == some .waiting && p.wipeReady s then (p.settleForWipe s).wipeEntry s 0 0 else p
  | none => p

/-- R63: the waits of the WIPEs are tested. Where several end in one act, they settle and issue their first steps in
ascending slot (log 30). -/
def Part.testWipes (p : Part) : Part :=
  (p.slotsWhere fun r => r.wipe == some .waiting).foldl Part.startWipe p

/-- R65: the last WIPE STEP has completed. -/
def Part.completeWipe (p : Part) (s : SlotId) : Part :=
  ((p.modRegion s fun r =>
    { r with
      poison := []
      wipe := none
      state := if r.state == .faulted || r.state == .lost then .live else r.state }).resolveWait
        (.wipe s) .done).endHold s

/-- R64, R65: a WIPE STEP has completed: the next step, the next entry, or the end. -/
def Part.wipeStepped (p : Part) (s : SlotId) : Part :=
  match p.region s with
  | some r =>
    match r.wipe with
    | some (.zeroing entry step) =>
      if step + 1 < Config.stepsPerFrame then p.wipeEntry s entry (step + 1)
      else if entry + 1 < r.frames.length then p.wipeEntry s (entry + 1) 0
      else p.completeWipe s
    | _ => p
  | none => p

end Sys2Proof.Machine
end

