-- ==== Sys2Proof/Machine/Zeroing.lean ====
section
/-! DEFINITION. The zeroing engine (01 1.5). -/

namespace Sys2Proof.Machine

/-- The frames of a fill in their order: a frame list or a pending extension (R16). -/
def Part.fillFrames (p : Part) (x : Fill) : List FrameId :=
  match p.region x.slot with
  | some r => if x.extension then r.extension.getD [] else r.frames
  | none => []

/-- The CLAIMED frames of a fill in their order. -/
def Part.fillClaimed (p : Part) (x : Fill) : List FrameId :=
  (p.fillFrames x).filter fun f => (p.frame f).state == .claimed

/-- R16: the engine's choice: the first CLAIMED frame of the oldest fill that has one, else the lowest DIRTY frame. -/
def Part.zeroChoice (p : Part) : Option FrameId :=
  match p.fills.findSome? fun x => (p.fillClaimed x).head? with
  | some f => some f
  | none => (p.pool.framesIn .dirty).head?

/-- A frame becomes current at a step, which is issued. -/
def Part.zeroFrom (p : Part) (f : FrameId) (step : Nat) : Part :=
  ({ p with zero := ⟨some f, step⟩ }).issueZero f step

/-- R16, R20: an engine without a current frame selects one while the part is ACTIVE. -/
def Part.selectZero (p : Part) : Part :=
  if p.running && p.zero.current.isNone then
    match p.zeroChoice with
    | some f => p.zeroFrom f 0
    | none => p
  else p

/-- R18: the current frame is abandoned when it has become RETIRED. -/
def Part.checkZero (p : Part) : Part :=
  match p.zero.current with
  | some f => if (p.frame f).state == .retired then ({ p with zero := ⟨none, 0⟩ }).endZero f else p
  | none => p

/-- R19: a fill has no CLAIMED frame left: the region becomes LIVE, or its extension is appended and its doomed frames
join the retire queue in order (R51). What waited for it is answered. -/
def Part.completeFill (p : Part) (x : Fill) : Part :=
  let p1 := { p with fills := p.fills.filter (· != x) }
  if x.extension then
    let ext := p1.fillFrames x
    ((ext.foldl Part.joinQueue (p1.modRegion x.slot fun r =>
      { r with frames := r.frames ++ r.extension.getD [], extension := none }))).resolveWait (.extension x.slot) .done
  else (p1.modRegion x.slot fun r => { r with state := .live }).resolveWait (.fill x.slot) .done

/-- R19: the fills that hold no CLAIMED frame are complete. -/
def Part.completeFills (p : Part) : Part :=
  (p.fills.filter fun x => (p.fillClaimed x).isEmpty).foldl Part.completeFill p

/-- R17: a CLAIMED frame becomes HELD; a doomed one of a frame list joins the retire queue. -/
def Part.claimZeroed (p : Part) (f : FrameId) : Part :=
  ((p.modFrame f fun g => { g with state := .held }).joinQueue f).completeFills

/-- R17: the last ZERO STEP of the current frame has completed. -/
def Part.frameZeroed (p : Part) (f : FrameId) : Part :=
  let p1 := { p with zero := ⟨none, 0⟩ }
  match (p1.frame f).state with
  | .dirty => { p1 with pool := p1.pool.refill f }
  | .claimed => p1.claimZeroed f
  | _ => p1

/-- 1.5, R20: a step of the current frame has completed: the next one is issued (none while paused), or the frame is
done. -/
def Part.zeroStepped (p : Part) (f : FrameId) (step : Nat) : Part :=
  if step + 1 < Config.stepsPerFrame then
    if p.running then p.zeroFrom f (step + 1) else { p with zero := ⟨some f, step + 1⟩ }
  else p.frameZeroed f

/-- Whether the engine's step waits or runs at a bank. -/
def Part.zeroAtBank (p : Part) : Bool :=
  p.banks.toList.any fun k => k.zero.isSome || (match k.running with
    | some ⟨.zeroStep _ _, true⟩ => true
    | _ => false)

/-- R20, R171: at the return from STANDBY the engine goes on at the next step, or begins a frame of a masked segment
again. -/
def Part.resumeZero (p : Part) (masked : List SegId) : Part :=
  match p.zero.current with
  | none => p
  | some f =>
    if masked.contains (segmentOf f) then (p.endZero f).zeroFrom f 0
    else if p.zeroAtBank then p
    else p.zeroFrom f p.zero.step

/-! ### What the engines make of an act's changes -/

/-- In the act of a change: WIPE waits end (R64), the zeroing engine gives up a RETIRED frame (R18), the retire queue is
refilled and the migration engine evaluates (R141, R148). -/
def Part.react (p : Part) : Part := p.testWipes.checkZero.evaluate

end Sys2Proof.Machine
end

