-- ==== Sys2Proof/Machine/Commands.lean ====
section
/-! DEFINITION. The region commands (03): the nine that a batch may stage, judged and applied once for both uses, and
RENEW, DESCRIBE and LIST. -/

namespace Sys2Proof.Machine

/-- What a region command that passes its checks leaves: the part, the body of a response that leaves at once, the handle
of a GRANT, and what the command still waits for (R47, R51, R62). -/
structure Applied where
  part : Part
  body : List Byte
  handle : Option RegionHandle
  wait : Option Wait

/-- A command that ends at once without a body. -/
def Applied.plain (p : Part) : Applied := ⟨p, [], none, none⟩

/-! ### GRANT (R46, R47, R23) -/

/-- R46 point 3: a lease requested with a period outside 1..3600 s. -/
def leaseOutOfRange : Option Half → Bool
  | some w => decide (w.toNat < 1) || decide (3600 < w.toNat)
  | none => false

/-- R40: a lease of a period, its remaining time full. -/
def Lease.full (period : Nat) : Lease := ⟨period, 1000 * period⟩

/-- R46 point 5, R23: the lowest slot that is UNUSED. -/
def Part.lowestUnused (p : Part) : Option SlotId :=
  (indices (fun _ x => x.region.isNone) p.slots).head?

/-- R23: the record a grant writes. -/
def newRegion (c : ClientId) (k : RegionClass) (frames : List FrameId) (filling : Bool) (lease : Option Half) :
    Region where
  state := if filling then .filling else .live
  owner := c
  cls := k
  frames := frames
  extension := none
  access := []
  lease := lease.map fun w => Lease.full w.toNat
  poison := []
  inUse := 0
  wipe := none
  migration := none

/-- R46, points 1 to 6, in their order. -/
def Part.judgeGrant (p : Part) (c : ClientId) (n : Nat) (lease : Option Half) : Option Status :=
  firstFail
    [(p.thermalLimit, .thermalLimit),
     (n == 0 || decide (Config.maxRegionFrames < n), .tooLarge),
     (leaseOutOfRange lease, .badValue),
     (decide ((p.client c).quota < p.heldFrames c + n), .quota),
     (p.lowestUnused.isNone, .noSlot),
     (p.pool.shortfall, .reserveShort)]

/-- R47: the region is written; it is LIVE at once, or FILLING behind a fill. -/
def Part.placeGrant (p : Part) (c : ClientId) (n : Nat) (k : RegionClass) (lease : Option Half) (s : SlotId)
    (a : Allocation) : Applied :=
  let q := { p with
    pool := a.pool
    fills := if a.fill then p.fills ++ [⟨s, false⟩] else p.fills
    slots := tmod p.slots s fun x => { x with region := some (newRegion c k a.frames a.fill lease) } }
  let h : RegionHandle := ⟨s, p.generation s⟩
  ⟨q, h.bytes ++ [byte n, k.code], some h, if a.fill then some (.fill s) else none⟩

/-- R46, R47: GRANT. -/
def Part.applyGrant (p : Part) (c : ClientId) (size : Byte) (k : RegionClass) (lease : Option Half) :
    Except Status Applied :=
  match p.judgeGrant c size.toNat lease with
  | some st => .error st
  | none =>
    match p.lowestUnused with
    | none => .error .noSlot
    | some s =>
      match p.pool.allocate size.toNat k s with
      | none => .error .noFrames
      | some a => .ok (p.placeGrant c size.toNat k lease s a)

/-! ### RELEASE (R49) -/

/-- R49: RELEASE. -/
def Part.applyRelease (p : Part) (c : ClientId) (h : Handle) : Except Status Applied :=
  match p.judgeCommon c h with
  | .error st => .error st
  | .ok (rh, _) => .ok (.plain (p.releaseRegion rh.slot false))

/-! ### RESIZE (R50, R51, R53) -/

/-- R50 point 1: the states that RESIZE refuses. -/
def RegionState.refusesResize : RegionState → Option Status
  | .locked => some .locked
  | .faulted => some .faulted
  | .lost => some .lost
  | _ => none

/-- R50 point 6, but for the allocator's own refusal. -/
def Part.judgeGrow (p : Part) (r : Region) (m : Nat) : Option Status :=
  firstFail
    [(p.thermalLimit, .thermalLimit),
     (decide (Config.maxRegionFrames < m), .tooLarge),
     (decide ((p.client r.owner).quota < p.heldFrames r.owner + (m - r.frames.length)), .quota),
     (p.pool.shortfall, .reserveShort)]

/-- R51: the frames are appended at once, or form the pending extension behind a fill. -/
def Part.placeGrow (p : Part) (s : SlotId) (m : Nat) (a : Allocation) : Applied :=
  let q : Part := { p with pool := a.pool }
  if a.fill then
    let grown : Part := { q with fills := p.fills ++ [⟨s, true⟩] }
    ⟨grown.modRegion s fun r => { r with extension := some a.frames }, [], none, some (.extension s)⟩
  else ⟨q.modRegion s fun r => { r with frames := r.frames ++ a.frames }, [byte m], none, none⟩

/-- R50: RESIZE. -/
def Part.applyResize (p : Part) (c : ClientId) (h : Handle) (size : Byte) : Except Status Applied :=
  match p.judgeCommon c h with
  | .error st => .error st
  | .ok (rh, r) =>
    let m := size.toNat
    match r.state.refusesResize with
    | some st => .error st
    | none =>
      if r.extension.isSome then .error .busy
      else if m == 0 then .error .badValue
      else if m == r.frames.length then .ok ⟨p, [size], none, none⟩
      else if m < r.frames.length then .ok ⟨p.shrink rh.slot m, [size], none, none⟩
      else match p.judgeGrow r m with
        | some st => .error st
        | none =>
          match p.pool.allocate (m - r.frames.length) r.cls rh.slot with
          | none => .error .noFrames
          | some a => .ok (p.placeGrow rh.slot m a)

/-! ### HANDOVER (R55, R56) -/

/-- R40: the remaining time is set to the full period. -/
def Lease.renew (l : Lease) : Lease := .full l.period

/-- R55, R56, R75: HANDOVER. The quota judges d's held frames with those the region brings, its pending extension
included (R75, R111; log 26). -/
def Part.applyHandover (p : Part) (c : ClientId) (h : Handle) (d : ClientId) : Except Status Applied :=
  match p.judgeCommon c h with
  | .error st => .error st
  | .ok (rh, r) =>
    match firstFail
      [(!(p.client d).attached, .notAttached),
       (d == r.owner, .badValue),
       (decide ((p.client d).quota < p.heldFrames d + r.held), .quota)] with
    | some st => .error st
    | none =>
      .ok (.plain ((p.modRegion rh.slot fun x => { x with owner := d, lease := x.lease.map Lease.renew }).notify
        .handedOver d))

/-! ### SHARE and UNSHARE (R57, R58) -/

/-- Whether an entry has exactly a base and a mask (R35). -/
def AccessEntry.isAt (base mask : Fin 8) (e : AccessEntry) : Bool := e.base == base && e.mask == mask

/-- R57: the entry's right is replaced in its place, or the entry is appended at the tail. -/
def shareEntry (l : List AccessEntry) (e : AccessEntry) : List AccessEntry :=
  if l.any (·.isAt e.base e.mask) then l.map fun x => if x.isAt e.base e.mask then e else x else l ++ [e]

/-- R57: SHARE. -/
def Part.applyShare (p : Part) (c : ClientId) (h : Handle) (base mask : Fin 8) (right : Right) :
    Except Status Applied :=
  match p.judgeCommon c h with
  | .error st => .error st
  | .ok (rh, r) =>
    match firstFail
      [(r.state == .locked && right == .readWrite, .locked),
       (!(r.access.any (·.isAt base mask)) && decide (Config.maxAccessEntries ≤ r.access.length), .listFull)] with
    | some st => .error st
    | none =>
      .ok (.plain (p.modRegion rh.slot fun x => { x with access := shareEntry x.access ⟨base, mask, right⟩ }))

/-- R58: UNSHARE. REVOKED goes to each client that leaves the match set (R37). -/
def Part.applyUnshare (p : Part) (c : ClientId) (h : Handle) (base mask : Fin 8) : Except Status Applied :=
  match p.judgeCommon c h with
  | .error st => .error st
  | .ok (rh, r) =>
    if !(r.access.any (·.isAt base mask)) then .error .notFound
    else
      let r' := { r with access := r.access.filter fun x => !x.isAt base mask }
      .ok (.plain ((p.modRegion rh.slot fun x => { x with access := r'.access }).notifyAll .revoked
        (r.matchSet.filter fun d => !r'.inMatchSet d)))

/-! ### LOCK and UNLOCK (R59, R61) -/

/-- R59: LOCK. -/
def Part.applyLock (p : Part) (c : ClientId) (h : Handle) : Except Status Applied :=
  match p.judgeCommon c h with
  | .error st => .error st
  | .ok (rh, r) =>
    match r.state with
    | .locked => .ok (.plain p)
    | .faulted => .error .faulted
    | .lost => .error .lost
    | _ =>
      match firstFail
        [(r.cls == .volatile, .cls),
         (r.access.any (·.right == .readWrite), .shared),
         (r.extension.isSome, .busy)] with
      | some st => .error st
      | none => .ok (.plain (p.modRegion rh.slot fun x => { x with state := .locked }))

/-- R61: UNLOCK. -/
def Part.applyUnlock (p : Part) (c : ClientId) (h : Handle) : Except Status Applied :=
  match p.judgeCommon c h with
  | .error st => .error st
  | .ok (rh, r) =>
    match r.state with
    | .faulted => .error .faulted
    | .lost => .error .lost
    | .locked =>
      if r.access.isEmpty then .ok (.plain (p.modRegion rh.slot fun x => { x with state := .live }))
      else .error .shared
    | _ => .ok (.plain p)

/-! ### WIPE (R62) -/

/-- R62: WIPE sets wipe pending and waits. -/
def Part.applyWipe (p : Part) (c : ClientId) (h : Handle) : Except Status Applied :=
  match p.judgeCommon c h with
  | .error st => .error st
  | .ok (rh, r) =>
    match firstFail [(r.state == .locked, .locked), (r.extension.isSome, .busy)] with
    | some st => .error st
    | none =>
      .ok ⟨p.modRegion rh.slot fun x => { x with wipe := some .waiting }, [], none, some (.wipe rh.slot)⟩

/-! ### Executing one command (R45) -/

/-- The checks and effects of a stageable command. -/
def Part.apply (p : Part) (c : ClientId) : RegionCommand → Except Status Applied
  | .grant size k lease => p.applyGrant c size k lease
  | .release h => p.applyRelease c h
  | .resize h size => p.applyResize c h size
  | .handover h d => p.applyHandover c h d
  | .share h base mask right => p.applyShare c h base mask right
  | .unshare h base mask => p.applyUnshare c h base mask
  | .lock h => p.applyLock c h
  | .unlock h => p.applyUnlock c h
  | .wipe h => p.applyWipe c h

/-- A region command executed at once: refused, answered DONE, or left waiting. Its own DONE leaves last of the responses
that its effects make (log 17). -/
def Part.serveCommand (p : Part) (c : ClientId) (tag : Byte) (cmd : RegionCommand) : Part :=
  match p.apply c cmd with
  | .error st => p.answer c cmd.code tag st []
  | .ok a =>
    match a.wait with
    | some w => a.part.execute c tag (.waiting w)
    | none => a.part.answer c cmd.code tag .done a.body

/-! ### RENEW (R66) -/

/-- R66: RENEW. -/
def Part.serveRenew (p : Part) (c : ClientId) (tag : Byte) (h : Handle) : Part :=
  match p.judgeCommon c h with
  | .error st => p.answer c 25 tag st []
  | .ok (rh, r) =>
    if r.lease.isNone then p.answer c 25 tag .notLeased []
    else (p.modRegion rh.slot fun x => { x with lease := x.lease.map Lease.renew }).answer c 25 tag .done []

/-! ### DESCRIBE (R67, 11.5) -/

/-- The codes of region states in reports (11.5); 0 stands for UNUSED and is in no report (R192). -/
def RegionState.code : RegionState → Byte
  | .filling => 1
  | .live => 2
  | .locked => 3
  | .faulted => 4
  | .lost => 5
  | .releasing => 6

/-- An entry of an access list as its 3 bytes (11.5). -/
def AccessEntry.bytes (e : AccessEntry) : List Byte := [byte e.base.val, byte e.mask.val, e.right.code]

/-- The CLAIMED frames of a frame list (R67). -/
def Part.claimedIn (p : Part) (fs : List FrameId) : Nat := fs.countP fun f => (p.frame f).state == .claimed

/-- DESCRIBE page 0 (11.5); an absent lease is reported with period and remaining time 0 (log 15). The CLAIMED count is
taken over the frame list alone, without the pending extension (log 29). -/
def Part.describe0 (p : Part) (rh : RegionHandle) (r : Region) : List Byte :=
  rh.bytes ++ [r.state.code, byte r.owner.val, r.cls.code, byte r.frames.length, byte (p.claimedIn r.frames),
    byte (r.extension.getD []).length, byte r.access.length, flagByte r.lease.isSome]
  ++ bytes2 ((r.lease.map (·.period)).getD 0) ++ bytes4 ((r.lease.map (·.remaining)).getD 0)
  ++ [byte r.poison.length, byte r.inUse, flagByte r.wipe.isSome ||| (flagByte r.migration.isSome <<< 1)]
  ++ r.access.flatMap AccessEntry.bytes ++ r.poison.flatMap bytes4

/-- DESCRIBE page 1 (11.5). -/
def Region.describe1 (r : Region) : List Byte :=
  [byte r.frames.length, byte (r.extension.getD []).length, flagByte r.migration.isSome]
  ++ (match r.migration with
      | some m => byte m.index :: (bytes2 m.source.val ++ bytes2 m.target.val ++ bytes2 m.cursor)
      | none => List.replicate 7 0)
  ++ r.frames.flatMap (fun f => bytes2 f.val) ++ (r.extension.getD []).flatMap (fun f => bytes2 f.val)

/-- R67: DESCRIBE. -/
def Part.serveDescribe (p : Part) (c : ClientId) (tag : Byte) (h : Handle) (page : Byte) : Part :=
  match p.resolve h with
  | none => p.answer c 26 tag .notFound []
  | some (rh, r) =>
    match firstFail
      [(!(c == r.owner || r.inMatchSet c || c == 0), .denied),
       (decide (1 < page.toNat), .badValue),
       (page == 1 && c != 0, .notPermitted)] with
    | some st => p.answer c 26 tag st []
    | none => p.answer c 26 tag .done (if page == 0 then p.describe0 rh r else r.describe1)

/-! ### LIST (R68) -/

/-- R68: the slots, ascending, whose match set holds a client. -/
def Part.sharedSlots (p : Part) (c : ClientId) : List SlotId :=
  p.slotsWhere fun r => r.state != .releasing && r.inMatchSet c

/-- The handle of a slot's region as its 2 bytes. -/
def Part.handleBytes (p : Part) (s : SlotId) : List Byte := (RegionHandle.mk s (p.generation s)).bytes

/-- R68: LIST. -/
def Part.serveList (p : Part) (c : ClientId) (tag : Byte) : Part :=
  let own := p.ownedSlots c
  let shared := p.sharedSlots c
  p.answer c 27 tag .done
    ([byte own.length, byte shared.length] ++ (own ++ shared).flatMap p.handleBytes)

end Sys2Proof.Machine
end

