-- ==== Sys2Proof/Machine/Batches.lean ====
section
/-! DEFINITION. Batches (04): opening, staging, closing and dropping. -/

namespace Sys2Proof.Machine

/-! ### Handles of staged commands (R26, R71, R73) -/

/-- The handle field of a command; GRANT has none. -/
def commandHandle : RegionCommand → Option Handle
  | .grant _ _ _ => none
  | .release h => some h
  | .resize h _ => some h
  | .handover h _ => some h
  | .share h _ _ _ => some h
  | .unshare h _ _ => some h
  | .lock h => some h
  | .unlock h => some h
  | .wipe h => some h

/-- A command with its handle field replaced. -/
def mapHandle (f : Handle → Handle) : RegionCommand → RegionCommand
  | .grant size k lease => .grant size k lease
  | .release h => .release (f h)
  | .resize h size => .resize (f h) size
  | .handover h d => .handover (f h) d
  | .share h base mask right => .share (f h) base mask right
  | .unshare h base mask => .unshare (f h) base mask
  | .lock h => .lock (f h)
  | .unlock h => .unlock (f h)
  | .wipe h => .wipe (f h)

def isGrant : RegionCommand → Bool
  | .grant _ _ _ => true
  | _ => false

def isRelease : RegionCommand → Bool
  | .release _ => true
  | _ => false

def isWipe : RegionCommand → Bool
  | .wipe _ => true
  | _ => false

/-- R26, R71: a batch reference is valid in a command staged behind a list when it names a GRANT of that list. -/
def referenceValid (staged : List RegionCommand) (cmd : RegionCommand) : Bool :=
  match commandHandle cmd with
  | some (.batchRef k) => (staged[k.val]?.map isGrant).getD false
  | _ => true

/-! ### Opening, staging, dropping (R70, R71, R80) -/

def Part.setBatch (p : Part) (c : ClientId) (b : Option (List RegionCommand)) : Part :=
  p.modClient c fun k => { k with batch := b }

/-- R70: BATCH_OPEN. -/
def Part.serveBatchOpen (p : Part) (c : ClientId) (tag : Byte) : Part :=
  if (p.client c).batch.isSome then p.answer c 40 tag .batchOpen []
  else (p.setBatch c (some [])).answer c 40 tag .done []

/-- R71: a command is staged, and answered with its position. -/
def Part.stage (p : Part) (c : ClientId) (tag : Byte) (staged : List RegionCommand) (cmd : RegionCommand) : Part :=
  if Config.maxBatch ≤ staged.length then p.answer c cmd.code tag .batchFull []
  else if !referenceValid staged cmd then p.answer c cmd.code tag .notFound []
  else (p.setBatch c (some (staged ++ [cmd]))).answer c cmd.code tag .staged [byte staged.length]

/-- R80: BATCH_DROP. -/
def Part.serveBatchDrop (p : Part) (c : ClientId) (tag : Byte) : Part :=
  if (p.client c).batch.isSome then (p.setBatch c none).answer c 42 tag .done []
  else p.answer c 42 tag .noBatch []

/-! ### Closing (R73 to R77) -/

/-- A close under way: the part with the effects so far, the results so far, the slots on which a position set wipe
pending. -/
structure Closing where
  part : Part
  results : List BatchResult
  wiped : List SlotId

/-- R73: a batch reference stands for the handle that the GRANT at its position produced. -/
def Closing.resolve (k : Closing) : Handle → Handle
  | .batchRef n =>
    match k.results[n.val]?.bind (·.handle) with
    | some h => .region h
    | none => .batchRef n
  | .region h => .region h

/-- The slot a resolved command names. -/
def namedSlot (cmd : RegionCommand) : Option SlotId :=
  match commandHandle cmd with
  | some (.region h) => some h.slot
  | _ => none

/-- R75 point 1: the command names a region on which an earlier position set wipe pending. -/
def Closing.namesWiped (k : Closing) (cmd : RegionCommand) : Bool :=
  match namedSlot cmd with
  | some s => k.wiped.contains s
  | none => false

/-- A position has passed: its effects, its result, and what it does to earlier results: a RELEASE ends the extension of
an earlier RESIZE, whose result becomes ABORTED (R75, R77). A GRANT's result keeps the handle that the GRANT produced (R77, R78);
what the response gives of it is Part.returnedHandle. -/
def Closing.advance (k : Closing) (cmd : RegionCommand) (a : Applied) : Closing :=
  let slot := namedSlot cmd
  let earlier :=
    match (if isRelease cmd then slot else none) with
    | some s => k.results.map (BatchResult.resolve (.extension s) .aborted)
    | none => k.results
  ⟨a.part, earlier ++ [⟨.done, a.handle, a.wait⟩], if isWipe cmd then k.wiped ++ slot.toList else k.wiped⟩

/-- R74 to R76: the positions are evaluated in order; the first refusal gives its position and status. -/
def closeRounds (c : ClientId) : List RegionCommand → Closing → Except (Nat × Status) Closing
  | [], k => .ok k
  | cmd :: rest, k =>
    let x := mapHandle k.resolve cmd
    match k.part.apply c x with
    | .error st => .error (k.results.length, st)
    | .ok a =>
      if k.namesWiped x then .error (k.results.length, .busy)
      else closeRounds c rest (k.advance x a)

/-- R74, R76, R77: BATCH_CLOSE. -/
def Part.serveBatchClose (p : Part) (c : ClientId) (tag : Byte) : Part :=
  match (p.client c).batch with
  | none => p.answer c 41 tag .noBatch []
  | some cmds =>
    let p0 := p.setBatch c none
    match closeRounds c cmds ⟨p0, [], []⟩ with
    | .error (i, st) => p0.answer c 41 tag .batchFailed [byte i, st.code]
    | .ok k =>
      if k.results.all fun r => r.wait.isNone then k.part.answer c 41 tag .done (k.part.batchBody k.results)
      else k.part.execute c tag (.batchClose k.results)

end Sys2Proof.Machine
end

