-- ==== Sys2Proof/Machine/Clients.lean ====
section
/-! DEFINITION. The client table (06): ATTACH, DETACH, NOTICES and eviction. -/

namespace Sys2Proof.Machine

/-- R106: ATTACH. -/
def Part.serveAttach (p : Part) (c : ClientId) (tag : Byte) : Part :=
  if (p.client c).attached then p.answer c 1 tag .alreadyAttached []
  else (p.modClient c fun k => { k with attached := true, flags := 0, enable := allNotices }).answer c 1 tag .done []

/-- R107: the client's regions are released in ascending slot order, its batch is discarded, it becomes DETACHED. -/
def Part.departs (p : Part) (c : ClientId) : Part :=
  (p.releaseRegions (p.ownedSlots c)).modClient c fun k =>
    { k with batch := none, attached := false }

/-- R107: DETACH. -/
def Part.serveDetach (p : Part) (c : ClientId) (tag : Byte) : Part := (p.departs c).answer c 2 tag .done []

/-- R116: NOTICES: the flags as they stood, the enable set as it is left, the quota and the held frames. -/
def Part.serveNotices (p : Part) (c : ClientId) (tag : Byte) (clear : NoticeSet) (enable : Option NoticeSet) : Part :=
  let k := p.client c
  let e := enable.getD k.enable
  (p.modClient c fun k => { k with flags := k.flags &&& ~~~clear, enable := e }).answer c 3 tag .done
    (noticeBytes k.flags ++ noticeBytes e ++ bytes2 k.quota ++ bytes2 (p.heldFrames c))

/-! ### Eviction (R108 to R110) -/

/-- Every request of a client's queue is answered ABORTED, oldest first (R108, R110, R118). -/
def Part.abortQueue (p : Part) (c : ClientId) : Part :=
  ((p.client c).queue.foldl (fun q x => q.answer c x.request.code x.tag .aborted []) p).modClient c fun k =>
    { k with queue := [] }

/-- R108, R113: EVICT: the client's requests are dealt with; the eviction completes at the act's close or later. -/
def Part.serveEvict (p : Part) (c : ClientId) (tag : Byte) (client : Byte) : Part :=
  match (if client = 0 then none else eightOfByte client) with
  | none => p.answer c 49 tag .badValue []
  | some d =>
    if !(p.client d).attached then p.answer c 49 tag .notAttached []
    else
      (((p.modClient d fun k => { k with evictionPending := true }).abortQueue d).dropAccess d).execute c tag (.evict d)

/-- R109: the client executes a request that the eviction lets complete: an issued READ or VERIFY. -/
def Part.evictionWaits (p : Part) (d : ClientId) : Bool :=
  match p.work d with
  | some (.read _ _ .issued) => true
  | _ => false

/-- R79, R109: an executing BATCH_CLOSE is answered ABORTED, without results. -/
def Part.abortClose (p : Part) (d : ClientId) : Part :=
  match p.work d with
  | some (.batchClose _) => p.finish d .aborted []
  | _ => p

/-- R110: the eviction of d completes, and the EVICT of client c is answered DONE, after what the release of d's regions
makes the engines do (R153; log 27). -/
def Part.completeEviction (p : Part) (c d : ClientId) : Part :=
  (((((((p.abortQueue d).abortClose d).departs d).react).modClient d fun k =>
    { k with evictionPending := false }).notify .evicted d).finish c .done [])

/-- R108: an EVICT whose client executes nothing that it waits for completes. -/
def Part.testEviction (p : Part) : Part :=
  match p.work 0 with
  | some (.evict d) => if p.evictionWaits d then p else p.completeEviction 0 d
  | _ => p

end Sys2Proof.Machine
end

