-- ==== Sys2Proof/Machine/Power.lean ====
section
/-! DEFINITION. The power controller (09) and the thermal monitor (07 7.5). -/

namespace Sys2Proof.Machine

/-! ### The idle timer (R163) -/

def Part.setPower (p : Part) (st : PowerState) : Part := { p with power := { p.power with state := st } }

/-- R163: the idle timer starts with its full length; at timeout 0 it does not run. -/
def Part.startIdle (p : Part) : Part :=
  { p with power := { p.power with
    idleTimer := if p.power.idleTimeout == 0 then none else some (10 * p.power.idleTimeout) } }

def Part.stopIdle (p : Part) : Part := { p with power := { p.power with idleTimer := none } }

/-! ### STANDBY (R164 to R166) -/

/-- R164, condition 5: the work is an access, in any phase. -/
def Work.isAccess : Work → Bool
  | .read _ _ _ => true
  | .write _ _ _ => true
  | .flush _ => true
  | _ => false

/-- R164: the six standby conditions. -/
def Part.standbyAllowed (p : Part) : Bool :=
  p.writeQueue.isEmpty
  && (p.slotsWhere fun r => r.state == .filling || r.extension.isSome || r.wipe.isSome).isEmpty
  && !(allClients.any fun c => ((p.work c).map Work.isAccess).getD false)
  && !p.thermalLimit

/-- R168, R173: WAKING begins. -/
def Part.startWaking (p : Part) (o : WakeOrigin) : Part := p.setPower (.waking o)

/-- R166: the segments masked in STANDBY: those UNCLAIMED or VOLATILE. -/
def Pool.maskable (p : Pool) : List SegId := indices (fun _ g => g.cls != .keep) p.segments

/-- R166: the act of entering STANDBY; a queued request starts WAKING in the same act (R165, R168). -/
def Part.enterStandby (p : Part) : Part :=
  let p1 := (p.withdrawScrub.modBanks Bank.pauseCopy).stopIdle
  let p2 := { p1 with power := { p1.power with state := .standby, masked := p.pool.maskable } }
  if allClients.any fun c => !(p.client c).queue.isEmpty then p2.startWaking .standby else p2

/-- R165: STANDBY. -/
def Part.serveStandby (p : Part) (c : ClientId) (tag : Byte) : Part :=
  if p.standbyAllowed then (p.answer c 51 tag .done []).enterStandby else p.answer c 51 tag .busy []

/-- R164: the idle timer expires. -/
def Part.idleExpiry (p : Part) : Part := if p.standbyAllowed then p.enterStandby else p.startIdle

/-! ### POWERDOWN (R172) -/

/-- R172: the act of entering DOWN; a queued request of client 0 starts WAKING in the same act. -/
def Part.enterDown (p : Part) : Part :=
  let p1 := (p.modBanks fun k => { k with slotTimer := none, owed := none }).stopIdle
  let p2 := ({ p1 with scrub := { p1.scrub with timer := none } }).setPower .down
  if (p.client 0).queue.isEmpty then p2 else p2.startWaking .down

/-- R172: POWERDOWN. -/
def Part.servePowerdown (p : Part) (c : ClientId) (tag : Byte) : Part :=
  if (p.slotsWhere fun _ => true).isEmpty then (p.answer c 52 tag .done []).enterDown
  else p.answer c 52 tag .busy []

/-! ### Waking (R170, R171, R174) -/

/-- R170, step 1: the slots of LIVE VOLATILE regions. -/
def Part.slotsLost (p : Part) : List SlotId := p.slotsWhere fun r => r.cls == .volatile && r.state == .live

/-- R33, R170: a region becomes LOST, its owner is told; its migration ends as R154 gives. -/
def Part.loseRegion (p : Part) (s : SlotId) : Part :=
  match p.region s with
  | some r => ((p.modRegion s fun x => { x with state := .lost }).notify .lost r.owner).abortAtWake s
  | none => p

/-- R170, step 3: the FREE and SPARE frames of masked segments become DIRTY. -/
def Pool.dirtyMasked (p : Pool) (masked : List SegId) : Pool :=
  { p with frames := tmapIdx (fun i g =>
      if masked.contains (segmentOf (Fin.ofNat 4096 i)) && (g.state == .free || g.state == .spare) then
        { g with state := .dirty }
      else g) p.frames }

/-- R147, R171: the scrub engine goes on after STANDBY; a frame of a LOST region is abandoned. -/
def Part.resumeScrub (p : Part) : Part :=
  match p.scrub.current with
  | none => p
  | some (f, n) =>
    if !p.scrubbable f then p.abandonScrub
    else if p.banks.toList.any fun k => match k.running with
      | some ⟨.scrubStep _ _, true⟩ => true
      | _ => false then p
    else p.issueScrub f n

/-- Whether the COPY STEP of the migration in flight waits or runs at a bank. -/
def Part.copyAtBank (p : Part) : Bool :=
  p.banks.toList.any fun k => k.copy.isSome || (match k.running with
    | some ⟨.copy _, true⟩ => true
    | _ => false)

/-- R155, R171: a COPYING engine issues the step at its cursor, unless that step is under way. -/
def Part.resumeCopy (p : Part) : Part :=
  match p.migration with
  | some (_, m) => if p.copyAtBank then p else p.issueCopy m.source m.target (m.cursor / Config.linesPerStep)
  | none => p

/-- R170, R171: WAKING from STANDBY ends. -/
def Part.wakeFromStandby (p : Part) : Part :=
  let masked := p.power.masked
  let p1 := p.slotsLost.foldl Part.loseRegion p
  let p2 := ({ p1 with pool := p1.pool.dirtyMasked masked }).settleSpare p1.pool
  let p3 := { p2 with power := { p2.power with state := .active, masked := [] } }
  ((p3.resumeZero masked).resumeScrub.resumeCopy).startIdle

/-- R174: every frame that is not RETIRED becomes DIRTY. In DOWN every segment is UNCLAIMED (R172), and it stays so. -/
def Pool.dirtyAll (p : Pool) : Pool :=
  { p with
    frames := tmap (fun g => if g.state == .retired then g else { g with state := .dirty }) p.frames
    segments := Vector.replicate 128 ⟨.unclaimed, 0⟩ }

/-- R20, R174: the zeroing engine drops its current frame. -/
def Part.dropZero (p : Part) : Part :=
  match p.zero.current with
  | some f => ({ p with zero := ⟨none, 0⟩ }).endZero f
  | none => p

/-- R174: WAKING from DOWN ends. -/
def Part.wakeFromDown (p : Part) : Part :=
  let p1 := ({ p with pool := p.pool.dirtyAll }).settleSpare p.pool
  (((p1.setPower .active).dropZero.startSlots).startScrubTimer).startIdle

/-! ### The thermal monitor (R130 to R132) -/

/-- The classes from cold to hot (R131). -/
def ThermalClass.rank : ThermalClass → Nat
  | .freeze => 0
  | .cool => 1
  | .normal => 2
  | .warm => 3
  | .hot => 4
  | .overheat => 5

/-- R131: the highest class whose entry threshold is at or below T; FREEZE has none. -/
def classEntered (t : Int) : ThermalClass :=
  if 105 ≤ t then .overheat
  else if 95 ≤ t then .hot
  else if 85 ≤ t then .warm
  else if 45 ≤ t then .normal
  else if -25 ≤ t then .cool
  else .freeze

/-- R131: the point at or below which a class is left downward. -/
def ThermalClass.leftAt : ThermalClass → Option Int
  | .freeze => none
  | .cool => some (-26)
  | .normal => some 42
  | .warm => some 82
  | .hot => some 92
  | .overheat => some 102

/-- The class below. -/
def ThermalClass.below : ThermalClass → ThermalClass
  | .freeze => .freeze
  | .cool => .freeze
  | .normal => .cool
  | .warm => .normal
  | .hot => .warm
  | .overheat => .hot

/-- R131, step 3: the class falls while T is at or below its point for leaving downward, n classes at most. -/
def fallFrom : Nat → ThermalClass → Int → ThermalClass
  | 0, k, _ => k
  | n + 1, k, t =>
    match k.leftAt with
    | some point => if t ≤ point then fallFrom n k.below t else k
    | none => k

/-- R131: the class after a sample. -/
def ThermalClass.update (k : ThermalClass) (t : Int) : ThermalClass :=
  if k = .freeze ∧ t < -22 then .freeze
  else if k.rank < (classEntered t).rank then classEntered t
  else fallFrom 5 k t

/-- R130: a temperature as recorded: −40..125. -/
def clampTemperature (t : Int) : Int := if t < -40 then -40 else if 125 < t then 125 else t

/-- R132: THERMAL for every ATTACHED client. -/
def Part.tellThermal (p : Part) : Part :=
  p.notifyAll .thermal (allClients.filter fun c => (p.client c).attached)

/-- R130 to R132: a sample. The next 250 ms count from it, also when it comes before the last 250 ms have run out
(log 31). -/
def Part.sample (p : Part) (t : Int) : Part :=
  let x := clampTemperature t
  let k := p.thermal.cls.update x
  let p1 := { p with thermal :=
    ⟨some x, k, p.thermal.updated || k != p.thermal.cls, Config.samplePeriod⟩ }
  if k != p.thermal.cls then p1.tellThermal else p1

end Sys2Proof.Machine
end

