-- ==== Sys2Proof/Machine/Health.lean ====
section
/-! DEFINITION. The reports of the part (01 1.6, 07 7.6, 08 8.6, 10 10.3; layouts of 11.5): IDENTIFY and the health
pages. -/

namespace Sys2Proof.Machine

/-! ### Codes in reports (11.5) -/

def FrameState.code : FrameState → Byte
  | .free => 0
  | .dirty => 1
  | .spare => 2
  | .claimed => 3
  | .held => 4
  | .target => 5
  | .retired => 6

def SegmentClass.code : SegmentClass → Byte
  | .unclaimed => 0
  | .keep => 1
  | .volatile => 2

def PowerState.code : PowerState → Byte
  | .initializing => 0
  | .active => 1
  | .standby => 2
  | .waking _ => 3
  | .down => 4

def ResetCause.code : ResetCause → Byte
  | .powerOn => 0
  | .pin => 1
  | .soft => 2

def ThermalClass.code (k : ThermalClass) : Byte := byte k.rank

def EngineState.code : EngineState → Byte
  | .idle => 0
  | .blocked => 1
  | .noTarget => 2
  | .copying => 3

/-- A 2-byte field that may be absent: "none" is 65535 (11.5). -/
def optional2 : Option Nat → List Byte
  | some n => bytes2 n
  | none => bytes2 65535

/-- A 1-byte field that may be absent: "none" is 255 (11.5). -/
def optional1 : Option Nat → Byte
  | some n => byte n
  | none => 255

/-! ### IDENTIFY (R180) -/

/-- R180: the number of frames not in state DIRTY. -/
def Pool.progress (p : Pool) : Nat := tcount (fun g => g.state != .dirty) p.frames

/-- R180: the geometry of IDENTIFY (11.5). -/
def geometryBytes : List Byte :=
  bytes2 4096 ++ bytes2 1024 ++ [64, 32, 128, 4, 64, 8, 128, 64, 4, 16, 16, 32, 24, 4, 8]

/-- R180: the body of IDENTIFY. -/
def Part.identity (p : Part) : List Byte :=
  bytes2 Config.vendorCode ++ bytes2 Config.partCode ++ [byte Config.revision, p.power.state.code]
  ++ bytes2 p.pool.progress ++ [p.cause.code, p.thermal.cls.code] ++ geometryBytes

/-- R180: IDENTIFY. -/
def Part.serveIdentify (p : Part) (c : ClientId) (tag : Byte) : Part := p.answer c 8 tag .done p.identity

/-! ### SUMMARY (R160) -/

/-- The seven frame states in the order of SUMMARY. -/
def frameStates : List FrameState := [.free, .dirty, .spare, .claimed, .held, .target, .retired]

/-- R160: the highest corrected count among frames not in RETIRED, with the lowest-numbered frame that holds it. -/
def highestFrom : List Frame → Nat → Nat × Option Nat → Nat × Option Nat
  | [], _, best => best
  | g :: rest, i, best =>
    highestFrom rest (i + 1) (if g.state != .retired && decide (best.1 < g.corrected) then (g.corrected, some i) else best)

/-- The migration in flight in SUMMARY: slot, index, source, target, cursor (11.5). -/
def migrationBytes : Option (SlotId × Migration) → List Byte
  | some (s, m) => [byte s.val, byte m.index] ++ bytes2 m.source.val ++ bytes2 m.target.val ++ bytes2 m.cursor
  | none => List.replicate 8 0

/-- R160: the body of SUMMARY. -/
def Part.summary (p : Part) : List Byte :=
  let highest := highestFrom p.pool.frames.toList 0 (0, none)
  frameStates.flatMap (fun st => bytes2 (p.pool.count st)) ++ bytes2 p.pool.spareTarget
  ++ [byte p.retire.queue.length] ++ bytes2 p.waitingDoomed.length ++ [p.retire.engine.code]
  ++ migrationBytes p.migration
  ++ bytes4 p.retire.totalCorrected ++ bytes4 p.retire.totalUncorrectable
  ++ bytes2 highest.1 ++ optional2 highest.2 ++ bytes2 p.pool.floorMean
  ++ bytes2 p.scrub.cursor.val ++ bytes4 p.scrub.passes

/-! ### FRAME (R159), RETIRED (R161), SEGMENTS (R22), TEMPERATURE (R134) -/

/-- R159: the place of a frame in retirement: 0..15, 16 waiting, or none. -/
def Part.retirementPlace (p : Part) (f : FrameId) : Option Nat :=
  match p.retire.queue.findIdx? (· == f) with
  | some i => some i
  | none => if p.qualifies f then some 16 else none

/-- R159: the role of a frame in the migration in flight. -/
def Part.migrationRole (p : Part) (f : FrameId) : Nat :=
  match p.migration with
  | some (_, m) => if m.source == f then 1 else if m.target == f then 2 else 0
  | none => 0

/-- R159: the body of FRAME. -/
def Part.frameReport (p : Part) (f : FrameId) : List Byte :=
  let g := p.frame f
  bytes2 f.val ++ [g.state.code, optional1 (g.region.map (·.val)), flagByte g.doomed] ++ bytes2 g.corrected
  ++ optional2 g.lastCorrected ++ [byte g.uncorrectable, optional1 (p.retirementPlace f), byte (p.migrationRole f)]

/-- R161: the body of RETIRED. -/
def Part.retiredReport (p : Part) (start : Nat) : List Byte :=
  let fs := ((p.pool.framesIn .retired).filter fun f => decide (start ≤ f.val)).take 64
  byte fs.length :: fs.flatMap fun f => bytes2 f.val

/-- The number of frames of a segment in a state. -/
def Pool.countIn (p : Pool) (s : SegId) (st : FrameState) : Nat :=
  (p.frames.toList.drop (32 * s.val)).take 32 |>.countP fun g => g.state == st

/-- R22: one record of SEGMENTS. -/
def Pool.segmentRecord (p : Pool) (s : SegId) : List Byte :=
  let g := tget p.segments s
  [byte s.val, g.cls.code, byte g.claims, byte (p.countIn s .free), byte (p.countIn s .spare),
    byte (p.countIn s .dirty), byte (p.countIn s .retired)]

/-- R22: the body of SEGMENTS: segments start through start + 31, or through 127. -/
def Pool.segmentReport (p : Pool) (start : Nat) : List Byte :=
  let ss := ((List.range 128).drop start).take 32
  byte ss.length :: ss.flatMap fun s => p.segmentRecord (Fin.ofNat 128 s)

/-- R134: the body of TEMPERATURE. -/
def Thermal.report (t : Thermal) : List Byte :=
  [flagByte t.last.isSome, BitVec.ofInt 8 (t.last.getD 0), t.cls.code, flagByte t.updated]

/-- R22, R134, R159 to R161: HEALTH. Reading TEMPERATURE clears the update flag. -/
def Part.serveHealth (p : Part) (c : ClientId) (tag : Byte) (page : HealthPage) (argument : Half) : Part :=
  let n := argument.toNat
  match page with
  | .summary => p.answer c 9 tag .done p.summary
  | .frame =>
    if h : n < 4096 then p.answer c 9 tag .done (p.frameReport ⟨n, h⟩) else p.answer c 9 tag .badValue []
  | .retired => if n < 4096 then p.answer c 9 tag .done (p.retiredReport n) else p.answer c 9 tag .badValue []
  | .segments =>
    if n < 128 then p.answer c 9 tag .done (p.pool.segmentReport n) else p.answer c 9 tag .badValue []
  | .temperature =>
    ({ p with thermal := { p.thermal with updated := false } }).answer c 9 tag .done p.thermal.report

end Sys2Proof.Machine
end

