-- ==== Sys2Proof/Machine/Configuration.lean ====
section
/-! DEFINITION. CONFIGURE (10 10.5), RETIRE (08 8.5), soft reset (10 10.6) and the entry into pin and power-on reset
(10 10.1). -/

namespace Sys2Proof.Machine

/-! ### CONFIGURE (R9, R112, R140, R163, R182) -/

/-- R9: the spare target: top-up on a raise, frames back to FREE on a lower. -/
def Part.setSpareTarget (p : Part) (v : Nat) : Part :=
  let q := { p with pool := { p.pool with spareTarget := v } }
  if p.pool.spareTarget < v then q.settleSpare p.pool else { q with pool := q.pool.shed }

/-- R140: the retire threshold. -/
def Part.setThreshold (p : Part) (v : Nat) : Part := { p with retire := { p.retire with threshold := v } }

/-- R140: the outlier margin. -/
def Part.setMargin (p : Part) (v : Nat) : Part := { p with retire := { p.retire with margin := v } }

/-- R143: the scrub interval: 0 stops the timer; from 0 upward it starts while there is no current frame. -/
def Part.setScrubInterval (p : Part) (v : Nat) : Part :=
  let q := { p with scrub := { p.scrub with interval := v } }
  if v == 0 then { q with scrub := { q.scrub with timer := none } }
  else if p.scrub.interval == 0 && p.scrub.current.isNone then q.startScrubTimer
  else q

/-- R163: the idle timeout; the restart made by taking the CONFIGURE runs with the new length. -/
def Part.setIdleTimeout (p : Part) (v : Nat) : Part :=
  ({ p with power := { p.power with idleTimeout := v } }).startIdle

/-- R112: the quota of a client. -/
def Part.setQuota (p : Part) (d : ClientId) (v : Nat) : Part := p.modClient d fun k => { k with quota := v }

/-- An answer to CONFIGURE: DONE after the change when the value is in range, BAD_VALUE without it otherwise (R182). -/
def Part.configured (p : Part) (c : ClientId) (tag : Byte) (inRange : Bool) (changed : Part) : Part :=
  if inRange then changed.answer c 48 tag .done [] else p.answer c 48 tag .badValue []

/-- R112: CONFIGURE of a quota. -/
def Part.configureQuota (p : Part) (c : ClientId) (tag client : Byte) (v : Nat) : Part :=
  match eightOfByte client with
  | none => p.answer c 48 tag .badValue []
  | some d =>
    if 4096 < v then p.answer c 48 tag .badValue []
    else if !(p.ownedSlots d).isEmpty then p.answer c 48 tag .busy []
    else (p.setQuota d v).answer c 48 tag .done []

/-- R182: CONFIGURE, by its selector (11.3). -/
def Part.serveConfigure (p : Part) (c : ClientId) (tag selector client : Byte) (value : Half) : Part :=
  let v := value.toNat
  match selector.toNat with
  | 0 => p.configured c tag (decide (v ≤ 256)) (p.setSpareTarget v)
  | 1 => p.configured c tag (decide (1 ≤ v) && decide (v ≤ 255)) (p.setThreshold v)
  | 2 => p.configured c tag (decide (v ≤ 255)) (p.setMargin v)
  | 3 => p.configured c tag (decide (v ≤ 255)) (p.setScrubInterval v)
  | 4 => p.configured c tag (decide (v ≤ 255)) (p.setIdleTimeout v)
  | 5 => p.configureQuota c tag client v
  | _ => p.answer c 48 tag .badValue []

/-! ### RETIRE (R157, R158) -/

/-- R157: RETIRE acts by the frame's state. -/
def Part.retireFrame (p : Part) (f : FrameId) : Part :=
  let g := p.frame f
  match g.state with
  | .free => { p with pool := p.pool.leave f .retired }
  | .spare => ({ p with pool := p.pool.leave f .retired }).settleSpare p.pool
  | .dirty => { p with pool := p.pool.leave f .retired }
  | .claimed => if g.doomed then p else p.doom f
  | .held => if g.doomed then p else p.doom f
  | .target =>
    match g.region with
    | some s => p.abortMigration s .retired
    | none => p
  | .retired => p

/-- R157, R158: RETIRE: answered DONE once the engine has evaluated (log 27). -/
def Part.serveRetire (p : Part) (c : ClientId) (tag : Byte) (frame : Half) : Part :=
  if h : frame.toNat < 4096 then (p.retireFrame ⟨frame.toNat, h⟩).react.answer c 50 tag .done []
  else p.answer c 50 tag .badValue []

/-! ### Soft reset (R184) -/

/-- R3: a frame at soft reset. -/
def Frame.softReset (g : Frame) : Frame :=
  { g with
    state := match g.state with
      | .claimed => if g.doomed then .retired else .dirty
      | .held => if g.doomed then .retired else .dirty
      | .target => .dirty
      | st => st
    region := none
    doomed := false }

/-- R44: a slot at soft reset. -/
def Slot.softReset (x : Slot) : Slot := ⟨if x.region.isSome then x.generation + 1 else x.generation, none⟩

/-- R129: a bank at soft reset; a waiting ZERO STEP is kept, the operation in progress goes on. -/
def Bank.softReset (k : Bank) : Bank :=
  { k with reads := [], fresh := [], turns := [], copy := none, scrub := none, copyWait := 0 }

/-- R118: a context at soft reset, but for the requests of clients 1..7. -/
def Client.softReset (zero : Bool) (k : Client) : Client :=
  { k with
    attached := zero
    evictionPending := false
    batch := none
    flags := 0
    enable := if zero then k.enable else 0 }

def BankOp.isZero : BankOp → Bool
  | .zeroStep _ _ => true
  | _ => false

/-- R118, R185: the requests of a client 1..7 are answered ABORTED: the queue, oldest first, then the executing one. -/
def Part.abortClient (p : Part) (c : ClientId) : Part := (p.abortQueue c).finish c .aborted []

/-- R184: every change that soft reset makes, but for the responses. An operation in progress goes on without its issuer: a
COPY STEP's read half reports its lines and has no write half (log 33). -/
def Part.clearForReset (p : Part) : Part :=
  let p1 := (p.modBanks Bank.softReset).disown fun op => !op.isZero
  let p2 := { p1 with
    slots := tmap Slot.softReset p.slots
    pool := { p.pool with
      frames := tmap Frame.softReset p.pool.frames
      segments := Vector.replicate 128 ⟨.unclaimed, 0⟩ }
    fills := []
    writeQueue := []
    posting := []
    wipeHold := []
    retire := { p.retire with queue := [], engine := .idle }
    clients := tmapIdx (fun i k => k.softReset (i == 0)) p.clients
    cause := .soft }
  (if p.scrub.current.isSome then p2.abandonScrub else p2).startIdle

/-- R184, R185: RESET. -/
def Part.serveReset (p : Part) (c : ClientId) (tag : Byte) : Part :=
  (([1, 2, 3, 4, 5, 6, 7] : List ClientId).foldl Part.abortClient p.clearForReset).answer c 53 tag .done []

/-! ### Power-on and pin reset (R176, R181) -/

/-- R176: a context in the act of entering reset: every request ends without a response. -/
def Client.entersReset (k : Client) : Client :=
  { k with queue := [], executing := none, evictionPending := false }

/-- R176: a bank in the act of entering reset: the operation in progress is cut off, nothing waits, no timer runs. -/
def Bank.entersReset (k : Bank) : Bank :=
  { k with
    running := none, reads := [], fresh := [], turns := [], copy := none, zero := none, scrub := none
    owed := none, slotTimer := none }

/-- R176: a region in the act of entering reset: its WIPE ends. -/
def Region.entersReset (r : Region) : Region := { r with wipe := none }

/-- R181: a power-on reset wins over a pin reset. -/
def joinHold (now : Option Hold) (h : Hold) : Hold :=
  match now with
  | some .powerOn => .powerOn
  | _ => h

/-- R176: the act of entering reset; the notice lines go down, responses not yet sent are lost (R189). -/
def Part.enterReset (p : Part) (h : Hold) : Part :=
  ({ p with
    hold := some (joinHold p.hold h)
    clients := tmap Client.entersReset p.clients
    banks := tmap Bank.entersReset p.banks
    slots := tmap (fun x => { x with region := x.region.map Region.entersReset }) p.slots
    fills := []
    posting := []
    wipeHold := []
    scrub := { p.scrub with timer := none }
    power := { p.power with idleTimer := none }
    tx := [] }).driveLines

/-- R3: a frame after a pin reset. -/
def Frame.pinReset (g : Frame) : Frame :=
  { g with
    state := if g.state == .retired then .retired else .dirty
    region := none
    doomed := false }

/-- R3, R177: the frame table when the part leaves reset. -/
def Hold.frames (h : Hold) (frames : Vector Frame 4096) : Vector Frame 4096 :=
  match h with
  | .powerOn => Vector.replicate 4096 Frame.reset
  | .pin => tmap Frame.pinReset frames

/-- R181: the cause recorded when the part leaves reset. -/
def Hold.cause : Hold → ResetCause
  | .powerOn => .powerOn
  | .pin => .pin

end Sys2Proof.Machine
end

