-- ==== Sys2Proof/WellFormed.lean ====
section
/-! DEFINITION. Which requests and commands are well formed: what R188 judges beyond the types, and what an event's
operands may be. -/

namespace Sys2Proof

/-- R82, R188 point 3: a WRITE carries length times 64 bytes of payload. -/
def Request.wf : Request → Bool
  | .write _ _ length payload => payload.length == length.toNat * Config.bytesPerLine
  | _ => true

/-- An operation reads at most 64 lines (R119), so it reports at most 64 conditions. -/
def conditionsWf (conditions : List LineCondition) : Bool := conditions.length ≤ Config.linesPerStep

/-- A command with operands its row admits. A WRITE whose payload has another length is answered MALFORMED when it
arrives; the row of the unknown selector is for selectors that name no parameter (R182). -/
def Instr.wf : Instr → Bool
  | .write _ _ _ _ length payload => payload.length == length.toNat * Config.bytesPerLine
  | .configureUnknownSelector _ _ selector _ _ => decide (5 < selector.toNat)
  | .lineReadComplete _ conditions => conditionsWf conditions
  | .copyReadHalfComplete _ conditions => conditionsWf conditions
  | .copyStepComplete _ conditions => conditionsWf conditions
  | .scrubStepComplete _ conditions => conditionsWf conditions
  | .requestArrival _ _ => true
  | .attach _ _ => true
  | .detach _ _ => true
  | .notices _ _ _ _ => true
  | .identify _ _ => true
  | .healthSummary _ _ _ => true
  | .healthFrame _ _ _ => true
  | .healthRetired _ _ _ => true
  | .healthSegments _ _ _ => true
  | .healthTemperature _ _ _ => true
  | .grant _ _ _ _ _ => true
  | .release _ _ _ => true
  | .resize _ _ _ _ => true
  | .handover _ _ _ _ => true
  | .share _ _ _ _ _ _ => true
  | .unshare _ _ _ _ _ => true
  | .lock _ _ _ => true
  | .unlock _ _ _ => true
  | .wipe _ _ _ => true
  | .renew _ _ _ => true
  | .describe _ _ _ _ => true
  | .list _ _ => true
  | .read _ _ _ _ _ => true
  | .verify _ _ _ _ _ => true
  | .flush _ _ _ => true
  | .batchOpen _ _ => true
  | .batchClose _ _ => true
  | .batchDrop _ _ => true
  | .configureSpareTarget _ _ _ _ => true
  | .configureRetireThreshold _ _ _ _ => true
  | .configureOutlierMargin _ _ _ _ => true
  | .configureScrubInterval _ _ _ _ => true
  | .configureIdleTimeout _ _ _ _ => true
  | .configureQuota _ _ _ _ => true
  | .evict _ _ _ => true
  | .retire _ _ _ => true
  | .standby _ _ => true
  | .powerdown _ _ => true
  | .reset _ _ => true
  | .leaseExpiry _ => true
  | .idleTimerExpiry => true
  | .scrubIntervalExpiry => true
  | .refreshSlotExpiry _ => true
  | .thermalSample _ => true
  | .drainComplete _ => true
  | .wipeStepComplete _ => true
  | .zeroStepComplete _ => true
  | .refreshComplete _ => true
  | .wakingEnd => true
  | .powerOnReset => true
  | .pinReset => true
  | .resetRelease => true
  | .trainingEnd => true

end Sys2Proof
end

