-- ==== Sys2Proof/Machine/Link.lean ====
section
/-! DEFINITION. The link port (11 11.1), the taking of requests (06 6.2) and the close of an act: the engines, the
queued heads, the arbiters and the notice lines. -/

namespace Sys2Proof.Machine

/-! ### Serving a taken request (R105, table) -/

/-- R71, R105: a region command is staged while the client has a batch, and executed at once otherwise. -/
def Part.serveRegion (p : Part) (c : ClientId) (tag : Byte) (cmd : RegionCommand) : Part :=
  match (p.client c).batch with
  | some staged => p.stage c tag staged cmd
  | none => p.serveCommand c tag cmd

/-- R105: a request that passes the refusals common to all goes to the block that serves it. -/
def Part.serve (p : Part) (c : ClientId) (tag : Byte) : Request → Part
  | .attach => p.serveAttach c tag
  | .detach => p.serveDetach c tag
  | .notices clear enable => p.serveNotices c tag clear enable
  | .identify => p.serveIdentify c tag
  | .health page argument => p.serveHealth c tag page argument
  | .command cmd => p.serveRegion c tag cmd
  | .renew h => p.serveRenew c tag h
  | .describe h page => p.serveDescribe c tag h page
  | .list => p.serveList c tag
  | .read h offset length => p.takeRead c 32 tag false h offset.toNat length.toNat
  | .write h offset length payload => p.takeWrite c 33 tag h offset.toNat length.toNat payload
  | .verify h offset length => p.takeRead c 34 tag true h offset.toNat length.toNat
  | .flush sel => p.takeFlush c 35 tag sel
  | .batchOpen => p.serveBatchOpen c tag
  | .batchClose => p.serveBatchClose c tag
  | .batchDrop => p.serveBatchDrop c tag
  | .configure selector client value => p.serveConfigure c tag selector client value
  | .evict client => p.serveEvict c tag client
  | .retire frame => p.serveRetire c tag frame
  | .standby => p.serveStandby c tag
  | .powerdown => p.servePowerdown c tag
  | .reset => p.serveReset c tag

/-! ### Taking (R105) -/

/-- R113: the six supervisor requests. -/
def supervisorRequest : Request → Bool
  | .attach => false
  | .detach => false
  | .notices _ _ => false
  | .identify => false
  | .health _ _ => false
  | .command _ => false
  | .renew _ => false
  | .describe _ _ => false
  | .list => false
  | .read _ _ _ => false
  | .write _ _ _ _ => false
  | .verify _ _ _ => false
  | .flush _ => false
  | .batchOpen => false
  | .batchClose => false
  | .batchDrop => false
  | .configure _ _ _ => true
  | .evict _ => true
  | .retire _ => true
  | .standby => true
  | .powerdown => true
  | .reset => true

/-- R103: the requests a DETACHED client may send. -/
def openToDetached : Request → Bool
  | .attach => true
  | .identify => true
  | _ => false

/-- R105: the refusals that do not depend on the request, in their order. -/
def Part.refusal (p : Part) (c : ClientId) (r : Request) : Option Status :=
  firstFail
    [(p.power.state == .initializing && r != .identify, .notReady),
     (p.power.state == .down, .poweredDown),
     (!(p.client c).attached && !openToDetached r, .notAttached),
     (supervisorRequest r && c != 0, .notPermitted)]

/-- R105, R163: a request is taken: the idle timer restarts in ACTIVE, the refusals are judged, the request is served. -/
def Part.take (p : Part) (c : ClientId) (tag : Byte) (r : Request) : Part :=
  let q := if p.power.state == .active then p.startIdle else p
  match q.refusal c r with
  | some st => q.answer c r.code tag st []
  | none => q.serve c tag r

/-- R162, R173: whether the power state lets a client's head be taken. -/
def PowerState.takes (st : PowerState) (c : ClientId) : Bool :=
  match st with
  | .active => true
  | .initializing => true
  | .down => c != 0
  | .standby => false
  | .waking _ => false

/-- R105, R108: whether a client's head may be taken. -/
def Part.takeable (p : Part) (c : ClientId) : Bool :=
  p.hold.isNone && p.power.state.takes c && (p.client c).executing.isNone && !(p.client c).evictionPending

/-! ### The close of an act (log 9, 10, 11) -/

/-- What the blocks do in the act of the changes made so far: an eviction completes (R110), the WIPE waits, the zeroing
engine's current frame and the migration engine follow (Part.react), the scrub engine gives up a frame (R146), the zeroing
engine selects (R16). -/
def Part.engines (p : Part) : Part :=
  let p1 := p.testEviction.react
  (if p1.running then p1.checkScrub else p1).selectZero

/-- The lowest client with a queued head that may be taken (R171, log 10). -/
def Part.nextHead (p : Part) : Option (ClientId × Queued) :=
  match allClients.find? fun c => p.takeable c && !(p.client c).queue.isEmpty with
  | some c => (p.client c).queue.head?.map fun x => (c, x)
  | none => none

/-- R105: a head leaves its queue and is taken; the engines follow. -/
def Part.takeHead (p : Part) (c : ClientId) (x : Queued) : Part :=
  ((p.modClient c fun k => { k with queue := k.queue.tail }).take c x.tag x.request).engines

/-- R105: heads are taken while there are any; each round takes one request out of a queue. -/
def takeRounds : Nat → Part → Part
  | 0, p => p
  | n + 1, p =>
    match p.nextHead with
    | some (c, x) => takeRounds n (p.takeHead c x)
    | none => p

/-- The requests that wait in all queues. -/
def Part.queued (p : Part) : Nat := (p.clients.toList.map fun k => k.queue.length).sum

/-- The close of an act: the engines, the heads, the bank arbiters (R122), the notice lines (R115). Irreducible, so that
comparing two states never unfolds it. -/
@[irreducible] def Part.closeAct (p : Part) : Part :=
  (takeRounds p.queued p.engines).arbitrate.driveLines

/-! ### Arrival (R104, R105, R168, R173, R188) -/

/-- R104, R168, R173: a request is placed in its client's queue; in STANDBY, and in DOWN for client 0, WAKING begins. -/
def Part.enqueue (p : Part) (c : ClientId) (tag : Byte) (r : Request) : Part :=
  let q := p.modClient c fun k => { k with queue := k.queue ++ [⟨tag, r⟩] }
  match p.power.state with
  | .standby => q.startWaking .standby
  | .down => if c = 0 then q.startWaking .down else q
  | _ => q

/-- R104, R105: a well-formed request arrives: QUEUE_FULL, taken at once, or queued. In reset it is lost (R176). -/
def Part.arrive (p : Part) (c : ClientId) (tag : Byte) (r : Request) : Part :=
  if p.hold.isSome then p
  else if !r.wf then p.answer c r.code tag .malformed []
  else if Config.maxQueue ≤ (p.client c).queue.length then p.answer c r.code tag .queueFull []
  else if (p.client c).queue.isEmpty && p.takeable c then (p.take c tag r).closeAct
  else (p.enqueue c tag r).closeAct

/-- R187, R188: a packet arrives: MALFORMED, or the request it carries. -/
def Part.arrivePacket (p : Part) (stamp : Byte) (rest : List Byte) : Part :=
  if p.hold.isSome then p
  else match decodePacket stamp rest with
    | .malformed c code tag => p.answer c code tag .malformed []
    | .request c tag r => p.arrive c tag r

end Sys2Proof.Machine
end

