-- ==== Sys2Proof/Machine/Events.lean ====
section
/-! DEFINITION. The meanings of the event rows: timers, the thermal sample, completions of bank operations, waking, resets
(spec 95 lists what each step holds). An event that the state does not admit changes nothing (log 2). -/

namespace Sys2Proof.Machine

/-- The outcome that every meaning gives: a next state with the part after the act. -/
def State.withPart (s : State) (p : Part) : State := { s with part := p }

/-! ### Timers (R41, R144, R164, R127; log 4)

A timer expires when it stands at 0. An expiry command that finds its timer restarted or stopped changes nothing: what was
taken first has decided (R41, R164). -/

/-- R40: the lease timer of a region runs in LIVE, LOCKED, FAULTED and LOST. -/
def Region.leaseRuns (r : Region) : Bool :=
  r.lease.isSome && (r.state == .live || r.state == .locked || r.state == .faulted || r.state == .lost)

/-- R40, R41: the remaining time of a lease whose timer runs has reached 0. -/
def Region.leaseOver (r : Region) : Bool := r.leaseRuns && r.lease.map (·.remaining) == some 0

/-- R40, R41: whether the lease of a slot expires now. -/
def Part.leaseDue (p : Part) (s : SlotId) : Bool :=
  p.running && (match p.region s with
    | some r => r.leaseOver
    | none => false)

/-- LEASE_EXPIRY (R41): the region is released, LEASE_EXPIRED is set for its owner. -/
def execLeaseExpiry (slot : SlotId) (s : State) : Host.Outcome State Fault Refusal :=
  .next (if s.part.leaseDue slot then s.withPart (s.part.releaseRegion slot true).closeAct else s)

/-- IDLE_TIMER_EXPIRY (R164): STANDBY if the conditions hold; otherwise the timer restarts. -/
def execIdleTimerExpiry (s : State) : Host.Outcome State Fault Refusal :=
  .next (if s.part.running && s.part.power.idleTimer == some 0 then s.withPart s.part.idleExpiry.closeAct else s)

/-- SCRUB_INTERVAL_EXPIRY (R144): the next frame to scrub, or the timer again. -/
def execScrubIntervalExpiry (s : State) : Host.Outcome State Fault Refusal :=
  .next (if s.part.running && s.part.scrub.timer == some 0 then s.withPart s.part.scrubExpiry.closeAct else s)

/-- REFRESH_SLOT_EXPIRY (R127, R128): the timer restarts, a REFRESH is owed, the cursor advances. -/
def execRefreshSlotExpiry (bank : BankId) (s : State) : Host.Outcome State Fault Refusal :=
  .next (if s.part.hold.isNone && (s.part.bank bank).slotTimer == some 0 then
    s.withPart (s.part.refreshSlot bank).closeAct else s)

/-- THERMAL_SAMPLE (R130 to R132): the temperature is recorded and the class updated, at whatever moment the command is
carried out outside reset; the 250 ms count from it (log 31). -/
def execThermalSample (temperature : Int) (s : State) : Host.Outcome State Fault Refusal :=
  .next (if s.part.hold.isNone then s.withPart (s.part.sample temperature).closeAct else s)

/-! ### Completions (R119 to R126) -/

/-- LINE_READ_COMPLETE (R88, R90): the lines are reported, and the READ or VERIFY is answered unless a soft reset has ended
it (R101). -/
def execLineReadComplete (bank : BankId) (conditions : List LineCondition) (s : State) :
    Host.Outcome State Fault Refusal :=
  .next (match (s.part.bank bank).running with
    | some ⟨.lineRead r, live⟩ =>
      let q := (s.part.freeBank bank).reportLines r.frame r.line r.length conditions
      { s with
        store := { s.store.forgetLines r.frame r.line (linesFound .uncorrectable conditions r.length) with
          draws := s.store.draws + 1 }
        part := (if live then q.answerRead r.client conditions (s.store.data r.frame r.line r.length) else q).closeAct }
    | _ => s)

/-- DRAIN_COMPLETE (R98): the entry's lines are written; the entry leaves the queue, unless it had left it before. -/
def execDrainComplete (bank : BankId) (s : State) : Host.Outcome State Fault Refusal :=
  .next (match (s.part.bank bank).running with
    | some ⟨.drain e f, live⟩ =>
      let q := s.part.freeBank bank
      { s with
        store := s.store.drain f e
        part := (if live then q.drained e else q).closeAct }
    | _ => s)

/-- WIPE_STEP_COMPLETE (R64, R65): the lines are zeros; the next step is issued, or the WIPE completes. -/
def execWipeStepComplete (bank : BankId) (s : State) : Host.Outcome State Fault Refusal :=
  .next (match (s.part.bank bank).running with
    | some ⟨.wipeStep slot f step, live⟩ =>
      let q := s.part.freeBank bank
      { s with
        store := s.store.zeroStep f step
        part := (if live then q.wipeStepped slot else q).closeAct }
    | _ => s)

/-- COPY_READ_HALF_COMPLETE (R126, R153): the lines wait for the target bank as the write half; after an abort they are
reported and go nowhere (R153), and after a soft reset likewise (log 33). -/
def execCopyReadHalfComplete (bank : BankId) (conditions : List LineCondition) (s : State) :
    Host.Outcome State Fault Refusal :=
  .next (match (s.part.bank bank).running with
    | some ⟨.copy (.readHalf source target step), live⟩ =>
      let q := s.part.freeBank bank
      let lines := s.store.copyLines source step conditions
      { s with
        store := s.store.forgetLines source (64 * step) (linesFound .uncorrectable conditions 64)
        part :=
          (if live then
            q.modBank (bankOf target) fun k => { k with copy := some (.writeHalf source target step lines conditions) }
          else q.reportLines source (64 * step) 64 conditions).closeAct }
    | _ => s)

/-- COPY_STEP_COMPLETE (R150, R151): the target's lines are written, the lines read are reported, the cursor rises, and the
next step is issued or the switch is made. For a write half the conditions are those its read found. -/
def execCopyStepComplete (bank : BankId) (conditions : List LineCondition) (s : State) :
    Host.Outcome State Fault Refusal :=
  .next (match (s.part.bank bank).running with
    | some ⟨.copy (.whole source target step), live⟩ =>
      let q := (s.part.freeBank bank).reportLines source (64 * step) 64 conditions
      { s with
        store := (s.store.forgetLines source (64 * step) (linesFound .uncorrectable conditions 64)).placeStep
          target step (s.store.copyLines source step conditions)
        part := (if live then q.copyStepped else q).closeAct }
    | some ⟨.copy (.writeHalf source target step lines found), live⟩ =>
      let q := (s.part.freeBank bank).reportLines source (64 * step) 64 found
      { s with
        store := s.store.placeStep target step lines
        part := (if live then q.copyStepped else q).closeAct }
    | _ => s)

/-- ZERO_STEP_COMPLETE (R17, R19): the lines are zeros; the next step is issued, or the frame is done. -/
def execZeroStepComplete (bank : BankId) (s : State) : Host.Outcome State Fault Refusal :=
  .next (match (s.part.bank bank).running with
    | some ⟨.zeroStep f step, live⟩ =>
      let q := s.part.freeBank bank
      { s with
        store := s.store.zeroStep f step
        part := (if live then q.zeroStepped f step else q).closeAct }
    | _ => s)

/-- SCRUB_STEP_COMPLETE (R145): the lines are reported; the next step is issued, or the frame is done. -/
def execScrubStepComplete (bank : BankId) (conditions : List LineCondition) (s : State) :
    Host.Outcome State Fault Refusal :=
  .next (match (s.part.bank bank).running with
    | some ⟨.scrubStep f step, live⟩ =>
      let q := (s.part.freeBank bank).reportLines f (64 * step) 64 conditions
      { s with
        store := s.store.forgetLines f (64 * step) (linesFound .uncorrectable conditions 64)
        part := (if live then q.scrubStepped f step else q).closeAct }
    | _ => s)

/-- REFRESH_COMPLETE (R121, R127): the debt is paid; nothing is read or changed. -/
def execRefreshComplete (bank : BankId) (s : State) : Host.Outcome State Fault Refusal :=
  .next (match (s.part.bank bank).running with
    | some ⟨.refresh _, _⟩ => s.withPart (s.part.freeBank bank).closeAct
    | _ => s)

/-! ### Waking (R170, R174) -/

/-- WAKING_END (R170, R171, R174): the part becomes ACTIVE with the consequences of the wake. The frames of masked
segments, and every frame after DOWN, hold unknown contents (log 7). -/
def execWakingEnd (s : State) : Host.Outcome State Fault Refusal :=
  .next (if s.part.hold.isSome then s
    else match s.part.power.state with
    | .waking .standby =>
      { s with
        store := s.store.forgetFrames fun f => s.part.power.masked.contains (segmentOf f)
        part := s.part.wakeFromStandby.closeAct }
    | .waking .down =>
      { s with
        store := s.store.forgetFrames fun _ => true
        part := s.part.wakeFromDown.closeAct }
    | _ => s)

/-! ### Resets and training (R176 to R179) -/

/-- POWER_ON_RESET (R176, R181): the supplies come up; the part is in reset. -/
def execPowerOnReset (s : State) : Host.Outcome State Fault Refusal :=
  .next (s.withPart (s.part.enterReset .powerOn))

/-- PIN_RESET (R176): RESETN goes low; the part is in reset. -/
def execPinReset (s : State) : Host.Outcome State Fault Refusal :=
  .next (s.withPart (s.part.enterReset .pin))

/-- RESET_RELEASE (R176, R177, R181): the part leaves reset; every block takes its value, the array is unknown (R3). -/
def execResetRelease (s : State) : Host.Outcome State Fault Refusal :=
  .next (match s.part.hold with
    | some h =>
      { s with
        store := s.store.forgetFrames fun _ => true
        part := Part.reset (h.frames s.part.pool.frames) h.cause }
    | none => s)

/-- R129: when training ends each bank's cursor stands at its first segment. -/
def Part.homeCursors (p : Part) : Part :=
  allBanks.foldl (fun q b => q.modBank b fun k => { k with cursor := Fin.ofNat 128 (32 * b.val) }) p

/-- R179: training ends and the part becomes ACTIVE. -/
def Part.endTraining (p : Part) : Part :=
  (((p.setPower .active).homeCursors.startSlots).startScrubTimer).startIdle

/-- TRAINING_END (R179): the part becomes ACTIVE; refresh, the engines and the timers start. -/
def execTrainingEnd (s : State) : Host.Outcome State Fault Refusal :=
  .next (if s.part.hold.isNone && s.part.power.state == .initializing then s.withPart s.part.endTraining.closeAct else s)

end Sys2Proof.Machine
end

