-- ==== Sys2Proof/Machine/Requests.lean ====
section
/-! DEFINITION. The meanings of the packet row and of the request rows: the arrival of that request, which is served in
the same act when its client is free (log 1). Part.arrive (R104, R105) and Part.serve hold the effects. -/

namespace Sys2Proof.Machine

/-- REQUEST_ARRIVAL (R187, R188): a packet is judged and answered MALFORMED or QUEUE_FULL, taken, or queued. -/
def execRequestArrival (stamp : Byte) (rest : List Byte) (s : State) : Host.Outcome State Fault Refusal :=
  .next (s.withPart (s.part.arrivePacket stamp rest))

/-- ATTACH (R106). -/
def execAttach (c : ClientId) (tag : Byte) (s : State) : Host.Outcome State Fault Refusal :=
  .next (s.withPart (s.part.arrive c tag .attach))

/-- DETACH (R107). -/
def execDetach (c : ClientId) (tag : Byte) (s : State) : Host.Outcome State Fault Refusal :=
  .next (s.withPart (s.part.arrive c tag .detach))

/-- NOTICES (R116). -/
def execNotices (c : ClientId) (tag : Byte) (clear : NoticeSet) (enable : Option NoticeSet) (s : State) :
    Host.Outcome State Fault Refusal :=
  .next (s.withPart (s.part.arrive c tag (.notices clear enable)))

/-- IDENTIFY (R180). -/
def execIdentify (c : ClientId) (tag : Byte) (s : State) : Host.Outcome State Fault Refusal :=
  .next (s.withPart (s.part.arrive c tag .identify))

/-- HEALTH_SUMMARY (R160). -/
def execHealthSummary (c : ClientId) (tag : Byte) (argument : Half) (s : State) : Host.Outcome State Fault Refusal :=
  .next (s.withPart (s.part.arrive c tag (.health .summary argument)))

/-- HEALTH_FRAME (R159). -/
def execHealthFrame (c : ClientId) (tag : Byte) (argument : Half) (s : State) : Host.Outcome State Fault Refusal :=
  .next (s.withPart (s.part.arrive c tag (.health .frame argument)))

/-- HEALTH_RETIRED (R161). -/
def execHealthRetired (c : ClientId) (tag : Byte) (argument : Half) (s : State) : Host.Outcome State Fault Refusal :=
  .next (s.withPart (s.part.arrive c tag (.health .retired argument)))

/-- HEALTH_SEGMENTS (R22). -/
def execHealthSegments (c : ClientId) (tag : Byte) (argument : Half) (s : State) : Host.Outcome State Fault Refusal :=
  .next (s.withPart (s.part.arrive c tag (.health .segments argument)))

/-- HEALTH_TEMPERATURE (R134). -/
def execHealthTemperature (c : ClientId) (tag : Byte) (argument : Half) (s : State) :
    Host.Outcome State Fault Refusal :=
  .next (s.withPart (s.part.arrive c tag (.health .temperature argument)))

/-- GRANT (R46, R47). -/
def execGrant (c : ClientId) (tag : Byte) (size : Byte) (cls : RegionClass) (lease : Option Half) (s : State) :
    Host.Outcome State Fault Refusal :=
  .next (s.withPart (s.part.arrive c tag (.command (.grant size cls lease))))

/-- RELEASE (R49). -/
def execRelease (c : ClientId) (tag : Byte) (h : Handle) (s : State) : Host.Outcome State Fault Refusal :=
  .next (s.withPart (s.part.arrive c tag (.command (.release h))))

/-- RESIZE (R50 to R54). -/
def execResize (c : ClientId) (tag : Byte) (h : Handle) (size : Byte) (s : State) :
    Host.Outcome State Fault Refusal :=
  .next (s.withPart (s.part.arrive c tag (.command (.resize h size))))

/-- HANDOVER (R55, R56). -/
def execHandover (c : ClientId) (tag : Byte) (h : Handle) (newOwner : ClientId) (s : State) :
    Host.Outcome State Fault Refusal :=
  .next (s.withPart (s.part.arrive c tag (.command (.handover h newOwner))))

/-- SHARE (R57). -/
def execShare (c : ClientId) (tag : Byte) (h : Handle) (base mask : Fin 8) (right : Right) (s : State) :
    Host.Outcome State Fault Refusal :=
  .next (s.withPart (s.part.arrive c tag (.command (.share h base mask right))))

/-- UNSHARE (R58). -/
def execUnshare (c : ClientId) (tag : Byte) (h : Handle) (base mask : Fin 8) (s : State) :
    Host.Outcome State Fault Refusal :=
  .next (s.withPart (s.part.arrive c tag (.command (.unshare h base mask))))

/-- LOCK (R59). -/
def execLock (c : ClientId) (tag : Byte) (h : Handle) (s : State) : Host.Outcome State Fault Refusal :=
  .next (s.withPart (s.part.arrive c tag (.command (.lock h))))

/-- UNLOCK (R61). -/
def execUnlock (c : ClientId) (tag : Byte) (h : Handle) (s : State) : Host.Outcome State Fault Refusal :=
  .next (s.withPart (s.part.arrive c tag (.command (.unlock h))))

/-- WIPE (R62). -/
def execWipe (c : ClientId) (tag : Byte) (h : Handle) (s : State) : Host.Outcome State Fault Refusal :=
  .next (s.withPart (s.part.arrive c tag (.command (.wipe h))))

/-- RENEW (R66). -/
def execRenew (c : ClientId) (tag : Byte) (h : Handle) (s : State) : Host.Outcome State Fault Refusal :=
  .next (s.withPart (s.part.arrive c tag (.renew h)))

/-- DESCRIBE (R67). -/
def execDescribe (c : ClientId) (tag : Byte) (h : Handle) (page : Byte) (s : State) :
    Host.Outcome State Fault Refusal :=
  .next (s.withPart (s.part.arrive c tag (.describe h page)))

/-- LIST (R68). -/
def execList (c : ClientId) (tag : Byte) (s : State) : Host.Outcome State Fault Refusal :=
  .next (s.withPart (s.part.arrive c tag .list))

/-- READ (R83, R86, R87). -/
def execRead (c : ClientId) (tag : Byte) (h : Handle) (offset : Long) (length : Byte) (s : State) :
    Host.Outcome State Fault Refusal :=
  .next (s.withPart (s.part.arrive c tag (.read h offset length)))

/-- WRITE (R83, R91, R92). -/
def execWrite (c : ClientId) (tag : Byte) (h : Handle) (offset : Long) (length : Byte) (payload : List Byte) (s : State) :
    Host.Outcome State Fault Refusal :=
  .next (s.withPart (s.part.arrive c tag (.write h offset length payload)))

/-- VERIFY (R90). -/
def execVerify (c : ClientId) (tag : Byte) (h : Handle) (offset : Long) (length : Byte) (s : State) :
    Host.Outcome State Fault Refusal :=
  .next (s.withPart (s.part.arrive c tag (.verify h offset length)))

/-- FLUSH (R94). -/
def execFlush (c : ClientId) (tag : Byte) (sel : FlushSelector) (s : State) : Host.Outcome State Fault Refusal :=
  .next (s.withPart (s.part.arrive c tag (.flush sel)))

/-- BATCH_OPEN (R70). -/
def execBatchOpen (c : ClientId) (tag : Byte) (s : State) : Host.Outcome State Fault Refusal :=
  .next (s.withPart (s.part.arrive c tag .batchOpen))

/-- BATCH_CLOSE (R74). -/
def execBatchClose (c : ClientId) (tag : Byte) (s : State) : Host.Outcome State Fault Refusal :=
  .next (s.withPart (s.part.arrive c tag .batchClose))

/-- BATCH_DROP (R80). -/
def execBatchDrop (c : ClientId) (tag : Byte) (s : State) : Host.Outcome State Fault Refusal :=
  .next (s.withPart (s.part.arrive c tag .batchDrop))

/-- CONFIGURE_SPARE_TARGET (R9): selector 0. -/
def execConfigureSpareTarget (c : ClientId) (tag : Byte) (client : Byte) (value : Half) (s : State) :
    Host.Outcome State Fault Refusal :=
  .next (s.withPart (s.part.arrive c tag (.configure 0 client value)))

/-- CONFIGURE_RETIRE_THRESHOLD (R140): selector 1. -/
def execConfigureRetireThreshold (c : ClientId) (tag : Byte) (client : Byte) (value : Half) (s : State) :
    Host.Outcome State Fault Refusal :=
  .next (s.withPart (s.part.arrive c tag (.configure 1 client value)))

/-- CONFIGURE_OUTLIER_MARGIN (R140): selector 2. -/
def execConfigureOutlierMargin (c : ClientId) (tag : Byte) (client : Byte) (value : Half) (s : State) :
    Host.Outcome State Fault Refusal :=
  .next (s.withPart (s.part.arrive c tag (.configure 2 client value)))

/-- CONFIGURE_SCRUB_INTERVAL (R140, R143): selector 3. -/
def execConfigureScrubInterval (c : ClientId) (tag : Byte) (client : Byte) (value : Half) (s : State) :
    Host.Outcome State Fault Refusal :=
  .next (s.withPart (s.part.arrive c tag (.configure 3 client value)))

/-- CONFIGURE_IDLE_TIMEOUT (R163): selector 4. -/
def execConfigureIdleTimeout (c : ClientId) (tag : Byte) (client : Byte) (value : Half) (s : State) :
    Host.Outcome State Fault Refusal :=
  .next (s.withPart (s.part.arrive c tag (.configure 4 client value)))

/-- CONFIGURE_QUOTA (R112): selector 5. -/
def execConfigureQuota (c : ClientId) (tag : Byte) (client : Byte) (value : Half) (s : State) :
    Host.Outcome State Fault Refusal :=
  .next (s.withPart (s.part.arrive c tag (.configure 5 client value)))

/-- CONFIGURE_UNKNOWN_SELECTOR (R182): a selector that names no parameter. -/
def execConfigureUnknownSelector (c : ClientId) (tag : Byte) (selector client : Byte) (value : Half) (s : State) :
    Host.Outcome State Fault Refusal :=
  .next (s.withPart (s.part.arrive c tag (.configure selector client value)))

/-- EVICT (R108). -/
def execEvict (c : ClientId) (tag : Byte) (client : Byte) (s : State) : Host.Outcome State Fault Refusal :=
  .next (s.withPart (s.part.arrive c tag (.evict client)))

/-- RETIRE (R157). -/
def execRetire (c : ClientId) (tag : Byte) (frame : Half) (s : State) : Host.Outcome State Fault Refusal :=
  .next (s.withPart (s.part.arrive c tag (.retire frame)))

/-- STANDBY (R165). -/
def execStandby (c : ClientId) (tag : Byte) (s : State) : Host.Outcome State Fault Refusal :=
  .next (s.withPart (s.part.arrive c tag .standby))

/-- POWERDOWN (R172). -/
def execPowerdown (c : ClientId) (tag : Byte) (s : State) : Host.Outcome State Fault Refusal :=
  .next (s.withPart (s.part.arrive c tag .powerdown))

/-- RESET (R184). -/
def execReset (c : ClientId) (tag : Byte) (s : State) : Host.Outcome State Fault Refusal :=
  .next (s.withPart (s.part.arrive c tag .reset))

end Sys2Proof.Machine
end

