-- ==== Sys2Proof/Machine/Dispatch.lean ====
section
/-! DEFINITION. The dispatch of commands to their meanings: one arm per constructor of Instr. -/

namespace Sys2Proof.Machine

/-- The effect of a command on everything but the queue. -/
def exec (i : Instr) (s : State) : Host.Outcome State Fault Refusal :=
  match i with
  | .requestArrival stamp rest => Sys2Proof.Machine.execRequestArrival stamp rest s
  | .attach c tag => Sys2Proof.Machine.execAttach c tag s
  | .detach c tag => Sys2Proof.Machine.execDetach c tag s
  | .notices c tag clear enable => Sys2Proof.Machine.execNotices c tag clear enable s
  | .identify c tag => Sys2Proof.Machine.execIdentify c tag s
  | .healthSummary c tag argument => Sys2Proof.Machine.execHealthSummary c tag argument s
  | .healthFrame c tag argument => Sys2Proof.Machine.execHealthFrame c tag argument s
  | .healthRetired c tag argument => Sys2Proof.Machine.execHealthRetired c tag argument s
  | .healthSegments c tag argument => Sys2Proof.Machine.execHealthSegments c tag argument s
  | .healthTemperature c tag argument => Sys2Proof.Machine.execHealthTemperature c tag argument s
  | .grant c tag size cls lease => Sys2Proof.Machine.execGrant c tag size cls lease s
  | .release c tag h => Sys2Proof.Machine.execRelease c tag h s
  | .resize c tag h size => Sys2Proof.Machine.execResize c tag h size s
  | .handover c tag h newOwner => Sys2Proof.Machine.execHandover c tag h newOwner s
  | .share c tag h base mask right => Sys2Proof.Machine.execShare c tag h base mask right s
  | .unshare c tag h base mask => Sys2Proof.Machine.execUnshare c tag h base mask s
  | .lock c tag h => Sys2Proof.Machine.execLock c tag h s
  | .unlock c tag h => Sys2Proof.Machine.execUnlock c tag h s
  | .wipe c tag h => Sys2Proof.Machine.execWipe c tag h s
  | .renew c tag h => Sys2Proof.Machine.execRenew c tag h s
  | .describe c tag h page => Sys2Proof.Machine.execDescribe c tag h page s
  | .list c tag => Sys2Proof.Machine.execList c tag s
  | .read c tag h offset length => Sys2Proof.Machine.execRead c tag h offset length s
  | .write c tag h offset length payload => Sys2Proof.Machine.execWrite c tag h offset length payload s
  | .verify c tag h offset length => Sys2Proof.Machine.execVerify c tag h offset length s
  | .flush c tag sel => Sys2Proof.Machine.execFlush c tag sel s
  | .batchOpen c tag => Sys2Proof.Machine.execBatchOpen c tag s
  | .batchClose c tag => Sys2Proof.Machine.execBatchClose c tag s
  | .batchDrop c tag => Sys2Proof.Machine.execBatchDrop c tag s
  | .configureSpareTarget c tag client value => Sys2Proof.Machine.execConfigureSpareTarget c tag client value s
  | .configureRetireThreshold c tag client value => Sys2Proof.Machine.execConfigureRetireThreshold c tag client value s
  | .configureOutlierMargin c tag client value => Sys2Proof.Machine.execConfigureOutlierMargin c tag client value s
  | .configureScrubInterval c tag client value => Sys2Proof.Machine.execConfigureScrubInterval c tag client value s
  | .configureIdleTimeout c tag client value => Sys2Proof.Machine.execConfigureIdleTimeout c tag client value s
  | .configureQuota c tag client value => Sys2Proof.Machine.execConfigureQuota c tag client value s
  | .configureUnknownSelector c tag selector client value => Sys2Proof.Machine.execConfigureUnknownSelector c tag selector client value s
  | .evict c tag client => Sys2Proof.Machine.execEvict c tag client s
  | .retire c tag frame => Sys2Proof.Machine.execRetire c tag frame s
  | .standby c tag => Sys2Proof.Machine.execStandby c tag s
  | .powerdown c tag => Sys2Proof.Machine.execPowerdown c tag s
  | .reset c tag => Sys2Proof.Machine.execReset c tag s
  | .leaseExpiry slot => Sys2Proof.Machine.execLeaseExpiry slot s
  | .idleTimerExpiry => Sys2Proof.Machine.execIdleTimerExpiry s
  | .scrubIntervalExpiry => Sys2Proof.Machine.execScrubIntervalExpiry s
  | .refreshSlotExpiry bank => Sys2Proof.Machine.execRefreshSlotExpiry bank s
  | .thermalSample temperature => Sys2Proof.Machine.execThermalSample temperature s
  | .lineReadComplete bank conditions => Sys2Proof.Machine.execLineReadComplete bank conditions s
  | .drainComplete bank => Sys2Proof.Machine.execDrainComplete bank s
  | .wipeStepComplete bank => Sys2Proof.Machine.execWipeStepComplete bank s
  | .copyReadHalfComplete bank conditions => Sys2Proof.Machine.execCopyReadHalfComplete bank conditions s
  | .copyStepComplete bank conditions => Sys2Proof.Machine.execCopyStepComplete bank conditions s
  | .zeroStepComplete bank => Sys2Proof.Machine.execZeroStepComplete bank s
  | .scrubStepComplete bank conditions => Sys2Proof.Machine.execScrubStepComplete bank conditions s
  | .refreshComplete bank => Sys2Proof.Machine.execRefreshComplete bank s
  | .wakingEnd => Sys2Proof.Machine.execWakingEnd s
  | .powerOnReset => Sys2Proof.Machine.execPowerOnReset s
  | .pinReset => Sys2Proof.Machine.execPinReset s
  | .resetRelease => Sys2Proof.Machine.execResetRelease s
  | .trainingEnd => Sys2Proof.Machine.execTrainingEnd s

end Sys2Proof.Machine
end

