-- ==== Sys2Proof/Machine/Time.lean ====
section
/-! DEFINITION. The passage of time on an empty queue (log 3): a step is a quarter of a millisecond, the shortest refresh
slot. Timers that run out put their expiry commands into the queue. -/

namespace Sys2Proof.Machine

/-- A timer after one unit: it stops at 0. -/
def countDown (n : Nat) : Nat := n - 1

/-- Whether a timer runs out at the next unit. -/
def runsOut : Option Nat → Bool
  | some n => n ≤ 1
  | none => false

/-- R127: the slot timers of the banks after a quarter of a millisecond. -/
def Part.countSlots (p : Part) : Part :=
  p.modBanks fun k => { k with slotTimer := k.slotTimer.map countDown }

/-- R40: the leases after a millisecond of ACTIVE. -/
def Part.countLeases (p : Part) : Part :=
  { p with slots := tmap (fun x => { x with region := x.region.map fun r =>
      if r.leaseRuns then { r with lease := r.lease.map fun l => { l with remaining := countDown l.remaining } }
      else r }) p.slots }

/-- The timers of milliseconds after one: leases, idle and scrub timers in ACTIVE (R40, R143, R163), the sampling schedule
in every power state (R130). -/
def Part.countMillisecond (p : Part) : Part :=
  let q := { p with thermal := { p.thermal with timer := countDown p.thermal.timer } }
  if p.power.state == .active then
    { q.countLeases with
      power := { p.power with idleTimer := p.power.idleTimer.map countDown }
      scrub := { p.scrub with timer := p.scrub.timer.map countDown } }
  else q

/-- The slots whose lease runs out at the next millisecond. -/
def Part.leasesEnding (p : Part) : List SlotId :=
  p.slotsWhere fun r => r.leaseRuns && runsOut (r.lease.map (·.remaining))

/-- The expiries of one millisecond: leases by slot, the idle timer, the scrub interval timer. -/
def Part.millisecondExpiries (p : Part) : List Instr :=
  if p.power.state == .active then
    p.leasesEnding.map .leaseExpiry
    ++ (if runsOut p.power.idleTimer then [.idleTimerExpiry] else [])
    ++ (if runsOut p.scrub.timer then [.scrubIntervalExpiry] else [])
  else []

/-- The expiries of one quarter of a millisecond: the slot timers by bank. -/
def Part.slotExpiries (p : Part) : List Instr :=
  (allBanks.filter fun b => runsOut (p.bank b).slotTimer).map .refreshSlotExpiry

/-- A quarter of a millisecond passes; the fourth quarter ends a millisecond (log 5). In reset no timer runs (R176). -/
def tick (s : State) : State :=
  if s.part.hold.isSome then s
  else
    let q := s.part.countSlots
    if s.part.phase < 3 then
      { s with pending := s.pending ++ s.part.slotExpiries, part := { q with phase := s.part.phase + 1 } }
    else
      { s with
        pending := s.pending ++ (s.part.slotExpiries ++ s.part.millisecondExpiries)
        part := { q.countMillisecond with phase := 0 } }

end Sys2Proof.Machine
end

