-- ==== Sys2Proof/Safety.lean ====
section
/-! DEFINITION. What a step keeps: the invariants of the model that the statements are about. -/

namespace Sys2Proof.Machine

/-- R115, R176: every notice line follows its client's enabled flags, and is low in reset. -/
def Part.linesFollow (p : Part) : Prop := ∀ c : ClientId, (p.client c).line = (p.client c).lineLevel p.hold.isSome

/-- The array's contents stand in their canonical form (Memory.wf). -/
def State.storeWf (s : State) : Prop := Memory.wf s.store.cells = true

/-- R105: a client whose next request is taken in the act of its arrival: the part is ACTIVE and out of reset, the client
has nothing queued and nothing executing, and no eviction of it is pending. -/
structure Part.ready (p : Part) (c : ClientId) : Prop where
  released : p.hold = none
  active : p.power.state = .active
  idle : (p.client c).executing = none
  empty : (p.client c).queue = []
  kept : (p.client c).evictionPending = false

/-- A ready client that is ATTACHED. -/
structure Part.free (p : Part) (c : ClientId) : Prop extends Part.ready p c where
  attached : (p.client c).attached = true

/-- R105, R163: the part once a free client's request has been taken and not yet served: the idle timer has restarted. -/
def Part.taken (p : Part) : Part := p.startIdle

/-- The frames of a segment that its claim count counts (R4). -/
def Pool.countedIn (p : Pool) (g : SegId) : Nat :=
  (indices (fun f x => x.state.counted && segmentOf f == g) p.frames).length

/-- R4: every claim count is the number of the segment's frames in CLAIMED, HELD or TARGET. -/
def Pool.claimsAgree (p : Pool) : Prop := ∀ g : SegId, (tget p.segments g).claims = p.countedIn g

/-- R95: no two entries of a queue cover a common line of one region. -/
def disjointEntries (q : List Entry) : Prop :=
  q.Pairwise fun d e => ¬ (d.handle.slot = e.handle.slot ∧ overlaps d.offset d.length e.offset e.length = true)

/-- R38: every poison list ascends and holds at most 16 offsets. -/
def Part.poisonBounded (p : Part) : Prop :=
  ∀ slot r, p.region slot = some r → r.poison.Pairwise (· < ·) ∧ r.poison.length ≤ 16

/-- A client's command on a region: the handle is live and names r, the region is not FILLING, the client owns it and has no
batch open: the common checks pass (R45). -/
structure Part.owns (p : Part) (c : ClientId) (h : RegionHandle) (r : Region) : Prop where
  named : p.named h = some r
  filled : r.state ≠ .filling
  owner : r.owner = c
  unstaged : (p.client c).batch = none

/-- The row of opcode_table.json that is the arrival of a stageable region command. -/
def commandRow (c : ClientId) (tag : Byte) : RegionCommand → Instr
  | .grant size k lease => .grant c tag size k lease
  | .release h => .release c tag h
  | .resize h size => .resize c tag h size
  | .handover h d => .handover c tag h d
  | .share h base mask right => .share c tag h base mask right
  | .unshare h base mask => .unshare c tag h base mask
  | .lock h => .lock c tag h
  | .unlock h => .unlock c tag h
  | .wipe h => .wipe c tag h

/-- The row of opcode_table.json that is the arrival of a request. -/
def requestRow (c : ClientId) (tag : Byte) : Request → Instr
  | .attach => .attach c tag
  | .detach => .detach c tag
  | .notices clear enable => .notices c tag clear enable
  | .identify => .identify c tag
  | .health .summary argument => .healthSummary c tag argument
  | .health .frame argument => .healthFrame c tag argument
  | .health .retired argument => .healthRetired c tag argument
  | .health .segments argument => .healthSegments c tag argument
  | .health .temperature argument => .healthTemperature c tag argument
  | .command cmd => commandRow c tag cmd
  | .renew h => .renew c tag h
  | .describe h page => .describe c tag h page
  | .list => .list c tag
  | .read h offset length => .read c tag h offset length
  | .write h offset length payload => .write c tag h offset length payload
  | .verify h offset length => .verify c tag h offset length
  | .flush sel => .flush c tag sel
  | .batchOpen => .batchOpen c tag
  | .batchClose => .batchClose c tag
  | .batchDrop => .batchDrop c tag
  | .configure selector client value =>
    if selector = 0 then .configureSpareTarget c tag client value
    else if selector = 1 then .configureRetireThreshold c tag client value
    else if selector = 2 then .configureOutlierMargin c tag client value
    else if selector = 3 then .configureScrubInterval c tag client value
    else if selector = 4 then .configureIdleTimeout c tag client value
    else if selector = 5 then .configureQuota c tag client value
    else .configureUnknownSelector c tag selector client value
  | .evict client => .evict c tag client
  | .retire frame => .retire c tag frame
  | .standby => .standby c tag
  | .powerdown => .powerdown c tag
  | .reset => .reset c tag

/-- The rows that can change the array's contents: the completions that read or write lines, the end of WAKING and the
release of a reset. -/
def touchesArray : Instr → Bool
  | .lineReadComplete _ _ => true
  | .drainComplete _ => true
  | .wipeStepComplete _ => true
  | .copyReadHalfComplete _ _ => true
  | .copyStepComplete _ _ => true
  | .zeroStepComplete _ => true
  | .scrubStepComplete _ _ => true
  | .wakingEnd => true
  | .resetRelease => true
  | _ => false

end Sys2Proof.Machine
end

