-- ==== Sys2Proof/Certificates/Slice0/Obligations.lean ====
section
/-! DEFINITION. The statements for the provers. A request statement gives the part that serves the request, before the close
of the act (Part.closeAct: engines, queued heads, arbiters, notice lines). -/

open Sys2Proof Sys2Proof.Machine

/-! ### The block and its steps -/

/-- A step carries out the command at the front of the queue on the rest. -/
def Obligations.StepRunsFrontCommand : Prop :=
  ∀ (s : State) (c : Instr) (rest : List Instr), s.pending = c :: rest → step s = exec c { s with pending := rest }

/-- On an empty queue time passes, a quarter of a millisecond (the model's choice, log 3, 5). Outside reset every slot timer
counts, and with every fourth quarter the sampling schedule and, in ACTIVE, the running leases, the idle timer and the scrub
timer; a timer that reaches 0 puts its expiry into the queue. Nothing else moves. -/
def Obligations.EmptyQueueLetsTimePass : Prop :=
  ∀ s : State, s.pending = [] →
    let t := tick s
    let p := s.part
    let q := t.part
    let ends : Option Nat → Prop := fun x => ∃ n, x = some n ∧ n ≤ 1
    let runs : Region → Prop := fun r => r.state = .live ∨ r.state = .locked ∨ r.state = .faulted ∨ r.state = .lost
    let beat : Prop := 3 ≤ p.phase ∧ p.power.state = .active
    step s = .next t ∧ t.store = s.store ∧ (p.hold ≠ none → t = s) ∧
    (p.hold = none →
      q.phase = (if p.phase < 3 then p.phase + 1 else 0) ∧
      (∀ b, q.bank b = { p.bank b with slotTimer := (p.bank b).slotTimer.map (· - 1) }) ∧
      q.thermal = { p.thermal with timer := if p.phase < 3 then p.thermal.timer else p.thermal.timer - 1 } ∧
      (beat →
        q.power = { p.power with idleTimer := p.power.idleTimer.map (· - 1) } ∧
        q.scrub = { p.scrub with timer := p.scrub.timer.map (· - 1) } ∧
        ∀ slot r, p.region slot = some r →
          (runs r → q.region slot =
            some { r with lease := r.lease.map fun l => { l with remaining := l.remaining - 1 } }) ∧
          (¬ runs r → q.region slot = some r)) ∧
      (¬ beat → q.power = p.power ∧ q.scrub = p.scrub ∧ q.slots = p.slots) ∧
      (∀ slot, q.generation slot = p.generation slot ∧ (p.region slot = none → q.region slot = none)) ∧
      (∀ i, i ∈ t.pending ↔
        (∃ b, i = .refreshSlotExpiry b ∧ ends (p.bank b).slotTimer) ∨
        (beat ∧
          ((∃ slot r, i = .leaseExpiry slot ∧ p.region slot = some r ∧ runs r ∧ ends (r.lease.map (·.remaining))) ∨
            (i = .idleTimerExpiry ∧ ends p.power.idleTimer) ∨
            (i = .scrubIntervalExpiry ∧ ends p.scrub.timer)))) ∧
      q.clients = p.clients ∧ q.pool = p.pool ∧ q.writeQueue = p.writeQueue ∧ q.posting = p.posting ∧
      q.wipeHold = p.wipeHold ∧ q.retire = p.retire ∧ q.zero = p.zero ∧ q.fills = p.fills ∧ q.tx = p.tx ∧
      q.cause = p.cause ∧ q.hold = none)

/-- Every command answers a next state and leaves the queue; requests, timers, samples, the entries of resets, the end of
training and REFRESH leave every byte of the array. -/
def Obligations.EveryCommandAnswersANextState : Prop :=
  ∀ (i : Instr) (s : State), ∃ t, exec i s = .next t ∧ t.pending = s.pending ∧
    (touchesArray i = false → t.store = s.store)

/-- Every step keeps the notice lines at the level of the enabled flags. -/
def Obligations.EveryStepKeepsNoticeLines : Prop :=
  ∀ s t : State, s.part.linesFollow → step s = .next t → t.part.linesFollow

/-- Every step keeps the array's contents in canonical form. -/
def Obligations.EveryStepKeepsArrayCanonical : Prop :=
  ∀ s t : State, s.storeWf → step s = .next t → t.storeWf

/-- The invariants of the step statements hold after reset: the notice lines, the array's form, the claim counts, the write
queue, the poison lists. -/
def Obligations.InvariantsHoldAfterReset : Prop :=
  State.reset.part.linesFollow ∧ State.reset.storeWf ∧ State.reset.part.pool.claimsAgree ∧
  disjointEntries State.reset.part.writeQueue ∧ State.reset.part.poisonBounded

/-- Every well-formed request survives its packet. -/
def Obligations.PacketsCarryRequestsWhole : Prop :=
  ∀ (stamp tag : Byte) (r : Request), r.wf = true →
    decodePacket stamp (encodePacket tag r) = .request (clientOfStamp stamp) tag r

/-- A response stands behind the earlier ones (log 14) with its client's attention indicator, and changes nothing else. A
notice sets its flag for one client and changes nothing else of any client. At the close of an act every line is at the level
of the enabled flags, and low in reset. -/
def Obligations.ResponsesNoticesAndLines : Prop :=
  ∀ (p : Part) (c d : ClientId),
    (∀ code tag st body, p.answer c code tag st body =
      { p with tx := p.tx ++ [⟨c, code, tag, st, (p.client c).flags != 0, body⟩] }) ∧
    (∀ n : Notice, (p.notify n c).client d =
      if c = d then { p.client c with flags := (p.client c).flags ||| n.bit } else p.client d) ∧
    (p.closeAct.client d).line =
      (p.closeAct.hold.isNone && (p.closeAct.client d).flags &&& (p.closeAct.client d).enable != 0)

/-- With no request queued, the close of an act leaves the power state and timers, the thermal monitor, the reset cause,
the parameters, the health totals, the scrub cursor and count, and every client's quota and enable set. -/
def Obligations.CloseOfAnActKeeps : Prop :=
  ∀ p : Part, p.queued = 0 →
    p.closeAct.power = p.power ∧ p.closeAct.thermal = p.thermal ∧ p.closeAct.hold = p.hold ∧
    p.closeAct.cause = p.cause ∧ p.closeAct.phase = p.phase ∧ p.closeAct.pool.spareTarget = p.pool.spareTarget ∧
    p.closeAct.retire.threshold = p.retire.threshold ∧ p.closeAct.retire.margin = p.retire.margin ∧
    p.closeAct.retire.totalCorrected = p.retire.totalCorrected ∧
    p.closeAct.retire.totalUncorrectable = p.retire.totalUncorrectable ∧
    p.closeAct.scrub.cursor = p.scrub.cursor ∧ p.closeAct.scrub.passes = p.scrub.passes ∧
    p.closeAct.scrub.interval = p.scrub.interval ∧
    (∀ c, (p.closeAct.client c).quota = (p.client c).quota ∧ (p.closeAct.client c).enable = (p.client c).enable)

/-- A request stands last in its client's queue while that client executes one, has one queued or is being evicted, and in
STANDBY, WAKING and for client 0 DOWN, where WAKING begins; a fifth is QUEUE_FULL. In DOWN another client's is POWERED_DOWN.
At the close of an act the engines act, then the head of the lowest client that may be taken is taken as an arriving request
is, the engines follow it, and so on; then the free banks choose and the notice lines follow. Three points of this are the
model's: that the lowest client's head goes first (log 10, DESIGN CHOICE), where in the act the engines act (log 11, DEDUCED),
and that a bank freed in the act chooses at its end (log 9, DEDUCED). -/
def Obligations.RequestsWaitAndAreTaken : Prop :=
  (∀ (s : State) (c : ClientId) (tag : Byte) (r : Request), s.part.hold = none → r.wf = true →
    let p := s.part
    let k := p.client c
    let queued := p.modClient c fun x => { x with queue := x.queue ++ [⟨tag, r⟩] }
    let after : Part → Prop := fun q => exec (requestRow c tag r) s = .next (s.withPart q.closeAct)
    (4 ≤ k.queue.length →
      exec (requestRow c tag r) s = .next (s.withPart (p.answer c r.code tag .queueFull []))) ∧
    (k.queue.length < 4 →
      (p.ready c → after (p.take c tag r)) ∧
      ((p.power.state = .active ∨ p.power.state = .initializing) →
        (k.queue ≠ [] ∨ k.executing ≠ none ∨ k.evictionPending = true) → after queued) ∧
      (p.power.state = .standby → after (queued.setPower (.waking .standby))) ∧
      (∀ o, p.power.state = .waking o → after queued) ∧
      (p.power.state = .down → c = 0 → after (queued.setPower (.waking .down))) ∧
      (p.power.state = .down → c ≠ 0 → k.queue = [] → k.executing = none → k.evictionPending = false →
        after (p.answer c r.code tag .poweredDown [])))) ∧
  (∀ (p : Part) (n : Nat),
    let may : ClientId → Prop := fun d => (p.client d).queue ≠ [] ∧ p.hold = none ∧ (p.client d).executing = none ∧
      (p.client d).evictionPending = false ∧
      (p.power.state = .active ∨ p.power.state = .initializing ∨ (p.power.state = .down ∧ d ≠ 0))
    ((∀ d, ¬ may d) → takeRounds n p = p) ∧
    (∀ c x rest, may c → (∀ d, d < c → ¬ may d) → (p.client c).queue = x :: rest →
      takeRounds (n + 1) p =
        takeRounds n ((p.modClient c fun k => { k with queue := rest }).take c x.tag x.request).engines)) ∧
  (∀ p : Part, p.closeAct = (takeRounds p.queued p.engines).arbitrate.driveLines ∧
    p.queued = (allClients.map fun c => (p.client c).queue.length).sum)

/-! ### Completions of bank operations -/

/-- A DRAIN writes its entry's payload into its frame's lines and no other byte, unless live is clear: then the entry had
left the queue before (log 24). The entry leaves the queue, the poison offsets of its lines go, the in-use count falls by 1
and a RELEASING region at 0 is freed. A READ or VERIFY proceeds when its wait set (named by offsets, log 23) has emptied: it
issues its LINE READ, or ends without one; FLUSHes are tested (FlushAnswersWhenDrained). The oldest WRITE that room and the
other entries allow is posted, again and again; an entry without a current frame is discarded at once. What one leaving
entry lets go is answered READs and VERIFYs first, then FLUSHes, each in ascending client number: where the rules list no order,
the model's choice (log 17, and log 32 for a shrink's discards). The queue is heavy at 24 entries. -/
def Obligations.DrainWritesItsEntry : Prop :=
  (∀ (s : State) (b : BankId) (e : Entry) (f : FrameId) (live : Bool),
    (s.part.bank b).running = some ⟨.drain e f, live⟩ →
    ∃ t, exec (.drainComplete b) s = .next t ∧ t.pending = s.pending ∧
      t.part = (if live then (s.part.freeBank b).drained e else s.part.freeBank b).closeAct ∧
      (∀ k, ∀ h : k < e.payload.length,
        Memory.read t.store.cells (lineAddress f (e.offset % 1024) + k) = some e.payload[k]) ∧
      (∀ a, (a < lineAddress f (e.offset % 1024) ∨ lineAddress f (e.offset % 1024) + e.payload.length ≤ a) →
        Memory.read t.store.cells a = Memory.read s.store.cells a)) ∧
  (∀ (p : Part) (e : Entry), ∃ q : Part,
    p.drained e = (allClients.foldl Part.testFlush (allClients.foldl (Part.leaveSet e) q)).postWrites ∧
    (∀ d, d ∈ q.writeQueue ↔ d ∈ p.writeQueue ∧ ¬ (d.handle.slot = e.handle.slot ∧ d.offset = e.offset)) ∧
    (∀ slot, slot ≠ e.handle.slot → q.region slot = p.region slot) ∧
    (∀ r, p.region e.handle.slot = some r →
      (r.state = .releasing → r.inUse ≤ 1 → q.region e.handle.slot = none) ∧
      (¬ (r.state = .releasing ∧ r.inUse ≤ 1) → q.region e.handle.slot = some { r with
        poison := r.poison.filter fun x => decide (x < e.offset ∨ e.offset + e.length ≤ x)
        inUse := r.inUse - 1 })) ∧
    q.clients = p.clients ∧ q.posting = p.posting ∧ q.tx = p.tx) ∧
  (∀ p : Part, p.heavy = decide (24 ≤ p.writeQueue.length)) ∧
  (∀ (p : Part) (e : Entry) (c : ClientId),
    (∀ (tag : Byte) (verify : Bool) (a : Access) (ws : List Nat),
      (p.client c).executing = some ⟨tag, .read verify a (.ordering ws)⟩ →
      let left := ws.filter fun o => o != e.offset
      (a.handle.slot = e.handle.slot → e.offset ∈ ws → left = [] → Part.leaveSet e p c = p.proceedRead c) ∧
      (a.handle.slot = e.handle.slot → e.offset ∈ ws → left ≠ [] →
        Part.leaveSet e p c = p.execute c tag (.read verify a (.ordering left))) ∧
      (¬ (a.handle.slot = e.handle.slot ∧ e.offset ∈ ws) → Part.leaveSet e p c = p)) ∧
    ((∀ verify a ws, p.work c ≠ some (.read verify a (.ordering ws))) → Part.leaveSet e p c = p)) ∧
  (∀ (p : Part) (c : ClientId) (tag : Byte) (verify : Bool) (a : Access) (phase : ReadPhase) (r : Region),
    (p.client c).executing = some ⟨tag, .read verify a phase⟩ → p.region a.handle.slot = some r →
    let ended : Status → List Byte → Part := fun st body =>
      ((p.modClient c fun k => { k with executing := none }).answer c (if verify then 34 else 32) tag st body).endUse
        a.handle.slot
    (∀ x, verify = false → r.poison.find? (inRange a.offset a.length) = some x →
      p.proceedRead c = ended .uncorrectable (bytes4 x)) ∧
    ((verify = true ∨ ∀ x ∈ r.poison, ¬ (a.offset ≤ x ∧ x < a.offset + a.length)) →
      (r.frames[a.offset / 1024]? = none → p.proceedRead c = ended .badRange []) ∧
      (∀ f, r.frames[a.offset / 1024]? = some f → p.proceedRead c =
        (p.execute c tag (.read verify a .issued)).issueRead ⟨c, f, a.offset % 1024, a.length⟩))) ∧
  (∀ p : Part, p.postWrites = postRounds p.posting.length p ∧ postRounds 0 p = p ∧
    ∀ n,
      ((∀ c ∈ p.posting, p.postable c = false) → postRounds (n + 1) p = p) ∧
      (∀ older c younger, p.posting = older ++ c :: younger → (∀ d ∈ older, p.postable d = false) →
        p.postable c = true → postRounds (n + 1) p = postRounds n (p.post c))) ∧
  (∀ (p : Part) (c : ClientId), p.postable c = true ↔
    ∃ a payload, p.work c = some (.write a payload .posting) ∧ p.writeQueue.length < 32 ∧
      ∀ e ∈ p.writeQueue, e.handle.slot = a.handle.slot →
        ¬ (e.offset < a.offset + a.length ∧ a.offset < e.offset + e.length)) ∧
  (∀ (p : Part) (c : ClientId) (tag : Byte) (a : Access) (payload : List Byte) (phase : WritePhase),
    (p.client c).executing = some ⟨tag, .write a payload phase⟩ →
    let e : Entry := ⟨c, a.handle, a.offset, a.length, payload⟩
    let homeless : Prop := ∀ r, p.region a.handle.slot = some r → r.frames.length ≤ a.offset / 1024
    let posted := (({ p with posting := p.posting.filter (· != c), writeQueue := p.writeQueue ++ [e] } : Part).modClient c
      fun k => { k with executing := none }).answer c 33 tag .done []
    (¬ homeless → p.post c = posted) ∧ (homeless → p.post c = posted.discard e)) ∧
  (∀ (p : Part) (e : Entry), ∃ q : Part,
    p.discard e = allClients.foldl Part.testFlush (allClients.foldl (Part.leaveSet e) q) ∧
    (∀ d, d ∈ q.writeQueue ↔ d ∈ p.writeQueue ∧ ¬ (d.handle.slot = e.handle.slot ∧ d.offset = e.offset)) ∧
    (∀ slot, slot ≠ e.handle.slot → q.region slot = p.region slot) ∧
    (∀ r, p.region e.handle.slot = some r →
      (r.state = .releasing → r.inUse ≤ 1 → q.region e.handle.slot = none) ∧
      (¬ (r.state = .releasing ∧ r.inUse ≤ 1) →
        q.region e.handle.slot = some { r with inUse := r.inUse - 1 })) ∧
    (∀ b d f live, (p.bank b).running = some ⟨.drain d f, live⟩ → d.handle.slot = e.handle.slot → d.offset = e.offset →
      (q.bank b).running = some ⟨.drain d f, false⟩) ∧
    q.clients = p.clients ∧ q.posting = p.posting ∧ q.tx = p.tx)

/-- A WIPE STEP and a ZERO STEP write zeros to their 64 lines and no other byte; the issuer goes on, unless it has given the
step up (live clear, log 24). -/
def Obligations.StepsThatZeroLines : Prop :=
  ∀ (s : State) (b : BankId) (f : FrameId) (n : Nat) (live : Bool),
    (∀ slot, (s.part.bank b).running = some ⟨.wipeStep slot f n, live⟩ →
      exec (.wipeStepComplete b) s = .next { s with
        store := s.store.zeroStep f n
        part := (if live then (s.part.freeBank b).wipeStepped slot else s.part.freeBank b).closeAct }) ∧
    ((s.part.bank b).running = some ⟨.zeroStep f n, live⟩ →
      exec (.zeroStepComplete b) s = .next { s with
        store := s.store.zeroStep f n
        part := (if live then (s.part.freeBank b).zeroStepped f n else s.part.freeBank b).closeAct }) ∧
    (∀ a, lineAddress f (64 * n) ≤ a → a < lineAddress f (64 * n) + 4096 →
      Memory.read (s.store.zeroStep f n).cells a = some 0) ∧
    (∀ a, (a < lineAddress f (64 * n) ∨ lineAddress f (64 * n) + 4096 ≤ a) →
      Memory.read (s.store.zeroStep f n).cells a = Memory.read s.store.cells a)

/-- COPY STEP: inside a bank it copies 64 lines, zeros for an uncorrectable one; no other byte changes, but that an
uncorrectable line's contents become unknown (log 7). Across banks the read half hands its lines to the target bank, whose
write half writes them. The lines are reported with the write half, with the conditions that the read found (log 8, 12), and
the cursor rises, unless the migration was aborted (live clear, log 24). -/
def Obligations.CopyStepCopiesLines : Prop :=
  ∀ (s : State) (b : BankId) (src dst : FrameId) (n : Nat) (live : Bool) (cs : List LineCondition), n < 16 →
    (src ≠ dst → (s.part.bank b).running = some ⟨.copy (.whole src dst n), live⟩ →
      ∃ t, exec (.copyStepComplete b cs) s = .next t ∧
        (let q := (s.part.freeBank b).reportLines src (64 * n) 64 cs
         t.part = (if live then q.copyStepped else q).closeAct) ∧
        (∀ k, k < 4096 → Memory.read t.store.cells (lineAddress dst (64 * n) + k) =
          if conditionAt cs (k / 64) = .uncorrectable then some 0
          else Memory.read s.store.cells (lineAddress src (64 * n) + k)) ∧
        (∀ a, (a < lineAddress dst (64 * n) ∨ lineAddress dst (64 * n) + 4096 ≤ a) →
          (∀ k, k < 64 → conditionAt cs k = .uncorrectable →
            a < lineAddress src (64 * n + k) ∨ lineAddress src (64 * n + k) + 64 ≤ a) →
          Memory.read t.store.cells a = Memory.read s.store.cells a)) ∧
    ((s.part.bank b).running = some ⟨.copy (.readHalf src dst n), live⟩ →
      ∃ t, exec (.copyReadHalfComplete b cs) s = .next t ∧
        t.store = s.store.forgetLines src (64 * n) (linesFound .uncorrectable cs 64) ∧
        t.part = (if live then
            (s.part.freeBank b).modBank (bankOf dst) fun k =>
              { k with copy := some (.writeHalf src dst n (s.store.copyLines src n cs) cs) }
          else (s.part.freeBank b).reportLines src (64 * n) 64 cs).closeAct) ∧
    (∀ lines found, (s.part.bank b).running = some ⟨.copy (.writeHalf src dst n lines found), live⟩ →
      ∃ t, exec (.copyStepComplete b cs) s = .next t ∧
        t.store = s.store.placeStep dst n lines ∧
        (let q := (s.part.freeBank b).reportLines src (64 * n) 64 found
         t.part = (if live then q.copyStepped else q).closeAct))

/-- A LINE READ reports its lines, and its READ or VERIFY is answered unless it was given up (live clear, log 24):
UNCORRECTABLE with the lowest bad offset, else DONE with the count or the data: the bytes as they stand, and for a byte of
unknown contents the free value of this reading (log 6). The client is idle again and the in-use count falls. The bytes of
an uncorrectable line become unknown (log 7); every other byte stays. One accepted before a soft reset reports by the state
at the report too (log 34). -/
def Obligations.LineReadAnswersItsRequest : Prop :=
  (∀ (s : State) (b : BankId) (r : LineRead) (live : Bool) (cs : List LineCondition),
    (s.part.bank b).running = some ⟨.lineRead r, live⟩ →
    let q := (s.part.freeBank b).reportLines r.frame r.line r.length cs
    ∃ t, exec (.lineReadComplete b cs) s = .next t ∧ t.pending = s.pending ∧ t.store.draws = s.store.draws + 1 ∧
      t.part = (if live then q.answerRead r.client cs (s.store.data r.frame r.line r.length) else q).closeAct ∧
      (∀ k j, k < r.length → conditionAt cs k = .uncorrectable → j < 64 →
        Memory.read t.store.cells (lineAddress r.frame (r.line + k) + j) = none) ∧
      (∀ a, (∀ k, k < r.length → conditionAt cs k = .uncorrectable →
          a < lineAddress r.frame (r.line + k) ∨ lineAddress r.frame (r.line + k) + 64 ≤ a) →
        Memory.read t.store.cells a = Memory.read s.store.cells a)) ∧
  (∀ (w : Store) (f : FrameId) (line n : Nat), (w.data f line n).length = 64 * n ∧
    ∀ k, k < 64 * n → (w.data f line n)[k]? = some
      ((Memory.read w.cells (lineAddress f line + k)).getD (Config.unknownByte w.draws (lineAddress f line + k)))) ∧
  (∀ (p : Part) (c : ClientId) (a : Access) (r : Region) (cs : List LineCondition) (data : List Byte)
    (verify : Bool) (phase : ReadPhase), p.work c = some (.read verify a phase) →
    p.region a.handle.slot = some r →
    let bad : Nat → Prop := fun x => a.offset ≤ x ∧ x < a.offset + a.length ∧
      (conditionAt cs (x - a.offset) = .uncorrectable ∨ x ∈ r.poison)
    let count := byte (linesFound .corrected cs a.length).length
    ((∀ x, ¬ bad x) → p.answerRead c cs data =
      (p.finish c .done (if verify then [count, 0, 0, 0, 0, 0] else data)).endUse a.handle.slot) ∧
    (∀ x, bad x → (∀ y, bad y → x ≤ y) → p.answerRead c cs data =
      (p.finish c .uncorrectable (if verify then [count, 1] ++ bytes4 x else bytes4 x)).endUse a.handle.slot)) ∧
  (∀ (p : Part) (c : ClientId) (a : Access) (tag : Byte) (verify : Bool) (phase : ReadPhase) (st : Status)
    (body : List Byte) (slot : SlotId), (p.client c).executing = some ⟨tag, .read verify a phase⟩ →
    p.finish c st body =
      (p.modClient c fun k => { k with executing := none }).answer c (if verify then 34 else 32) tag st body ∧
    p.endUse slot = (p.modRegion slot fun r => { r with inUse := r.inUse - 1 }).freeRegion slot)

/-! ### Frame health, zeroing, migration -/

/-- Lines are reported in ascending order. A corrected line raises its frame's count and the total; a CLAIMED or HELD frame
that fails a test is doomed. An uncorrectable line likewise, dooms without a test and, in a frame list, damages the region
(Part.damage: whom it tells stands here, what it leaves of the record in PoisonListStaysBounded). A doomed frame that is HELD
in the frame list of a region not RELEASING joins a retire queue of fewer than 16. The state at the report decides, also for a
line read before a soft reset whose frame a region holds again (log 34, DEDUCED). -/
def Obligations.ReportedLinesCountAndDoomFrames : Prop :=
  ∀ (p : Part) (f : FrameId),
    let g := p.frame f
    let sound : Prop := (g.state = .claimed ∨ g.state = .held) ∧ g.doomed = false
    (∀ line cs, p.reportLines f line 0 cs = p ∧ ∀ n, p.reportLines f line (n + 1) cs =
      match conditionAt cs n with
      | .good => p.reportLines f line n cs
      | .corrected => (p.reportLines f line n cs).reportCorrected f (line + n)
      | .uncorrectable => (p.reportLines f line n cs).reportUncorrectable f (line + n)) ∧
    (∀ line,
      let n := min 65535 (g.corrected + 1)
      let counted : Part := { (p.modFrame f fun x => { x with corrected := n, lastCorrected := some line }) with
        retire := { p.retire with totalCorrected := min 4294967295 (p.retire.totalCorrected + 1) } }
      let serving := (List.finRange 4096).filter fun x => (p.frame x).state != .retired
      let mean := (serving.map fun x => if x = f then n else (p.frame x).corrected).sum / serving.length
      let fails : Prop :=
        p.retire.threshold ≤ n ∨ (p.retire.margin ≠ 0 ∧ mean + p.retire.margin ≤ n)
      (sound ∧ fails → p.reportCorrected f line = counted.doom f) ∧
      (¬ (sound ∧ fails) → p.reportCorrected f line = counted)) ∧
    (∀ line,
      let counted : Part := { (p.modFrame f fun x => { x with uncorrectable := min 255 (x.uncorrectable + 1) }) with
        retire := { p.retire with totalUncorrectable := min 4294967295 (p.retire.totalUncorrectable + 1) } }
      ∀ judged : Part, (sound → judged = counted.doom f) → (¬ sound → judged = counted) →
        (p.placeOf f = none → p.reportUncorrectable f line = judged) ∧
        (∀ x, p.placeOf f = some x →
          p.reportUncorrectable f line = judged.damage x (1024 * x.entry + line))) ∧
    (∀ x, p.placeOf f = some x ↔
      g.region = some x.slot ∧ p.region x.slot = some x.region ∧
        x.region.frames.findIdx? (· == f) = some x.entry) ∧
    (let q := p.doom f
     let joins : Prop := g.state = .held ∧ f ∉ p.retire.queue ∧ p.retire.queue.length < 16 ∧
       ∃ x, p.placeOf f = some x ∧ x.region.state ≠ .releasing
     (∀ x, q.frame x = if x = f then { g with doomed := true } else p.frame x) ∧
     q.slots = p.slots ∧ q.clients = p.clients ∧
     (joins → q.retire = { p.retire with queue := p.retire.queue ++ [f] }) ∧
     (¬ joins → q.retire = p.retire)) ∧
    (∀ (x : Place) (o : Nat),
      let tells : Notice → Prop := fun n => ∀ c, ((p.damage x o).client c).flags =
        if c = x.region.owner ∨ x.region.inMatchSet c = true then (p.client c).flags ||| n.bit
        else (p.client c).flags
      (x.region.state ≠ .releasing → o ∉ x.region.poison → x.region.poison.length < 16 → tells .damage) ∧
      ((x.region.state = .live ∨ x.region.state = .locked) → o ∉ x.region.poison → 16 ≤ x.region.poison.length →
        tells .fault) ∧
      ((x.region.state = .releasing ∨ o ∈ x.region.poison ∨ (16 ≤ x.region.poison.length ∧
          x.region.state ≠ .live ∧ x.region.state ≠ .locked)) → p.damage x o = p))

/-- The last ZERO STEP of a DIRTY frame makes it SPARE during a shortfall and FREE otherwise; that of a CLAIMED frame makes it
HELD and completes the fill that has no CLAIMED frame left: the region is LIVE or has its extension, and GRANT or RESIZE is
answered. The doomed frames of an extension that joins the frame list stand behind the retire queue in extension order, as far
as it holds fewer than 16. The engine then takes the first CLAIMED frame of the oldest fill that has one, else the lowest
DIRTY frame. -/
def Obligations.ZeroingRefillsAndCompletes : Prop :=
  ∀ p : Part,
    let claimed : Fill → List FrameId := fun x => match p.region x.slot with
      | some r => (if x.extension then r.extension.getD [] else r.frames).filter fun f => (p.frame f).state == .claimed
      | none => []
    let started : FrameId → Nat → Part := fun f n =>
      ({ p with zero := ⟨some f, n⟩ } : Part).modBank (bankOf f) fun k => { k with zero := some (f, n) }
    let ended : Part := { p with zero := ⟨none, 0⟩ }
    (∀ old x new f rest, p.fills = old ++ x :: new → (∀ y ∈ old, claimed y = []) → claimed x = f :: rest →
      p.zeroChoice = some f) ∧
    ((∀ x ∈ p.fills, claimed x = []) → ∀ f, p.zeroChoice = some f ↔
      (p.frame f).state = .dirty ∧ ∀ g, g < f → (p.frame g).state ≠ .dirty) ∧
    (∀ f, p.hold = none → p.power.state = .active → p.zero.current = none → p.zeroChoice = some f →
      p.selectZero = started f 0) ∧
    (∀ f n, n < 15 →
      (p.hold = none → p.power.state = .active → p.zeroStepped f n = started f (n + 1)) ∧
      ((p.hold ≠ none ∨ p.power.state ≠ .active) →
        p.zeroStepped f n = { p with zero := ⟨some f, n + 1⟩ })) ∧
    (∀ f, ((p.frame f).state = .dirty → p.zeroStepped f 15 = { ended with
        pool := p.pool.leave f (if p.pool.count .spare < p.pool.spareTarget then .spare else .free) }) ∧
      ((p.frame f).state = .claimed → p.zeroStepped f 15 =
        ((ended.modFrame f fun g => { g with state := .held }).joinQueue f).completeFills) ∧
      ((p.frame f).state ≠ .dirty → (p.frame f).state ≠ .claimed → p.zeroStepped f 15 = ended)) ∧
    ((∀ x ∈ p.fills, claimed x ≠ []) → p.completeFills = p) ∧
    (∀ old x new, p.fills = old ++ x :: new → claimed x = [] → (∀ y ∈ old ++ new, claimed y ≠ []) →
      p.completeFills = p.completeFill x) ∧
    (∀ x r, p.region x.slot = some r →
      let q := p.completeFill x
      let answered : ClientId → Byte → Byte → List Byte → Prop := fun c code tag body =>
        (q.client c).executing = none ∧ ∃ attention, ⟨c, code, tag, .done, attention, body⟩ ∈ q.tx
      q.fills = p.fills.filter (· != x) ∧
      (x.extension = false → q.region x.slot = some { r with state := .live } ∧
        ∀ c tag, (p.client c).executing = some ⟨tag, .waiting (.fill x.slot)⟩ →
          answered c 16 tag [byte x.slot.val, p.generation x.slot, byte r.frames.length, r.cls.code]) ∧
      (x.extension = true →
        q.region x.slot = some { r with frames := r.frames ++ r.extension.getD [], extension := none } ∧
        ∀ c tag, (p.client c).executing = some ⟨tag, .waiting (.extension x.slot)⟩ →
          answered c 18 tag [byte (r.frames ++ r.extension.getD []).length]) ∧
      (x.extension = false → q.retire = p.retire) ∧
      (∀ ext, x.extension = true → r.extension = some ext → r.state ≠ .releasing → ext.Nodup →
        (∀ f ∈ ext, (p.frame f).state = .held ∧ (p.frame f).region = some x.slot ∧ f ∉ p.retire.queue) →
        q.retire = { p.retire with queue := p.retire.queue ++
          (ext.filter fun f => (p.frame f).doomed).take (16 - p.retire.queue.length) }) ∧
      q.pool = p.pool)

/-- The retire queue is filled with the waiting doomed frames in ascending order. The engine is IDLE without a head, BLOCKED
while its region has a WIPE, NO_TARGET with RESERVE without a fitting frame; else the lowest fitting SPARE, or FREE, frame is
TARGET and COPY STEP 0 is issued, or for a LOST region the switch is made. Each step moves the cursor; at 1024 the target is
HELD in the source's entry and the source RETIRED. An abort ends the field and the waiting step. In each act the waits of
WIPEs, then the zeroing engine's frame are tested, then, while ACTIVE, an engine that is not COPYING evaluates (Part.react);
that order is the model's (log 11, DEDUCED), and so are that an engine whose migration was switched or aborted is IDLE until
it evaluates, also outside ACTIVE (log 20, DESIGN CHOICE), and that COPY STEP 0 is issued in the act of the selection also
while a step that a bank accepted for an ended migration is in progress (log 35, DESIGN CHOICE). -/
def Obligations.MigrationReplacesDoomedFrames : Prop :=
  ∀ p : Part,
    let issued : Part → FrameId → FrameId → Nat → Part := fun q f t n => q.modBank (bankOf f) fun k =>
      { k with copy := some (if bankOf f = bankOf t then .whole f t n else .readHalf f t n) }
    let waits : FrameId → Prop := fun f => (p.frame f).doomed = true ∧ (p.frame f).state = .held ∧
      f ∉ p.retire.queue ∧ ∃ x, p.placeOf f = some x ∧ x.region.state ≠ .releasing
    let switched : Part → Place → FrameId → FrameId → Prop := fun q x f t =>
      q.region x.slot = some { x.region with frames := x.region.frames.set x.entry t, migration := none } ∧
      (q.frame t).state = .held ∧ (q.frame t).region = some x.slot ∧
      (q.frame f).state = .retired ∧ (q.frame f).region = none ∧ (q.frame f).doomed = false ∧
      q.retire = { p.retire with queue := p.retire.queue.filter (· != f), engine := .idle }
    (∀ l : List FrameId, l.Pairwise (· < ·) → (∀ f, f ∈ l ↔ waits f) → p.refillQueue =
      { p with retire := { p.retire with queue := p.retire.queue ++ l.take (16 - p.retire.queue.length) } }) ∧
    (p.retire.queue = [] → p.evaluateHead = { p with retire := { p.retire with engine := .idle } }) ∧
    (∀ f rest x, p.retire.queue = f :: rest → p.placeOf f = some x →
      let fits : FrameState → FrameId → Prop := fun st t => (p.frame t).state = st ∧
        ((tget p.pool.segments (segmentOf t)).cls = segmentClass x.region.cls ∨
          (tget p.pool.segments (segmentOf t)).cls = .unclaimed)
      let lowest : FrameState → FrameId → Prop := fun st t => fits st t ∧ ∀ g, g < t → ¬ fits st g
      (x.region.wipe ≠ none → p.evaluateHead = { p with retire := { p.retire with engine := .blocked } }) ∧
      (x.region.wipe = none → (∀ t, ¬ fits .spare t ∧ ¬ fits .free t) →
        (p.retire.engine = .noTarget → p.evaluateHead = p) ∧
        (p.retire.engine ≠ .noTarget → p.evaluateHead =
          { p.notify .reserve 0 with retire := { p.retire with engine := .noTarget } })) ∧
      (∀ t, x.region.wipe = none → (p.frame f).state = .held →
        (lowest .spare t ∨ ((∀ g, ¬ fits .spare g) ∧ lowest .free t)) →
        let q := p.evaluateHead
        (x.region.state ≠ .lost →
          q.region x.slot = some { x.region with migration := some ⟨x.entry, f, t, 0⟩ } ∧
          q.retire = { p.retire with engine := .copying } ∧
          (q.frame t).state = .target ∧ (q.frame t).region = some x.slot ∧
          (q.bank (bankOf f)).copy = some (if bankOf f = bankOf t then .whole f t 0 else .readHalf f t 0)) ∧
        (x.region.state = .lost → switched q x f t))) ∧
    (∀ slot r m, p.region slot = some r → r.migration = some m →
      (∀ u x, u < slot → p.region u = some x → x.migration = none) →
      let moved := p.modRegion slot fun y => { y with migration := some { m with cursor := m.cursor + 64 } }
      (m.cursor + 64 < 1024 →
        (p.hold = none → p.power.state = .active →
          p.copyStepped = issued moved m.source m.target ((m.cursor + 64) / 64)) ∧
        ((p.hold ≠ none ∨ p.power.state ≠ .active) → p.copyStepped = moved)) ∧
      (1024 ≤ m.cursor + 64 → p.retire.engine = .copying → m.source ≠ m.target →
        switched p.copyStepped ⟨slot, r, m.index⟩ m.source m.target)) ∧
    (∀ slot r m st, p.region slot = some r → r.migration = some m →
      let q := p.abortMigration slot st
      q.region slot = some { r with migration := none } ∧
      q.frame m.target = { p.frame m.target with state := st, region := none, doomed := false } ∧
      (∀ f, f ≠ m.target → q.frame f = p.frame f) ∧
      (∀ b, (q.bank b).copy = none ∧ (q.bank b).copyWait = 0 ∧
        ∀ y live, (q.bank b).running ≠ some ⟨.copy y, live⟩ ∨ live = false) ∧
      q.retire = { p.retire with engine := if p.retire.engine = .copying then .idle else p.retire.engine }) ∧
    (p.react = p.testWipes.checkZero.evaluate ∧
      (∀ f, p.zero.current = some f → (p.frame f).state ≠ .retired → p.checkZero = p) ∧
      (∀ f, p.zero.current = some f → (p.frame f).state = .retired → p.checkZero.zero.current = none) ∧
      ((p.hold ≠ none ∨ p.power.state ≠ .active ∨ p.retire.engine = .copying) → p.evaluate = p.refillQueue) ∧
      (p.hold = none → p.power.state = .active → p.retire.engine ≠ .copying →
        p.refillQueue.evaluateHead.retire.queue = p.refillQueue.retire.queue →
        p.evaluate = p.refillQueue.evaluateHead))

/-! ### Timers, samples, waking, resets -/

/-- The expiry of a lease, its remaining time at 0, releases the region and tells its owner; while time remains the expiry
does not happen and the command changes nothing (log 2, 4). -/
def Obligations.LeaseExpiryReleases : Prop :=
  ∀ (s : State) (slot : SlotId) (r : Region) (l : Lease), s.part.hold = none → s.part.power.state = .active →
    s.part.region slot = some r → r.lease = some l →
    (r.state = .live ∨ r.state = .locked ∨ r.state = .faulted ∨ r.state = .lost) →
    (l.remaining = 0 → exec (.leaseExpiry slot) s =
      .next (s.withPart (((s.part.enterReleasing slot r).notify .leaseExpired r.owner).endRelease slot).closeAct)) ∧
    (l.remaining ≠ 0 → exec (.leaseExpiry slot) s = .next s)

/-- The scrub timer's expiry, at 0, takes the next frame from the cursor upward, then from 0: HELD, no migration source, its
region not LOST; without one the timer starts again. A SCRUB STEP reports its lines and is followed by the next one, or after
the sixteenth by the timer, unless the frame was given up (live clear, log 24); an uncorrectable line's bytes become
unknown (log 7), every other byte stays. -/
def Obligations.ScrubExpiryTakesNextFrame : Prop :=
  (∀ s : State, s.part.hold = none → s.part.power.state = .active →
    let fits : FrameId → Prop := fun f => (s.part.frame f).state = .held ∧
      (∀ slot r m, s.part.region slot = some r → r.migration = some m → m.source ≠ f) ∧
      (∀ slot r, (s.part.frame f).region = some slot → s.part.region slot = some r → r.state ≠ .lost)
    (s.part.scrub.timer ≠ some 0 → exec .scrubIntervalExpiry s = .next s) ∧
    (s.part.scrub.timer = some 0 →
      (∀ f, fits f →
        ((s.part.scrub.cursor ≤ f ∧ ∀ g, fits g → s.part.scrub.cursor ≤ g → f ≤ g) ∨
          ((∀ g, fits g → g < s.part.scrub.cursor) ∧ ∀ g, fits g → f ≤ g)) →
        exec .scrubIntervalExpiry s = .next (s.withPart (({ s.part with scrub := { s.part.scrub with
          cursor := Fin.ofNat 4096 (f.val + 1)
          passes := min 4294967295
            (s.part.scrub.passes + ((if f < s.part.scrub.cursor then 1 else 0) + (if f.val = 4095 then 1 else 0)))
          current := some (f, 0)
          timer := none } }).modBank (bankOf f) fun k => { k with scrub := some (f, 0) }).closeAct)) ∧
      ((∀ f, ¬ fits f) → exec .scrubIntervalExpiry s = .next (s.withPart s.part.startScrubTimer.closeAct)))) ∧
  (∀ p : Part, p.startScrubTimer = { p with scrub := { p.scrub with
    timer := if p.scrub.interval = 0 then none else some (p.scrub.interval *
      (if p.thermal.cls = .warm ∨ p.thermal.cls = .hot ∨ p.thermal.cls = .overheat then 50 else 100)) } }) ∧
  (∀ (s : State) (b : BankId) (f : FrameId) (n : Nat) (live : Bool) (cs : List LineCondition),
    (s.part.bank b).running = some ⟨.scrubStep f n, live⟩ →
    let q := (s.part.freeBank b).reportLines f (64 * n) 64 cs
    ∃ t, exec (.scrubStepComplete b cs) s = .next t ∧ t.pending = s.pending ∧
      t.part = (if live then q.scrubStepped f n else q).closeAct ∧
      (∀ k j, k < 64 → conditionAt cs k = .uncorrectable → j < 64 →
        Memory.read t.store.cells (lineAddress f (64 * n + k) + j) = none) ∧
      (∀ a, (∀ k, k < 64 → conditionAt cs k = .uncorrectable →
          a < lineAddress f (64 * n + k) ∨ lineAddress f (64 * n + k) + 64 ≤ a) →
        Memory.read t.store.cells a = Memory.read s.store.cells a)) ∧
  (∀ (p : Part) (f : FrameId) (n : Nat),
    let next : Part := { p with scrub := { p.scrub with current := some (f, n + 1) } }
    (n < 15 → p.hold = none → p.power.state = .active →
      p.scrubStepped f n = next.modBank (bankOf f) fun k => { k with scrub := some (f, n + 1) }) ∧
    (n < 15 → (p.hold ≠ none ∨ p.power.state ≠ .active) → p.scrubStepped f n = next) ∧
    (15 ≤ n → p.scrubStepped f n = ({ p with scrub := { p.scrub with current := none } } : Part).startScrubTimer))

/-- A slot's expiry, its timer at 0, owes a REFRESH of the segment at the cursor unless it is masked, advances the cursor
within the bank and restarts the timer with the class's slot, in quarters of a millisecond; before that the command changes
nothing (log 2, 4). A REFRESH ends and leaves every byte. -/
def Obligations.SlotExpiryOwesRefresh : Prop :=
  (∀ (s : State) (b : BankId), s.part.hold = none →
    ((s.part.bank b).slotTimer = some 0 →
      exec (.refreshSlotExpiry b) s = .next (s.withPart ((s.part.modBank b fun k =>
        { k with
          owed := if s.part.power.masked.contains k.cursor then k.owed else some k.cursor
          cursor := nextSegment k.cursor
          slotTimer := some s.part.thermal.cls.slot }).closeAct))) ∧
    ((s.part.bank b).slotTimer ≠ some 0 → exec (.refreshSlotExpiry b) s = .next s)) ∧
  (∀ g : SegId, (nextSegment g).val = if g.val % 32 = 31 then g.val - 31 else g.val + 1) ∧
  ([ThermalClass.freeze, .cool, .normal, .warm, .hot, .overheat].map ThermalClass.slot = [8, 8, 4, 2, 1, 1]) ∧
  (∀ (s : State) (b : BankId) (g : SegId) (live : Bool), (s.part.bank b).running = some ⟨.refresh g, live⟩ →
    exec (.refreshComplete b) s = .next (s.withPart (s.part.freeBank b).closeAct))

/-- A sample is recorded, −40 for a lower and 125 for a higher temperature, whenever it comes (log 31); a change of class
sets the update flag and tells every ATTACHED client. The class rises to the highest threshold reached; else it falls while
the temperature is at or below its point for leaving; FREEZE is left from −22 upward. -/
def Obligations.SampleUpdatesThermalMonitor : Prop :=
  (∀ (s : State) (t : Int), s.part.hold = none →
    let x := clampTemperature t
    let k := s.part.thermal.cls.update x
    (t < -40 → x = -40) ∧ (125 < t → x = 125) ∧ (-40 ≤ t → t ≤ 125 → x = t) ∧
    (k = s.part.thermal.cls → exec (.thermalSample t) s = .next (s.withPart
      ({ s.part with thermal := ⟨some x, k, s.part.thermal.updated, 250⟩ } : Part).closeAct)) ∧
    (k ≠ s.part.thermal.cls → exec (.thermalSample t) s = .next (s.withPart
      (({ s.part with thermal := ⟨some x, k, true, 250⟩ } : Part).notifyAll .thermal
        (allClients.filter fun c => (s.part.client c).attached)).closeAct))) ∧
  (∀ (k : ThermalClass) (t : Int),
    let above : List (ThermalClass × Int) := [(.cool, -25), (.normal, 45), (.warm, 85), (.hot, 95), (.overheat, 105)]
    let below : List (ThermalClass × Int) := [(.cool, -26), (.normal, 42), (.warm, 82), (.hot, 92), (.overheat, 102)]
    (k = .freeze ∧ t < -22 → k.update t = .freeze) ∧
    (¬ (k = .freeze ∧ t < -22) →
      (∀ j e, (j, e) ∈ above → k.rank < j.rank → e ≤ t →
        (∀ j' e', (j', e') ∈ above → j.rank < j'.rank → t < e') → k.update t = j) ∧
      ((∀ j e, (j, e) ∈ above → k.rank < j.rank → t < e) →
        (k.update t).rank ≤ k.rank ∧
        (∀ e, (k.update t, e) ∈ below → e < t) ∧
        (∀ j e, (j, e) ∈ below → (k.update t).rank < j.rank → j.rank ≤ k.rank → t ≤ e))))

/-- WAKING ends, or training: the part is ACTIVE with its idle timer started. From STANDBY: LIVE VOLATILE regions are LOST,
their owners told, a migration of theirs ended with its target in the source's place; FREE and SPARE frames of the masked set
are DIRTY, the spare pool is topped up with client 0's RESERVE (RetireActsByFrameState says how), the set is withdrawn and
the zeroing, scrub and migration engines go on where they stood, the zeroing engine from step 0 in a masked frame. From DOWN:
every frame but the RETIRED is DIRTY, refresh and the scrub timer start. Training: each bank's cursor at its first segment,
refresh and the scrub timer start. Contents not refreshed become unknown (log 7). Three points are the model's choice: the
migration engine is IDLE once its migration has ended, before the part is ACTIVE (log 20); a ZERO STEP that no bank had
accepted at the entry is still waiting at its bank (log 13); and a step in progress is told by its live bit (log 24). -/
def Obligations.PartBecomesActive : Prop :=
  (∀ s : State, s.part.hold = none →
    (s.part.power.state = .waking .standby → exec .wakingEnd s = .next { s with
      store := s.store.forgetFrames fun f => s.part.power.masked.contains (segmentOf f)
      part := s.part.wakeFromStandby.closeAct }) ∧
    (s.part.power.state = .waking .down → exec .wakingEnd s = .next { s with
      store := s.store.forgetFrames fun _ => true
      part := s.part.wakeFromDown.closeAct }) ∧
    (s.part.power.state = .initializing → exec .trainingEnd s = .next (s.withPart s.part.endTraining.closeAct))) ∧
  (∀ (w : Store) (gone : FrameId → Bool) (a : Nat), Memory.read (w.forgetFrames gone).cells a =
    if gone (Fin.ofNat 4096 (a / 65536)) = true then none else Memory.read w.cells a) ∧
  (∀ p : Part,
    let idle := if p.power.idleTimeout = 0 then none else some (10 * p.power.idleTimeout)
    let scrub := if p.scrub.interval = 0 then none else some (p.scrub.interval *
      (if p.thermal.cls = .warm ∨ p.thermal.cls = .hot ∨ p.thermal.cls = .overheat then 50 else 100))
    let masked : FrameId → Prop := fun f => p.power.masked.contains (segmentOf f) = true
    (let q := p.wakeFromStandby
     q.power = { p.power with state := .active, masked := [], idleTimer := idle } ∧
     (∀ slot r, p.region slot = some r →
       (¬ (r.cls = .volatile ∧ r.state = .live) → q.region slot = some r) ∧
       (r.cls = .volatile → r.state = .live → ((q.client r.owner).flags &&& 4) = 4 ∧
         (r.migration = none → q.region slot = some { r with state := .lost }) ∧
         (∀ m, r.migration = some m → q.region slot = some
           { r with state := .lost, frames := r.frames.set m.index m.target, migration := none }))) ∧
     (∀ f, (∀ slot r m, p.region slot = some r → r.migration = some m → f ≠ m.source ∧ f ≠ m.target) →
       ((p.frame f).state = .free → masked f → (q.frame f).state = .dirty) ∧
       ((p.frame f).state = .spare → masked f → (q.frame f).state = .dirty) ∧
       ((p.frame f).state = .spare → ¬ masked f → (q.frame f).state = .spare) ∧
       ((p.frame f).state = .free → ¬ masked f → (q.frame f).state = .free ∨ (q.frame f).state = .spare) ∧
       ((p.frame f).state ≠ .free → (p.frame f).state ≠ .spare → q.frame f = p.frame f)) ∧
     (∃ d : Part,
       let l := p.slotsLost.foldl Part.loseRegion p
       d = { l with pool := { l.pool with frames := d.pool.frames } } ∧
       (∀ f, d.frame f =
         if masked f ∧ ((l.frame f).state = .free ∨ (l.frame f).state = .spare) then { l.frame f with state := .dirty }
         else l.frame f) ∧
       let m := d.settleSpare l.pool
       q = ((({ m with power := { m.power with state := .active, masked := [] } } : Part).resumeZero
         p.power.masked).resumeScrub.resumeCopy).startIdle)) ∧
    (∀ slot, slot ∈ p.slotsLost ↔ ∃ r, p.region slot = some r ∧ r.cls = .volatile ∧ r.state = .live) ∧
    (∀ slot r, p.region slot = some r →
      let told := (p.modRegion slot fun x => { x with state := .lost }).notify .lost r.owner
      (r.migration = none → p.loseRegion slot = told) ∧
      (∀ g, r.migration = some g → g.source ≠ g.target →
        let q := p.loseRegion slot
        q.clients = told.clients ∧
        q.region slot = some
          { r with state := .lost, frames := r.frames.set g.index g.target, migration := none } ∧
        (q.frame g.target).state = .held ∧ (q.frame g.target).region = some slot ∧
        q.frame g.source = { p.frame g.source with state := .retired, region := none, doomed := false } ∧
        (∀ f, f ≠ g.source → f ≠ g.target → q.frame f = p.frame f) ∧
        q.retire = { p.retire with
          queue := p.retire.queue.filter (· != g.source)
          engine := if p.retire.engine = .copying then .idle else p.retire.engine } ∧
        (∀ b, (q.bank b).copy = none ∧ (q.bank b).copyWait = 0 ∧
          ∀ y live, (q.bank b).running ≠ some ⟨.copy y, live⟩ ∨ live = false))) ∧
    (∀ segments : List SegId,
      let begun : Part → FrameId → Nat → Part := fun q f n =>
        ({ q with zero := ⟨some f, n⟩ } : Part).modBank (bankOf f) fun k => { k with zero := some (f, n) }
      let under : Prop := ∃ b, (p.bank b).zero ≠ none ∨ ∃ g n, (p.bank b).running = some ⟨.zeroStep g n, true⟩
      (p.zero.current = none → p.resumeZero segments = p) ∧
      (∀ f, p.zero.current = some f →
        (segments.contains (segmentOf f) = true → p.resumeZero segments = begun (p.endZero f) f 0) ∧
        (segments.contains (segmentOf f) = false → under → p.resumeZero segments = p) ∧
        (segments.contains (segmentOf f) = false → ¬ under → p.resumeZero segments = begun p f p.zero.step))) ∧
    (let under : Prop := ∃ b f n, (p.bank b).running = some ⟨.scrubStep f n, true⟩
     let fits : FrameId → Prop := fun f => (p.frame f).state = .held ∧
       (∀ slot r m, p.region slot = some r → r.migration = some m → m.source ≠ f) ∧
       (∀ slot r, (p.frame f).region = some slot → p.region slot = some r → r.state ≠ .lost)
     let dropped := p.abandonScrub
     (p.scrub.current = none → p.resumeScrub = p) ∧
     (∀ f n, p.scrub.current = some (f, n) →
       (¬ fits f → p.resumeScrub = dropped) ∧ (fits f → under → p.resumeScrub = p) ∧
       (fits f → ¬ under →
         p.resumeScrub = p.modBank (bankOf f) fun k => { k with scrub := some (f, n) })) ∧
     dropped.scrub = { p.scrub with current := none, timer := scrub } ∧
     ∀ b, (dropped.bank b).scrub = none ∧ ∀ f n, (dropped.bank b).running ≠ some ⟨.scrubStep f n, true⟩) ∧
    (let under : Prop := ∃ b, (p.bank b).copy ≠ none ∨ ∃ y, (p.bank b).running = some ⟨.copy y, true⟩
     ((∀ slot r, p.region slot = some r → r.migration = none) → p.resumeCopy = p) ∧
     (∀ slot r g, p.region slot = some r → r.migration = some g →
       (∀ u x, u < slot → p.region u = some x → x.migration = none) →
       (under → p.resumeCopy = p) ∧
       (¬ under → p.resumeCopy = p.modBank (bankOf g.source) fun k => { k with
         copy := some (if bankOf g.source = bankOf g.target then .whole g.source g.target (g.cursor / 64)
           else .readHalf g.source g.target (g.cursor / 64)) }))) ∧
    (∀ f,
      let q := p.endZero f
      q.pool = p.pool ∧ q.zero = p.zero ∧ (q.bank (bankOf f)).zero = none ∧
      ∀ b n, (q.bank b).running ≠ some ⟨.zeroStep f n, true⟩) ∧
    (let q := p.wakeFromDown
     q.power = { p.power with state := .active, idleTimer := idle } ∧
     (∀ f, q.frame f = { p.frame f with
       state := if (p.frame f).state = .retired then .retired else .dirty }) ∧
     (0 < p.pool.spareTarget → p.pool.spareTarget ≤ p.pool.count .spare →
       ((q.client 0).flags &&& 128) = 128) ∧
     (∀ b, (q.bank b).slotTimer = some p.thermal.cls.slot ∧ (q.bank b).cursor = (p.bank b).cursor) ∧
     q.zero.current = none ∧ q.scrub = { p.scrub with timer := scrub }) ∧
    (let q := p.endTraining
     q.power = { p.power with state := .active, idleTimer := idle } ∧
     (∀ b, (q.bank b).cursor = Fin.ofNat 128 (32 * b.val) ∧ (q.bank b).slotTimer = some p.thermal.cls.slot) ∧
     q.scrub = { p.scrub with timer := scrub } ∧ q.pool = p.pool ∧ q.zero = p.zero ∧ q.retire = p.retire))

/-- Entering reset: no request is left and no response (log 14); at the banks nothing is in progress, waits or is owed, no
region has a WIPE, and the idle, scrub and slot timers are stopped. Every notice line is low; a power-on reset wins over a pin
reset. What the rule does not list keeps its value until the release: frames, the rest of the regions with their leases, the
write queue, the thermal monitor with its sampling schedule (log 19). -/
def Obligations.EnteringResetEndsEverything : Prop :=
  ∀ s : State, ∃ t u, exec .powerOnReset s = .next t ∧ exec .pinReset s = .next u ∧
    t.part.hold = some .powerOn ∧
    u.part.hold = some (if s.part.hold = some .powerOn then .powerOn else .pin) ∧
    ∀ v, (v = t ∨ v = u) →
      v.part.tx = [] ∧ v.part.fills = [] ∧ v.part.posting = [] ∧ v.part.wipeHold = [] ∧
      v.part.scrub = { s.part.scrub with timer := none } ∧ v.part.power = { s.part.power with idleTimer := none } ∧
      (∀ c, v.part.client c =
        { s.part.client c with queue := [], executing := none, evictionPending := false, line := false }) ∧
      (∀ b, v.part.bank b = { s.part.bank b with
        running := none, reads := [], fresh := [], turns := [], copy := none, zero := none, scrub := none
        owed := none, slotTimer := none }) ∧
      (∀ slot, v.part.region slot = (s.part.region slot).map fun r => { r with wipe := none }) ∧
      (∀ slot, v.part.generation slot = s.part.generation slot) ∧
      v.part.pool = s.part.pool ∧ v.part.writeQueue = s.part.writeQueue ∧ v.part.thermal = s.part.thermal ∧
      v.store = s.store

/-- Leaving reset: RETIRED frames and health counts outlast a pin reset, nothing outlasts power-on; every other register takes
its reset value as written here, the cause is recorded, and every byte of the array is unknown (log 7). Three of the values are
the model's choice: the refresh cursors, the zeroing step and the 250 ms to the first sample (log 21); the millisecond phase is
the model's own (log 5). The segments and the clients stand in the next two statements. -/
def Obligations.LeavingResetGivesResetValues : Prop :=
  ∀ (s : State) (h : Hold), s.part.hold = some h →
    ∃ t, exec .resetRelease s = .next t ∧
      (let q := t.part
       q.cause = (match h with | .powerOn => .powerOn | .pin => .pin) ∧ q.hold = none ∧ q.tx = [] ∧ q.phase = 0 ∧
       q.pool.spareTarget = 32 ∧ q.fills = [] ∧ q.zero = ⟨none, 0⟩ ∧
       q.writeQueue = [] ∧ q.posting = [] ∧ q.wipeHold = [] ∧
       q.thermal = ⟨none, .normal, false, 250⟩ ∧ q.scrub = ⟨0, 0, none, none, 10⟩ ∧
       q.retire = ⟨[], 0, 0, .idle, 16, 8⟩ ∧ q.power = ⟨.initializing, none, 50, []⟩ ∧
       (∀ slot, q.region slot = none ∧ q.generation slot = 0) ∧
       (∀ b, q.bank b = ⟨none, [], [], [], none, none, none, none, 0, Fin.ofNat 128 (32 * b.val), none⟩) ∧
       (∀ f, q.frame f = match h with
         | .powerOn => ⟨.dirty, none, false, 0, none, 0⟩
         | .pin => ⟨if (s.part.frame f).state = .retired then .retired else .dirty, none, false,
             (s.part.frame f).corrected, (s.part.frame f).lastCorrected, (s.part.frame f).uncorrectable⟩)) ∧
      (∀ a, Memory.read t.store.cells a = none) ∧ t.pending = s.pending

/-- R6: the segment table after each kind of reset. -/
def Obligations.SegmentsAreUnclaimedAfterReset : Prop :=
  (∀ (s : State) (h : Hold), s.part.hold = some h →
    ∃ t, exec .resetRelease s = .next t ∧ ∀ g, tget t.part.pool.segments g = ⟨.unclaimed, 0⟩) ∧
  (∀ g, tget State.reset.part.pool.segments g = ⟨.unclaimed, 0⟩) ∧
  (∀ (s : State) (tag : Byte), s.part.free 0 →
    exec (.reset 0 tag) s = .next (s.withPart (s.part.taken.serveReset 0 tag).closeAct) ∧
    (∀ g, tget (s.part.taken.serveReset 0 tag).pool.segments g = ⟨.unclaimed, 0⟩) ∧
    (∀ f, ((s.part.taken.serveReset 0 tag).frame f).state.counted = false))

/-- R117: the client table after power-on and pin reset, and requests before INITIALIZING ends. -/
def Obligations.ClientTableAfterReset : Prop :=
  (∀ (s : State) (h : Hold), s.part.hold = some h →
    ∃ t, exec .resetRelease s = .next t ∧ t.part.tx = [] ∧ t.part.power.state = .initializing ∧
      ∀ c, t.part.client c = ⟨false, false, 1024, [], none, none, 0, 0, false⟩) ∧
  (∀ (p : Part) (c : ClientId) (tag : Byte) (r : Request), p.hold = none → p.power.state = .initializing →
    (p.client c).queue = [] → (p.client c).executing = none → (p.client c).evictionPending = false →
    r.wf = true →
    p.arrive c tag r =
      (if r = .identify then p.answer c 8 tag .done p.identity
        else p.answer c r.code tag .notReady []).closeAct) ∧
  (∀ (s : State) (c : ClientId) (tag : Byte),
    exec (.attach c tag) s = .next (s.withPart (s.part.arrive c tag .attach)) ∧
    exec (.identify c tag) s = .next (s.withPart (s.part.arrive c tag .identify)))

/-! ### Packets and clients -/

/-- A packet is answered MALFORMED or QUEUE_FULL with nothing else changed, or carries its request; in reset it is lost. A
packet without a code or a tag is MALFORMED with 0 in their place, and so is one of an unknown code, of a wrong length, with a
handle field that fails the handle table, or with a closed code out of range; every other packet carries a well-formed
request of its code. -/
def Obligations.PacketArrivalIsJudged : Prop :=
  ∀ (s : State) (stamp : Byte) (rest : List Byte) (c : ClientId),
    (s.part.hold ≠ none → exec (.requestArrival stamp rest) s = .next s) ∧
    (s.part.hold = none →
      (∀ code tag, decodePacket stamp rest = .malformed c code tag →
        exec (.requestArrival stamp rest) s = .next (s.withPart (s.part.answer c code tag .malformed []))) ∧
      (∀ tag r, decodePacket stamp rest = .request c tag r → r.wf = true → 4 ≤ (s.part.client c).queue.length →
        exec (.requestArrival stamp rest) s = .next (s.withPart (s.part.answer c r.code tag .queueFull []))) ∧
      (∀ tag r, decodePacket stamp rest = .request c tag r →
        exec (.requestArrival stamp rest) s = .next (s.withPart (s.part.arrive c tag r)))) ∧
    (rest = [] → decodePacket stamp rest = .malformed (Fin.ofNat 8 stamp.toNat) 0 0) ∧
    (∀ code, rest = [code] → decodePacket stamp rest = .malformed (Fin.ofNat 8 stamp.toNat) code 0) ∧
    (∀ code tag body, rest = code :: tag :: body →
      let nth : Nat → Nat := fun i => (body.getD i 0).toNat
      let handle : Prop := nth 0 < 64 ∨ (64 ≤ nth 0 ∧ nth 0 < 72 ∧ nth 1 = 0)
      let fits : Nat → Prop → Prop := fun n fields => body.length = n ∧ fields
      let form : Prop := match code.toNat with
        | 1 | 2 | 8 | 27 | 40 | 41 | 42 | 51 | 52 | 53 => body = []
        | 3 => fits 5 (nth 1 < 2 ∧ (nth 2 = 0 ∨ (nth 2 = 1 ∧ nth 4 < 2)))
        | 9 => fits 3 (nth 0 < 5)
        | 16 => fits 5 (nth 1 < 2 ∧ nth 2 < 2)
        | 17 | 22 | 23 | 24 | 25 => fits 2 handle
        | 18 | 26 => fits 3 handle
        | 19 => fits 3 (handle ∧ nth 2 < 8)
        | 20 => fits 5 (handle ∧ nth 2 < 8 ∧ nth 3 < 8 ∧ nth 4 < 2)
        | 21 => fits 4 (handle ∧ nth 2 < 8 ∧ nth 3 < 8)
        | 32 | 34 => fits 7 handle
        | 33 => 7 ≤ body.length ∧ fits (7 + 64 * nth 6) handle
        | 35 => fits 2 (handle ∨ (nth 0 = 128 ∧ nth 1 = 0))
        | 48 => fits 4 True
        | 49 => fits 1 True
        | 50 => fits 2 True
        | _ => False
      (¬ form → decodePacket stamp rest = .malformed (Fin.ofNat 8 stamp.toNat) code tag) ∧
      (form → ∃ r, decodePacket stamp rest = .request (Fin.ofNat 8 stamp.toNat) tag r ∧ r.code = code ∧ r.wf = true))

/-- ATTACH of a DETACHED client: attached, no flag, every flag enabled; of an ATTACHED one: ALREADY_ATTACHED. DETACH releases
the client's regions in ascending slot order, discards its batch and detaches it; its DONE stands behind the answers that the
releases make for other clients, and those of one wait in ascending client number (the model's choice, log 17). Several releases
of one act begin in their order; then the accesses that their WIPEs held go on together in the order they were taken, and then
each region that nothing uses is freed (for the WRITEs R91 states it; for READs and VERIFYs, and that they stand behind every
release, log 16). -/
def Obligations.AttachAndDetach : Prop :=
  (∀ (s : State) (c : ClientId) (tag : Byte), s.part.ready c →
    ((s.part.client c).attached = false →
      exec (.attach c tag) s = .next (s.withPart ((s.part.taken.modClient c fun k =>
        { k with attached := true, flags := 0, enable := 511 }).answer c 1 tag .done []).closeAct)) ∧
    ((s.part.client c).attached = true →
      exec (.attach c tag) s = .next (s.withPart (s.part.taken.answer c 1 tag .alreadyAttached []).closeAct) ∧
      exec (.detach c tag) s = .next (s.withPart
        (((s.part.taken.releaseRegions (s.part.taken.ownedSlots c)).modClient c fun k =>
          { k with batch := none, attached := false }).answer c 2 tag .done []).closeAct))) ∧
  (∀ (p : Part) (c : ClientId), p.ownedSlots c = (List.finRange 64).filter fun x => match p.region x with
    | some r => r.owner == c && r.state != .releasing
    | none => false) ∧
  (∀ (p : Part) (slots : List SlotId),
    let holds : ClientId → Bool := fun c => match p.work c with
      | some (.read _ a _) => slots.contains a.handle.slot
      | some (.write a _ _) => slots.contains a.handle.slot
      | _ => false
    p.releaseRegions slots = slots.foldl Part.freeRegion ((slots.foldl Part.beginRelease p).endHolds slots) ∧
    p.endHolds slots = (p.wipeHold.filter holds).foldl Part.leaveHold
      { p with wipeHold := p.wipeHold.filter fun c => !holds c }) ∧
  (∀ (p : Part) (slot : SlotId),
    (p.region slot = none → p.beginRelease slot = p) ∧
    ∀ r, p.region slot = some r →
      (r.state = .releasing → p.beginRelease slot = p) ∧
      (r.state ≠ .releasing → p.beginRelease slot = (p.enterReleasing slot r).abortWaits slot ∧
        p.releaseRegions [slot] = p.releaseRegion slot false))

/-- NOTICES returns the flags as they stood, clears those named, and replaces the enable set if one is given. -/
def Obligations.NoticesReturnsAndClears : Prop :=
  ∀ (s : State) (c : ClientId) (tag : Byte) (clear : NoticeSet) (enable : Option NoticeSet), s.part.free c →
    let k := s.part.client c
    let e := enable.getD k.enable
    exec (.notices c tag clear enable) s = .next (s.withPart
      ((s.part.taken.modClient c fun x => { x with flags := k.flags &&& ~~~clear, enable := e }).answer c 3 tag .done
        (noticeBytes k.flags ++ noticeBytes e ++ bytes2 k.quota ++ bytes2 (s.part.heldFrames c))).closeAct)

/-- Every request of a DETACHED client but ATTACH and IDENTIFY is NOT_ATTACHED, every supervisor request of clients 1..7
NOT_PERMITTED. A command on a region, and RENEW, meet NOT_FOUND for a dead handle or a batch reference, then BUSY for FILLING,
then DENIED for another's region. Each refusal changes nothing else. -/
def Obligations.CommonRefusals : Prop :=
  ∀ (s : State) (c : ClientId) (tag : Byte), s.part.ready c →
    let refused : Request → Status → Prop := fun r st =>
      exec (requestRow c tag r) s = .next (s.withPart (s.part.taken.answer c r.code tag st []).closeAct)
    (∀ r, r.wf = true → r ≠ .attach → r ≠ .identify → (s.part.client c).attached = false →
      refused r .notAttached) ∧
    (∀ r, ((∃ selector client v, r = .configure selector client v) ∨ (∃ client, r = .evict client) ∨
        (∃ f, r = .retire f) ∨ r = .standby ∨ r = .powerdown ∨ r = .reset) →
      (s.part.client c).attached = true → c ≠ 0 → refused r .notPermitted) ∧
    (∀ h r, s.part.named h = some r ↔
      s.part.region h.slot = some r ∧ r.state ≠ .releasing ∧ h.generation = s.part.generation h.slot) ∧
    ((s.part.client c).attached = true → (s.part.client c).batch = none →
      ∀ (q : Request) (x : Handle), ((∃ cmd, q = .command cmd ∧ commandHandle cmd = some x) ∨ q = .renew x) →
        (∀ k, x = .batchRef k → refused q .notFound) ∧
        (∀ h, x = .region h →
          (s.part.named h = none → refused q .notFound) ∧
          (∀ r, s.part.named h = some r →
            (r.state = .filling → refused q .busy) ∧
            (r.state ≠ .filling → r.owner ≠ c → refused q .denied))))

/-- EVICT marks the client, aborts its queue, oldest first, drops its access that waits and becomes client 0's executing
request. Of client 0 or of no client it is BAD_VALUE, of a DETACHED client NOT_ATTACHED. It completes once the client executes
no issued READ or VERIFY: its queue and an executing BATCH_CLOSE are ABORTED (abortQueue, abortClose), its regions released in
ascending slot order (releaseRegions, AttachAndDetach) and its batch discarded (departs), which ends a GRANT, RESIZE or WIPE that waits for one of them ABORTED;
the engines follow once (log 11); EVICTED is set, and EVICT's DONE leaves last (log 27). The releases answer other clients in
the order of log 17 and log 16. -/
def Obligations.EvictActsOnRequests : Prop :=
  (∀ (s : State) (tag client : Byte), s.part.free 0 →
    ((client.toNat = 0 ∨ 7 < client.toNat) →
      exec (.evict 0 tag client) s = .next (s.withPart (s.part.taken.answer 0 49 tag .badValue []).closeAct)) ∧
    (∀ d : ClientId, client = BitVec.ofNat 8 d.val → d ≠ 0 →
      ((s.part.client d).attached = true →
        exec (.evict 0 tag client) s = .next (s.withPart
          ((((s.part.taken.modClient d fun k => { k with evictionPending := true }).abortQueue d).dropAccess d).execute
            0 tag (.evict d)).closeAct)) ∧
      ((s.part.client d).attached = false →
        exec (.evict 0 tag client) s = .next (s.withPart (s.part.taken.answer 0 49 tag .notAttached []).closeAct)))) ∧
  (∀ (p : Part) (d : ClientId), p.abortQueue d =
    { (p.modClient d fun k => { k with queue := [] }) with
      tx := p.tx ++ (p.client d).queue.map fun x =>
        ⟨d, x.request.code, x.tag, .aborted, (p.client d).flags != 0, []⟩ }) ∧
  (∀ (p : Part) (d : ClientId) (tag : Byte),
    let unlisted : Part :=
      { p with wipeHold := p.wipeHold.filter (· != d), posting := p.posting.filter (· != d) }
    let aborted : Byte → Part := fun code =>
      (unlisted.modClient d fun k => { k with executing := none }).answer d code tag .aborted []
    let runs : Work → Prop := fun w => (p.client d).executing = some ⟨tag, w⟩
    (∀ a l ph, runs (.write a l ph) → p.dropAccess d = ((aborted 33).endUse a.handle.slot).postWrites) ∧
    (∀ v a ph, runs (.read v a ph) → ph ≠ .issued →
      p.dropAccess d = (aborted (if v then 34 else 32)).endUse a.handle.slot) ∧
    (∀ v a, runs (.read v a .issued) → p.dropAccess d = p) ∧
    (∀ slot, runs (.flush slot) → p.dropAccess d = aborted 35)) ∧
  (∀ (p : Part) (d : ClientId) (tag : Byte), d ≠ 0 → (p.client 0).executing = some ⟨tag, .evict d⟩ →
    let q := p.testEviction
    let gone := ((p.abortQueue d).abortClose d).departs d
    ((∃ v a, p.work d = some (.read v a .issued)) → q = p) ∧
    ((∀ v a, p.work d ≠ some (.read v a .issued)) →
      q = (((gone.react.modClient d fun k => { k with evictionPending := false }).modClient d fun k =>
        { k with flags := k.flags ||| 256 }).modClient 0 fun k => { k with executing := none }).answer 0 49 tag .done [] ∧
      (q.client d).attached = false ∧ (q.client d).evictionPending = false ∧ (q.client d).batch = none ∧
      (q.client d).queue = [] ∧ ((q.client d).flags &&& 256) = 256 ∧ (q.client 0).executing = none ∧
      ∃ attention, q.tx.getLast? = some ⟨0, 49, tag, .done, attention, []⟩)) ∧
  (∀ (p : Part) (d : ClientId),
    (∀ tag results, (p.client d).executing = some ⟨tag, .batchClose results⟩ →
      p.abortClose d = (p.modClient d fun k => { k with executing := none }).answer d 41 tag .aborted []) ∧
    ((∀ results, p.work d ≠ some (.batchClose results)) → p.abortClose d = p)) ∧
  (∀ (p : Part) (d : ClientId),
    let own := (List.finRange 64).filter fun x => match p.region x with
      | some r => r.owner == d && r.state != .releasing
      | none => false
    let q := p.departs d
    q = (p.releaseRegions own).modClient d (fun k =>
      { k with batch := none, attached := false }) ∧
    (∀ slot r, q.region slot = some r → r.owner = d → r.state = .releasing) ∧
    (∀ tag x slot, (x = .fill slot ∨ x = .extension slot ∨ x = .wipe slot) → slot ∈ own →
      (p.client d).executing = some ⟨tag, .waiting x⟩ →
      (q.client d).executing = none ∧ ∃ attention,
        ⟨d, (match x with | .fill _ => 16 | .extension _ => 18 | .wipe _ => 24), tag, .aborted, attention, []⟩ ∈ q.tx)) ∧
  (∀ (p : Part) (slot : SlotId) (r : Region), p.region slot = some r →
    (r.state = .releasing → p.releaseRegion slot false = p) ∧
    (r.state ≠ .releasing → p.releaseRegion slot false = (p.enterReleasing slot r).endRelease slot))

/-! ### Reports -/

/-- IDENTIFY: identity, power state, progress, reset cause, thermal class, geometry. -/
def Obligations.IdentifyReportsThePart : Prop :=
  ∀ (s : State) (c : ClientId) (tag : Byte), s.part.ready c →
    exec (.identify c tag) s = .next (s.withPart (s.part.taken.answer c 8 tag .done
      (bytes2 3121 ++ bytes2 256 ++ [1, 1] ++ bytes2 (tcount (fun g => g.state != .dirty) s.part.pool.frames) ++
        [s.part.cause.code, s.part.thermal.cls.code] ++ bytes2 4096 ++ bytes2 1024 ++
        [64, 32, 128, 4, 64, 8, 128, 64, 4, 16, 16, 32, 24, 4, 8])).closeAct)

/-- The health pages SUMMARY, FRAME, SEGMENTS and TEMPERATURE, field by field; TEMPERATURE clears the update flag. An argument
out of range is BAD_VALUE. -/
def Obligations.HealthPagesAnswer : Prop :=
  ∀ (s : State) (c : ClientId) (tag : Byte) (arg : Half), s.part.free c →
    let p := s.part
    let done : Instr → List Byte → Prop := fun i body =>
      exec i s = .next (s.withPart (p.taken.answer c 9 tag .done body).closeAct)
    let refused : Instr → Prop := fun i =>
      exec i s = .next (s.withPart (p.taken.answer c 9 tag .badValue []).closeAct)
    let count : FrameState → Nat := fun st => ((List.finRange 4096).filter fun f => (p.frame f).state == st).length
    let serving := (List.finRange 4096).filter fun f => (p.frame f).state != .retired
    let waits : FrameId → Prop := fun f => (p.frame f).doomed = true ∧ (p.frame f).state = .held ∧
      f ∉ p.retire.queue ∧ ∃ x, p.placeOf f = some x ∧ x.region.state ≠ .releasing
    let or2 : Option Nat → List Byte := fun x => match x with | some n => bytes2 n | none => bytes2 65535
    let or1 : Option Nat → Byte := fun x => match x with | some n => byte n | none => 255
    ∀ flight : Option (SlotId × Migration),
    (∀ slot m, flight = some (slot, m) → ∃ r, p.region slot = some r ∧ r.migration = some m ∧
      ∀ u x, u < slot → p.region u = some x → x.migration = none) →
    (flight = none → ∀ slot r, p.region slot = some r → r.migration = none) →
    (∀ (waiting : List FrameId) (most : Nat) (holder : Option Nat), waiting.Nodup → (∀ f, f ∈ waiting ↔ waits f) →
      (∀ f ∈ serving, (p.frame f).corrected ≤ most) → (holder = none → most = 0) →
      (∀ n, holder = some n → 0 < most ∧ ∃ f ∈ serving, f.val = n ∧ (p.frame f).corrected = most ∧
        ∀ g ∈ serving, g < f → (p.frame g).corrected < most) →
      done (.healthSummary c tag arg)
        (([.free, .dirty, .spare, .claimed, .held, .target, .retired].flatMap fun st => bytes2 (count st)) ++
          bytes2 p.pool.spareTarget ++ [byte p.retire.queue.length] ++ bytes2 waiting.length ++
          [match p.retire.engine with | .idle => 0 | .blocked => 1 | .noTarget => 2 | .copying => 3] ++
          (match flight with
            | some (slot, m) => [byte slot.val, byte m.index] ++ bytes2 m.source.val ++ bytes2 m.target.val ++ bytes2 m.cursor
            | none => [0, 0, 0, 0, 0, 0, 0, 0]) ++
          bytes4 p.retire.totalCorrected ++ bytes4 p.retire.totalUncorrectable ++ bytes2 most ++ or2 holder ++
          bytes2 ((serving.map fun f => (p.frame f).corrected).sum / serving.length) ++
          bytes2 p.scrub.cursor.val ++ bytes4 p.scrub.passes)) ∧
    (∀ f : FrameId, arg.toNat = f.val → ∀ place : Option Nat,
      (∀ i, p.retire.queue.findIdx? (· == f) = some i → place = some i) →
      (f ∉ p.retire.queue → waits f → place = some 16) → (f ∉ p.retire.queue → ¬ waits f → place = none) →
      done (.healthFrame c tag arg)
        (bytes2 f.val ++
          [match (p.frame f).state with
            | .free => 0 | .dirty => 1 | .spare => 2 | .claimed => 3 | .held => 4 | .target => 5 | .retired => 6,
            or1 ((p.frame f).region.map (·.val)), if (p.frame f).doomed then 1 else 0] ++
          bytes2 (p.frame f).corrected ++ or2 (p.frame f).lastCorrected ++
          [byte (p.frame f).uncorrectable, or1 place,
            match flight with
            | some (_, m) => if m.source = f then 1 else if m.target = f then 2 else 0
            | none => 0])) ∧
    (4096 ≤ arg.toNat → refused (.healthFrame c tag arg)) ∧
    (arg.toNat < 128 →
      let segments := (List.finRange 128).filter fun g => decide (arg.toNat ≤ g.val ∧ g.val < arg.toNat + 32)
      let inside : SegId → FrameState → Nat := fun g st =>
        ((List.finRange 4096).filter fun f => segmentOf f == g && (p.frame f).state == st).length
      done (.healthSegments c tag arg) (byte segments.length :: segments.flatMap fun g =>
        [byte g.val, match (tget p.pool.segments g).cls with | .unclaimed => 0 | .keep => 1 | .volatile => 2,
          byte (tget p.pool.segments g).claims, byte (inside g .free), byte (inside g .spare), byte (inside g .dirty),
          byte (inside g .retired)])) ∧
    (128 ≤ arg.toNat → refused (.healthSegments c tag arg)) ∧
    exec (.healthTemperature c tag arg) s = .next (s.withPart
      (({ p.taken with thermal := { p.thermal with updated := false } } : Part).answer c 9 tag .done
        [if p.thermal.last = none then 0 else 1, BitVec.ofInt 8 (p.thermal.last.getD 0),
          match p.thermal.cls with
          | .freeze => 0 | .cool => 1 | .normal => 2 | .warm => 3 | .hot => 4 | .overheat => 5,
          if p.thermal.updated then 1 else 0]).closeAct)

/-- R161: page RETIRED. -/
def Obligations.RetiredPageListsRetiredFrames : Prop :=
  ∀ (s : State) (c : ClientId) (tag : Byte) (arg : Half), s.part.free c →
    (4095 < arg.toNat → exec (.healthRetired c tag arg) s =
      .next (s.withPart (s.part.taken.answer c 9 tag .badValue []).closeAct)) ∧
    (arg.toNat ≤ 4095 →
      let fs := ((List.finRange 4096).filter fun f =>
        (s.part.frame f).state == .retired && decide (arg.toNat ≤ f.val)).take 64
      exec (.healthRetired c tag arg) s = .next (s.withPart
        (s.part.taken.answer c 9 tag .done (byte fs.length :: fs.flatMap fun f => bytes2 f.val)).closeAct))

/-! ### Region commands -/

/-- The checks of GRANT in their order, each with its status; a refused GRANT changes nothing. -/
def Obligations.GrantRefusalsInOrder : Prop :=
  ∀ (s : State) (c : ClientId) (tag size : Byte) (k : RegionClass) (lease : Option Half), s.part.free c →
    (s.part.client c).batch = none →
    let checks := firstFail
      [(s.part.thermal.cls == .freeze || s.part.thermal.cls == .overheat, .thermalLimit),
       (size.toNat == 0 || decide (128 < size.toNat), .tooLarge),
       ((match lease with | some w => decide (w.toNat < 1) || decide (3600 < w.toNat) | none => false), .badValue),
       (decide ((s.part.client c).quota < s.part.heldFrames c + size.toNat), .quota),
       ((s.part.slots.toList.all fun x => x.region.isSome), .noSlot),
       (decide (s.part.pool.count .spare < s.part.pool.spareTarget), .reserveShort)]
    (∀ st, checks = some st →
      exec (.grant c tag size k lease) s = .next (s.withPart (s.part.taken.answer c 16 tag st []).closeAct)) ∧
    (checks = none → (s.part.pool.candidates .free k).length + (s.part.pool.candidates .dirty k).length < size.toNat →
      exec (.grant c tag size k lease) s = .next (s.withPart (s.part.taken.answer c 16 tag .noFrames []).closeAct))

/-- GRANT: the lowest UNUSED slot, its record, LIVE at once or FILLING behind a fill. -/
def Obligations.GrantCreatesARegion : Prop :=
  ∀ (s : State) (c : ClientId) (tag size : Byte) (k : RegionClass) (lease : Option Half) (slot : SlotId)
    (a : Allocation), s.part.free c → (s.part.client c).batch = none →
    s.part.judgeGrant c size.toNat lease = none →
    s.part.region slot = none → (∀ t, t < slot → s.part.region t ≠ none) →
    s.part.pool.allocate size.toNat k slot = some a →
    let record : RegionState → Region := fun st =>
      ⟨st, c, k, a.frames, none, [], lease.map fun w => ⟨w.toNat, 1000 * w.toNat⟩, [], 0, none, none⟩
    let written : RegionState → Part := fun st => { s.part.taken with
      pool := a.pool
      slots := tmod s.part.slots slot fun x => { x with region := some (record st) } }
    (a.fill = false → exec (.grant c tag size k lease) s = .next (s.withPart ((written .live).answer c 16 tag .done
      ((RegionHandle.mk slot (s.part.generation slot)).bytes ++ [size, k.code])).closeAct)) ∧
    (a.fill = true → exec (.grant c tag size k lease) s = .next (s.withPart
      (({ written .filling with fills := s.part.fills ++ [⟨slot, false⟩] } : Part).execute c tag
        (.waiting (.fill slot))).closeAct))

/-- The allocator refuses when too few frames are eligible: FREE or DIRTY, in a segment of the class or UNCLAIMED. Else it
takes n frames, FREE ones first, those of the class's segments before those of UNCLAIMED ones, ascending. A FREE one becomes
HELD, a DIRTY one CLAIMED, no other frame changes; each raises its segment's claim count, and a segment at 0 takes the
class. -/
def Obligations.AllocatorTakesEligibleFrames : Prop :=
  ∀ (p : Pool) (n : Nat) (k : RegionClass) (slot : SlotId),
    (∀ st, p.candidates st k =
      ((List.finRange 4096).filter fun f => (tget p.frames f).state == st &&
        (tget p.segments (segmentOf f)).cls == segmentClass k) ++
      ((List.finRange 4096).filter fun f => (tget p.frames f).state == st &&
        (tget p.segments (segmentOf f)).cls == .unclaimed)) ∧
    (p.allocate n k slot = none ↔ (p.candidates .free k).length + (p.candidates .dirty k).length < n) ∧
    (∀ a, p.allocate n k slot = some a →
      a.frames = (p.candidates .free k ++ p.candidates .dirty k).take n ∧
      a.fill = decide ((p.candidates .free k).length < n) ∧
      (∀ f, tget a.pool.frames f =
        if f ∈ a.frames then
          { tget p.frames f with
            state := if (tget p.frames f).state = .free then .held else .claimed
            region := some slot }
        else tget p.frames f) ∧
      (∀ g,
        let taken := (a.frames.filter fun f => segmentOf f == g).length
        (taken = 0 → tget a.pool.segments g = tget p.segments g) ∧
        (taken ≠ 0 → tget a.pool.segments g =
          ⟨if (tget p.segments g).claims = 0 then segmentClass k else (tget p.segments g).cls,
            (tget p.segments g).claims + taken⟩)))

/-- A frame that enters or leaves a region keeps every claim count equal to the counted frames, and so does every step. -/
def Obligations.FrameMovesKeepClaimCounts : Prop :=
  (∀ (p : Pool) (f : FrameId) (st : FrameState) (slot : SlotId) (k : RegionClass), p.claimsAgree →
    (st.counted = true → (p.enter f st slot k).claimsAgree) ∧
    (st.counted = false → (p.leave f st).claimsAgree)) ∧
  (∀ s t : State, s.part.pool.claimsAgree → step s = .next t → t.part.pool.claimsAgree)

/-- RELEASE is answered DONE at once whatever the state, and the slot's record enters RELEASING as the rule lists: the match
set is told, fills and places in the retire queue go, extension frames and a migration target leave. What waited for the
region is ABORTED; RELEASE's DONE stands behind the answers that the release makes for other clients, and those in ascending
client number (the model's choice, log 17). Then the wipe hold of the region ends (log 16), and if nothing uses the region it is
freed: its frames are DIRTY, or RETIRED if doomed. -/
def Obligations.ReleaseReleases : Prop :=
  (∀ (s : State) (c : ClientId) (tag : Byte) (h : RegionHandle) (r : Region), s.part.free c → s.part.owns c h r →
    let q := s.part.taken.enterReleasing h.slot r
    exec (.release c tag (.region h)) s =
      .next (s.withPart ((q.endRelease h.slot).answer c 17 tag .done []).closeAct) ∧
    q.generation h.slot = s.part.generation h.slot + 1 ∧
    q.region h.slot = some
      { r with state := .releasing, lease := none, wipe := none, migration := none, extension := none, access := [] } ∧
    (∀ d, (q.client d).flags =
      if r.inMatchSet d = true then (s.part.client d).flags ||| 32 else (s.part.client d).flags) ∧
    q.fills = s.part.fills.filter (fun x => x.slot != h.slot) ∧
    q.retire.queue = s.part.retire.queue.filter (fun f => !r.frames.contains f) ∧
    (∀ m, r.migration = some m → m.target ∉ r.extension.getD [] → (q.frame m.target).state = .dirty) ∧
    (∀ ext f, r.extension = some ext → (∀ m, r.migration = some m → f ≠ m.target) → ext.Nodup → f ∈ ext →
      (q.frame f).state = if (s.part.frame f).doomed then .retired else .dirty)) ∧
  (∀ (p : Part) (slot : SlotId),
    p.endRelease slot = ((p.abortWaits slot).endHold slot).freeRegion slot ∧
    p.abortWaits slot =
      ((p.resolveWait (.fill slot) .aborted).resolveWait (.extension slot) .aborted).resolveWait (.wipe slot) .aborted ∧
    p.endHold slot = p.endHolds [slot]) ∧
  (∀ (s : State) (c : ClientId) (tag : Byte) (h : RegionHandle) (r : Region), s.part.free c → s.part.owns c h r →
    r.inUse = 0 → (∀ d ∈ s.part.wipeHold, s.part.accessSlot d ≠ some h.slot) →
    let q := (s.part.taken.enterReleasing h.slot r).endRelease h.slot
    exec (.release c tag (.region h)) s = .next (s.withPart (q.answer c 17 tag .done []).closeAct) ∧
    q.region h.slot = none ∧ q.generation h.slot = s.part.generation h.slot + 1) ∧
  (∀ (p : Part) (slot : SlotId) (c : ClientId) (tag : Byte) (x : Wait),
    (x = .fill slot ∨ x = .extension slot ∨ x = .wipe slot) → (p.client c).executing = some ⟨tag, .waiting x⟩ →
    ((p.endRelease slot).client c).executing = none ∧ ∃ attention,
      ⟨c, (match x with | .fill _ => 16 | .extension _ => 18 | .wipe _ => 24), tag, .aborted, attention, []⟩ ∈
        (p.endRelease slot).tx) ∧
  (∀ (p : Part) (slot : SlotId) (r : Region), p.region slot = some r →
    (¬ (r.state = .releasing ∧ r.inUse = 0) → p.freeRegion slot = p) ∧
    (r.state = .releasing → r.inUse = 0 →
      let q := p.freeRegion slot
      q.region slot = none ∧ q.generation slot = p.generation slot ∧
      (∀ u, u ≠ slot → q.region u = p.region u) ∧
      (r.frames.Nodup → ∀ f, q.frame f =
        if f ∈ r.frames then
          { p.frame f with
            state := if (p.frame f).doomed then .retired else .dirty
            region := none
            doomed := false }
        else p.frame f) ∧
      q.clients = p.clients ∧ q.tx = p.tx ∧ q.writeQueue = p.writeQueue))

/-- RESIZE is refused LOCKED, FAULTED or LOST by the state, BUSY behind a pending extension, BAD_VALUE for 0, and a grow by
the checks of a GRANT. To the current size it changes nothing; both it and a shrink answer DONE with the size. A grow appends
FREE frames at once, or leaves a pending extension behind a fill. A shrink cuts the frame list and what belongs to the entries
cut: poison offsets, migration, queue places, write-queue entries; an access not yet accepted there is BAD_RANGE. The in-use
count falls with each access that is refused (cutRead) and each entry that is discarded (DrainWritesItsEntry states one
discard and what a posting does), and stays where the region has neither. A shrink's DONE stands behind the answers it makes
for other clients, and those stand in the model's order (log 17, 32). -/
def Obligations.ResizeShrinksAndGrows : Prop :=
  (∀ (s : State) (c : ClientId) (tag size : Byte) (h : RegionHandle) (r : Region), s.part.free c → s.part.owns c h r →
    let grown := size.toNat - r.frames.length
    let refused : Status → Prop := fun st =>
      exec (.resize c tag (.region h) size) s = .next (s.withPart (s.part.taken.answer c 18 tag st []).closeAct)
    (r.state = .locked → refused .locked) ∧ (r.state = .faulted → refused .faulted) ∧
    (r.state = .lost → refused .lost) ∧
    (r.state = .live →
      (r.extension ≠ none → refused .busy) ∧
      (r.extension = none →
        (size = 0 → refused .badValue) ∧
        (size ≠ 0 → size.toNat = r.frames.length → exec (.resize c tag (.region h) size) s =
          .next (s.withPart (s.part.taken.answer c 18 tag .done [size]).closeAct)) ∧
        (size ≠ 0 → size.toNat < r.frames.length → exec (.resize c tag (.region h) size) s =
          .next (s.withPart ((s.part.taken.shrink h.slot size.toNat).answer c 18 tag .done [size]).closeAct)) ∧
        (r.frames.length < size.toNat →
          let checks := firstFail
            [(s.part.thermal.cls == .freeze || s.part.thermal.cls == .overheat, .thermalLimit),
             (decide (128 < size.toNat), .tooLarge),
             (decide ((s.part.client c).quota < s.part.heldFrames c + grown), .quota),
             (decide (s.part.pool.count .spare < s.part.pool.spareTarget), .reserveShort)]
          (∀ st, checks = some st → refused st) ∧
          (checks = none → s.part.pool.allocate grown r.cls h.slot = none → refused .noFrames) ∧
          (∀ a, checks = none → s.part.pool.allocate grown r.cls h.slot = some a →
            (a.fill = false → exec (.resize c tag (.region h) size) s = .next (s.withPart
              ((({ s.part.taken with pool := a.pool } : Part).modRegion h.slot fun x =>
                { x with frames := x.frames ++ a.frames }).answer c 18 tag .done [size]).closeAct)) ∧
            (a.fill = true → exec (.resize c tag (.region h) size) s = .next (s.withPart
              ((({ s.part.taken with pool := a.pool, fills := s.part.fills ++ [⟨h.slot, true⟩] } : Part).modRegion
                h.slot fun x => { x with extension := some a.frames }).execute c tag
                  (.waiting (.extension h.slot))).closeAct))))))) ∧
  (∀ (p : Part) (slot : SlotId) (r : Region) (m : Nat), p.region slot = some r → r.state = .live →
    m < r.frames.length →
    let q := p.shrink slot m
    let cut := r.frames.drop m
    let left : Nat → Region := fun n => { r with
      frames := r.frames.take m
      poison := r.poison.filter fun o => decide (o < 1024 * m)
      migration := r.migration.filter fun g => decide (g.index < m)
      inUse := n }
    (∃ n, q.region slot = some (left n)) ∧
    ((∀ e ∈ p.writeQueue, e.handle.slot = slot → e.offset / 1024 < m) →
      (∀ c a payload ph, p.work c = some (.write a payload ph) → a.handle.slot = slot → a.offset / 1024 < m) →
      (∀ c v a, p.work c = some (.read v a .issued) → a.handle.slot = slot → p.readWaits c = true →
        a.offset + a.length ≤ 1024 * m) →
      q.region slot = some (left r.inUse)) ∧
    (∃ x : Part, q = (allClients.foldl (Part.cutRead slot) x).discardHomeless ∧
      x.region slot = some (left r.inUse) ∧ (∀ u, u ≠ slot → x.region u = p.region u) ∧ x.clients = p.clients ∧
      x.writeQueue = p.writeQueue ∧ x.posting = p.posting ∧ x.tx = p.tx ∧ ∀ c, x.readWaits c = p.readWaits c) ∧
    q.retire.queue = p.retire.queue.filter (fun f => !cut.contains f) ∧
    (∀ e ∈ q.writeQueue, e.handle.slot = slot → e.offset / 1024 < m) ∧
    (cut.Nodup → ∀ f, (∀ u x, p.region u = some x → x.state = .releasing → f ∉ x.frames) →
      let old : Frame :=
        match r.migration with
        | some g =>
          if m ≤ g.index ∧ g.target = f then { p.frame f with state := .dirty, region := none, doomed := false }
          else p.frame f
        | none => p.frame f
      q.frame f =
        if f ∈ cut then
          { old with state := if old.doomed then .retired else .dirty, region := none, doomed := false }
        else old) ∧
    (∀ c tag v a, (p.client c).executing = some ⟨tag, .read v a .issued⟩ → a.handle.slot = slot →
      1024 * m < a.offset + a.length → p.readWaits c = true →
      (q.client c).executing = none ∧ ∃ attention,
        ⟨c, if v then 34 else 32, tag, .badRange, attention, []⟩ ∈ q.tx)) ∧
  (∀ (p : Part) (slot : SlotId) (c : ClientId) (r : Region), p.region slot = some r →
    let cut : Access → Prop := fun a =>
      a.handle.slot = slot ∧ 1024 * r.frames.length < a.offset + a.length ∧ p.readWaits c = true
    (∀ tag v a, (p.client c).executing = some ⟨tag, .read v a .issued⟩ → cut a → Part.cutRead slot p c =
      (((p.withdrawRead c).modClient c fun k => { k with executing := none }).answer c (if v then 34 else 32) tag
        .badRange []).endUse slot) ∧
    ((∀ v a, p.work c = some (.read v a .issued) → ¬ cut a) → Part.cutRead slot p c = p)) ∧
  (∀ p : Part, p.discardHomeless =
    ((p.writeQueue.filter fun e => match p.region e.handle.slot with
      | some r => decide (r.frames.length ≤ e.offset / 1024)
      | none => true).foldl Part.discard p).postWrites)

/-- HANDOVER gives the region to an ATTACHED client within its quota, which counts the frames it holds and those of the
region, the pending extension included (log 26); it renews the lease and tells the new owner. It is refused NOT_ATTACHED,
BAD_VALUE (to the owner) or QUOTA, in this order. Held frames are those of the frame lists and pending extensions of the
regions a client owns that are not RELEASING. -/
def Obligations.HandoverChangesTheOwner : Prop :=
  (∀ (s : State) (c d : ClientId) (tag : Byte) (h : RegionHandle) (r : Region), s.part.free c → s.part.owns c h r →
    let brought := r.frames.length + (r.extension.getD []).length
    let refused : Status → Prop := fun st =>
      exec (.handover c tag (.region h) d) s = .next (s.withPart (s.part.taken.answer c 19 tag st []).closeAct)
    ((s.part.client d).attached = false → refused .notAttached) ∧
    ((s.part.client d).attached = true → d = c → refused .badValue) ∧
    ((s.part.client d).attached = true → d ≠ c →
      (s.part.client d).quota < s.part.heldFrames d + brought → refused .quota) ∧
    ((s.part.client d).attached = true → d ≠ c →
      s.part.heldFrames d + brought ≤ (s.part.client d).quota →
      exec (.handover c tag (.region h) d) s = .next (s.withPart
        (((s.part.taken.modRegion h.slot fun x =>
          { x with owner := d, lease := x.lease.map fun l => (⟨l.period, 1000 * l.period⟩ : Lease) }).notify
            .handedOver d).answer c 19 tag .done []).closeAct))) ∧
  (∀ (p : Part) (c : ClientId), p.heldFrames c = ((List.finRange 64).map fun slot =>
    match p.region slot with
    | some r => if r.owner = c ∧ r.state ≠ .releasing then r.frames.length + (r.extension.getD []).length else 0
    | none => 0).sum)

/-- SHARE replaces the entry with the same base and mask, or appends one while fewer than 4 stand; READ_WRITE on a LOCKED
region is refused. A client is in an entry's match set when it agrees with the base in every bit clear in the mask. -/
def Obligations.ShareWritesAnEntry : Prop :=
  (∀ (s : State) (c : ClientId) (tag : Byte) (h : RegionHandle) (r : Region) (base mask : Fin 8) (right : Right),
    s.part.free c → s.part.owns c h r →
    let answered : Part → Status → Prop := fun q st =>
      exec (.share c tag (.region h) base mask right) s = .next (s.withPart (q.answer c 20 tag st []).closeAct)
    let entry : AccessEntry := ⟨base, mask, right⟩
    (r.state = .locked → right = .readWrite → answered s.part.taken .locked) ∧
    (¬ (r.state = .locked ∧ right = .readWrite) →
      ((∃ e ∈ r.access, e.base = base ∧ e.mask = mask) →
        answered (s.part.taken.modRegion h.slot fun x =>
          { x with access := x.access.map fun e => if e.base = base ∧ e.mask = mask then entry else e }) .done) ∧
      ((∀ e ∈ r.access, ¬ (e.base = base ∧ e.mask = mask)) → r.access.length < 4 →
        answered (s.part.taken.modRegion h.slot fun x => { x with access := x.access ++ [entry] }) .done) ∧
      ((∀ e ∈ r.access, ¬ (e.base = base ∧ e.mask = mask)) → 4 ≤ r.access.length →
        answered s.part.taken .listFull))) ∧
  (∀ (e : AccessEntry) (d : ClientId), e.covers d = true ↔
    ∀ i : Fin 3, e.mask.val.testBit i.val = false → d.val.testBit i.val = e.base.val.testBit i.val)

/-- UNSHARE removes the entry and tells each client that leaves the match set; without the entry it is NOT_FOUND. -/
def Obligations.UnshareRemovesAnEntry : Prop :=
  ∀ (s : State) (c : ClientId) (tag : Byte) (h : RegionHandle) (r : Region) (base mask : Fin 8),
    s.part.free c → s.part.owns c h r →
    ((∃ e ∈ r.access, e.base = base ∧ e.mask = mask) →
      let rest := r.access.filter fun e => !(e.base == base && e.mask == mask)
      exec (.unshare c tag (.region h) base mask) s = .next (s.withPart
        (((s.part.taken.modRegion h.slot fun x => { x with access := rest }).notifyAll .revoked
          (allClients.filter fun d => d != r.owner && r.access.any (·.covers d) && !rest.any (·.covers d))).answer
            c 21 tag .done []).closeAct)) ∧
    ((∀ e ∈ r.access, ¬ (e.base = base ∧ e.mask = mask)) →
      exec (.unshare c tag (.region h) base mask) s =
        .next (s.withPart (s.part.taken.answer c 21 tag .notFound []).closeAct))

/-- LOCK of a LIVE region by its class, access list and extension; of a LOCKED, FAULTED or LOST one. UNLOCK likewise. -/
def Obligations.LockAndUnlockChangeTheState : Prop :=
  ∀ (s : State) (c : ClientId) (tag : Byte) (h : RegionHandle) (r : Region), s.part.free c → s.part.owns c h r →
    let locked : Part → Status → Prop := fun q st =>
      exec (.lock c tag (.region h)) s = .next (s.withPart (q.answer c 22 tag st []).closeAct)
    let unlocked : Part → Status → Prop := fun q st =>
      exec (.unlock c tag (.region h)) s = .next (s.withPart (q.answer c 23 tag st []).closeAct)
    (r.state = .live →
      unlocked s.part.taken .done ∧
      (r.cls = .volatile → locked s.part.taken .cls) ∧
      (r.cls = .keep → (∃ e ∈ r.access, e.right = .readWrite) → locked s.part.taken .shared) ∧
      (r.cls = .keep → (∀ e ∈ r.access, e.right = .read) → r.extension ≠ none → locked s.part.taken .busy) ∧
      (r.cls = .keep → (∀ e ∈ r.access, e.right = .read) → r.extension = none →
        locked (s.part.taken.modRegion h.slot fun x => { x with state := .locked }) .done)) ∧
    (r.state = .locked →
      locked s.part.taken .done ∧
      (r.access ≠ [] → unlocked s.part.taken .shared) ∧
      (r.access = [] → unlocked (s.part.taken.modRegion h.slot fun x => { x with state := .live }) .done)) ∧
    (r.state = .faulted → locked s.part.taken .faulted ∧ unlocked s.part.taken .faulted) ∧
    (r.state = .lost → locked s.part.taken .lost ∧ unlocked s.part.taken .lost)

/-- WIPE of a region that is not LOCKED and has no pending extension sets wipe pending and waits; else it is refused. The wait
ends when no access taken before the WIPE and no entry of the region is left; several WIPEs whose waits end together go on in
ascending slot (log 30). The migration is then aborted, its source replaced by the lowest fitting SPARE frame or moved to the
tail of the retire queue, and step 0 of the first entry is issued; steps and entries follow one another. The last step empties
the poison list, makes a FAULTED or LOST region LIVE, ends the WIPE's wait and lets the held accesses go on in the order
taken (log 16). -/
def Obligations.WipeWaitsAndCompletes : Prop :=
  (∀ (s : State) (c : ClientId) (tag : Byte) (h : RegionHandle) (r : Region), s.part.free c → s.part.owns c h r →
    (r.state = .locked → exec (.wipe c tag (.region h)) s =
      .next (s.withPart (s.part.taken.answer c 24 tag .locked []).closeAct)) ∧
    (r.state ≠ .locked → r.extension ≠ none → exec (.wipe c tag (.region h)) s =
      .next (s.withPart (s.part.taken.answer c 24 tag .busy []).closeAct)) ∧
    (r.state ≠ .locked → r.extension = none → exec (.wipe c tag (.region h)) s = .next (s.withPart
      ((s.part.taken.modRegion h.slot fun x => { x with wipe := some .waiting }).execute c tag
        (.waiting (.wipe h.slot))).closeAct))) ∧
  (∀ (p : Part) (slot : SlotId), p.wipeReady slot = true ↔
    (∀ c verify a phase, p.work c = some (.read verify a phase) → a.handle.slot = slot → phase = .wipeHold) ∧
    (∀ c a payload phase, p.work c = some (.write a payload phase) → a.handle.slot = slot → phase = .wipeHold) ∧
    (∀ e ∈ p.writeQueue, e.handle.slot ≠ slot)) ∧
  (∀ p : Part, p.testWipes = ((List.finRange 64).filter fun slot => match p.region slot with
    | some r => r.wipe == some .waiting
    | none => false).foldl Part.startWipe p) ∧
  (∀ (p : Part) (slot : SlotId) (r : Region), p.region slot = some r →
    (r.wipe = some .waiting → p.wipeReady slot = true → p.startWipe slot = (p.settleForWipe slot).wipeEntry slot 0 0) ∧
    (¬ (r.wipe = some .waiting ∧ p.wipeReady slot = true) → p.startWipe slot = p)) ∧
  (∀ (p : Part) (slot : SlotId) (r : Region), p.region slot = some r →
    (r.migration = none → p.settleForWipe slot = p) ∧
    (∀ m, r.migration = some m →
      let x := p.abortMigration slot .dirty
      let fits : FrameId → Prop := fun t => (x.frame t).state = .spare ∧
        ((tget x.pool.segments (segmentOf t)).cls = segmentClass r.cls ∨
          (tget x.pool.segments (segmentOf t)).cls = .unclaimed)
      ((∀ t, ¬ fits t) → p.settleForWipe slot =
        { x with retire := { x.retire with queue := p.retire.queue.filter (· != m.source) ++ [m.source] } }) ∧
      (∀ t, fits t → (∀ u, u < t → ¬ fits u) → t ≠ m.source → ∃ q : Part, p.settleForWipe slot = q.settleSpare x.pool ∧
        q.region slot = some { r with frames := r.frames.set m.index t, migration := none } ∧
        (q.frame t).state = .held ∧ (q.frame t).region = some slot ∧
        (q.frame m.source).state = .retired ∧ (q.frame m.source).region = none ∧
        (q.frame m.source).doomed = false ∧
        (∀ f, f ≠ t → f ≠ m.source → q.frame f = x.frame f) ∧
        q.retire = { x.retire with queue := p.retire.queue.filter (· != m.source) } ∧
        q.banks = x.banks ∧ q.clients = p.clients ∧ q.tx = p.tx))) ∧
  (∀ (p : Part) (slot : SlotId) (r : Region) (entry step : Nat), p.region slot = some r →
    (∀ f, r.frames[entry]? = some f → p.wipeEntry slot entry step =
      (p.modRegion slot fun x => { x with wipe := some (.zeroing entry step) }).modBank (bankOf f) fun k =>
        { k with turns := k.turns ++ [.wipeStep slot f step] }) ∧
    (r.frames[entry]? = none → p.wipeEntry slot entry step = p) ∧
    (r.wipe = some (.zeroing entry step) →
      (step < 15 → p.wipeStepped slot = p.wipeEntry slot entry (step + 1)) ∧
      (15 ≤ step → entry + 1 < r.frames.length → p.wipeStepped slot = p.wipeEntry slot (entry + 1) 0) ∧
      (15 ≤ step → r.frames.length ≤ entry + 1 →
        p.wipeStepped slot = ((p.modRegion slot fun x =>
          { x with
            poison := []
            wipe := none
            state := if x.state == .faulted || x.state == .lost then .live else x.state }).resolveWait
              (.wipe slot) .done).endHold slot))) ∧
  (∀ (p : Part) (slot : SlotId),
    let holds : ClientId → Bool := fun c => match p.work c with
      | some (.read _ a _) => a.handle.slot == slot
      | some (.write a _ _) => a.handle.slot == slot
      | _ => false
    p.endHold slot = (p.wipeHold.filter holds).foldl Part.leaveHold
      { p with wipeHold := p.wipeHold.filter fun c => !holds c }) ∧
  (∀ (p : Part) (c : ClientId) (tag : Byte) (a : Access),
    (∀ verify phase, (p.client c).executing = some ⟨tag, .read verify a phase⟩ →
      (p.waitSet a = [] → p.leaveHold c = p.proceedRead c) ∧
      (p.waitSet a ≠ [] → p.leaveHold c = p.execute c tag (.read verify a (.ordering (p.waitSet a))))) ∧
    (∀ payload phase, (p.client c).executing = some ⟨tag, .write a payload phase⟩ →
      p.leaveHold c = ({ p.execute c tag (.write a payload .posting) with
        posting := p.posting ++ [c] } : Part).postWrites) ∧
    (∀ o, o ∈ p.waitSet a ↔ ∃ e ∈ p.writeQueue, e.offset = o ∧ e.handle.slot = a.handle.slot ∧
      e.offset < a.offset + a.length ∧ a.offset < e.offset + e.length))

/-- RENEW with its refusals, a batch open or not; DESCRIBE by the asker and the page, field by field; LIST. For RENEW and
DESCRIBE a dead handle and every batch reference are NOT_FOUND. A region without a lease is described with period and remaining
time 0 (log 15); its CLAIMED count is that of the frame list (log 29). -/
def Obligations.RenewDescribeListAnswer : Prop :=
  ∀ (s : State) (c : ClientId) (tag : Byte), s.part.free c →
    (let refused : Handle → Status → Prop := fun x st =>
       exec (.renew c tag x) s = .next (s.withPart (s.part.taken.answer c 25 tag st []).closeAct)
     (∀ k : Fin 8, refused (.batchRef k) .notFound) ∧
     (∀ h, s.part.named h = none → refused (.region h) .notFound) ∧
     (∀ h r, s.part.named h = some r →
      (r.state = .filling → refused (.region h) .busy) ∧
      (r.state ≠ .filling → r.owner ≠ c → refused (.region h) .denied) ∧
      (r.state ≠ .filling → r.owner = c →
        (r.lease = none → refused (.region h) .notLeased) ∧
        (r.lease ≠ none → exec (.renew c tag (.region h)) s = .next (s.withPart
          ((s.part.taken.modRegion h.slot fun x =>
            { x with lease := x.lease.map fun y => (⟨y.period, 1000 * y.period⟩ : Lease) }).answer
              c 25 tag .done []).closeAct))))) ∧
    (∀ (k : Fin 8) (page : Byte), exec (.describe c tag (.batchRef k) page) s =
      .next (s.withPart (s.part.taken.answer c 26 tag .notFound []).closeAct)) ∧
    (∀ (h : RegionHandle) (page : Byte),
      let answered : Status → List Byte → Prop := fun st body =>
        exec (.describe c tag (.region h) page) s =
          .next (s.withPart (s.part.taken.answer c 26 tag st body).closeAct)
      (s.part.named h = none → answered .notFound []) ∧
      (∀ r, s.part.named h = some r →
        let extension := r.extension.getD []
        (¬ (c = r.owner ∨ r.inMatchSet c = true ∨ c = 0) → answered .denied []) ∧
        ((c = r.owner ∨ r.inMatchSet c = true ∨ c = 0) →
          (1 < page.toNat → answered .badValue []) ∧
          (page.toNat = 1 → c ≠ 0 → answered .notPermitted []) ∧
          (page.toNat = 1 → c = 0 → answered .done
            ([byte r.frames.length, byte extension.length] ++
              (match r.migration with
                | some m => [1, byte m.index] ++ bytes2 m.source.val ++ bytes2 m.target.val ++ bytes2 m.cursor
                | none => [0, 0, 0, 0, 0, 0, 0, 0]) ++
              (r.frames ++ extension).flatMap fun f => bytes2 f.val)) ∧
          (page.toNat = 0 → answered .done
            ([byte h.slot.val, h.generation,
              match r.state with
              | .filling => 1 | .live => 2 | .locked => 3 | .faulted => 4 | .lost => 5 | .releasing => 6,
              byte r.owner.val, match r.cls with | .keep => 0 | .volatile => 1, byte r.frames.length,
              byte (r.frames.filter fun f => (s.part.frame f).state == .claimed).length, byte extension.length,
              byte r.access.length, if r.lease = none then 0 else 1] ++
              bytes2 (match r.lease with | some l => l.period | none => 0) ++
              bytes4 (match r.lease with | some l => l.remaining | none => 0) ++
              [byte r.poison.length, byte r.inUse,
                (if r.wipe = none then 0 else 1) ||| (if r.migration = none then 0 else 2)] ++
              (r.access.flatMap fun e =>
                [byte e.base.val, byte e.mask.val, match e.right with | .read => 0 | .readWrite => 1]) ++
              r.poison.flatMap bytes4))))) ∧
    (let own := (List.finRange 64).filter fun x => match s.part.region x with
        | some r => r.owner == c && r.state != .releasing
        | none => false
     let shared := (List.finRange 64).filter fun x => match s.part.region x with
        | some r => r.state != .releasing && r.inMatchSet c
        | none => false
     exec (.list c tag) s = .next (s.withPart (s.part.taken.answer c 27 tag .done
      ([byte own.length, byte shared.length] ++
        (own ++ shared).flatMap fun x => [byte x.val, s.part.generation x])).closeAct))

/-! ### Accesses -/

/-- A READ or VERIFY that passes its checks is counted; it waits while a WIPE is pending, then for the entries that cover
its lines (named by their offsets, log 23); a READ that meets a poisoned line is UNCORRECTABLE; otherwise one LINE READ of the range is issued. -/
def Obligations.ReadAndVerifyIssueALineRead : Prop :=
  ∀ (s : State) (c : ClientId) (tag length : Byte) (h : RegionHandle) (r : Region) (offset : Long) (verify : Bool),
    s.part.free c → s.part.judgeAccess c (.region h) false offset.toNat length.toNat = .ok (h, r) →
    let a : Access := ⟨h, offset.toNat, length.toNat⟩
    let counted := s.part.taken.modRegion h.slot fun x => { x with inUse := x.inUse + 1 }
    let row : Instr :=
      if verify then .verify c tag (.region h) offset length else .read c tag (.region h) offset length
    let executing : ReadPhase → Part := fun phase => counted.execute c tag (.read verify a phase)
    (r.wipe ≠ none → exec row s =
      .next (s.withPart ({ executing .wipeHold with wipeHold := s.part.wipeHold ++ [c] } : Part).closeAct)) ∧
    (r.wipe = none →
      (s.part.waitSet a ≠ [] → exec row s =
        .next (s.withPart (executing (.ordering (s.part.waitSet a))).closeAct)) ∧
      (s.part.waitSet a = [] →
        (∀ x, verify = false → r.poison.find? (inRange a.offset a.length) = some x → exec row s =
          .next (s.withPart ((counted.answer c 32 tag .uncorrectable (bytes4 x)).endUse h.slot).closeAct)) ∧
        (∀ f, (verify = true ∨ ∀ x ∈ r.poison, ¬ (a.offset ≤ x ∧ x < a.offset + a.length)) →
          r.frames[a.offset / 1024]? = some f → exec row s = .next (s.withPart
            ((executing .issued).issueRead ⟨c, f, a.offset % 1024, a.length⟩).closeAct))))

/-- A WRITE that passes its checks is counted; it waits while a WIPE is pending, then on the posting list while the queue
is full or an entry covers one of its lines; otherwise it is posted and answered DONE, its in-use count passing to its
entry. -/
def Obligations.WriteIsPosted : Prop :=
  ∀ (s : State) (c : ClientId) (tag length : Byte) (h : RegionHandle) (r : Region) (offset : Long)
    (payload : List Byte), s.part.free c → payload.length = 64 * length.toNat →
    s.part.judgeAccess c (.region h) true offset.toNat length.toNat = .ok (h, r) →
    c ∉ s.part.posting → (∀ d ∈ s.part.posting, s.part.postable d = false) →
    let a : Access := ⟨h, offset.toNat, length.toNat⟩
    let counted := s.part.taken.modRegion h.slot fun x => { x with inUse := x.inUse + 1 }
    let after : Part → Prop := fun q =>
      exec (.write c tag (.region h) offset length payload) s = .next (s.withPart q.closeAct)
    (r.wipe ≠ none →
      after { counted.execute c tag (.write a payload .wipeHold) with wipeHold := s.part.wipeHold ++ [c] }) ∧
    (r.wipe = none →
      ((32 ≤ s.part.writeQueue.length ∨ s.part.waitSet a ≠ []) →
        after { counted.execute c tag (.write a payload .posting) with posting := s.part.posting ++ [c] }) ∧
      (s.part.writeQueue.length < 32 → s.part.waitSet a = [] →
        after (({ counted with
          writeQueue := s.part.writeQueue ++ [⟨c, h, a.offset, a.length, payload⟩] } : Part).answer
            c 33 tag .done [])))

/-- A FLUSH of ALL, or of a region the client may read, is answered DONE at once when the queue holds no entry of its client
(and of that region), and waits otherwise; a dead handle or a batch reference is NOT_FOUND, a region the client may not read
DENIED, FILLING BUSY. A FLUSH that waits is answered when the last such entry has left. -/
def Obligations.FlushAnswersWhenDrained : Prop :=
  (∀ (s : State) (c : ClientId) (tag : Byte), s.part.free c →
    let done := s.part.taken.answer c 35 tag .done []
    let refused : Handle → Status → Prop := fun x st => exec (.flush c tag (.handle x)) s =
      .next (s.withPart (s.part.taken.answer c 35 tag st []).closeAct)
    ((∀ e ∈ s.part.writeQueue, e.client ≠ c) → exec (.flush c tag .all) s = .next (s.withPart done.closeAct)) ∧
    ((∃ e ∈ s.part.writeQueue, e.client = c) → exec (.flush c tag .all) s =
      .next (s.withPart (s.part.taken.execute c tag (.flush none)).closeAct)) ∧
    (∀ k, refused (.batchRef k) .notFound) ∧
    (∀ h, s.part.named h = none → refused (.region h) .notFound) ∧
    (∀ h r, s.part.named h = some r → r.grade c = .none → refused (.region h) .denied) ∧
    (∀ h r, s.part.named h = some r → r.grade c ≠ .none →
      (r.state = .filling → refused (.region h) .busy) ∧
      (r.state ≠ .filling → (∀ e ∈ s.part.writeQueue, ¬ (e.client = c ∧ e.handle.slot = h.slot)) →
        exec (.flush c tag (.handle (.region h))) s = .next (s.withPart done.closeAct)) ∧
      (r.state ≠ .filling → (∃ e ∈ s.part.writeQueue, e.client = c ∧ e.handle.slot = h.slot) →
        exec (.flush c tag (.handle (.region h))) s =
          .next (s.withPart (s.part.taken.execute c tag (.flush (some h.slot))).closeAct)))) ∧
  (∀ (p : Part) (c : ClientId),
    (∀ (tag : Byte) (slot : Option SlotId), (p.client c).executing = some ⟨tag, .flush slot⟩ →
      let left : Prop := ∃ e ∈ p.writeQueue, e.client = c ∧ (slot = none ∨ slot = some e.handle.slot)
      (left → p.testFlush c = p) ∧
      (¬ left → p.testFlush c = (p.modClient c fun k => { k with executing := none }).answer c 35 tag .done [])) ∧
    ((∀ slot, p.work c ≠ some (.flush slot)) → p.testFlush c = p))

/-- The six checks of READ, VERIFY and WRITE in their order, every batch reference NOT_FOUND by the first; a WRITE needs
READ_WRITE, and is LOCKED in a LOCKED region. A refused access is answered with its status and changes nothing else. -/
def Obligations.AccessChecksInOrder : Prop :=
  (∀ (p : Part) (c : ClientId) (h : RegionHandle) (offset length : Nat) (isWrite : Bool),
    let judged := p.judgeAccess c (.region h) isWrite offset length
    (p.named h = none → judged = .error .notFound) ∧
    (∀ r, p.named h = some r →
      let may := if isWrite then (r.grade c).mayWrite else (r.grade c).mayRead
      (may = false → judged = .error .denied) ∧
      (may = true →
        (r.state = .filling → judged = .error .busy) ∧
        (r.state = .faulted → judged = .error .faulted) ∧
        (r.state = .lost → judged = .error .lost) ∧
        (r.state = .locked → isWrite = true → judged = .error .locked) ∧
        ((r.state = .live ∨ (r.state = .locked ∧ isWrite = false)) →
          (1024 * r.frames.length < offset + length → judged = .error .badRange) ∧
          (offset + length ≤ 1024 * r.frames.length → (length < 1 ∨ 64 < length) → judged = .error .badRange) ∧
          (offset + length ≤ 1024 * r.frames.length → 1 ≤ length → length ≤ 64 →
            judged = if offset / 1024 = (offset + length - 1) / 1024 then .ok (h, r) else .error .boundary))) ∧
      (r.grade c = if c = r.owner then .full
        else if ∃ e ∈ r.access, e.covers c = true ∧ e.right = .readWrite then .readWrite
        else if ∃ e ∈ r.access, e.covers c = true then .read else .none)) ∧
    ∀ k : Fin 8, p.judgeAccess c (.batchRef k) isWrite offset length = .error .notFound) ∧
  ([Grade.none, .read, .readWrite, .full].map Grade.mayRead = [false, true, true, true] ∧
    [Grade.none, .read, .readWrite, .full].map Grade.mayWrite = [false, false, true, true]) ∧
  (∀ (s : State) (c : ClientId) (tag length : Byte) (x : Handle) (offset : Long) (payload : List Byte) (st : Status),
    s.part.free c → payload.length = 64 * length.toNat →
    let refused : Instr → Byte → Prop := fun i code =>
      exec i s = .next (s.withPart (s.part.taken.answer c code tag st []).closeAct)
    (s.part.judgeAccess c x false offset.toNat length.toNat = .error st →
      refused (.read c tag x offset length) 32 ∧ refused (.verify c tag x offset length) 34) ∧
    (s.part.judgeAccess c x true offset.toNat length.toNat = .error st →
      refused (.write c tag x offset length payload) 33))

/-- Posting a postable WRITE keeps the entries of the queue disjoint, and so does every step. -/
def Obligations.PostingKeepsEntriesDisjoint : Prop :=
  (∀ (p : Part) (c : ClientId), disjointEntries p.writeQueue → p.postable c = true →
    disjointEntries (p.post c).writeQueue) ∧
  (∀ s t : State, disjointEntries s.part.writeQueue → step s = .next t → disjointEntries t.part.writeQueue)

/-- The poison list stays ascending and holds at most 16 offsets. An offset found poisoned joins a list of fewer than 16,
which keeps every offset it held and gains no other; a 17th makes a LIVE or LOCKED region FAULTED; in every other case nothing
of the record changes. No other field of the record changes in any case, and no other slot. Every step keeps every poison list
ascending within 16. -/
def Obligations.PoisonListStaysBounded : Prop :=
  (∀ (p : Part) (x : Place) (offset : Nat), p.region x.slot = some x.region →
    let old := x.region
    let q := p.damage x offset
    old.poison.Pairwise (· < ·) → old.poison.length ≤ 16 →
    (∃ r, q.region x.slot = some r ∧ r.poison.Pairwise (· < ·) ∧ r.poison.length ≤ 16 ∧
      r = { old with poison := r.poison, state := r.state }) ∧
    (old.state ≠ .releasing → offset ∉ old.poison → old.poison.length < 16 →
      ∃ list, q.region x.slot = some { old with poison := list } ∧ ∀ y, y ∈ list ↔ y = offset ∨ y ∈ old.poison) ∧
    (offset ∉ old.poison → old.poison.length = 16 → (old.state = .live ∨ old.state = .locked) →
      q.region x.slot = some { old with state := .faulted }) ∧
    ((old.state = .releasing ∨ offset ∈ old.poison ∨
        (old.poison.length = 16 ∧ old.state ≠ .live ∧ old.state ≠ .locked)) → q.region x.slot = some old) ∧
    (∀ u, u ≠ x.slot → q.region u = p.region u) ∧ (∀ u, q.generation u = p.generation u)) ∧
  (∀ s t : State, s.part.poisonBounded → step s = .next t → t.part.poisonBounded)

/-! ### The arbiter -/

/-- The ranking of a bank's arbiter with its two exceptions; a copy wait count stays within 16. A free bank starts the operation
chosen, which waits no more; a LINE READ, DRAIN or WIPE STEP accepted while a copy waits raises the count, and the copy's
acceptance ends it. A bank's DRAIN candidate is the oldest entry whose current frame lies in it, is no migration source, and
whose DRAIN is not in progress. A DRAIN offer is withdrawn when the candidate goes and made, behind what waits, when there is
one and no DRAIN is in progress. LINE READs of one act stand by client behind the older ones. Banks choose at the end of the
act that frees them (log 9). -/
def Obligations.ArbiterRanksOperations : Prop :=
  (∀ (k : Bank) (heavy : Bool),
    (∀ g, k.owed = some g → k.choose heavy = some (.refresh g)) ∧
    (k.owed = none →
      (∀ o, k.copy = some o → 16 ≤ k.copyWait → k.choose heavy = some (.copy o)) ∧
      ((k.copyWait < 16 ∨ k.copy = none) →
        (heavy = true → Turn.drainOffer ∈ k.turns → k.choose heavy = some (.turn .drainOffer)) ∧
        ((heavy = false ∨ Turn.drainOffer ∉ k.turns) →
          (∀ r rest, k.reads = r :: rest → k.choose heavy = some (.read r)) ∧
          (∀ t rest, k.reads = [] → k.turns = t :: rest → k.choose heavy = some (.turn t)) ∧
          (∀ o, k.reads = [] → k.turns = [] → k.copy = some o → k.choose heavy = some (.copy o)) ∧
          (∀ f n, k.reads = [] → k.turns = [] → k.copy = none → k.zero = some (f, n) →
            k.choose heavy = some (.zero f n)) ∧
          (∀ f n, k.reads = [] → k.turns = [] → k.copy = none → k.zero = none → k.scrub = some (f, n) →
            k.choose heavy = some (.scrub f n)) ∧
          (k.reads = [] → k.turns = [] → k.copy = none → k.zero = none → k.scrub = none →
            k.choose heavy = none))))) ∧
  (∀ (p : Part) (b d : BankId), (p.bank d).copyWait ≤ 16 → ((p.acceptAt b).bank d).copyWait ≤ 16) ∧
  (∀ (p : Part) (b : BankId),
    let k := p.bank b
    let passed := if k.copy = none then k.copyWait else min 16 (k.copyWait + 1)
    let starts : Bank → BankOp → Prop := fun x op => p.acceptAt b = p.modBank b fun _ => { x with running := some ⟨op, true⟩ }
    let chosen := k.choose p.heavy
    let others := k.turns.filter fun t => t != .drainOffer
    (k.running ≠ none → p.acceptAt b = p) ∧
    (k.running = none →
      (chosen = none → p.acceptAt b = p) ∧
      (∀ g, chosen = some (.refresh g) → starts { k with owed := none } (.refresh g)) ∧
      (∀ r, chosen = some (.read r) → starts { k with reads := k.reads.tail, copyWait := passed } (.lineRead r)) ∧
      (∀ slot f n, chosen = some (.turn (.wipeStep slot f n)) →
        starts { k with turns := k.turns.tail, copyWait := passed } (.wipeStep slot f n)) ∧
      (∀ e f, chosen = some (.turn .drainOffer) → p.candidate b = some e → p.currentFrame e = some f →
        starts { k with turns := others, copyWait := passed } (.drain e f)) ∧
      (chosen = some (.turn .drainOffer) → p.candidate b = none →
        p.acceptAt b = p.modBank b fun _ => { k with turns := others }) ∧
      (∀ o, chosen = some (.copy o) → starts { k with copy := none, copyWait := 0 } (.copy o)) ∧
      (∀ f n, chosen = some (.zero f n) → starts { k with zero := none } (.zeroStep f n)) ∧
      (∀ f n, chosen = some (.scrub f n) → starts { k with scrub := none } (.scrubStep f n)))) ∧
  (∀ (p : Part) (b : BankId),
    let drainable : Entry → Prop := fun e => ∃ f, p.currentFrame e = some f ∧ bankOf f = b ∧
      (∀ slot r m, p.region slot = some r → r.migration = some m → m.source ≠ f) ∧
      ∀ d x g, (p.bank d).running = some ⟨.drain x g, true⟩ →
        ¬ (x.handle.slot = e.handle.slot ∧ x.offset = e.offset)
    let k := p.bank b
    (∀ e, p.currentFrame e = (p.region e.handle.slot).bind fun r => r.frames[e.offset / 1024]?) ∧
    (∀ older e younger, p.writeQueue = older ++ e :: younger → (∀ x ∈ older, ¬ drainable x) → drainable e →
      p.candidate b = some e) ∧
    ((∀ e ∈ p.writeQueue, ¬ drainable e) → p.candidate b = none) ∧
    (p.withdrawOffers.bank b = { k with
      turns := if p.candidate b = none then k.turns.filter (fun t => t != .drainOffer) else k.turns }) ∧
    (p.makeOffers.bank b = { k with
      turns := if Turn.drainOffer ∈ k.turns ∨ p.candidate b = none ∨ k.draining = true then k.turns
        else k.turns ++ [.drainOffer] }) ∧
    (k.draining = true ↔ ∃ e f live, k.running = some ⟨.drain e f, live⟩)) ∧
  (∀ (p : Part) (r : LineRead), p.issueRead r =
    p.modBank (bankOf r.frame) fun k => { k with fresh := insertRead r k.fresh }) ∧
  (∀ (r : LineRead) (l : List LineRead), l.Pairwise (fun x y => x.client < y.client) → (∀ x ∈ l, x.client ≠ r.client) →
    (insertRead r l).Pairwise (fun x y => x.client < y.client) ∧ ∀ x, x ∈ insertRead r l ↔ x = r ∨ x ∈ l) ∧
  (∀ p : Part, p.arbitrate = allBanks.foldl Part.acceptAt
    ((p.modBanks fun k => { k with reads := k.reads ++ k.fresh, fresh := [] }).withdrawOffers.makeOffers))

/-! ### Batches -/

/-- R70: BATCH_OPEN. -/
def Obligations.BatchOpenOpensOneBatch : Prop :=
  ∀ (s : State) (c : ClientId) (tag : Byte), s.part.free c →
    ((s.part.client c).batch = none → exec (.batchOpen c tag) s = .next (s.withPart
      ((s.part.taken.modClient c fun k => { k with batch := some [] }).answer c 40 tag .done []).closeAct)) ∧
    (∀ staged, (s.part.client c).batch = some staged → exec (.batchOpen c tag) s =
      .next (s.withPart (s.part.taken.answer c 40 tag .batchOpen []).closeAct))

/-- While a batch is open a region command is staged with its position, or refused BATCH_FULL, or NOT_FOUND when its handle
field is a batch reference to a position that holds no GRANT or is not below its own. -/
def Obligations.RegionCommandsAreStaged : Prop :=
  (∀ (s : State) (c : ClientId) (tag : Byte) (cmd : RegionCommand) (staged : List RegionCommand), s.part.free c →
    (s.part.client c).batch = some staged →
    (8 ≤ staged.length → exec (commandRow c tag cmd) s =
      .next (s.withPart (s.part.taken.answer c cmd.code tag .batchFull []).closeAct)) ∧
    (staged.length < 8 → referenceValid staged cmd = false → exec (commandRow c tag cmd) s =
      .next (s.withPart (s.part.taken.answer c cmd.code tag .notFound []).closeAct)) ∧
    (staged.length < 8 → referenceValid staged cmd = true → exec (commandRow c tag cmd) s = .next (s.withPart
      ((s.part.taken.modClient c fun k => { k with batch := some (staged ++ [cmd]) }).answer c cmd.code tag .staged
        [byte staged.length]).closeAct))) ∧
  (∀ (staged : List RegionCommand) (cmd : RegionCommand),
    (commandHandle cmd = none → referenceValid staged cmd = true) ∧
    (∀ h, commandHandle cmd = some (.region h) → referenceValid staged cmd = true) ∧
    (∀ k, commandHandle cmd = some (.batchRef k) →
      (referenceValid staged cmd = true ↔
        k.val < staged.length ∧ ∃ size cls lease, staged[k.val]? = some (.grant size cls lease)))) ∧
  (∀ (x : Handle) (size : Byte) (cls : RegionClass) (lease : Option Half) (d base mask : Fin 8) (right : Right),
    commandHandle (.grant size cls lease) = none ∧
    ∀ cmd ∈ [RegionCommand.release x, .resize x size, .handover x d, .share x base mask right, .unshare x base mask,
      .lock x, .unlock x, .wipe x], commandHandle cmd = some x)

/-- BATCH_CLOSE judges its positions in order, each on the part that the earlier ones left, with a batch reference standing
for the handle its GRANT produced, by the checks and effects that the command has when executed at once. The first refusal, or
BUSY for a region that an earlier position wipes, undoes the close and is named with its status; otherwise every effect stands
and the close is answered DONE with its results, last of the act's responses (log 17), or waits. A RELEASE makes the result of
an earlier RESIZE of its region that waits ABORTED; each wait that ends gives its results their status, and the last one
answers the close. A GRANT's result keeps the handle that the GRANT produced; the response gives it with that generation while
it is the slot's, and for a region released since with that generation or the slot's, which of the two being a free value (log
28). BATCH_DROP discards. Without a batch both are NO_BATCH. -/
def Obligations.BatchCloseIsAllOrNothing : Prop :=
  (∀ (s : State) (c : ClientId) (tag : Byte), s.part.free c →
    ((s.part.client c).batch = none →
      exec (.batchClose c tag) s = .next (s.withPart (s.part.taken.answer c 41 tag .noBatch []).closeAct) ∧
      exec (.batchDrop c tag) s = .next (s.withPart (s.part.taken.answer c 42 tag .noBatch []).closeAct)) ∧
    (∀ cmds, (s.part.client c).batch = some cmds →
      let p0 := s.part.taken.modClient c fun k => { k with batch := none }
      (∀ i st, closeRounds c cmds ⟨p0, [], []⟩ = .error (i, st) → exec (.batchClose c tag) s =
        .next (s.withPart (p0.answer c 41 tag .batchFailed [byte i, st.code]).closeAct)) ∧
      (∀ k, closeRounds c cmds ⟨p0, [], []⟩ = .ok k →
        ((∀ r ∈ k.results, r.wait = none) → exec (.batchClose c tag) s =
          .next (s.withPart (k.part.answer c 41 tag .done (k.part.batchBody k.results)).closeAct)) ∧
        ((∃ r ∈ k.results, r.wait ≠ none) → exec (.batchClose c tag) s =
          .next (s.withPart (k.part.execute c tag (.batchClose k.results)).closeAct))) ∧
      exec (.batchDrop c tag) s = .next (s.withPart (p0.answer c 42 tag .done []).closeAct))) ∧
  (∀ (c : ClientId) (k : Closing),
    closeRounds c [] k = .ok k ∧
    ∀ (cmd : RegionCommand) (rest : List RegionCommand),
      let x := mapHandle k.resolve cmd
      let names : SlotId → Prop := fun slot => ∃ h, commandHandle x = some (.region h) ∧ h.slot = slot
      let goesOn : List BatchResult → List SlotId → Applied → Prop := fun results wiped a =>
        closeRounds c (cmd :: rest) k = closeRounds c rest ⟨a.part, results ++ [⟨.done, a.handle, a.wait⟩], wiped⟩
      let stopped : SlotId → List BatchResult := fun slot => k.results.map fun r =>
        if r.wait = some (.extension slot) then { r with status := .aborted, wait := none } else r
      (∀ st, k.part.apply c x = .error st → closeRounds c (cmd :: rest) k = .error (k.results.length, st)) ∧
      (∀ a, k.part.apply c x = .ok a →
        (∀ slot, names slot → slot ∈ k.wiped → closeRounds c (cmd :: rest) k = .error (k.results.length, .busy)) ∧
        ((∀ slot, names slot → slot ∉ k.wiped) →
          (∀ h, x = .release (.region h) → goesOn (stopped h.slot) k.wiped a) ∧
          (∀ h, x = .wipe (.region h) → goesOn k.results (k.wiped ++ [h.slot]) a) ∧
          ((∀ h, x ≠ .release h) → (∀ h, x ≠ .wipe h) → goesOn k.results k.wiped a)))) ∧
  (∀ (k : Closing) (x : Handle) (size : Byte) (cls : RegionClass) (lease : Option Half) (d base mask : Fin 8)
    (right : Right) (f : Handle → Handle),
    (∀ h, k.resolve (.region h) = .region h) ∧
    (∀ (n : Fin 8) (r : BatchResult) (h : RegionHandle), k.results[n.val]? = some r → r.handle = some h →
      k.resolve (.batchRef n) = .region h) ∧
    (∀ n : Fin 8, (∀ r h, k.results[n.val]? = some r → r.handle ≠ some h) → k.resolve (.batchRef n) = .batchRef n) ∧
    [RegionCommand.grant size cls lease, .release x, .resize x size, .handover x d, .share x base mask right,
      .unshare x base mask, .lock x, .unlock x, .wipe x].map (mapHandle f) =
    [.grant size cls lease, .release (f x), .resize (f x) size, .handover (f x) d, .share (f x) base mask right,
      .unshare (f x) base mask, .lock (f x), .unlock (f x), .wipe (f x)]) ∧
  (∀ (s : State) (c : ClientId) (tag : Byte) (cmd : RegionCommand), s.part.free c → (s.part.client c).batch = none →
    let after : Part → Prop := fun q => exec (commandRow c tag cmd) s = .next (s.withPart q.closeAct)
    (∀ st, s.part.taken.apply c cmd = .error st → after (s.part.taken.answer c cmd.code tag st [])) ∧
    (∀ a, s.part.taken.apply c cmd = .ok a →
      (a.wait = none → after (a.part.answer c cmd.code tag .done a.body)) ∧
      (∀ w, a.wait = some w → after (a.part.execute c tag (.waiting w))))) ∧
  (∀ (p : Part) (c : ClientId) (cmd : RegionCommand) (a : Applied), p.apply c cmd = .ok a →
    (∀ size cls lease, cmd = .grant size cls lease → ∃ slot, a.handle = some ⟨slot, p.generation slot⟩ ∧
      p.region slot = none ∧ ∀ u, u < slot → p.region u ≠ none) ∧
    ((∀ size cls lease, cmd ≠ .grant size cls lease) → a.handle = none)) ∧
  (∀ (p : Part) (rs : List BatchResult), p.batchBody rs = byte rs.length :: rs.flatMap fun r => r.status.code ::
    (match r.handle with | some h => [byte h.slot.val, (p.returnedHandle h).generation] | none => [0, 0])) ∧
  (∀ (p : Part) (h : RegionHandle), (p.returnedHandle h).slot = h.slot ∧
    (p.generation h.slot = h.generation → (p.returnedHandle h).generation = h.generation) ∧
    ((p.returnedHandle h).generation = h.generation ∨ (p.returnedHandle h).generation = p.generation h.slot)) ∧
  (∀ (p : Part) (w : Wait) (st : Status), p.resolveWait w st = allClients.foldl (Part.endWait w st) p ∧
    ∀ (c : ClientId) (tag : Byte),
      (∀ rs, (p.client c).executing = some ⟨tag, .batchClose rs⟩ →
        let rs' := rs.map fun r => if r.wait = some w then { r with status := st, wait := none } else r
        ((∀ r ∈ rs', r.wait = none) → Part.endWait w st p c =
          (p.modClient c fun k => { k with executing := none }).answer c 41 tag .done (p.batchBody rs')) ∧
        ((∃ r ∈ rs', r.wait ≠ none) → Part.endWait w st p c = p.execute c tag (.batchClose rs'))) ∧
      ((p.client c).executing = some ⟨tag, .waiting w⟩ → Part.endWait w st p c =
        (p.modClient c fun k => { k with executing := none }).answer c
          (match w with | .fill _ => 16 | .extension _ => 18 | .wipe _ => 24) tag st
          (if st = .done then p.waitBody w else [])) ∧
      (∀ x, (p.client c).executing = some ⟨tag, .waiting x⟩ → x ≠ w → Part.endWait w st p c = p) ∧
      ((∀ x, p.work c ≠ some (.waiting x)) → (∀ rs, p.work c ≠ some (.batchClose rs)) → Part.endWait w st p c = p))

/-! ### The supervisor's requests -/

/-- CONFIGURE: a value in range sets its parameter and is answered DONE; a value out of range, a client field that names no
client and a selector that names no parameter are BAD_VALUE; a quota of a client that owns regions is BUSY. A raised spare
target moves FREE frames to SPARE, lowest first, with RESERVE for client 0 when a shortfall begins; a lowered one moves the
excess to FREE, highest first. -/
def Obligations.ConfigureSetsParameters : Prop :=
  (∀ (s : State) (tag client : Byte) (v : Half), s.part.free 0 →
    let set : Instr → Bool → Part → Prop := fun i good q => exec i s = .next (s.withPart
      (if good then q.answer 0 48 tag .done [] else s.part.taken.answer 0 48 tag .badValue []).closeAct)
    set (.configureSpareTarget 0 tag client v) (decide (v.toNat ≤ 256)) (s.part.taken.setSpareTarget v.toNat) ∧
    set (.configureRetireThreshold 0 tag client v) (decide (1 ≤ v.toNat ∧ v.toNat ≤ 255))
      { s.part.taken with retire := { s.part.retire with threshold := v.toNat } } ∧
    set (.configureOutlierMargin 0 tag client v) (decide (v.toNat ≤ 255))
      { s.part.taken with retire := { s.part.retire with margin := v.toNat } } ∧
    set (.configureScrubInterval 0 tag client v) (decide (v.toNat ≤ 255)) (s.part.taken.setScrubInterval v.toNat) ∧
    set (.configureIdleTimeout 0 tag client v) (decide (v.toNat ≤ 255))
      { s.part with power := { s.part.power with
        idleTimeout := v.toNat
        idleTimer := if v.toNat = 0 then none else some (10 * v.toNat) } } ∧
    (7 < client.toNat → set (.configureQuota 0 tag client v) false s.part.taken) ∧
    (∀ d : ClientId, client = BitVec.ofNat 8 d.val →
      (4096 < v.toNat → set (.configureQuota 0 tag client v) false s.part.taken) ∧
      (v.toNat ≤ 4096 → s.part.ownedSlots d ≠ [] → exec (.configureQuota 0 tag client v) s =
        .next (s.withPart (s.part.taken.answer 0 48 tag .busy []).closeAct)) ∧
      (v.toNat ≤ 4096 → s.part.ownedSlots d = [] → set (.configureQuota 0 tag client v) true
        (s.part.taken.modClient d fun k => { k with quota := v.toNat }))) ∧
    (∀ selector : Byte, 5 < selector.toNat →
      set (.configureUnknownSelector 0 tag selector client v) false s.part.taken)) ∧
  (∀ (p : Part) (v : Nat),
    let q := p.setSpareTarget v
    let free := (List.finRange 4096).filter fun f => (p.frame f).state == .free
    let spare := (List.finRange 4096).filter fun f => (p.frame f).state == .spare
    let raised := free.take (v - spare.length)
    let shed := spare.reverse.take (spare.length - v)
    let began : Prop := p.pool.spareTarget ≤ spare.length ∧ spare.length + raised.length < v
    q.pool.spareTarget = v ∧
    (p.pool.spareTarget < v →
      (∀ f, q.frame f = if f ∈ raised then
        { p.frame f with state := .spare, region := none, doomed := false } else p.frame f) ∧
      (began → q.clients = (p.notify .reserve 0).clients) ∧ (¬ began → q.clients = p.clients)) ∧
    (v ≤ p.pool.spareTarget → q.clients = p.clients ∧ ∀ f, q.frame f = if f ∈ shed then
      { p.frame f with state := .free, region := none, doomed := false } else p.frame f)) ∧
  (∀ (p : Part) (v : Nat),
    (v = 0 → p.setScrubInterval v = { p with scrub := { p.scrub with interval := 0, timer := none } }) ∧
    (v ≠ 0 → (p.scrub.interval ≠ 0 ∨ p.scrub.current ≠ none) →
      p.setScrubInterval v = { p with scrub := { p.scrub with interval := v } }) ∧
    (v ≠ 0 → p.scrub.interval = 0 → p.scrub.current = none →
      p.setScrubInterval v = ({ p with scrub := { p.scrub with interval := v } } : Part).startScrubTimer))

/-- RETIRE by the frame's state; a number above 4095 is BAD_VALUE. A FREE, DIRTY or SPARE frame is RETIRED, a SPARE one made
good from the FREE ones with RESERVE if a shortfall begins; a CLAIMED or HELD one is doomed; a TARGET is RETIRED and its
migration gone. The engines follow (Part.react), then the DONE leaves (log 27). -/
def Obligations.RetireActsByFrameState : Prop :=
  (∀ (s : State) (tag : Byte) (n : Half), s.part.free 0 →
    (4096 ≤ n.toNat → exec (.retire 0 tag n) s =
      .next (s.withPart (s.part.taken.answer 0 50 tag .badValue []).closeAct)) ∧
    (∀ f : FrameId, n.toNat = f.val →
      let p := s.part.taken
      let g := s.part.frame f
      let after : Part → Prop := fun q =>
        exec (.retire 0 tag n) s = .next (s.withPart (q.react.answer 0 50 tag .done []).closeAct)
      let out : Part := { p with pool := { p.pool with
        frames := tset p.pool.frames f { g with state := .retired, region := none, doomed := false } } }
      ((g.state = .free ∨ g.state = .dirty) → after out) ∧
      (g.state = .spare → after (out.settleSpare s.part.pool)) ∧
      ((g.state = .claimed ∨ g.state = .held) → g.doomed = false → after (p.doom f)) ∧
      ((g.state = .claimed ∨ g.state = .held) → g.doomed = true → after p) ∧
      (∀ slot, g.state = .target → g.region = some slot → after (p.abortMigration slot .retired)) ∧
      (g.state = .retired → after p))) ∧
  (∀ (p : Part) (slot : SlotId) (r : Region) (m : Migration), p.region slot = some r → r.migration = some m →
    (p.abortMigration slot .retired).region slot = some { r with migration := none } ∧
    ((p.abortMigration slot .retired).frame m.target).state = .retired) ∧
  (∀ (p : Part) (before : Pool),
    let q := p.settleSpare before
    let spare := ((List.finRange 4096).filter fun f => (p.frame f).state == .spare).length
    let moved := ((List.finRange 4096).filter fun f => (p.frame f).state == .free).take (p.pool.spareTarget - spare)
    let began : Prop := before.spareTarget ≤ before.count .spare ∧ spare + moved.length < p.pool.spareTarget
    (∀ f, q.frame f = if f ∈ moved then
      { p.frame f with state := .spare, region := none, doomed := false } else p.frame f) ∧
    (began → q.clients = (p.notify .reserve 0).clients) ∧ (¬ began → q.clients = p.clients))

/-- The idle timer's expiry, at 0, enters STANDBY when the six conditions hold and restarts the timer otherwise; before that
the command changes nothing (log 2, 4). STANDBY is answered DONE and enters it, or BUSY. POWERDOWN enters DOWN when no slot
holds a region, or is BUSY. Entering STANDBY masks every segment but the KEEP ones, stops the idle timer and withdraws what
the scrub and migration engines have waiting; entering DOWN stops the idle, scrub and slot timers and drops the owed REFRESHes,
while the sampling schedule runs on; a queued request begins WAKING at once. Both leave a ZERO STEP that no bank has accepted
at its bank: the model's deduction (log 13). -/
def Obligations.StandbyAndPowerdown : Prop :=
  (∀ s : State,
    let p := s.part
    let allowed : Prop := p.writeQueue = [] ∧
      (∀ slot r, p.region slot = some r → r.state ≠ .filling ∧ r.extension = none ∧ r.wipe = none) ∧
      (∀ c x, p.work c = some x →
        (∀ v a ph, x ≠ .read v a ph) ∧ (∀ a l ph, x ≠ .write a l ph) ∧ ∀ slot, x ≠ .flush slot) ∧
      p.thermal.cls ≠ .freeze ∧ p.thermal.cls ≠ .overheat
    (p.hold = none → p.power.state = .active →
      (p.power.idleTimer = some 0 →
        (allowed → exec .idleTimerExpiry s = .next (s.withPart p.enterStandby.closeAct)) ∧
        (¬ allowed → exec .idleTimerExpiry s = .next (s.withPart p.startIdle.closeAct))) ∧
      (p.power.idleTimer ≠ some 0 → exec .idleTimerExpiry s = .next s)) ∧
    (∀ tag, p.free 0 →
      (allowed → exec (.standby 0 tag) s =
        .next (s.withPart (p.taken.answer 0 51 tag .done []).enterStandby.closeAct)) ∧
      (¬ allowed → exec (.standby 0 tag) s =
        .next (s.withPart (p.taken.answer 0 51 tag .busy []).closeAct)) ∧
      ((∀ slot, p.region slot = none) → exec (.powerdown 0 tag) s =
        .next (s.withPart (p.taken.answer 0 52 tag .done []).enterDown.closeAct)) ∧
      ((∃ slot r, p.region slot = some r) → exec (.powerdown 0 tag) s =
        .next (s.withPart (p.taken.answer 0 52 tag .busy []).closeAct)))) ∧
  (∀ p : Part, p.startIdle = { p with power := { p.power with
    idleTimer := if p.power.idleTimeout = 0 then none else some (10 * p.power.idleTimeout) } }) ∧
  (∀ p : Part,
    let q := p.enterStandby
    ((∀ c, (p.client c).queue = []) → q.power.state = .standby) ∧
    ((∃ c, (p.client c).queue ≠ []) → q.power.state = .waking .standby) ∧
    q.power.idleTimer = none ∧ q.power.idleTimeout = p.power.idleTimeout ∧
    (∀ g, g ∈ q.power.masked ↔ (tget p.pool.segments g).cls ≠ .keep) ∧
    (∀ b,
      let half : Prop := ∃ f t n l cs, (p.bank b).copy = some (.writeHalf f t n l cs)
      (half → q.bank b = { p.bank b with scrub := none }) ∧
      (¬ half → q.bank b = { p.bank b with scrub := none, copy := none, copyWait := 0 })) ∧
    q.slots = p.slots ∧ q.pool = p.pool ∧ q.scrub = p.scrub ∧ q.zero = p.zero ∧ q.retire = p.retire ∧
    q.clients = p.clients ∧ q.tx = p.tx) ∧
  (∀ p : Part,
    let q := p.enterDown
    ((p.client 0).queue = [] → q.power.state = .down) ∧
    ((p.client 0).queue ≠ [] → q.power.state = .waking .down) ∧ q.power.idleTimer = none ∧
    (∀ b, q.bank b = { p.bank b with slotTimer := none, owed := none }) ∧
    q.scrub = { p.scrub with timer := none } ∧ q.pool = p.pool ∧ q.zero = p.zero ∧ q.clients = p.clients ∧
    q.thermal = p.thermal ∧ q.tx = p.tx)

/-- RESET is answered DONE, behind the ABORTED responses of the same act (R189 states this order; log 17), after a soft reset
that any state takes alike: what it clears and what it keeps. CLAIMED and HELD frames are DIRTY, or RETIRED if doomed, and a
TARGET is DIRTY; client 0 keeps its queue and its enable set. The banks' waiting operations are withdrawn but for a ZERO STEP,
refresh goes on, and an operation in progress completes without its issuer but for a ZERO STEP (log 24; a copy's read half:
log 33). The scrub engine abandons its frame and starts its timer, the migration engine is IDLE, the idle timer restarts, and
every configured parameter stays. -/
def Obligations.SoftResetClearsAndKeeps : Prop :=
  (∀ (s : State) (tag : Byte), s.part.free 0 →
    exec (.reset 0 tag) s = .next (s.withPart (s.part.taken.serveReset 0 tag).closeAct)) ∧
  (∀ (p : Part) (tag : Byte),
    let q := p.serveReset 0 tag
    q.cause = .soft ∧ q.thermal = p.thermal ∧ q.fills = [] ∧ q.writeQueue = [] ∧ q.posting = [] ∧ q.wipeHold = [] ∧
    q.retire = { p.retire with queue := [], engine := .idle } ∧ q.pool.spareTarget = p.pool.spareTarget ∧
    q.power = { p.power with
      idleTimer := if p.power.idleTimeout = 0 then none else some (10 * p.power.idleTimeout) } ∧
    q.zero = p.zero ∧
    q.scrub = { p.scrub with
      current := none
      timer := if p.scrub.current = none then p.scrub.timer
        else if p.scrub.interval = 0 then none
        else some (p.scrub.interval *
          (if p.thermal.cls = .warm ∨ p.thermal.cls = .hot ∨ p.thermal.cls = .overheat then 50 else 100)) } ∧
    (∀ b, q.bank b = { p.bank b with
      reads := [], fresh := [], turns := [], copy := none, scrub := none, copyWait := 0
      running := (p.bank b).running.map fun x => { x with live := x.live && (match x.op with
        | .zeroStep _ _ => true
        | _ => false) } }) ∧
    (∃ attention, q.tx.getLast? = some ⟨0, 53, tag, .done, attention, []⟩) ∧
    (∀ slot, q.region slot = none ∧ q.generation slot =
      if (p.region slot).isSome then p.generation slot + 1 else p.generation slot) ∧
    (∀ c, (q.client c).attached = (c == 0) ∧ (q.client c).flags = 0 ∧ (q.client c).batch = none ∧
      (q.client c).quota = (p.client c).quota) ∧
    (∀ c, c ≠ 0 → (q.client c).queue = [] ∧ (q.client c).executing = none ∧ (q.client c).enable = 0) ∧
    (q.client 0).queue = (p.client 0).queue ∧ (q.client 0).enable = (p.client 0).enable ∧
    (∀ f,
      let g := p.frame f
      q.frame f = { g with
        state := match g.state with
          | .claimed | .held => if g.doomed then .retired else .dirty
          | .target => .dirty
          | .free => .free
          | .dirty => .dirty
          | .spare => .spare
          | .retired => .retired
        region := none
        doomed := false }))
end

