-- ==== Sys2Proof/Laws/Memory.lean ====
section
/-! SUPPORT. Laws of the array's bytes: what a write leaves at each address, and that every operation keeps the canonical
form. -/

namespace Sys2Proof.Machine

theorem read_append (m n : List Host.Cell) (a : Nat) :
    Memory.read (m ++ n) a = (Memory.read m a).or (Memory.read n a) := by
  simp only [Memory.read, List.find?_append]
  cases m.find? fun c => c.1 == a <;> simp

theorem read_filter (m : List Host.Cell) (P : Nat → Bool) (a : Nat) :
    Memory.read (m.filter fun c => P c.1) a = if P a then Memory.read m a else none := by
  induction m with
  | nil => simp [Memory.read]
  | cons c m ih =>
    simp only [Memory.read] at ih ⊢
    by_cases e : c.1 = a
    · subst e
      by_cases hp : P c.1 = true
      · simp [hp]
      · simp only [List.filter_cons, hp]
        simpa [hp] using ih
    · have e' : (c.1 == a) = false := by simpa using e
      by_cases hq : P c.1 = true
      · simp only [List.filter_cons, hq, if_true, List.find?_cons, e']
        exact ih
      · simp only [List.filter_cons, hq, List.find?_cons, e']
        exact ih

/-- The cells of a run read as the run inside it and as nothing outside it. -/
theorem read_cellsOf (a x : Nat) (bs : List (Option Byte)) :
    Memory.read (Memory.cellsOf a bs) x = if a ≤ x ∧ x < a + bs.length then (bs[x - a]?).join else none := by
  induction bs generalizing a with
  | nil =>
    have h : ¬ (a ≤ x ∧ x < a + ([] : List (Option Byte)).length) := by simp
    rw [if_neg h]; simp [Memory.cellsOf, Memory.read]
  | cons b bs ih =>
    by_cases e : x = a
    · subst e
      cases b with
      | none => simp [Memory.cellsOf, ih]
      | some b => simp [Memory.cellsOf, Memory.read]
    · have shift : (if a + 1 ≤ x ∧ x < a + 1 + bs.length then (bs[x - (a + 1)]?).join else none) =
          (if a ≤ x ∧ x < a + (b :: bs).length then ((b :: bs)[x - a]?).join else none) := by
        by_cases h : a + 1 ≤ x ∧ x < a + 1 + bs.length
        · have h' : a ≤ x ∧ x < a + (b :: bs).length := by simp; omega
          have : x - a = (x - (a + 1)) + 1 := by omega
          rw [if_pos h, if_pos h', this]; simp
        · have h' : ¬ (a ≤ x ∧ x < a + (b :: bs).length) := by simp; omega
          rw [if_neg h, if_neg h']
      rw [← shift, ← ih]
      cases b with
      | none => simp [Memory.cellsOf]
      | some b =>
        have : (a == x) = false := by simpa using fun h => e h.symm
        simp [Memory.cellsOf, Memory.read, this]

/-- A WRITTEN RUN READS AS WRITTEN: inside it the run's bytes, outside it what was there. -/
theorem read_place (m : List Host.Cell) (a x : Nat) (bs : List (Option Byte)) :
    Memory.read (Memory.place m a bs) x =
      if a ≤ x ∧ x < a + bs.length then (bs[x - a]?).join else Memory.read m x := by
  have h1 : Memory.read (m.filter fun c => decide (c.1 < a)) x =
      if decide (x < a) then Memory.read m x else none :=
    read_filter m (fun n => decide (n < a)) x
  have h2 : Memory.read (m.filter fun c => decide (a + bs.length ≤ c.1)) x =
      if decide (a + bs.length ≤ x) then Memory.read m x else none :=
    read_filter m (fun n => decide (a + bs.length ≤ n)) x
  rw [Memory.place, read_append, read_append, read_cellsOf, h1, h2]
  by_cases hx : x < a
  · have : ¬ (a ≤ x ∧ x < a + bs.length) := by omega
    have h3 : ¬ (a + bs.length ≤ x) := by omega
    simp [hx, this, h3]
  · by_cases hy : x < a + bs.length
    · have : a ≤ x ∧ x < a + bs.length := by omega
      have h3 : ¬ (a + bs.length ≤ x) := by omega
      simp [hx, this, h3]
    · have : ¬ (a ≤ x ∧ x < a + bs.length) := by omega
      have h3 : a + bs.length ≤ x := by omega
      simp [hx, this, h3]

theorem rising_iff (m : List Host.Cell) : Memory.rising m = true ↔ m.Pairwise fun c d => c.1 < d.1 := by
  induction m with
  | nil => simp [Memory.rising]
  | cons c m ih =>
    cases m with
    | nil => simp [Memory.rising]
    | cons d m =>
      rw [Memory.rising, Bool.and_eq_true, ih]
      simp only [decide_eq_true_eq, List.pairwise_cons, List.mem_cons]
      constructor
      · rintro ⟨h, h2, h3⟩
        refine ⟨?_, h2, h3⟩
        rintro x (rfl | hx)
        · exact h
        · exact Nat.lt_trans h (h2 x hx)
      · rintro ⟨h, h2, h3⟩
        exact ⟨h d (Or.inl rfl), h2, h3⟩

theorem cellsOf_bounds (a : Nat) (bs : List (Option Byte)) :
    ∀ c ∈ Memory.cellsOf a bs, a ≤ c.1 ∧ c.1 < a + bs.length := by
  induction bs generalizing a with
  | nil => simp [Memory.cellsOf]
  | cons b bs ih =>
    have step : ∀ c ∈ Memory.cellsOf (a + 1) bs, a ≤ c.1 ∧ c.1 < a + (b :: bs).length := by
      intro c hc; have := ih (a + 1) c hc; simp; omega
    cases b with
    | none => simpa [Memory.cellsOf] using step
    | some b =>
      intro c hc
      simp only [Memory.cellsOf, List.mem_cons] at hc
      rcases hc with rfl | hc
      · simp
      · exact step c hc

theorem cellsOf_rising (a : Nat) (bs : List (Option Byte)) :
    (Memory.cellsOf a bs).Pairwise fun c d => c.1 < d.1 := by
  induction bs generalizing a with
  | nil => simp [Memory.cellsOf]
  | cons b bs ih =>
    cases b with
    | none => simpa [Memory.cellsOf] using ih (a + 1)
    | some b =>
      simp only [Memory.cellsOf, List.pairwise_cons]
      exact ⟨fun c hc => by have := cellsOf_bounds (a + 1) bs c hc; simp; omega, ih (a + 1)⟩

/-- A WRITE KEEPS THE CANONICAL FORM. -/
theorem wf_place (m : List Host.Cell) (a : Nat) (bs : List (Option Byte)) (h : Memory.wf m = true) :
    Memory.wf (Memory.place m a bs) = true := by
  rw [Memory.wf, rising_iff] at h ⊢
  rw [Memory.place, List.pairwise_append, List.pairwise_append]
  refine ⟨h.filter _, ⟨cellsOf_rising a bs, h.filter _, ?_⟩, ?_⟩
  · intro c hc d hd
    have hb := cellsOf_bounds a bs c hc
    have : a + bs.length ≤ d.1 := by simpa using (List.mem_filter.mp hd).2
    omega
  · intro c hc d hd
    have hlt : c.1 < a := by simpa using (List.mem_filter.mp hc).2
    rcases List.mem_append.mp hd with hd | hd
    · have := cellsOf_bounds a bs d hd; omega
    · have : a + bs.length ≤ d.1 := by simpa using (List.mem_filter.mp hd).2
      omega

theorem wf_filter (m : List Host.Cell) (P : Host.Cell → Bool) (h : Memory.wf m = true) :
    Memory.wf (m.filter P) = true := by
  rw [Memory.wf, rising_iff] at h ⊢; exact h.filter _

theorem wf_zeroStep (s : Store) (f : FrameId) (n : Nat) (h : Memory.wf s.cells = true) :
    Memory.wf (s.zeroStep f n).cells = true := wf_place _ _ _ h

theorem wf_drain (s : Store) (f : FrameId) (e : Entry) (h : Memory.wf s.cells = true) :
    Memory.wf (s.drain f e).cells = true := wf_place _ _ _ h

theorem wf_placeStep (s : Store) (f : FrameId) (n : Nat) (bs : List (Option Byte)) (h : Memory.wf s.cells = true) :
    Memory.wf (s.placeStep f n bs).cells = true := wf_place _ _ _ h

theorem wf_forgetFrames (s : Store) (P : FrameId → Bool) (h : Memory.wf s.cells = true) :
    Memory.wf (s.forgetFrames P).cells = true := wf_filter _ _ h

theorem wf_forgetLines (s : Store) (f : FrameId) (line : Nat) (ks : List Nat) (h : Memory.wf s.cells = true) :
    Memory.wf (s.forgetLines f line ks).cells = true := by
  induction ks generalizing s with
  | nil => exact h
  | cons k ks ih => exact ih _ (wf_place _ _ _ h)

end Sys2Proof.Machine
end

