-- ==== Sys2Proof/Laws/State.lean ====
section
/-! SUPPORT. What each small update of the state leaves in each field. -/

namespace Sys2Proof.Machine

@[simp] theorem withPart_pending (s : State) (p : Part) : (s.withPart p).pending = s.pending := rfl
@[simp] theorem withPart_store (s : State) (p : Part) : (s.withPart p).store = s.store := rfl
@[simp] theorem withPart_part (s : State) (p : Part) : (s.withPart p).part = p := rfl

@[simp] theorem modClient_slots (p : Part) (c : ClientId) (f : Client → Client) :
    (p.modClient c f).slots = p.slots := rfl
@[simp] theorem modClient_pool (p : Part) (c : ClientId) (f : Client → Client) :
    (p.modClient c f).pool = p.pool := rfl
@[simp] theorem modClient_fills (p : Part) (c : ClientId) (f : Client → Client) :
    (p.modClient c f).fills = p.fills := rfl
@[simp] theorem modClient_zero (p : Part) (c : ClientId) (f : Client → Client) :
    (p.modClient c f).zero = p.zero := rfl
@[simp] theorem modClient_writeQueue (p : Part) (c : ClientId) (f : Client → Client) :
    (p.modClient c f).writeQueue = p.writeQueue := rfl
@[simp] theorem modClient_posting (p : Part) (c : ClientId) (f : Client → Client) :
    (p.modClient c f).posting = p.posting := rfl
@[simp] theorem modClient_wipeHold (p : Part) (c : ClientId) (f : Client → Client) :
    (p.modClient c f).wipeHold = p.wipeHold := rfl
@[simp] theorem modClient_banks (p : Part) (c : ClientId) (f : Client → Client) :
    (p.modClient c f).banks = p.banks := rfl
@[simp] theorem modClient_thermal (p : Part) (c : ClientId) (f : Client → Client) :
    (p.modClient c f).thermal = p.thermal := rfl
@[simp] theorem modClient_scrub (p : Part) (c : ClientId) (f : Client → Client) :
    (p.modClient c f).scrub = p.scrub := rfl
@[simp] theorem modClient_retire (p : Part) (c : ClientId) (f : Client → Client) :
    (p.modClient c f).retire = p.retire := rfl
@[simp] theorem modClient_power (p : Part) (c : ClientId) (f : Client → Client) :
    (p.modClient c f).power = p.power := rfl
@[simp] theorem modClient_cause (p : Part) (c : ClientId) (f : Client → Client) :
    (p.modClient c f).cause = p.cause := rfl
@[simp] theorem modClient_hold (p : Part) (c : ClientId) (f : Client → Client) :
    (p.modClient c f).hold = p.hold := rfl
@[simp] theorem modClient_tx (p : Part) (c : ClientId) (f : Client → Client) :
    (p.modClient c f).tx = p.tx := rfl
@[simp] theorem modClient_phase (p : Part) (c : ClientId) (f : Client → Client) :
    (p.modClient c f).phase = p.phase := rfl

@[simp] theorem modRegion_clients (p : Part) (s : SlotId) (f : Region → Region) :
    (p.modRegion s f).clients = p.clients := rfl
@[simp] theorem modRegion_pool (p : Part) (s : SlotId) (f : Region → Region) :
    (p.modRegion s f).pool = p.pool := rfl
@[simp] theorem modRegion_fills (p : Part) (s : SlotId) (f : Region → Region) :
    (p.modRegion s f).fills = p.fills := rfl
@[simp] theorem modRegion_zero (p : Part) (s : SlotId) (f : Region → Region) :
    (p.modRegion s f).zero = p.zero := rfl
@[simp] theorem modRegion_writeQueue (p : Part) (s : SlotId) (f : Region → Region) :
    (p.modRegion s f).writeQueue = p.writeQueue := rfl
@[simp] theorem modRegion_posting (p : Part) (s : SlotId) (f : Region → Region) :
    (p.modRegion s f).posting = p.posting := rfl
@[simp] theorem modRegion_wipeHold (p : Part) (s : SlotId) (f : Region → Region) :
    (p.modRegion s f).wipeHold = p.wipeHold := rfl
@[simp] theorem modRegion_banks (p : Part) (s : SlotId) (f : Region → Region) :
    (p.modRegion s f).banks = p.banks := rfl
@[simp] theorem modRegion_thermal (p : Part) (s : SlotId) (f : Region → Region) :
    (p.modRegion s f).thermal = p.thermal := rfl
@[simp] theorem modRegion_scrub (p : Part) (s : SlotId) (f : Region → Region) :
    (p.modRegion s f).scrub = p.scrub := rfl
@[simp] theorem modRegion_retire (p : Part) (s : SlotId) (f : Region → Region) :
    (p.modRegion s f).retire = p.retire := rfl
@[simp] theorem modRegion_power (p : Part) (s : SlotId) (f : Region → Region) :
    (p.modRegion s f).power = p.power := rfl
@[simp] theorem modRegion_cause (p : Part) (s : SlotId) (f : Region → Region) :
    (p.modRegion s f).cause = p.cause := rfl
@[simp] theorem modRegion_hold (p : Part) (s : SlotId) (f : Region → Region) :
    (p.modRegion s f).hold = p.hold := rfl
@[simp] theorem modRegion_tx (p : Part) (s : SlotId) (f : Region → Region) :
    (p.modRegion s f).tx = p.tx := rfl
@[simp] theorem modRegion_phase (p : Part) (s : SlotId) (f : Region → Region) :
    (p.modRegion s f).phase = p.phase := rfl

@[simp] theorem modBank_clients (p : Part) (b : BankId) (f : Bank → Bank) :
    (p.modBank b f).clients = p.clients := rfl
@[simp] theorem modBank_slots (p : Part) (b : BankId) (f : Bank → Bank) :
    (p.modBank b f).slots = p.slots := rfl
@[simp] theorem modBank_pool (p : Part) (b : BankId) (f : Bank → Bank) :
    (p.modBank b f).pool = p.pool := rfl
@[simp] theorem modBank_fills (p : Part) (b : BankId) (f : Bank → Bank) :
    (p.modBank b f).fills = p.fills := rfl
@[simp] theorem modBank_zero (p : Part) (b : BankId) (f : Bank → Bank) :
    (p.modBank b f).zero = p.zero := rfl
@[simp] theorem modBank_writeQueue (p : Part) (b : BankId) (f : Bank → Bank) :
    (p.modBank b f).writeQueue = p.writeQueue := rfl
@[simp] theorem modBank_posting (p : Part) (b : BankId) (f : Bank → Bank) :
    (p.modBank b f).posting = p.posting := rfl
@[simp] theorem modBank_wipeHold (p : Part) (b : BankId) (f : Bank → Bank) :
    (p.modBank b f).wipeHold = p.wipeHold := rfl
@[simp] theorem modBank_thermal (p : Part) (b : BankId) (f : Bank → Bank) :
    (p.modBank b f).thermal = p.thermal := rfl
@[simp] theorem modBank_scrub (p : Part) (b : BankId) (f : Bank → Bank) :
    (p.modBank b f).scrub = p.scrub := rfl
@[simp] theorem modBank_retire (p : Part) (b : BankId) (f : Bank → Bank) :
    (p.modBank b f).retire = p.retire := rfl
@[simp] theorem modBank_power (p : Part) (b : BankId) (f : Bank → Bank) :
    (p.modBank b f).power = p.power := rfl
@[simp] theorem modBank_cause (p : Part) (b : BankId) (f : Bank → Bank) :
    (p.modBank b f).cause = p.cause := rfl
@[simp] theorem modBank_hold (p : Part) (b : BankId) (f : Bank → Bank) :
    (p.modBank b f).hold = p.hold := rfl
@[simp] theorem modBank_tx (p : Part) (b : BankId) (f : Bank → Bank) :
    (p.modBank b f).tx = p.tx := rfl
@[simp] theorem modBank_phase (p : Part) (b : BankId) (f : Bank → Bank) :
    (p.modBank b f).phase = p.phase := rfl

@[simp] theorem modBanks_clients (p : Part) (f : Bank → Bank) :
    (p.modBanks f).clients = p.clients := rfl
@[simp] theorem modBanks_slots (p : Part) (f : Bank → Bank) :
    (p.modBanks f).slots = p.slots := rfl
@[simp] theorem modBanks_pool (p : Part) (f : Bank → Bank) :
    (p.modBanks f).pool = p.pool := rfl
@[simp] theorem modBanks_fills (p : Part) (f : Bank → Bank) :
    (p.modBanks f).fills = p.fills := rfl
@[simp] theorem modBanks_zero (p : Part) (f : Bank → Bank) :
    (p.modBanks f).zero = p.zero := rfl
@[simp] theorem modBanks_writeQueue (p : Part) (f : Bank → Bank) :
    (p.modBanks f).writeQueue = p.writeQueue := rfl
@[simp] theorem modBanks_posting (p : Part) (f : Bank → Bank) :
    (p.modBanks f).posting = p.posting := rfl
@[simp] theorem modBanks_wipeHold (p : Part) (f : Bank → Bank) :
    (p.modBanks f).wipeHold = p.wipeHold := rfl
@[simp] theorem modBanks_thermal (p : Part) (f : Bank → Bank) :
    (p.modBanks f).thermal = p.thermal := rfl
@[simp] theorem modBanks_scrub (p : Part) (f : Bank → Bank) :
    (p.modBanks f).scrub = p.scrub := rfl
@[simp] theorem modBanks_retire (p : Part) (f : Bank → Bank) :
    (p.modBanks f).retire = p.retire := rfl
@[simp] theorem modBanks_power (p : Part) (f : Bank → Bank) :
    (p.modBanks f).power = p.power := rfl
@[simp] theorem modBanks_cause (p : Part) (f : Bank → Bank) :
    (p.modBanks f).cause = p.cause := rfl
@[simp] theorem modBanks_hold (p : Part) (f : Bank → Bank) :
    (p.modBanks f).hold = p.hold := rfl
@[simp] theorem modBanks_tx (p : Part) (f : Bank → Bank) :
    (p.modBanks f).tx = p.tx := rfl
@[simp] theorem modBanks_phase (p : Part) (f : Bank → Bank) :
    (p.modBanks f).phase = p.phase := rfl

@[simp] theorem modFrame_clients (p : Part) (x : FrameId) (g : Frame → Frame) :
    (p.modFrame x g).clients = p.clients := rfl
@[simp] theorem modFrame_slots (p : Part) (x : FrameId) (g : Frame → Frame) :
    (p.modFrame x g).slots = p.slots := rfl
@[simp] theorem modFrame_fills (p : Part) (x : FrameId) (g : Frame → Frame) :
    (p.modFrame x g).fills = p.fills := rfl
@[simp] theorem modFrame_zero (p : Part) (x : FrameId) (g : Frame → Frame) :
    (p.modFrame x g).zero = p.zero := rfl
@[simp] theorem modFrame_writeQueue (p : Part) (x : FrameId) (g : Frame → Frame) :
    (p.modFrame x g).writeQueue = p.writeQueue := rfl
@[simp] theorem modFrame_posting (p : Part) (x : FrameId) (g : Frame → Frame) :
    (p.modFrame x g).posting = p.posting := rfl
@[simp] theorem modFrame_wipeHold (p : Part) (x : FrameId) (g : Frame → Frame) :
    (p.modFrame x g).wipeHold = p.wipeHold := rfl
@[simp] theorem modFrame_banks (p : Part) (x : FrameId) (g : Frame → Frame) :
    (p.modFrame x g).banks = p.banks := rfl
@[simp] theorem modFrame_thermal (p : Part) (x : FrameId) (g : Frame → Frame) :
    (p.modFrame x g).thermal = p.thermal := rfl
@[simp] theorem modFrame_scrub (p : Part) (x : FrameId) (g : Frame → Frame) :
    (p.modFrame x g).scrub = p.scrub := rfl
@[simp] theorem modFrame_retire (p : Part) (x : FrameId) (g : Frame → Frame) :
    (p.modFrame x g).retire = p.retire := rfl
@[simp] theorem modFrame_power (p : Part) (x : FrameId) (g : Frame → Frame) :
    (p.modFrame x g).power = p.power := rfl
@[simp] theorem modFrame_cause (p : Part) (x : FrameId) (g : Frame → Frame) :
    (p.modFrame x g).cause = p.cause := rfl
@[simp] theorem modFrame_hold (p : Part) (x : FrameId) (g : Frame → Frame) :
    (p.modFrame x g).hold = p.hold := rfl
@[simp] theorem modFrame_tx (p : Part) (x : FrameId) (g : Frame → Frame) :
    (p.modFrame x g).tx = p.tx := rfl
@[simp] theorem modFrame_phase (p : Part) (x : FrameId) (g : Frame → Frame) :
    (p.modFrame x g).phase = p.phase := rfl

@[simp] theorem answer_clients (p : Part) (c : ClientId) (code tag : Byte) (st : Status) (body : List Byte) :
    (p.answer c code tag st body).clients = p.clients := rfl
@[simp] theorem answer_slots (p : Part) (c : ClientId) (code tag : Byte) (st : Status) (body : List Byte) :
    (p.answer c code tag st body).slots = p.slots := rfl
@[simp] theorem answer_pool (p : Part) (c : ClientId) (code tag : Byte) (st : Status) (body : List Byte) :
    (p.answer c code tag st body).pool = p.pool := rfl
@[simp] theorem answer_fills (p : Part) (c : ClientId) (code tag : Byte) (st : Status) (body : List Byte) :
    (p.answer c code tag st body).fills = p.fills := rfl
@[simp] theorem answer_zero (p : Part) (c : ClientId) (code tag : Byte) (st : Status) (body : List Byte) :
    (p.answer c code tag st body).zero = p.zero := rfl
@[simp] theorem answer_writeQueue (p : Part) (c : ClientId) (code tag : Byte) (st : Status) (body : List Byte) :
    (p.answer c code tag st body).writeQueue = p.writeQueue := rfl
@[simp] theorem answer_posting (p : Part) (c : ClientId) (code tag : Byte) (st : Status) (body : List Byte) :
    (p.answer c code tag st body).posting = p.posting := rfl
@[simp] theorem answer_wipeHold (p : Part) (c : ClientId) (code tag : Byte) (st : Status) (body : List Byte) :
    (p.answer c code tag st body).wipeHold = p.wipeHold := rfl
@[simp] theorem answer_banks (p : Part) (c : ClientId) (code tag : Byte) (st : Status) (body : List Byte) :
    (p.answer c code tag st body).banks = p.banks := rfl
@[simp] theorem answer_thermal (p : Part) (c : ClientId) (code tag : Byte) (st : Status) (body : List Byte) :
    (p.answer c code tag st body).thermal = p.thermal := rfl
@[simp] theorem answer_scrub (p : Part) (c : ClientId) (code tag : Byte) (st : Status) (body : List Byte) :
    (p.answer c code tag st body).scrub = p.scrub := rfl
@[simp] theorem answer_retire (p : Part) (c : ClientId) (code tag : Byte) (st : Status) (body : List Byte) :
    (p.answer c code tag st body).retire = p.retire := rfl
@[simp] theorem answer_power (p : Part) (c : ClientId) (code tag : Byte) (st : Status) (body : List Byte) :
    (p.answer c code tag st body).power = p.power := rfl
@[simp] theorem answer_cause (p : Part) (c : ClientId) (code tag : Byte) (st : Status) (body : List Byte) :
    (p.answer c code tag st body).cause = p.cause := rfl
@[simp] theorem answer_hold (p : Part) (c : ClientId) (code tag : Byte) (st : Status) (body : List Byte) :
    (p.answer c code tag st body).hold = p.hold := rfl
@[simp] theorem answer_phase (p : Part) (c : ClientId) (code tag : Byte) (st : Status) (body : List Byte) :
    (p.answer c code tag st body).phase = p.phase := rfl

@[simp] theorem notify_slots (p : Part) (n : Notice) (c : ClientId) :
    (p.notify n c).slots = p.slots := rfl
@[simp] theorem notify_pool (p : Part) (n : Notice) (c : ClientId) :
    (p.notify n c).pool = p.pool := rfl
@[simp] theorem notify_fills (p : Part) (n : Notice) (c : ClientId) :
    (p.notify n c).fills = p.fills := rfl
@[simp] theorem notify_zero (p : Part) (n : Notice) (c : ClientId) :
    (p.notify n c).zero = p.zero := rfl
@[simp] theorem notify_writeQueue (p : Part) (n : Notice) (c : ClientId) :
    (p.notify n c).writeQueue = p.writeQueue := rfl
@[simp] theorem notify_posting (p : Part) (n : Notice) (c : ClientId) :
    (p.notify n c).posting = p.posting := rfl
@[simp] theorem notify_wipeHold (p : Part) (n : Notice) (c : ClientId) :
    (p.notify n c).wipeHold = p.wipeHold := rfl
@[simp] theorem notify_banks (p : Part) (n : Notice) (c : ClientId) :
    (p.notify n c).banks = p.banks := rfl
@[simp] theorem notify_thermal (p : Part) (n : Notice) (c : ClientId) :
    (p.notify n c).thermal = p.thermal := rfl
@[simp] theorem notify_scrub (p : Part) (n : Notice) (c : ClientId) :
    (p.notify n c).scrub = p.scrub := rfl
@[simp] theorem notify_retire (p : Part) (n : Notice) (c : ClientId) :
    (p.notify n c).retire = p.retire := rfl
@[simp] theorem notify_power (p : Part) (n : Notice) (c : ClientId) :
    (p.notify n c).power = p.power := rfl
@[simp] theorem notify_cause (p : Part) (n : Notice) (c : ClientId) :
    (p.notify n c).cause = p.cause := rfl
@[simp] theorem notify_hold (p : Part) (n : Notice) (c : ClientId) :
    (p.notify n c).hold = p.hold := rfl
@[simp] theorem notify_tx (p : Part) (n : Notice) (c : ClientId) :
    (p.notify n c).tx = p.tx := rfl
@[simp] theorem notify_phase (p : Part) (n : Notice) (c : ClientId) :
    (p.notify n c).phase = p.phase := rfl

@[simp] theorem execute_slots (p : Part) (c : ClientId) (tag : Byte) (w : Work) :
    (p.execute c tag w).slots = p.slots := rfl
@[simp] theorem execute_pool (p : Part) (c : ClientId) (tag : Byte) (w : Work) :
    (p.execute c tag w).pool = p.pool := rfl
@[simp] theorem execute_fills (p : Part) (c : ClientId) (tag : Byte) (w : Work) :
    (p.execute c tag w).fills = p.fills := rfl
@[simp] theorem execute_zero (p : Part) (c : ClientId) (tag : Byte) (w : Work) :
    (p.execute c tag w).zero = p.zero := rfl
@[simp] theorem execute_writeQueue (p : Part) (c : ClientId) (tag : Byte) (w : Work) :
    (p.execute c tag w).writeQueue = p.writeQueue := rfl
@[simp] theorem execute_posting (p : Part) (c : ClientId) (tag : Byte) (w : Work) :
    (p.execute c tag w).posting = p.posting := rfl
@[simp] theorem execute_wipeHold (p : Part) (c : ClientId) (tag : Byte) (w : Work) :
    (p.execute c tag w).wipeHold = p.wipeHold := rfl
@[simp] theorem execute_banks (p : Part) (c : ClientId) (tag : Byte) (w : Work) :
    (p.execute c tag w).banks = p.banks := rfl
@[simp] theorem execute_thermal (p : Part) (c : ClientId) (tag : Byte) (w : Work) :
    (p.execute c tag w).thermal = p.thermal := rfl
@[simp] theorem execute_scrub (p : Part) (c : ClientId) (tag : Byte) (w : Work) :
    (p.execute c tag w).scrub = p.scrub := rfl
@[simp] theorem execute_retire (p : Part) (c : ClientId) (tag : Byte) (w : Work) :
    (p.execute c tag w).retire = p.retire := rfl
@[simp] theorem execute_power (p : Part) (c : ClientId) (tag : Byte) (w : Work) :
    (p.execute c tag w).power = p.power := rfl
@[simp] theorem execute_cause (p : Part) (c : ClientId) (tag : Byte) (w : Work) :
    (p.execute c tag w).cause = p.cause := rfl
@[simp] theorem execute_hold (p : Part) (c : ClientId) (tag : Byte) (w : Work) :
    (p.execute c tag w).hold = p.hold := rfl
@[simp] theorem execute_tx (p : Part) (c : ClientId) (tag : Byte) (w : Work) :
    (p.execute c tag w).tx = p.tx := rfl
@[simp] theorem execute_phase (p : Part) (c : ClientId) (tag : Byte) (w : Work) :
    (p.execute c tag w).phase = p.phase := rfl

@[simp] theorem setWork_slots (p : Part) (c : ClientId) (w : Work) :
    (p.setWork c w).slots = p.slots := rfl
@[simp] theorem setWork_pool (p : Part) (c : ClientId) (w : Work) :
    (p.setWork c w).pool = p.pool := rfl
@[simp] theorem setWork_fills (p : Part) (c : ClientId) (w : Work) :
    (p.setWork c w).fills = p.fills := rfl
@[simp] theorem setWork_zero (p : Part) (c : ClientId) (w : Work) :
    (p.setWork c w).zero = p.zero := rfl
@[simp] theorem setWork_writeQueue (p : Part) (c : ClientId) (w : Work) :
    (p.setWork c w).writeQueue = p.writeQueue := rfl
@[simp] theorem setWork_posting (p : Part) (c : ClientId) (w : Work) :
    (p.setWork c w).posting = p.posting := rfl
@[simp] theorem setWork_wipeHold (p : Part) (c : ClientId) (w : Work) :
    (p.setWork c w).wipeHold = p.wipeHold := rfl
@[simp] theorem setWork_banks (p : Part) (c : ClientId) (w : Work) :
    (p.setWork c w).banks = p.banks := rfl
@[simp] theorem setWork_thermal (p : Part) (c : ClientId) (w : Work) :
    (p.setWork c w).thermal = p.thermal := rfl
@[simp] theorem setWork_scrub (p : Part) (c : ClientId) (w : Work) :
    (p.setWork c w).scrub = p.scrub := rfl
@[simp] theorem setWork_retire (p : Part) (c : ClientId) (w : Work) :
    (p.setWork c w).retire = p.retire := rfl
@[simp] theorem setWork_power (p : Part) (c : ClientId) (w : Work) :
    (p.setWork c w).power = p.power := rfl
@[simp] theorem setWork_cause (p : Part) (c : ClientId) (w : Work) :
    (p.setWork c w).cause = p.cause := rfl
@[simp] theorem setWork_hold (p : Part) (c : ClientId) (w : Work) :
    (p.setWork c w).hold = p.hold := rfl
@[simp] theorem setWork_tx (p : Part) (c : ClientId) (w : Work) :
    (p.setWork c w).tx = p.tx := rfl
@[simp] theorem setWork_phase (p : Part) (c : ClientId) (w : Work) :
    (p.setWork c w).phase = p.phase := rfl

@[simp] theorem setQueue_clients (p : Part) (q : List FrameId) :
    (p.setQueue q).clients = p.clients := rfl
@[simp] theorem setQueue_slots (p : Part) (q : List FrameId) :
    (p.setQueue q).slots = p.slots := rfl
@[simp] theorem setQueue_pool (p : Part) (q : List FrameId) :
    (p.setQueue q).pool = p.pool := rfl
@[simp] theorem setQueue_fills (p : Part) (q : List FrameId) :
    (p.setQueue q).fills = p.fills := rfl
@[simp] theorem setQueue_zero (p : Part) (q : List FrameId) :
    (p.setQueue q).zero = p.zero := rfl
@[simp] theorem setQueue_writeQueue (p : Part) (q : List FrameId) :
    (p.setQueue q).writeQueue = p.writeQueue := rfl
@[simp] theorem setQueue_posting (p : Part) (q : List FrameId) :
    (p.setQueue q).posting = p.posting := rfl
@[simp] theorem setQueue_wipeHold (p : Part) (q : List FrameId) :
    (p.setQueue q).wipeHold = p.wipeHold := rfl
@[simp] theorem setQueue_banks (p : Part) (q : List FrameId) :
    (p.setQueue q).banks = p.banks := rfl
@[simp] theorem setQueue_thermal (p : Part) (q : List FrameId) :
    (p.setQueue q).thermal = p.thermal := rfl
@[simp] theorem setQueue_scrub (p : Part) (q : List FrameId) :
    (p.setQueue q).scrub = p.scrub := rfl
@[simp] theorem setQueue_power (p : Part) (q : List FrameId) :
    (p.setQueue q).power = p.power := rfl
@[simp] theorem setQueue_cause (p : Part) (q : List FrameId) :
    (p.setQueue q).cause = p.cause := rfl
@[simp] theorem setQueue_hold (p : Part) (q : List FrameId) :
    (p.setQueue q).hold = p.hold := rfl
@[simp] theorem setQueue_tx (p : Part) (q : List FrameId) :
    (p.setQueue q).tx = p.tx := rfl
@[simp] theorem setQueue_phase (p : Part) (q : List FrameId) :
    (p.setQueue q).phase = p.phase := rfl

@[simp] theorem setEngine_clients (p : Part) (e : EngineState) :
    (p.setEngine e).clients = p.clients := rfl
@[simp] theorem setEngine_slots (p : Part) (e : EngineState) :
    (p.setEngine e).slots = p.slots := rfl
@[simp] theorem setEngine_pool (p : Part) (e : EngineState) :
    (p.setEngine e).pool = p.pool := rfl
@[simp] theorem setEngine_fills (p : Part) (e : EngineState) :
    (p.setEngine e).fills = p.fills := rfl
@[simp] theorem setEngine_zero (p : Part) (e : EngineState) :
    (p.setEngine e).zero = p.zero := rfl
@[simp] theorem setEngine_writeQueue (p : Part) (e : EngineState) :
    (p.setEngine e).writeQueue = p.writeQueue := rfl
@[simp] theorem setEngine_posting (p : Part) (e : EngineState) :
    (p.setEngine e).posting = p.posting := rfl
@[simp] theorem setEngine_wipeHold (p : Part) (e : EngineState) :
    (p.setEngine e).wipeHold = p.wipeHold := rfl
@[simp] theorem setEngine_banks (p : Part) (e : EngineState) :
    (p.setEngine e).banks = p.banks := rfl
@[simp] theorem setEngine_thermal (p : Part) (e : EngineState) :
    (p.setEngine e).thermal = p.thermal := rfl
@[simp] theorem setEngine_scrub (p : Part) (e : EngineState) :
    (p.setEngine e).scrub = p.scrub := rfl
@[simp] theorem setEngine_power (p : Part) (e : EngineState) :
    (p.setEngine e).power = p.power := rfl
@[simp] theorem setEngine_cause (p : Part) (e : EngineState) :
    (p.setEngine e).cause = p.cause := rfl
@[simp] theorem setEngine_hold (p : Part) (e : EngineState) :
    (p.setEngine e).hold = p.hold := rfl
@[simp] theorem setEngine_tx (p : Part) (e : EngineState) :
    (p.setEngine e).tx = p.tx := rfl
@[simp] theorem setEngine_phase (p : Part) (e : EngineState) :
    (p.setEngine e).phase = p.phase := rfl

@[simp] theorem driveLines_slots (p : Part) :
    p.driveLines.slots = p.slots := rfl
@[simp] theorem driveLines_pool (p : Part) :
    p.driveLines.pool = p.pool := rfl
@[simp] theorem driveLines_fills (p : Part) :
    p.driveLines.fills = p.fills := rfl
@[simp] theorem driveLines_zero (p : Part) :
    p.driveLines.zero = p.zero := rfl
@[simp] theorem driveLines_writeQueue (p : Part) :
    p.driveLines.writeQueue = p.writeQueue := rfl
@[simp] theorem driveLines_posting (p : Part) :
    p.driveLines.posting = p.posting := rfl
@[simp] theorem driveLines_wipeHold (p : Part) :
    p.driveLines.wipeHold = p.wipeHold := rfl
@[simp] theorem driveLines_banks (p : Part) :
    p.driveLines.banks = p.banks := rfl
@[simp] theorem driveLines_thermal (p : Part) :
    p.driveLines.thermal = p.thermal := rfl
@[simp] theorem driveLines_scrub (p : Part) :
    p.driveLines.scrub = p.scrub := rfl
@[simp] theorem driveLines_retire (p : Part) :
    p.driveLines.retire = p.retire := rfl
@[simp] theorem driveLines_power (p : Part) :
    p.driveLines.power = p.power := rfl
@[simp] theorem driveLines_cause (p : Part) :
    p.driveLines.cause = p.cause := rfl
@[simp] theorem driveLines_hold (p : Part) :
    p.driveLines.hold = p.hold := rfl
@[simp] theorem driveLines_tx (p : Part) :
    p.driveLines.tx = p.tx := rfl
@[simp] theorem driveLines_phase (p : Part) :
    p.driveLines.phase = p.phase := rfl

@[simp] theorem startIdle_clients (p : Part) :
    p.startIdle.clients = p.clients := rfl
@[simp] theorem startIdle_slots (p : Part) :
    p.startIdle.slots = p.slots := rfl
@[simp] theorem startIdle_pool (p : Part) :
    p.startIdle.pool = p.pool := rfl
@[simp] theorem startIdle_fills (p : Part) :
    p.startIdle.fills = p.fills := rfl
@[simp] theorem startIdle_zero (p : Part) :
    p.startIdle.zero = p.zero := rfl
@[simp] theorem startIdle_writeQueue (p : Part) :
    p.startIdle.writeQueue = p.writeQueue := rfl
@[simp] theorem startIdle_posting (p : Part) :
    p.startIdle.posting = p.posting := rfl
@[simp] theorem startIdle_wipeHold (p : Part) :
    p.startIdle.wipeHold = p.wipeHold := rfl
@[simp] theorem startIdle_banks (p : Part) :
    p.startIdle.banks = p.banks := rfl
@[simp] theorem startIdle_thermal (p : Part) :
    p.startIdle.thermal = p.thermal := rfl
@[simp] theorem startIdle_scrub (p : Part) :
    p.startIdle.scrub = p.scrub := rfl
@[simp] theorem startIdle_retire (p : Part) :
    p.startIdle.retire = p.retire := rfl
@[simp] theorem startIdle_cause (p : Part) :
    p.startIdle.cause = p.cause := rfl
@[simp] theorem startIdle_hold (p : Part) :
    p.startIdle.hold = p.hold := rfl
@[simp] theorem startIdle_tx (p : Part) :
    p.startIdle.tx = p.tx := rfl
@[simp] theorem startIdle_phase (p : Part) :
    p.startIdle.phase = p.phase := rfl

@[simp] theorem setPower_clients (p : Part) (st : PowerState) :
    (p.setPower st).clients = p.clients := rfl
@[simp] theorem setPower_slots (p : Part) (st : PowerState) :
    (p.setPower st).slots = p.slots := rfl
@[simp] theorem setPower_pool (p : Part) (st : PowerState) :
    (p.setPower st).pool = p.pool := rfl
@[simp] theorem setPower_fills (p : Part) (st : PowerState) :
    (p.setPower st).fills = p.fills := rfl
@[simp] theorem setPower_zero (p : Part) (st : PowerState) :
    (p.setPower st).zero = p.zero := rfl
@[simp] theorem setPower_writeQueue (p : Part) (st : PowerState) :
    (p.setPower st).writeQueue = p.writeQueue := rfl
@[simp] theorem setPower_posting (p : Part) (st : PowerState) :
    (p.setPower st).posting = p.posting := rfl
@[simp] theorem setPower_wipeHold (p : Part) (st : PowerState) :
    (p.setPower st).wipeHold = p.wipeHold := rfl
@[simp] theorem setPower_banks (p : Part) (st : PowerState) :
    (p.setPower st).banks = p.banks := rfl
@[simp] theorem setPower_thermal (p : Part) (st : PowerState) :
    (p.setPower st).thermal = p.thermal := rfl
@[simp] theorem setPower_scrub (p : Part) (st : PowerState) :
    (p.setPower st).scrub = p.scrub := rfl
@[simp] theorem setPower_retire (p : Part) (st : PowerState) :
    (p.setPower st).retire = p.retire := rfl
@[simp] theorem setPower_cause (p : Part) (st : PowerState) :
    (p.setPower st).cause = p.cause := rfl
@[simp] theorem setPower_hold (p : Part) (st : PowerState) :
    (p.setPower st).hold = p.hold := rfl
@[simp] theorem setPower_tx (p : Part) (st : PowerState) :
    (p.setPower st).tx = p.tx := rfl
@[simp] theorem setPower_phase (p : Part) (st : PowerState) :
    (p.setPower st).phase = p.phase := rfl

@[simp] theorem startScrubTimer_clients (p : Part) :
    p.startScrubTimer.clients = p.clients := rfl
@[simp] theorem startScrubTimer_slots (p : Part) :
    p.startScrubTimer.slots = p.slots := rfl
@[simp] theorem startScrubTimer_pool (p : Part) :
    p.startScrubTimer.pool = p.pool := rfl
@[simp] theorem startScrubTimer_fills (p : Part) :
    p.startScrubTimer.fills = p.fills := rfl
@[simp] theorem startScrubTimer_zero (p : Part) :
    p.startScrubTimer.zero = p.zero := rfl
@[simp] theorem startScrubTimer_writeQueue (p : Part) :
    p.startScrubTimer.writeQueue = p.writeQueue := rfl
@[simp] theorem startScrubTimer_posting (p : Part) :
    p.startScrubTimer.posting = p.posting := rfl
@[simp] theorem startScrubTimer_wipeHold (p : Part) :
    p.startScrubTimer.wipeHold = p.wipeHold := rfl
@[simp] theorem startScrubTimer_banks (p : Part) :
    p.startScrubTimer.banks = p.banks := rfl
@[simp] theorem startScrubTimer_thermal (p : Part) :
    p.startScrubTimer.thermal = p.thermal := rfl
@[simp] theorem startScrubTimer_retire (p : Part) :
    p.startScrubTimer.retire = p.retire := rfl
@[simp] theorem startScrubTimer_power (p : Part) :
    p.startScrubTimer.power = p.power := rfl
@[simp] theorem startScrubTimer_cause (p : Part) :
    p.startScrubTimer.cause = p.cause := rfl
@[simp] theorem startScrubTimer_hold (p : Part) :
    p.startScrubTimer.hold = p.hold := rfl
@[simp] theorem startScrubTimer_tx (p : Part) :
    p.startScrubTimer.tx = p.tx := rfl
@[simp] theorem startScrubTimer_phase (p : Part) :
    p.startScrubTimer.phase = p.phase := rfl

@[simp] theorem answer_tx (p : Part) (c : ClientId) (code tag : Byte) (st : Status) (body : List Byte) :
    (p.answer c code tag st body).tx = p.tx ++ [⟨c, code, tag, st, (p.client c).attention, body⟩] := rfl
@[simp] theorem setQueue_queue (p : Part) (q : List FrameId) : (p.setQueue q).retire.queue = q := rfl
@[simp] theorem setQueue_engine (p : Part) (q : List FrameId) :
    (p.setQueue q).retire.engine = p.retire.engine := rfl
@[simp] theorem setEngine_queue (p : Part) (e : EngineState) : (p.setEngine e).retire.queue = p.retire.queue := rfl
@[simp] theorem setEngine_engine (p : Part) (e : EngineState) : (p.setEngine e).retire.engine = e := rfl
@[simp] theorem setPower_state (p : Part) (st : PowerState) : (p.setPower st).power.state = st := rfl
@[simp] theorem startIdle_state (p : Part) : p.startIdle.power.state = p.power.state := rfl

end Sys2Proof.Machine
end

