-- ==== Sys2Proof/Laws/Tables.lean ====
section
/-! SUPPORT. Laws of the table operations: what an update leaves at each index, and what `indices` lists. -/

namespace Sys2Proof.Machine

@[simp] theorem tget_tset_same {α : Type} {n : Nat} (v : Vector α n) (i : Fin n) (x : α) :
    tget (tset v i x) i = x := by simp [tget, tset]

theorem tget_tset_ne {α : Type} {n : Nat} (v : Vector α n) (i j : Fin n) (x : α) (h : i ≠ j) :
    tget (tset v i x) j = tget v j := by
  have : i.val ≠ j.val := fun e => h (Fin.ext e)
  simp [tget, tset, this]

theorem tget_tset {α : Type} {n : Nat} (v : Vector α n) (i j : Fin n) (x : α) :
    tget (tset v i x) j = if i = j then x else tget v j := by
  by_cases h : i = j
  · subst h; simp
  · simp [tget_tset_ne v i j x h, h]

theorem tget_tmod {α : Type} {n : Nat} (v : Vector α n) (i j : Fin n) (f : α → α) :
    tget (tmod v i f) j = if i = j then f (tget v i) else tget v j := by
  simp [tmod, tget_tset]

@[simp] theorem tget_tmod_same {α : Type} {n : Nat} (v : Vector α n) (i : Fin n) (f : α → α) :
    tget (tmod v i f) i = f (tget v i) := by simp [tget_tmod]

/-- The second update of one index wins. -/
@[simp] theorem tset_tset {α : Type} {n : Nat} (v : Vector α n) (i : Fin n) (x y : α) :
    tset (tset v i x) i y = tset v i y := by simp [tset]

/-- Writing back the record that stands there changes nothing. -/
@[simp] theorem tset_tget {α : Type} {n : Nat} (v : Vector α n) (i : Fin n) : tset v i (tget v i) = v := by
  simp [tset, tget]

@[simp] theorem tget_tmap {α : Type} {n : Nat} (f : α → α) (v : Vector α n) (i : Fin n) :
    tget (tmap f v) i = f (tget v i) := by
  simp [tget, tmap, Vector.getElem_mk]

@[simp] theorem tget_tmapIdx {α : Type} {n : Nat} (f : Nat → α → α) (v : Vector α n) (i : Fin n) :
    tget (tmapIdx f v) i = f i.val (tget v i) := by
  simp [tget, tmapIdx, Vector.getElem_mk]

@[simp] theorem tget_replicate {α : Type} {n : Nat} (x : α) (i : Fin n) :
    tget (Vector.replicate n x) i = x := by simp [tget]

theorem table_ext {α : Type} {n : Nat} {v w : Vector α n} (h : ∀ i, tget v i = tget w i) : v = w := by
  ext i hi; exact h ⟨i, hi⟩

theorem mem_indicesFrom {α : Type} {n : Nat} [NeZero n] (P : Fin n → α → Bool) (xs : List α) (i : Nat) (j : Fin n) :
    j ∈ indicesFrom n P xs i ↔ ∃ k, ∃ h : k < xs.length, j = Fin.ofNat n (i + k) ∧ P j xs[k] = true := by
  induction xs generalizing i with
  | nil => simp [indicesFrom]
  | cons x xs ih =>
    have key : (∃ k, ∃ h : k < (x :: xs).length, j = Fin.ofNat n (i + k) ∧ P j (x :: xs)[k] = true) ↔
        (j = Fin.ofNat n i ∧ P j x = true) ∨
          ∃ k, ∃ h : k < xs.length, j = Fin.ofNat n (i + 1 + k) ∧ P j xs[k] = true := by
      constructor
      · rintro ⟨k, hk, e, hp⟩
        cases k with
        | zero => exact Or.inl ⟨by simpa using e, by simpa using hp⟩
        | succ k =>
          refine Or.inr ⟨k, by simpa using hk, ?_, by simpa using hp⟩
          rw [e]; congr 1; omega
      · rintro (⟨e, hp⟩ | ⟨k, hk, e, hp⟩)
        · exact ⟨0, by simp, by simpa using e, by simpa using hp⟩
        · refine ⟨k + 1, by simpa using hk, ?_, by simpa using hp⟩
          rw [e]; congr 1; omega
    rw [key, ← ih, indicesFrom]
    split
    · rename_i hp
      simp only [List.mem_cons]
      constructor
      · rintro (e | hm)
        · exact Or.inl ⟨e, e ▸ hp⟩
        · exact Or.inr hm
      · rintro (⟨e, _⟩ | hm)
        · exact Or.inl e
        · exact Or.inr hm
    · rename_i hp
      constructor
      · exact Or.inr
      · rintro (⟨e, hq⟩ | hm)
        · subst e; exact absurd hq hp
        · exact hm

/-- What `indices` lists: exactly the indices whose record meets the condition. -/
theorem mem_indices {α : Type} {n : Nat} [NeZero n] (P : Fin n → α → Bool) (v : Vector α n) (j : Fin n) :
    j ∈ indices P v ↔ P j (tget v j) = true := by
  rw [indices, mem_indicesFrom]
  constructor
  · rintro ⟨k, hk, e, hp⟩
    have hk' : k < n := by simpa using hk
    have : j.val = k := by rw [e]; simp [Fin.ofNat, Nat.mod_eq_of_lt hk']
    subst this
    simpa [tget] using hp
  · intro hp
    exact ⟨j.val, by simp, by ext; simp [Fin.ofNat, Nat.mod_eq_of_lt j.isLt], by simpa [tget] using hp⟩

/-- A table is the list of its records by index. -/
theorem toList_eq {α : Type} {n : Nat} (v : Vector α n) : v.toList = (List.finRange n).map (tget v) := by
  apply List.ext_getElem
  · simp
  · intro i h1 h2
    simp [tget]

theorem indicesFrom_eq {α : Type} {n : Nat} [NeZero n] (P : Fin n → α → Bool) (v : Vector α n) (k i : Nat)
    (h : i + k = n) :
    indicesFrom n P (v.toList.drop i) i = ((List.finRange n).drop i).filter fun j => P j (tget v j) := by
  induction k generalizing i with
  | zero =>
    have h1 : v.toList.drop i = [] := List.drop_eq_nil_of_le (by simp; omega)
    have h2 : (List.finRange n).drop i = [] := List.drop_eq_nil_of_le (by simp; omega)
    rw [h1, h2]; rfl
  | succ k ih =>
    have hi : i < n := by omega
    have h1 : v.toList.drop i = v[i] :: v.toList.drop (i + 1) := by
      rw [List.drop_eq_getElem_cons (by simpa using hi)]; simp
    have h2 : (List.finRange n).drop i = ⟨i, hi⟩ :: (List.finRange n).drop (i + 1) := by
      rw [List.drop_eq_getElem_cons (by simpa using hi)]; simp
    have e : Fin.ofNat n i = ⟨i, hi⟩ := Fin.ext (Nat.mod_eq_of_lt hi)
    rw [h1, h2, indicesFrom, ih (i + 1) (by omega), e, List.filter_cons]
    rfl

/-- The indices that meet a condition, as a filter of all indices in order. -/
theorem indices_eq {α : Type} {n : Nat} [NeZero n] (P : Fin n → α → Bool) (v : Vector α n) :
    indices P v = (List.finRange n).filter fun j => P j (tget v j) := by
  have h := indicesFrom_eq P v n 0 (by omega)
  simpa [indices] using h

/-- The indices that meet a condition ascend. -/
theorem indices_ascend {α : Type} {n : Nat} [NeZero n] (P : Fin n → α → Bool) (v : Vector α n) :
    (indices P v).Pairwise (· < ·) := by
  rw [indices_eq]
  exact (List.pairwise_lt_finRange n).filter _

/-- The lowest index that meets a condition. -/
theorem indices_head {α : Type} {n : Nat} [NeZero n] (P : Fin n → α → Bool) (v : Vector α n) (j : Fin n) :
    (indices P v).head? = some j ↔ P j (tget v j) = true ∧ ∀ i, i < j → P i (tget v i) = false := by
  have asc := indices_ascend P v
  have mem := mem_indices P v
  constructor
  · intro h
    obtain ⟨rest, e⟩ := List.head?_eq_some_iff.mp h
    refine ⟨(mem j).mp (by simp [e]), fun i hi => ?_⟩
    by_contra hp
    have hm := (mem i).mpr (by simpa using hp)
    rw [e] at hm asc
    rcases List.mem_cons.mp hm with rfl | hm
    · exact absurd hi (lt_irrefl _)
    · exact absurd hi (not_lt.mpr (le_of_lt ((List.pairwise_cons.mp asc).1 i hm)))
  · rintro ⟨hp, hlow⟩
    have hm := (mem j).mpr hp
    cases e : indices P v with
    | nil => rw [e] at hm; cases hm
    | cons x rest =>
      rw [e] at hm asc
      have hx := (mem x).mp (by simp [e])
      rcases List.mem_cons.mp hm with rfl | hm
      · rfl
      · have := hlow x ((List.pairwise_cons.mp asc).1 j hm)
        rw [hx] at this; cases this

/-- The number of records that meet a condition, as a number of indices. -/
theorem tcount_eq {α : Type} {n : Nat} (P : α → Bool) (v : Vector α n) :
    tcount P v = ((List.finRange n).filter fun j => P (tget v j)).length := by
  rw [tcount, toList_eq, List.countP_map, List.countP_eq_length_filter]
  rfl

theorem mem_allClients (c : ClientId) : c ∈ allClients := by revert c; decide

theorem mem_allBanks (b : BankId) : b ∈ allBanks := by revert b; decide

/-- A check list gives no status exactly when no check fails. -/
theorem firstFail_none (l : List (Bool × Status)) : firstFail l = none ↔ ∀ x ∈ l, x.1 = false := by
  induction l with
  | nil => simp [firstFail]
  | cons x l ih => rcases x with ⟨b, st⟩; cases b <;> simp [firstFail, ih]

end Sys2Proof.Machine
end

