-- ==== Sys2Proof/Laws/Records.lean ====
section
/-! SUPPORT. What the updates of clients, regions, banks and frames leave when the record is read back. -/

namespace Sys2Proof.Machine

theorem client_modClient (p : Part) (c d : ClientId) (f : Client → Client) :
    (p.modClient c f).client d = if c = d then f (p.client c) else p.client d := by
  simp [Part.client, Part.modClient, tget_tmod]

@[simp] theorem client_modClient_same (p : Part) (c : ClientId) (f : Client → Client) :
    (p.modClient c f).client c = f (p.client c) := by simp [client_modClient]

@[simp] theorem client_answer (p : Part) (c d : ClientId) (code tag : Byte) (st : Status) (body : List Byte) :
    (p.answer c code tag st body).client d = p.client d := rfl

@[simp] theorem client_startIdle (p : Part) (c : ClientId) : p.startIdle.client c = p.client c := rfl

@[simp] theorem client_modRegion (p : Part) (s : SlotId) (f : Region → Region) (c : ClientId) :
    (p.modRegion s f).client c = p.client c := rfl

theorem region_modRegion (p : Part) (s t : SlotId) (f : Region → Region) :
    (p.modRegion s f).region t = if s = t then (p.region s).map f else p.region t := by
  unfold Part.region Part.modRegion
  rw [tget_tmod]
  split <;> rfl

@[simp] theorem region_modRegion_same (p : Part) (s : SlotId) (f : Region → Region) :
    (p.modRegion s f).region s = (p.region s).map f := by simp [region_modRegion]

theorem generation_modRegion (p : Part) (s t : SlotId) (f : Region → Region) :
    (p.modRegion s f).generation t = p.generation t := by
  unfold Part.generation Part.modRegion
  rw [tget_tmod]
  split
  · rename_i h; subst h; rfl
  · rfl

@[simp] theorem region_answer (p : Part) (c : ClientId) (code tag : Byte) (st : Status) (body : List Byte)
    (s : SlotId) : (p.answer c code tag st body).region s = p.region s := rfl

@[simp] theorem region_modClient (p : Part) (c : ClientId) (f : Client → Client) (s : SlotId) :
    (p.modClient c f).region s = p.region s := rfl

@[simp] theorem region_startIdle (p : Part) (s : SlotId) : p.startIdle.region s = p.region s := rfl

theorem bank_modBank (p : Part) (b d : BankId) (f : Bank → Bank) :
    (p.modBank b f).bank d = if b = d then f (p.bank b) else p.bank d := by
  simp [Part.bank, Part.modBank, tget_tmod]

@[simp] theorem bank_modBank_same (p : Part) (b : BankId) (f : Bank → Bank) :
    (p.modBank b f).bank b = f (p.bank b) := by simp [bank_modBank]

@[simp] theorem bank_modBanks (p : Part) (f : Bank → Bank) (b : BankId) : (p.modBanks f).bank b = f (p.bank b) := by
  simp [Part.bank, Part.modBanks]

theorem frame_modFrame (p : Part) (x y : FrameId) (g : Frame → Frame) :
    (p.modFrame x g).frame y = if x = y then g (p.frame x) else p.frame y := by
  simp [Part.frame, Part.modFrame, tget_tmod]

@[simp] theorem region_modFrame (p : Part) (x : FrameId) (g : Frame → Frame) (s : SlotId) :
    (p.modFrame x g).region s = p.region s := rfl

@[simp] theorem frame_modFrame_same (p : Part) (x : FrameId) (g : Frame → Frame) :
    (p.modFrame x g).frame x = g (p.frame x) := by simp [frame_modFrame]

/-- R114: a notice sets its flag for one client and leaves the others. -/
theorem flags_notify (p : Part) (n : Notice) (c d : ClientId) :
    ((p.notify n c).client d).flags = if c = d then (p.client c).flags ||| n.bit else (p.client d).flags := by
  rw [Part.notify, client_modClient]; split <;> rfl

/-- R115: driving the lines gives each line its level and changes nothing else of a client. -/
theorem client_driveLines (p : Part) (c : ClientId) :
    p.driveLines.client c = { p.client c with line := (p.client c).lineLevel p.hold.isSome } := by
  simp [Part.driveLines, Part.client]

/-- A request that has just become the executing one goes on in another phase. -/
theorem setWork_execute (p : Part) (c : ClientId) (tag : Byte) (w w' : Work) :
    (p.execute c tag w).setWork c w' = p.execute c tag w' := by
  simp [Part.execute, Part.setWork, Part.modClient, tmod]

/-- The executing request of a client, by its work. -/
theorem work_executing {p : Part} {c : ClientId} {tag : Byte} {w : Work} (h : (p.client c).executing = some ⟨tag, w⟩) :
    p.work c = some w := by simp [Part.work, h]

/-- The executing request goes on in another phase under its tag. -/
theorem setWork_executing {p : Part} {c : ClientId} {tag : Byte} {w : Work} (w' : Work)
    (h : (p.client c).executing = some ⟨tag, w⟩) : p.setWork c w' = p.execute c tag w' := by
  have h' : (tget p.clients c).executing = some ⟨tag, w⟩ := h
  simp [Part.setWork, Part.execute, Part.modClient, tmod, h']

/-- The executing request ends with one response. -/
theorem finish_executing {p : Part} {c : ClientId} {tag : Byte} {w : Work} (st : Status) (body : List Byte)
    (h : (p.client c).executing = some ⟨tag, w⟩) :
    p.finish c st body = (p.modClient c fun k => { k with executing := none }).answer c w.code tag st body := by
  simp [Part.finish, h]

/-- A request of an idle client that ends in the act of its taking leaves its response alone. -/
theorem finish_execute (p : Part) (c : ClientId) (tag : Byte) (w : Work) (st : Status) (body : List Byte)
    (h : (p.client c).executing = none) :
    (p.execute c tag w).finish c st body = p.answer c w.code tag st body := by
  have e : ({ tget p.clients c with executing := none } : Client) = tget p.clients c := by
    have h' : (tget p.clients c).executing = none := h
    rw [← h']
  simp [Part.execute, Part.finish, Part.modClient, tmod, Part.client, Part.answer, e]

/-- The work of a request that has just become the executing one. -/
@[simp] theorem work_execute (p : Part) (c : ClientId) (tag : Byte) (w : Work) :
    (p.execute c tag w).work c = some w := by simp [Part.work, Part.execute]

/-- Which slots a condition on regions lists. -/
theorem mem_slotsWhere (p : Part) (P : Region → Bool) (s : SlotId) :
    s ∈ p.slotsWhere P ↔ ∃ r, p.region s = some r ∧ P r = true := by
  rw [Part.slotsWhere, mem_indices]
  unfold Part.region
  cases (tget p.slots s).region <;> simp

/-- R97: a frame is a source when some region's migration field names it so. -/
theorem isSource_iff (p : Part) (f : FrameId) :
    p.isSource f = true ↔ ∃ s r m, p.region s = some r ∧ r.migration = some m ∧ m.source = f := by
  have key : p.isSource f = true ↔ ∃ s, s ∈ p.slotsWhere fun r => r.migration.any (·.source == f) := by
    rw [Part.isSource, Bool.not_eq_true', List.isEmpty_eq_false_iff_exists_mem]
  rw [key]
  simp only [mem_slotsWhere]
  constructor
  · rintro ⟨s, r, h, e⟩
    cases hm : r.migration with
    | none => rw [hm] at e; cases e
    | some m => rw [hm] at e; exact ⟨s, r, m, h, hm, by simpa using e⟩
  · rintro ⟨s, r, m, h, hm, e⟩
    exact ⟨s, r, h, by simp [hm, e]⟩

/-- The frame of a move into a region (R2). -/
theorem frame_enter (p : Pool) (f g : FrameId) (st : FrameState) (s : SlotId) (k : RegionClass) :
    tget (p.enter f st s k).frames g =
      if f = g then
        { tget p.frames f with state := st, region := some s, doomed := (tget p.frames f).doomed && st != .target }
      else tget p.frames g := by
  simp [Pool.enter, tget_tset]

/-- The frame of a move out of a region or between FREE, DIRTY, SPARE and RETIRED (R2). -/
theorem frame_leave (p : Pool) (f g : FrameId) (st : FrameState) :
    tget (p.leave f st).frames g =
      if f = g then { tget p.frames f with state := st, region := none, doomed := false } else tget p.frames g := by
  simp [Pool.leave, tget_tset]

end Sys2Proof.Machine
end

