-- ==== Sys2Proof/Laws/Acts.lean ====
section
/-! SUPPORT. What an act does as a whole: every command answers a next state; the close of an act drives the lines;
requests and timers leave the array; what a free client's request meets. -/

namespace Sys2Proof.Machine

/-- EVERY COMMAND HAS AN EFFECT: exec answers a next state for each constructor. -/
theorem exec_next (i : Instr) (s : State) : ∃ t, exec i s = .next t := by
  cases i <;> exact ⟨_, rfl⟩

/-- EVERY REQUEST ROW IS THE ARRIVAL OF ITS REQUEST (log 1). -/
theorem exec_requestRow (c : ClientId) (tag : Byte) (r : Request) (s : State) :
    exec (requestRow c tag r) s = .next (s.withPart (s.part.arrive c tag r)) := by
  cases r with
  | health page argument => cases page <;> rfl
  | command cmd => cases cmd <;> rfl
  | configure selector client value =>
    simp only [requestRow]
    split
    · rename_i h; subst h; rfl
    · split
      · rename_i h; subst h; rfl
      · split
        · rename_i h; subst h; rfl
        · split
          · rename_i h; subst h; rfl
          · split
            · rename_i h; subst h; rfl
            · split
              · rename_i h; subst h; rfl
              · rfl
  | _ => rfl

/-- THE CLOSE OF AN ACT DRIVES THE LINES (R115). -/
theorem linesFollow_driveLines (p : Part) : p.driveLines.linesFollow := by
  intro c
  have h := client_driveLines p c
  rw [h]
  rfl

/-- What the close of an act is made of. -/
theorem closeAct_eq (p : Part) : p.closeAct = (takeRounds p.queued p.engines).arbitrate.driveLines := by
  unfold Part.closeAct
  rfl

theorem linesFollow_closeAct (p : Part) : p.closeAct.linesFollow := by
  unfold Part.closeAct
  exact linesFollow_driveLines _

/-- A response changes no line. -/
theorem linesFollow_answer (p : Part) (c : ClientId) (code tag : Byte) (st : Status) (body : List Byte)
    (h : p.linesFollow) : (p.answer c code tag st body).linesFollow := h

theorem linesFollow_enterReset (p : Part) (h : Hold) : (p.enterReset h).linesFollow := linesFollow_driveLines _

theorem linesFollow_arrive (p : Part) (c : ClientId) (tag : Byte) (r : Request) (h : p.linesFollow) :
    (p.arrive c tag r).linesFollow := by
  unfold Part.arrive
  split
  · exact h
  · split
    · exact linesFollow_answer _ _ _ _ _ _ h
    · split
      · exact linesFollow_answer _ _ _ _ _ _ h
      · split <;> exact linesFollow_closeAct _

/-- R105: a ready client's well-formed request is taken in the act of its arrival. -/
theorem arrive_ready (p : Part) (c : ClientId) (tag : Byte) (r : Request) (h : p.ready c) (hr : r.wf = true) :
    p.arrive c tag r = (p.take c tag r).closeAct := by
  obtain ⟨h1, h2, h3, h4, h5⟩ := h
  simp [Part.arrive, h1, hr, h4, Config.maxQueue, Part.takeable, h2, PowerState.takes, h3, h5]

/-- R105: the request of an attached client, if it is no supervisor request or comes from client 0, meets no refusal common
to all requests, and is served. -/
theorem take_served (p : Part) (c : ClientId) (tag : Byte) (r : Request) (h : p.free c)
    (hs : supervisorRequest r = false ∨ c = 0) : p.take c tag r = p.taken.serve c tag r := by
  have h2 := h.active
  have h6 := h.attached
  have hs' : (supervisorRequest r && c != 0) = false := by
    rcases hs with e | e <;> simp [e]
  have e1 : (PowerState.active == PowerState.initializing) = false := by decide
  have e2 : (PowerState.active == PowerState.down) = false := by decide
  simp [Part.take, h2, Part.refusal, h6, hs', Part.taken, e1, e2, firstFail]

/-- A free client's request: taken, served, and the act closed. -/
theorem arrive_free (p : Part) (c : ClientId) (tag : Byte) (r : Request) (h : p.free c) (hr : r.wf = true)
    (hs : supervisorRequest r = false ∨ c = 0) :
    p.arrive c tag r = (p.taken.serve c tag r).closeAct := by
  rw [arrive_ready p c tag r h.toready hr, take_served p c tag r h hs]

/-- R105 in ACTIVE: the request of a client is refused when it is DETACHED, or sends a supervisor request and is not
client 0. -/
theorem take_refused {p : Part} {c : ClientId} {tag : Byte} {r : Request} {st : Status} (h : p.power.state = .active)
    (e : firstFail [(!(p.client c).attached && !openToDetached r, .notAttached),
      (supervisorRequest r && c != 0, .notPermitted)] = some st) :
    p.take c tag r = p.taken.answer c r.code tag st [] := by
  have e1 : (PowerState.active == PowerState.initializing) = false := by decide
  have e2 : (PowerState.active == PowerState.down) = false := by decide
  have h1 : p.refusal c r = some st := by
    simp only [Part.refusal, h, e1, e2, Bool.false_and]; simpa [firstFail] using e
  have h2 : p.startIdle.refusal c r = some st := h1
  simp [Part.take, h, h2, Part.taken]

/-- R105 in ACTIVE: a request that meets neither refusal is served. -/
theorem take_passed {p : Part} {c : ClientId} {tag : Byte} {r : Request} (h : p.power.state = .active)
    (e : firstFail [(!(p.client c).attached && !openToDetached r, .notAttached),
      (supervisorRequest r && c != 0, .notPermitted)] = none) :
    p.take c tag r = p.taken.serve c tag r := by
  have e1 : (PowerState.active == PowerState.initializing) = false := by decide
  have e2 : (PowerState.active == PowerState.down) = false := by decide
  have h1 : p.refusal c r = none := by
    simp only [Part.refusal, h, e1, e2, Bool.false_and]; simpa [firstFail] using e
  have h2 : p.startIdle.refusal c r = none := h1
  simp [Part.take, h, h2, Part.taken]

/-- The next state of a ready client's request row, from what its taking leaves. -/
theorem next_taken {s : State} {c : ClientId} {tag : Byte} {r : Request} {q : Part} (h : s.part.ready c)
    (hr : r.wf = true) (e : s.part.take c tag r = q) :
    (Host.Outcome.next (s.withPart (s.part.arrive c tag r)) : Host.Outcome State Fault Refusal) =
      .next (s.withPart q.closeAct) := by
  rw [arrive_ready s.part c tag r h hr, e]

/-- The next state of a free client's request row, from what its serving leaves. -/
theorem next_served {s : State} {c : ClientId} {tag : Byte} {r : Request} {q : Part} (h : s.part.free c)
    (hr : r.wf = true) (hs : supervisorRequest r = false ∨ c = 0) (e : s.part.taken.serve c tag r = q) :
    (Host.Outcome.next (s.withPart (s.part.arrive c tag r)) : Host.Outcome State Fault Refusal) =
      .next (s.withPart q.closeAct) := by
  rw [arrive_free s.part c tag r h hr hs, e]

/-- The next state of a free client's region command while it has no batch. -/
theorem next_command {s : State} {c : ClientId} {tag : Byte} {cmd : RegionCommand} {q : Part} (h : s.part.free c)
    (hb : (s.part.client c).batch = none) (e : s.part.taken.serveCommand c tag cmd = q) :
    (Host.Outcome.next (s.withPart (s.part.arrive c tag (.command cmd))) : Host.Outcome State Fault Refusal) =
      .next (s.withPart q.closeAct) := by
  refine next_served h rfl (Or.inl rfl) ?_
  have hb' : (s.part.taken.client c).batch = none := hb
  simp only [Part.serve, Part.serveRegion, hb', e]

/-- R45: an owner's command on a live region that is not FILLING passes the common checks. -/
theorem judgeCommon_owns {p : Part} {c : ClientId} {h : RegionHandle} {r : Region} (o : p.owns c h r) :
    p.taken.judgeCommon c (.region h) = .ok (h, r) := by
  obtain ⟨a, b, d, _⟩ := o
  have e : p.taken.named h = some r := a
  simp [Part.judgeCommon, Part.resolve, e, b, d]

/-- R25: what a live handle names is the record of its slot. -/
theorem region_named {p : Part} {h : RegionHandle} {r : Region} (e : p.named h = some r) :
    p.region h.slot = some r := by
  unfold Part.named at e
  split at e
  · rename_i x hx
    split at e
    · rw [hx, ← e]
    · cases e
  · cases e

/-- The command at the front of the queue is what a step carries out. -/
theorem step_cons (s : State) (c : Instr) (rest : List Instr) (h : s.pending = c :: rest) :
    step s = exec c { s with pending := rest } := by
  simp [step, h]

end Sys2Proof.Machine
end

