-- ==== Sys2Proof/Laws/Banks.lean ====
section
/-! SUPPORT. The banks one by one: what a walk over the banks does to each, which changes leave the drain candidates, and what
giving operations up does to a bank. -/

namespace Sys2Proof.Machine

/-- One bank changed in two ways that agree on it. -/
theorem modBank_congr (p : Part) (b : BankId) (f g : Bank → Bank) (h : f (p.bank b) = g (p.bank b)) :
    p.modBank b f = p.modBank b g := by
  unfold Part.bank at h
  unfold Part.modBank tmod
  rw [h]

/-- A WALK OVER THE BANKS whose step changes its own bank by g, as long as an invariant holds, changes each bank by g. -/
theorem bank_walk (step : Part → BankId → Part) (g : BankId → Bank → Bank) (inv : Part → Prop) (p : Part) (h0 : inv p)
    (h : ∀ q b, inv q → inv (step q b) ∧ step q b = q.modBank b (g b)) (b : BankId) :
    (allBanks.foldl step p).bank b = g b (p.bank b) := by
  have key : ∀ (l : List BankId) (q : Part), l.Nodup → inv q →
      (l.foldl step q).bank b = if b ∈ l then g b (q.bank b) else q.bank b := by
    intro l
    induction l with
    | nil => intro q _ _; simp
    | cons a l ih =>
      intro q hn hq
      rw [List.nodup_cons] at hn
      obtain ⟨h1, h2⟩ := h q a hq
      rw [List.foldl_cons, ih _ hn.2 h1, h2, bank_modBank]
      by_cases e : a = b
      · subst e
        simp [hn.1]
      · have e' : b ≠ a := fun x => e x.symm
        simp [e, e']
  rw [key allBanks p (by decide) h0, if_pos (mem_allBanks b)]

/-- R97: of the banks, a drain candidate depends on the DRAINs in progress alone. -/
theorem candidate_banks (p : Part) (v : Vector Bank 4) (h : ∀ b e, (tget v b).drains e = (p.bank b).drains e)
    (b : BankId) : ({ p with banks := v } : Part).candidate b = p.candidate b := by
  have h2 : ({ p with banks := v } : Part).drainableAt b = p.drainableAt b := by
    funext e
    have h1 : v.toList.any (·.drains e) = p.banks.toList.any (·.drains e) := by
      simp only [toList_eq, List.any_map]
      congr 1
      funext i
      exact h i e
    unfold Part.drainableAt
    show (match p.currentFrame e with | some f => _ | none => _) = _
    rw [h1]
    rfl
  unfold Part.candidate
  rw [h2]

/-- Whether a client's LINE READ waits depends on the banks one by one. -/
theorem readWaits_congr (p q : Part) (c : ClientId) (h : ∀ b, (q.bank b).holdsRead c = (p.bank b).holdsRead c) :
    q.readWaits c = p.readWaits c := by
  unfold Part.readWaits
  simp only [toList_eq, List.any_map]
  congr 1
  funext i
  exact h i

/-- R120: withdrawing DRAIN offers leaves the LINE READs. -/
theorem holdsRead_withdrawOffers (p : Part) (c : ClientId) (b : BankId) :
    (p.withdrawOffers.bank b).holdsRead c = (p.bank b).holdsRead c := by
  unfold Part.withdrawOffers
  generalize allBanks = l
  induction l generalizing p with
  | nil => rfl
  | cons a l ih =>
    rw [List.foldl_cons, ih]
    split
    · rw [bank_modBank]
      split
      · rename_i e
        subst e
        rfl
      · rfl
    · rfl

/-- R120: the operations given up at a bank. -/
theorem bank_disown (p : Part) (P : BankOp → Bool) (b : BankId) : (p.disown P).bank b =
    { p.bank b with running := (p.bank b).running.map fun r => { r with live := r.live && !P r.op } } := by
  simp [Part.disown]

/-- R153: the end of a copy at a bank. -/
theorem bank_endCopy (p : Part) (b : BankId) : p.endCopy.bank b =
    { p.bank b with
      copy := none
      copyWait := 0
      running := (p.bank b).running.map fun r => { r with live := r.live && !r.op.isCopy } } := by
  simp [Part.endCopy, bank_disown]

end Sys2Proof.Machine
end

