-- ==== Sys2Proof/Laws/Packets.lean ====
section
/-! SUPPORT. The fields of packets are read back as they were written (spec 11.2, 11.3). -/

namespace Sys2Proof

theorem half_halfBytes (w : Half) : half (w.extractLsb' 0 8) (w.extractLsb' 8 8) = w := by
  apply BitVec.eq_of_getLsbD_eq
  intro i hi
  rw [half, BitVec.getLsbD_append]
  by_cases h : i < 8
  · simp [h]
  · have e : 8 + (i - 8) = i := by omega
    have e2 : i - 8 < 8 := by omega
    simp [h, e, e2]

theorem long_longBytes (w : Long) :
    long (w.extractLsb' 0 8) (w.extractLsb' 8 8) (w.extractLsb' 16 8) (w.extractLsb' 24 8) = w := by
  apply BitVec.eq_of_getLsbD_eq
  intro i hi
  rw [long, BitVec.getLsbD_append, BitVec.getLsbD_append, BitVec.getLsbD_append]
  by_cases h : i < 8
  · simp [h]
  · by_cases h2 : i < 16
    · have e : 8 + (i - 8) = i := by omega
      have e2 : i - 8 < 8 := by omega
      simp [h, e, e2]
    · by_cases h3 : i < 24
      · have e : 16 + (i - 8 - 8) = i := by omega
        have e1 : ¬ i - 8 < 8 := by omega
        have e2 : i - 8 - 8 < 8 := by omega
        simp [h, e, e1, e2]
      · have e : 24 + (i - 8 - 8 - 8) = i := by omega
        have e1 : ¬ i - 8 < 8 := by omega
        have e2 : ¬ i - 8 - 8 < 8 := by omega
        have e3 : i - 8 - 8 - 8 < 8 := by omega
        simp [h, e, e1, e2, e3]

theorem eightOfByte_ofNat (d : Fin 8) : eightOfByte (BitVec.ofNat 8 d.val) = some d := by
  revert d; decide

/-- A handle field survives its two bytes. -/
theorem decodeHandle_bytes (h : Handle) : ∃ a b, h.bytes = [a, b] ∧ decodeHandle a b = some h := by
  cases h with
  | region h =>
    obtain ⟨s, g⟩ := h
    refine ⟨_, _, rfl, ?_⟩
    have h1 : (BitVec.ofNat 8 s.val).toNat / 64 = 0 := by revert s; decide
    have h2 : slotOfByte (BitVec.ofNat 8 s.val) = s := by revert s; decide
    simp only [decodeHandle, h1, h2]
  | batchRef k =>
    refine ⟨_, _, rfl, ?_⟩
    revert k; decide

/-- A FLUSH selector survives its two bytes. -/
theorem decodeFlushSelector_bytes (sel : FlushSelector) :
    ∃ a b, sel.bytes = [a, b] ∧ decodeFlushSelector a b = some sel := by
  cases sel with
  | all => exact ⟨_, _, rfl, by decide⟩
  | handle h =>
    obtain ⟨a, b, h1, h2⟩ := decodeHandle_bytes h
    refine ⟨a, b, h1, ?_⟩
    have h3 : ¬ (a = 128 ∧ b = 0) := by
      rintro ⟨rfl, rfl⟩
      revert h2
      simp [decodeHandle]
    rw [decodeFlushSelector, if_neg h3, h2]
    rfl

/-- A notice flag set survives its two bytes. -/
theorem decodeNoticeSet_bytes (n : NoticeSet) :
    ∃ a b, noticeBytes n = [a, b] ∧ decodeNoticeSet a b = some n := by
  refine ⟨_, _, rfl, ?_⟩
  have h0 := n.isLt
  have h1 : (BitVec.setWidth 16 n).toNat = n.toNat := by simp; omega
  simp only [decodeNoticeSet, half_halfBytes]
  rw [if_pos (by omega)]
  congr 1
  apply BitVec.eq_of_toNat_eq
  simp

end Sys2Proof
end

