-- ==== Sys2Proof/Laws/Reach.lean ====
section
/-! SUPPORT. How far each shared operation reaches: it answers the part with new values in the fields named, and leaves every
other field. A proof takes the new values by `obtain` and reads the rest off by `rfl`. -/

namespace Sys2Proof.Machine

/-- A fold of operations that reach the same fields reaches those fields. -/
theorem reach_foldl {α β : Type} (R : Part → β → Part) (op : Part → α → Part)
    (base : ∀ p, ∃ b, p = R p b) (once : ∀ p a, ∃ b, op p a = R p b)
    (join : ∀ p b c, ∃ d, R (R p b) c = R p d) (l : List α) (p : Part) : ∃ b, l.foldl op p = R p b := by
  induction l generalizing p with
  | nil => exact base p
  | cons a l ih =>
    obtain ⟨b, hb⟩ := once p a
    obtain ⟨c, hc⟩ := ih (op p a)
    rw [List.foldl_cons, hc, hb]
    exact join p b c

/-! ### The banks alone -/

theorem reach_withdrawOffers (p : Part) : ∃ b, p.withdrawOffers = { p with banks := b } := by
  unfold Part.withdrawOffers
  refine reach_foldl (fun p b => { p with banks := b }) _ (fun p => ⟨p.banks, rfl⟩) ?_ (fun _ _ c => ⟨c, rfl⟩) _ p
  intro q a
  split
  · exact ⟨_, rfl⟩
  · exact ⟨q.banks, rfl⟩

theorem reach_makeOffers (p : Part) : ∃ b, p.makeOffers = { p with banks := b } := by
  unfold Part.makeOffers
  refine reach_foldl (fun p b => { p with banks := b }) _ (fun p => ⟨p.banks, rfl⟩) ?_ (fun _ _ c => ⟨c, rfl⟩) _ p
  intro q a
  split
  · exact ⟨_, rfl⟩
  · exact ⟨q.banks, rfl⟩

theorem reach_acceptAt (p : Part) (a : BankId) : ∃ b, p.acceptAt a = { p with banks := b } := by
  unfold Part.acceptAt
  split
  · exact ⟨p.banks, rfl⟩
  · split
    · exact ⟨p.banks, rfl⟩
    · exact ⟨_, rfl⟩
    · exact ⟨_, rfl⟩
    · unfold Part.acceptDrain
      split
      · split <;> exact ⟨_, rfl⟩
      · exact ⟨_, rfl⟩
    all_goals exact ⟨_, rfl⟩

/-- THE ARBITERS REACH THE BANKS ALONE (R119 to R125). -/
theorem reach_arbitrate (p : Part) : ∃ b, p.arbitrate = { p with banks := b } := by
  unfold Part.arbitrate
  obtain ⟨b1, h1⟩ := reach_withdrawOffers (p.modBanks Bank.admitReads)
  obtain ⟨b2, h2⟩ := reach_makeOffers (p.modBanks Bank.admitReads).withdrawOffers
  obtain ⟨b3, h3⟩ := reach_foldl (fun p b => { p with banks := b }) Part.acceptAt (fun p => ⟨p.banks, rfl⟩)
    reach_acceptAt (fun _ _ c => ⟨c, rfl⟩) allBanks (p.modBanks Bank.admitReads).withdrawOffers.makeOffers
  exact ⟨b3, by rw [h3, h2, h1]; rfl⟩

/-! ### Clients and responses -/

theorem reach_notifyAll (p : Part) (n : Notice) (cs : List ClientId) : ∃ k, p.notifyAll n cs = { p with clients := k } :=
  reach_foldl (fun p k => { p with clients := k }) _ (fun p => ⟨p.clients, rfl⟩) (fun _ _ => ⟨_, rfl⟩)
    (fun _ _ c => ⟨c, rfl⟩) cs p

/-- The clients changed and responses made behind the earlier ones. -/
abbrev Part.told (p : Part) (x : Vector Client 8 × List Response) : Part :=
  { p with clients := x.1, tx := p.tx ++ x.2 }

theorem told_self (p : Part) : ∃ x, p = p.told x := ⟨(p.clients, []), by simp [Part.told]⟩

theorem told_told (p : Part) (x y : Vector Client 8 × List Response) : ∃ z, (p.told x).told y = p.told z :=
  ⟨(y.1, x.2 ++ y.2), by simp [Part.told]⟩

theorem reach_finish (p : Part) (c : ClientId) (st : Status) (body : List Byte) : ∃ x, p.finish c st body = p.told x := by
  unfold Part.finish
  split
  · exact ⟨(_, [_]), rfl⟩
  · exact told_self p

theorem reach_endWait (w : Wait) (st : Status) (p : Part) (c : ClientId) : ∃ x, p.endWait w st c = p.told x := by
  unfold Part.endWait
  split
  · split
    · exact reach_finish _ _ _ _
    · exact told_self p
  · simp only
    split
    · exact reach_finish _ _ _ _
    · exact ⟨(_, []), by simp [Part.told, Part.setWork, Part.modClient]; rfl⟩
  · exact told_self p

/-- THE END OF A WAIT reaches the clients and the responses alone (R77, R78). -/
theorem reach_resolveWait (p : Part) (w : Wait) (st : Status) : ∃ x, p.resolveWait w st = p.told x :=
  reach_foldl Part.told _ told_self (reach_endWait w st) told_told allClients p

/-- What a request ends with reaches one client. -/
theorem client_finish_ne (p : Part) (c d : ClientId) (st : Status) (body : List Byte) (h : d ≠ c) :
    (p.finish c st body).client d = p.client d := by
  unfold Part.finish
  split
  · rw [client_answer, client_modClient, if_neg (fun e => h e.symm)]
  · rfl

theorem client_endWait_ne (w : Wait) (st : Status) (p : Part) (c d : ClientId) (h : d ≠ c) :
    (p.endWait w st c).client d = p.client d := by
  unfold Part.endWait
  split
  · split
    · exact client_finish_ne _ _ _ _ _ h
    · rfl
  · simp only
    split
    · exact client_finish_ne _ _ _ _ _ h
    · rw [Part.setWork, client_modClient, if_neg (fun e => h e.symm)]
  · rfl

/-- THE END OF A WAIT ANSWERS what waited for it (R47, R51, R65, R31). -/
theorem resolveWait_answers (p : Part) (w : Wait) (st : Status) (c : ClientId) (tag : Byte)
    (h : (p.client c).executing = some ⟨tag, .waiting w⟩) :
    ((p.resolveWait w st).client c).executing = none ∧
    ∃ attention, ⟨c, (Work.waiting w).code, tag, st, attention, if st == .done then p.waitBody w else []⟩ ∈
      (p.resolveWait w st).tx := by
  have keep : ∀ (l : List ClientId) (q : Part), c ∉ l → (l.foldl (Part.endWait w st) q).client c = q.client c := by
    intro l
    induction l with
    | nil => exact fun _ _ => rfl
    | cons d l ih =>
      intro q hc
      rw [List.mem_cons, not_or] at hc
      rw [List.foldl_cons, ih _ hc.2, client_endWait_ne _ _ _ _ _ hc.1]
  obtain ⟨old, new, e⟩ := List.append_of_mem (mem_allClients c)
  have hd : c ∉ old ∧ c ∉ new := by
    have hn : allClients.Nodup := by decide
    rw [e, List.nodup_append, List.nodup_cons] at hn
    exact ⟨fun hm => hn.2.2 c hm c (by simp) rfl, hn.2.1.1⟩
  unfold Part.resolveWait
  rw [e, List.foldl_append, List.foldl_cons]
  obtain ⟨x, hx⟩ := reach_foldl Part.told _ told_self (reach_endWait w st) told_told old p
  have hb : (old.foldl (Part.endWait w st) p).waitBody w = p.waitBody w := by rw [hx]; cases w <;> rfl
  have he : ((old.foldl (Part.endWait w st) p).client c).executing = some ⟨tag, .waiting w⟩ := by rw [keep _ _ hd.1, h]
  generalize old.foldl (Part.endWait w st) p = q at hb he
  have hq : q.endWait w st c =
      (q.modClient c fun k => { k with executing := none }).answer c (Work.waiting w).code tag st
        (if st == .done then p.waitBody w else []) := by
    have hw : q.work c = some (.waiting w) := by simp [Part.work, he]
    simp only [Part.endWait, hw, beq_self_eq_true, if_true, Part.finish, he, hb]
  rw [keep _ _ hd.2, hq]
  refine ⟨by simp, (q.client c).flags != 0, ?_⟩
  obtain ⟨y, hy⟩ := reach_foldl Part.told _ told_self (reach_endWait w st) told_told new
    ((q.modClient c fun k => { k with executing := none }).answer c (Work.waiting w).code tag st
      (if st == .done then p.waitBody w else []))
  rw [hy]
  simp [Part.answer, Client.attention]

theorem reach_testFlush (p : Part) (c : ClientId) : ∃ x, p.testFlush c = p.told x := by
  unfold Part.testFlush
  split
  · split
    · exact reach_finish _ _ _ _
    · exact told_self p
  · exact told_self p

/-! ### Regions, pool, retirement -/

/-- R32: freeing reaches the slots and the pool alone. -/
theorem reach_freeRegion (p : Part) (s : SlotId) :
    ∃ t g, p.freeRegion s = { p with slots := t, pool := g } := by
  unfold Part.freeRegion
  split
  · split <;> exact ⟨_, _, rfl⟩
  · exact ⟨p.slots, p.pool, rfl⟩

/-- R42: the end of a use likewise. -/
theorem reach_endUse (p : Part) (s : SlotId) : ∃ t g, p.endUse s = { p with slots := t, pool := g } := by
  obtain ⟨t, g, h⟩ := reach_freeRegion (p.modRegion s fun r => { r with inUse := r.inUse - 1 }) s
  exact ⟨t, g, by rw [Part.endUse, h]; rfl⟩

/-- Freeing one slot leaves the others. -/
theorem region_freeRegion_ne (p : Part) (s u : SlotId) (h : u ≠ s) : (p.freeRegion s).region u = p.region u := by
  unfold Part.freeRegion
  split
  · split
    · simp only [Part.region]
      rw [tget_tmod, if_neg (fun e => h e.symm)]
    · rfl
  · rfl

theorem reach_joinQueue (p : Part) (f : FrameId) : ∃ q, p.joinQueue f = { p with retire := { p.retire with queue := q } } := by
  unfold Part.joinQueue
  split
  · exact ⟨_, rfl⟩
  · exact ⟨p.retire.queue, rfl⟩

/-- R141: what qualifies a frame for the queue but for its place there is no matter of the queue. -/
theorem qualifies_setQueue (p : Part) (q : List FrameId) (f : FrameId) (h : f ∈ q ↔ f ∈ p.retire.queue) :
    (p.setQueue q).qualifies f = p.qualifies f := by
  have e : q.contains f = p.retire.queue.contains f := by
    rw [Bool.eq_iff_iff, List.contains_iff_mem, List.contains_iff_mem, h]
  unfold Part.qualifies
  show (_ && !q.contains f && _) = _
  rw [e]
  rfl

/-- FRAMES OFFERED TO THE RETIRE QUEUE IN AN ORDER (R141, R51): the doomed ones join at the tail in that order while it holds
fewer than 16, where being doomed is all that each of them has to be. -/
theorem foldl_joinQueue (l : List FrameId) (p : Part) (hn : l.Nodup)
    (h : ∀ f ∈ l, f ∉ p.retire.queue ∧ p.qualifies f = (p.frame f).doomed) :
    l.foldl Part.joinQueue p =
      p.setQueue (p.retire.queue ++ (l.filter fun f => (p.frame f).doomed).take (16 - p.retire.queue.length)) := by
  induction l generalizing p with
  | nil => simp [Part.setQueue]
  | cons a l ih =>
    rw [List.nodup_cons] at hn
    have tail : ∀ f ∈ l, f ∉ p.retire.queue ∧ p.qualifies f = (p.frame f).doomed :=
      fun f hf => h f (List.mem_cons_of_mem a hf)
    rw [List.foldl_cons, Part.joinQueue, (h a List.mem_cons_self).2]
    by_cases d : (p.frame a).doomed = true
    · by_cases few : p.retire.queue.length < 16
      · have new : ∀ f ∈ l, f ∉ p.retire.queue ++ [a] := by
          intro f hf
          rw [List.mem_append, List.mem_singleton, not_or]
          exact ⟨(tail f hf).1, fun e => hn.1 (e ▸ hf)⟩
        rw [if_pos (by simp [d, Config.maxRetireQueue, few]), ih _ hn.2 (fun f hf => ⟨new f hf, ?_⟩)]
        · have n : 16 - p.retire.queue.length = (16 - (p.retire.queue ++ [a]).length) + 1 := by
            rw [List.length_append, List.length_singleton]
            omega
          show Part.setQueue _ ((p.retire.queue ++ [a]) ++ (l.filter fun f => (p.frame f).doomed).take _) = _
          rw [List.filter_cons, if_pos d, n, List.take_succ_cons, setQueue_queue, List.append_assoc]
          rfl
        · rw [qualifies_setQueue _ _ _ ⟨fun x => absurd x (new f hf), fun x => absurd x (tail f hf).1⟩]
          exact (tail f hf).2
      · rw [if_neg (by simp [Config.maxRetireQueue, few]), ih _ hn.2 tail,
          show 16 - p.retire.queue.length = 0 by omega, List.take_zero, List.take_zero]
    · rw [if_neg (by simp [d]), ih _ hn.2 tail, List.filter_cons, if_neg d]

theorem reach_stopCopying (p : Part) :
    p.stopCopying = { p with retire := { p.retire with
      engine := if p.retire.engine = .copying then .idle else p.retire.engine } } := by
  unfold Part.stopCopying
  split
  · rename_i h
    simp [Part.setEngine, beq_iff_eq.mp h]
  · rename_i h
    have : p.retire.engine ≠ .copying := fun e => h (by simp [e])
    simp [this]

/-- R153: an abort reaches the slots, the banks, the pool and the engine's state. -/
theorem reach_abortMigration (p : Part) (s : SlotId) (st : FrameState) :
    ∃ t b g e, p.abortMigration s st = { p with slots := t, banks := b, pool := g, retire := { p.retire with engine := e } } := by
  unfold Part.abortMigration
  split
  · exact ⟨p.slots, p.banks, p.pool, p.retire.engine, rfl⟩
  · rw [reach_stopCopying]
    exact ⟨_, _, _, _, rfl⟩

/-- R146: the scrub engine's test reaches the banks and the engine. -/
theorem reach_checkScrub (p : Part) : ∃ b x, p.checkScrub = { p with banks := b, scrub := x } := by
  unfold Part.checkScrub
  split
  · split <;> exact ⟨_, _, rfl⟩
  · exact ⟨p.banks, p.scrub, rfl⟩

/-- R8, R11: top-up reaches the pool and the notice flags. -/
theorem reach_settleSpare (p : Part) (before : Pool) : ∃ g k, p.settleSpare before = { p with pool := g, clients := k } := by
  unfold Part.settleSpare
  simp only
  split <;> exact ⟨_, _, rfl⟩

/-! ### Accesses -/

/-- What the access unit reaches. -/
structure Reached where
  clients : Vector Client 8
  slots : Vector Slot 64
  pool : Pool
  writeQueue : List Entry
  posting : List ClientId
  banks : Vector Bank 4
  responses : List Response

/-- The part with what the access unit reaches replaced, and responses behind the earlier ones. -/
abbrev Part.accessed (p : Part) (x : Reached) : Part :=
  { p with
    clients := x.clients
    slots := x.slots
    pool := x.pool
    writeQueue := x.writeQueue
    posting := x.posting
    banks := x.banks
    tx := p.tx ++ x.responses }

/-- A change without a response. -/
theorem accessed_silent (p : Part) (c : Vector Client 8) (t : Vector Slot 64) (g : Pool) (w : List Entry)
    (l : List ClientId) (b : Vector Bank 4) :
    ∃ x, ({ p with clients := c, slots := t, pool := g, writeQueue := w, posting := l, banks := b } : Part) =
      p.accessed x := ⟨⟨c, t, g, w, l, b, []⟩, by simp [Part.accessed]⟩

theorem accessed_self (p : Part) : ∃ x, p = p.accessed x := accessed_silent p _ _ _ _ _ _

theorem accessed_accessed (p : Part) (x y : Reached) : ∃ z, (p.accessed x).accessed y = p.accessed z :=
  ⟨{ y with responses := x.responses ++ y.responses }, by unfold Part.accessed; rw [List.append_assoc]⟩

theorem accessed_of_told (p : Part) (x : Vector Client 8 × List Response) : ∃ z, p.told x = p.accessed z :=
  ⟨⟨x.1, p.slots, p.pool, p.writeQueue, p.posting, p.banks, x.2⟩, rfl⟩

theorem accessed_of_eq {p q : Part} {x : Reached} (h : q = p.accessed x) (r : Part) (hr : ∃ y, r = q.accessed y) :
    ∃ z, r = p.accessed z := by
  obtain ⟨y, hy⟩ := hr
  rw [hy, h]
  exact accessed_accessed p x y

theorem accessed_endUse (p : Part) (s : SlotId) : ∃ z, p.endUse s = p.accessed z := by
  obtain ⟨t, g, h⟩ := reach_endUse p s
  rw [h]
  exact accessed_silent p _ _ _ _ _ _

theorem accessed_finish (p : Part) (c : ClientId) (st : Status) (body : List Byte) :
    ∃ z, p.finish c st body = p.accessed z := by
  obtain ⟨x, h⟩ := reach_finish p c st body
  rw [h]
  exact accessed_of_told p x

theorem accessed_finish_endUse (p : Part) (c : ClientId) (st : Status) (body : List Byte) (s : SlotId) :
    ∃ z, (p.finish c st body).endUse s = p.accessed z := by
  obtain ⟨x, h⟩ := accessed_finish p c st body
  exact accessed_of_eq h _ (accessed_endUse _ s)

theorem accessed_proceedRead (p : Part) (c : ClientId) : ∃ z, p.proceedRead c = p.accessed z := by
  unfold Part.proceedRead
  split
  · split
    · exact accessed_finish _ _ _ _
    · split
      · exact accessed_finish_endUse _ _ _ _ _
      · split
        · exact accessed_finish_endUse _ _ _ _ _
        · exact accessed_silent p _ _ _ _ _ _
  · exact accessed_self p

theorem accessed_setWork (p : Part) (c : ClientId) (w : Work) : ∃ z, p.setWork c w = p.accessed z :=
  accessed_silent p _ _ _ _ _ _

theorem accessed_enterOrdering (p : Part) (c : ClientId) : ∃ z, p.enterOrdering c = p.accessed z := by
  unfold Part.enterOrdering
  split
  · split
    · exact accessed_proceedRead p c
    · exact accessed_setWork _ _ _
  · exact accessed_self p

theorem accessed_leaveSet (e : Entry) (p : Part) (c : ClientId) : ∃ z, p.leaveSet e c = p.accessed z := by
  unfold Part.leaveSet
  split
  · split
    · split
      · exact accessed_proceedRead p c
      · exact accessed_setWork _ _ _
    · exact accessed_self p
  · exact accessed_self p

/-- An entry that leaves the queue reaches what the access unit reaches (R96, R98). -/
theorem accessed_entryLeaves (p : Part) (e : Entry) : ∃ z, p.entryLeaves e = p.accessed z := by
  unfold Part.entryLeaves
  simp only
  obtain ⟨b, hb⟩ := reach_withdrawOffers ({ p with writeQueue := p.writeQueue.filter fun d => !d.same e } : Part)
  have h1 : ∃ z, ({ p with writeQueue := p.writeQueue.filter fun d => !d.same e } : Part).withdrawOffers = p.accessed z := by
    rw [hb]
    exact accessed_silent p _ _ _ _ _ _
  obtain ⟨z1, h1⟩ := h1
  obtain ⟨z2, h2⟩ := accessed_of_eq h1 _ (accessed_endUse _ e.handle.slot)
  obtain ⟨z3, h3⟩ := accessed_of_eq h2 _
    (reach_foldl Part.accessed _ accessed_self (accessed_leaveSet e) accessed_accessed allClients _)
  exact accessed_of_eq h3 _ (reach_foldl Part.accessed _ accessed_self (fun q c => by
    obtain ⟨x, h⟩ := reach_testFlush q c
    rw [h]
    exact accessed_of_told q x) accessed_accessed allClients _)

theorem accessed_discard (p : Part) (e : Entry) : ∃ z, p.discard e = p.accessed z := by
  have h : ∃ z, p.disown (·.isDrainOf e) = p.accessed z := accessed_silent p _ _ _ _ _ _
  obtain ⟨z, h⟩ := h
  exact accessed_of_eq h _ (accessed_entryLeaves _ e)

theorem accessed_post (p : Part) (c : ClientId) : ∃ z, p.post c = p.accessed z := by
  unfold Part.post
  split
  · rename_i a payload _ _
    simp only
    have h : ∃ z, ({ p with
        posting := p.posting.filter (· != c)
        writeQueue := p.writeQueue ++ [⟨c, a.handle, a.offset, a.length, payload⟩] } : Part) = p.accessed z :=
      accessed_silent p _ _ _ _ _ _
    obtain ⟨z, h⟩ := h
    obtain ⟨y, hy⟩ := accessed_of_eq h _ (accessed_finish _ c .done [])
    split
    · exact accessed_of_eq hy _ (accessed_discard _ _)
    · exact ⟨y, hy⟩
  · exact accessed_self p

/-- POSTING reaches what the access unit reaches (R92). -/
theorem accessed_postWrites (p : Part) : ∃ z, p.postWrites = p.accessed z := by
  unfold Part.postWrites
  generalize p.posting.length = n
  induction n generalizing p with
  | zero => exact accessed_self p
  | succ n ih =>
    unfold postRounds
    split
    · exact accessed_self p
    · rename_i c _
      obtain ⟨z, h⟩ := accessed_post p c
      exact accessed_of_eq h _ (ih _)

theorem accessed_joinPosting (p : Part) (c : ClientId) : ∃ z, p.joinPosting c = p.accessed z := by
  unfold Part.joinPosting
  split
  · rename_i a payload _ _
    have h : ∃ z, ({ p.setWork c (.write a payload .posting) with posting := p.posting ++ [c] } : Part) = p.accessed z :=
      accessed_silent p _ _ _ _ _ _
    obtain ⟨z, h⟩ := h
    exact accessed_of_eq h _ (accessed_postWrites _)
  · exact accessed_self p

/-- R86, R91: the end of wipe holds, but for the list itself. -/
theorem accessed_endHolds (p : Part) (slots : List SlotId) :
    ∃ z, p.endHolds slots =
      ({ p with wipeHold := p.wipeHold.filter fun c => !p.accesses slots c } : Part).accessed z := by
  unfold Part.endHolds
  refine reach_foldl Part.accessed _ accessed_self (fun q c => ?_) accessed_accessed _ _
  unfold Part.leaveHold
  split
  · exact accessed_enterOrdering q c
  · exact accessed_joinPosting q c
  · exact accessed_self q

/-- R98: a completed DRAIN reaches what the access unit reaches. -/
theorem accessed_drained (p : Part) (e : Entry) : ∃ z, p.drained e = p.accessed z := by
  unfold Part.drained
  have h : ∃ z, (p.modRegion e.handle.slot fun r =>
      { r with poison := r.poison.filter fun x => !inRange e.offset e.length x }) = p.accessed z :=
    accessed_silent p _ _ _ _ _ _
  obtain ⟨z, h⟩ := h
  obtain ⟨y, hy⟩ := accessed_of_eq h _ (accessed_entryLeaves _ e)
  exact accessed_of_eq hy _ (accessed_postWrites _)

/-! ### Soft reset -/

theorem reach_abortQueue (p : Part) (c : ClientId) : ∃ x, p.abortQueue c = p.told x := by
  obtain ⟨x, h⟩ := reach_foldl Part.told (fun (q : Part) (x : Queued) => q.answer c x.request.code x.tag .aborted [])
    told_self (fun q _ => ⟨(q.clients, [_]), rfl⟩) told_told (p.client c).queue p
  unfold Part.abortQueue
  rw [h]
  exact ⟨(_, x.2), rfl⟩

theorem reach_abortClient (p : Part) (c : ClientId) : ∃ x, p.abortClient c = p.told x := by
  obtain ⟨x, h⟩ := reach_abortQueue p c
  obtain ⟨y, hy⟩ := reach_finish (p.abortQueue c) c .aborted []
  unfold Part.abortClient
  rw [hy, h]
  exact told_told _ _ _

/-- RESET reaches, beside the changes of the soft reset, the clients and the responses alone (R184, R185). -/
theorem reach_serveReset (p : Part) (c : ClientId) (tag : Byte) : ∃ x, p.serveReset c tag = p.clearForReset.told x := by
  obtain ⟨x, h⟩ := reach_foldl Part.told _ told_self reach_abortClient told_told ([1, 2, 3, 4, 5, 6, 7] : List ClientId)
    p.clearForReset
  obtain ⟨y, hy⟩ := told_told p.clearForReset x
    (x.1, [⟨c, 53, tag, .done, ((p.clearForReset.told x).client c).attention, []⟩])
  unfold Part.serveReset
  rw [h]
  exact ⟨y, hy ▸ rfl⟩

/-! ### Runs of frame moves -/

/-- A run of moves out of regions, or among FREE, DIRTY, SPARE and RETIRED. -/
theorem frames_leaves (l : List FrameId) (p : Pool) (st : FrameState) (f : FrameId) :
    tget (l.foldl (fun q x => q.leave x st) p).frames f =
      if f ∈ l then { tget p.frames f with state := st, region := none, doomed := false } else tget p.frames f := by
  induction l generalizing p with
  | nil => simp
  | cons a l ih =>
    rw [List.foldl_cons, ih, frame_leave]
    by_cases h : a = f
    · subst h
      simp
    · have h' : f ≠ a := fun e => h e.symm
      simp [h, h']

/-- R2: the frames that leave a region, each once: RETIRED if doomed and DIRTY otherwise. -/
theorem frames_vacateAll (l : List FrameId) (p : Pool) (f : FrameId) (h : l.Nodup) :
    tget (p.vacateAll l).frames f =
      if f ∈ l then
        { tget p.frames f with
          state := if (tget p.frames f).doomed then .retired else .dirty
          region := none
          doomed := false }
      else tget p.frames f := by
  unfold Pool.vacateAll
  induction l generalizing p with
  | nil => simp
  | cons a l ih =>
    rw [List.nodup_cons] at h
    rw [List.foldl_cons, ih _ h.2, Pool.vacate, frame_leave]
    by_cases e : a = f
    · subst e
      simp [h.1]
    · have e' : f ≠ a := fun x => e x.symm
      simp [e, e']

/-- R8: which frames top-up moves. -/
theorem frames_topUp (p : Pool) (f : FrameId) :
    tget p.topUp.frames f =
      if f ∈ (p.framesIn .free).take (p.spareTarget - p.count .spare) then
        { tget p.frames f with state := .spare, region := none, doomed := false }
      else tget p.frames f := frames_leaves _ _ _ _

end Sys2Proof.Machine
end

