-- ==== Sys2Proof/Laws/Regions.lean ====
section
/-! SUPPORT. Laws of the region table: notices leave it, the poison list stays ascending, what a release leaves in its
slot. -/

namespace Sys2Proof.Machine

/-- Notices change no slot. -/
theorem slots_notifyAll (p : Part) (n : Notice) (cs : List ClientId) : (p.notifyAll n cs).slots = p.slots := by
  unfold Part.notifyAll
  induction cs generalizing p with
  | nil => rfl
  | cons c cs ih =>
    rw [List.foldl_cons, ih]
    rfl

@[simp] theorem region_notifyAll (p : Part) (n : Notice) (cs : List ClientId) (s : SlotId) :
    (p.notifyAll n cs).region s = p.region s := by simp only [Part.region, slots_notifyAll]

@[simp] theorem generation_notifyAll (p : Part) (n : Notice) (cs : List ClientId) (s : SlotId) :
    (p.notifyAll n cs).generation s = p.generation s := by simp only [Part.generation, slots_notifyAll]

/-- R114: a notice for several clients sets its flag for each of them and leaves the others' flags. -/
theorem flags_notifyAll (p : Part) (n : Notice) (cs : List ClientId) (c : ClientId) :
    ((p.notifyAll n cs).client c).flags =
      if c ∈ cs then (p.client c).flags ||| n.bit else (p.client c).flags := by
  unfold Part.notifyAll
  induction cs generalizing p with
  | nil => simp
  | cons d cs ih =>
    rw [List.foldl_cons, ih, flags_notify]
    by_cases h : d = c
    · subst h
      simp only [if_true, List.mem_cons, true_or]
      split
      · rw [BitVec.or_assoc, BitVec.or_self]
      · rfl
    · have h' : c ≠ d := fun e => h e.symm
      simp [h, h']

theorem mem_insertOffset (x y : Nat) (l : List Nat) : y ∈ insertOffset x l ↔ y = x ∨ y ∈ l := by
  induction l with
  | nil => simp [insertOffset]
  | cons a l ih =>
    simp only [insertOffset]
    split
    · simp
    · simp only [List.mem_cons, ih]
      tauto

@[simp] theorem length_insertOffset (x : Nat) (l : List Nat) : (insertOffset x l).length = l.length + 1 := by
  induction l with
  | nil => rfl
  | cons a l ih => simp only [insertOffset]; split <;> simp [ih]

/-- R38: the poison list stays ascending. -/
theorem pairwise_insertOffset (x : Nat) (l : List Nat) (h : l.Pairwise (· < ·)) (hx : x ∉ l) :
    (insertOffset x l).Pairwise (· < ·) := by
  induction l with
  | nil => simp [insertOffset]
  | cons a l ih =>
    simp only [List.pairwise_cons] at h
    simp only [List.mem_cons, not_or] at hx
    simp only [insertOffset]
    split
    · rename_i hlt
      simp only [List.pairwise_cons, List.mem_cons]
      refine ⟨?_, h⟩
      rintro y (rfl | hy)
      · exact hlt
      · have := h.1 y hy
        omega
    · simp only [List.pairwise_cons, mem_insertOffset]
      refine ⟨?_, ih h.2 hx.2⟩
      rintro y (rfl | hy)
      · omega
      · exact h.1 y hy

/-- WHAT AN UNCORRECTABLE LINE DOES TO A REGION (R38, R29): its offset joins the list, or a full list makes the region FAULTED, or
nothing changes. -/
theorem damage_cases (p : Part) (x : Place) (offset : Nat) :
    (x.region.state ≠ .releasing ∧ offset ∉ x.region.poison ∧ x.region.poison.length < 16 ∧
      p.damage x offset = (p.modRegion x.slot fun r => { r with poison := insertOffset offset r.poison }).notifyAll
        .damage x.region.audience) ∨
    (offset ∉ x.region.poison ∧ 16 ≤ x.region.poison.length ∧ (x.region.state = .live ∨ x.region.state = .locked) ∧
      p.damage x offset = (p.modRegion x.slot fun r => { r with state := .faulted }).notifyAll .fault x.region.audience) ∨
    ((x.region.state = .releasing ∨ offset ∈ x.region.poison ∨
        (16 ≤ x.region.poison.length ∧ x.region.state ≠ .live ∧ x.region.state ≠ .locked)) ∧ p.damage x offset = p) := by
  unfold Part.damage
  split
  · rename_i h
    rw [Bool.or_eq_true, beq_iff_eq, List.contains_iff_mem] at h
    exact .inr (.inr ⟨h.imp id .inl, rfl⟩)
  · rename_i h
    rw [Bool.or_eq_true, beq_iff_eq, List.contains_iff_mem, not_or] at h
    split
    · rename_i few
      exact .inl ⟨h.1, h.2, few, rfl⟩
    · rename_i full
      split
      · rename_i hs
        rw [Bool.or_eq_true, beq_iff_eq, beq_iff_eq] at hs
        exact .inr (.inl ⟨h.2, Nat.le_of_not_lt full, hs, rfl⟩)
      · rename_i hs
        rw [Bool.or_eq_true, beq_iff_eq, beq_iff_eq, not_or] at hs
        exact .inr (.inr ⟨.inr (.inr ⟨Nat.le_of_not_lt full, hs⟩), rfl⟩)

/-- An aborted migration leaves the record without the field and the generation as it was. -/
theorem slot_abortMigration (p : Part) (s : SlotId) (st : FrameState) (r : Region) (h : p.region s = some r) :
    (p.abortMigration s st).region s = some { r with migration := none } ∧
    (p.abortMigration s st).generation s = p.generation s := by
  have e : ∀ q : Part, q.stopCopying.slots = q.slots := by
    intro q
    unfold Part.stopCopying
    split <;> rfl
  unfold Part.abortMigration
  rw [h]
  cases hm : r.migration with
  | none =>
    simp only [Option.bind, hm]
    exact ⟨by rw [h, ← hm], trivial⟩
  | some m =>
    simp only [Option.bind, hm]
    constructor
    · rw [Part.region, e]
      show (p.modRegion s _).region s = _
      simp [h]
    · rw [Part.generation, e]
      show (p.modRegion s _).generation s = _
      rw [generation_modRegion]

/-- R30: what a release leaves in its slot. -/
theorem slot_enterReleasing (p : Part) (s : SlotId) (r : Region) (h : p.region s = some r) :
    (p.enterReleasing s r).region s = some
      { r with state := .releasing, lease := none, wipe := none, migration := none, extension := none, access := [] } ∧
    (p.enterReleasing s r).generation s = p.generation s + 1 := by
  unfold Part.enterReleasing
  simp only [region_notifyAll, generation_notifyAll, region_modRegion_same, generation_modRegion]
  have h1 : ({ p with slots := tmod p.slots s fun x => { x with generation := x.generation + 1 } } : Part).region s =
      some r := by
    simp only [Part.region, tget_tmod_same]
    exact h
  have h2 : ({ p with slots := tmod p.slots s fun x => { x with generation := x.generation + 1 } } : Part).generation
      s = p.generation s + 1 := by simp only [Part.generation, tget_tmod_same]
  generalize ({ p with slots := tmod p.slots s fun x => { x with generation := x.generation + 1 } } : Part) = q at h1 h2
  have a := slot_abortMigration q s .dirty r h1
  constructor
  · show Option.map _ ((q.abortMigration s .dirty).region s) = _
    rw [a.1]
    rfl
  · show (q.abortMigration s .dirty).generation s = _
    rw [a.2, h2]

/-! ### The handle of a BATCH_CLOSE result (R77, R190; log 28) -/

@[simp] theorem slot_returnedHandle (p : Part) (h : RegionHandle) : (p.returnedHandle h).slot = h.slot := by
  unfold Part.returnedHandle
  split <;> rfl

/-- While the slot's generation is the one that the GRANT gave, the response gives that handle. -/
theorem returnedHandle_of_same (p : Part) (h : RegionHandle) (e : p.generation h.slot = h.generation) :
    p.returnedHandle h = h := by simp [Part.returnedHandle, e]

/-- No other generation than the GRANT's and the slot's is given. -/
theorem generation_returnedHandle (p : Part) (h : RegionHandle) :
    (p.returnedHandle h).generation = h.generation ∨ (p.returnedHandle h).generation = p.generation h.slot := by
  unfold Part.returnedHandle
  split
  · exact .inr rfl
  · exact .inl rfl

end Sys2Proof.Machine
end

