-- ==== Sys2Proof/Laws/Uses.lean ====
section
/-! SUPPORT. What the end of an access, of an entry or of a posting leaves as it was: the records but for in-use counts and
poison, the frames but for those of a RELEASING region that is freed, the requests that are no accesses, the earlier
responses. -/

namespace Sys2Proof.Machine

/-- What the access unit leaves of a part. -/
structure Part.AccessesOnly (p q : Part) : Prop where
  regions : ∀ u y, q.region u = some y →
    ∃ x, p.region u = some x ∧ y.owner = x.owner ∧ y.state = x.state ∧ y.frames = x.frames
  kept : ∀ u x, p.region u = some x → x.state ≠ .releasing → ∃ y, q.region u = some y
  frames : ∀ f, (∀ u x, p.region u = some x → x.state = .releasing → f ∉ x.frames) → q.frame f = p.frame f
  requests : ∀ c, (∀ w, p.work c = some w → w.isAccess = false) → (q.client c).executing = (p.client c).executing
  responses : p.tx <+: q.tx

theorem Part.AccessesOnly.refl (p : Part) : p.AccessesOnly p where
  regions _ y h := ⟨y, h, rfl, rfl, rfl⟩
  kept _ x h _ := ⟨x, h⟩
  frames _ _ := rfl
  requests _ _ := rfl
  responses := List.prefix_rfl

theorem Part.AccessesOnly.trans {p q r : Part} (h : p.AccessesOnly q) (k : q.AccessesOnly r) : p.AccessesOnly r where
  regions u z hz := by
    obtain ⟨y, hy, e1, e2, e3⟩ := k.regions u z hz
    obtain ⟨x, hx, f1, f2, f3⟩ := h.regions u y hy
    exact ⟨x, hx, e1.trans f1, e2.trans f2, e3.trans f3⟩
  kept u x hx hs := by
    obtain ⟨y, hy⟩ := h.kept u x hx hs
    obtain ⟨x', hx', -, e, -⟩ := h.regions u y hy
    rw [hx] at hx'
    cases hx'
    exact k.kept u y hy (e ▸ hs)
  frames f hf := by
    rw [k.frames f, h.frames f hf]
    intro u y hy hs
    obtain ⟨x, hx, -, e, e3⟩ := h.regions u y hy
    rw [e3]
    exact hf u x hx (e ▸ hs)
  requests c hc := by
    have e := h.requests c hc
    rw [k.requests c, e]
    intro w hw
    exact hc w (by rw [← hw, Part.work, Part.work, e])
  responses := h.responses.trans k.responses

/-- A part that differs in nothing of the four. -/
theorem accessesOnly_of_same {p q : Part} (hs : q.slots = p.slots) (hg : q.pool = p.pool)
    (hc : ∀ c, (∀ w, p.work c = some w → w.isAccess = false) → (q.client c).executing = (p.client c).executing)
    (hx : p.tx <+: q.tx) : p.AccessesOnly q where
  regions u y h := ⟨y, by rw [← h, Part.region, Part.region, hs], rfl, rfl, rfl⟩
  kept u x h _ := ⟨x, by rw [← h, Part.region, Part.region, hs]⟩
  frames f _ := by rw [Part.frame, Part.frame, hg]
  requests := hc
  responses := hx

theorem accessesOnly_foldl {α : Type} (op : Part → α → Part) (h : ∀ (p : Part) (a : α), p.AccessesOnly (op p a)) (l : List α) (p : Part) :
    p.AccessesOnly (l.foldl op p) := by
  induction l generalizing p with
  | nil => exact .refl p
  | cons a l ih => exact (h p a).trans (ih _)

/-- A frame outside a run is not vacated with it. -/
theorem frame_vacateAll_ne (l : List FrameId) (p : Pool) (f : FrameId) (h : f ∉ l) :
    tget (p.vacateAll l).frames f = tget p.frames f := by
  unfold Pool.vacateAll
  induction l generalizing p with
  | nil => rfl
  | cons a l ih =>
    rw [List.mem_cons, not_or] at h
    rw [List.foldl_cons, ih _ h.2, Pool.vacate, frame_leave, if_neg (fun e => h.1 e.symm)]

theorem accessesOnly_freeRegion (p : Part) (s : SlotId) : p.AccessesOnly (p.freeRegion s) := by
  unfold Part.freeRegion
  split
  · rename_i r hr
    split
    · rename_i hc
      have hs : r.state = .releasing := by
        rw [Bool.and_eq_true] at hc
        simpa using hc.1
      refine ⟨?_, ?_, ?_, fun _ _ => rfl, List.prefix_rfl⟩
      · intro u y hy
        simp only [Part.region, tget_tmod] at hy
        split at hy
        · cases hy
        · exact ⟨y, hy, rfl, rfl, rfl⟩
      · intro u x hx hn
        refine ⟨x, ?_⟩
        simp only [Part.region, tget_tmod]
        rw [if_neg]
        · exact hx
        · rintro rfl
          rw [hr] at hx
          cases hx
          exact hn hs
      · intro f hf
        exact frame_vacateAll_ne _ _ _ (hf s r hr hs)
    · exact .refl p
  · exact .refl p

theorem accessesOnly_endUse (p : Part) (s : SlotId) : p.AccessesOnly (p.endUse s) := by
  refine Part.AccessesOnly.trans ?_ (accessesOnly_freeRegion _ s)
  refine ⟨?_, ?_, fun _ _ => rfl, fun _ _ => rfl, List.prefix_rfl⟩
  · intro u y hy
    rw [region_modRegion] at hy
    split at hy
    · rename_i e
      subst e
      cases h : p.region s with
      | none => rw [h] at hy; cases hy
      | some x =>
        rw [h] at hy
        cases hy
        exact ⟨x, rfl, rfl, rfl, rfl⟩
    · exact ⟨y, hy, rfl, rfl, rfl⟩
  · intro u x hx _
    rw [region_modRegion]
    split
    · rename_i e
      subst e
      rw [hx]
      exact ⟨_, rfl⟩
    · exact ⟨x, hx⟩

/-- The end of an access answers it and touches no other request. -/
theorem accessesOnly_finish (p : Part) (c : ClientId) (st : Status) (body : List Byte) (w : Work)
    (h : p.work c = some w) (hw : w.isAccess = true) : p.AccessesOnly (p.finish c st body) := by
  unfold Part.finish
  split
  · refine accessesOnly_of_same rfl rfl ?_ ⟨_, rfl⟩
    intro d hd
    rw [client_answer, client_modClient]
    split
    · rename_i e
      subst e
      rw [hd w h] at hw
      cases hw
    · rfl
  · exact .refl p

theorem accessesOnly_setWork (p : Part) (c : ClientId) (w w' : Work) (h : p.work c = some w)
    (hw : w.isAccess = true) : p.AccessesOnly (p.setWork c w') := by
  refine accessesOnly_of_same rfl rfl ?_ List.prefix_rfl
  intro d hd
  unfold Part.setWork
  rw [client_modClient]
  split
  · rename_i e
    subst e
    rw [hd w h] at hw
    cases hw
  · rfl

theorem accessesOnly_proceedRead (p : Part) (c : ClientId) : p.AccessesOnly (p.proceedRead c) := by
  unfold Part.proceedRead
  split
  · rename_i verify a phase h
    have done : ∀ st body, p.AccessesOnly (p.finish c st body) := fun st body => accessesOnly_finish p c st body _ h rfl
    split
    · exact done _ _
    · split
      · exact (done _ _).trans (accessesOnly_endUse _ _)
      · split
        · exact (done _ _).trans (accessesOnly_endUse _ _)
        · exact (accessesOnly_setWork p c _ _ h rfl).trans
            (accessesOnly_of_same rfl rfl (fun _ _ => rfl) List.prefix_rfl)
  · exact .refl p

theorem accessesOnly_leaveSet (e : Entry) (p : Part) (c : ClientId) : p.AccessesOnly (p.leaveSet e c) := by
  unfold Part.leaveSet
  split
  · rename_i h
    split
    · split
      · exact accessesOnly_proceedRead p c
      · exact accessesOnly_setWork p c _ _ h rfl
    · exact .refl p
  · exact .refl p

theorem accessesOnly_testFlush (p : Part) (c : ClientId) : p.AccessesOnly (p.testFlush c) := by
  unfold Part.testFlush
  split
  · rename_i h
    split
    · exact accessesOnly_finish p c _ _ _ h rfl
    · exact .refl p
  · exact .refl p

theorem accessesOnly_withdrawOffers (p : Part) : p.AccessesOnly p.withdrawOffers := by
  obtain ⟨b, h⟩ := reach_withdrawOffers p
  rw [h]
  exact accessesOnly_of_same rfl rfl (fun _ _ => rfl) List.prefix_rfl

theorem accessesOnly_entryLeaves (p : Part) (e : Entry) : p.AccessesOnly (p.entryLeaves e) := by
  unfold Part.entryLeaves
  have h : p.AccessesOnly { p with writeQueue := p.writeQueue.filter fun d => !d.same e } :=
    accessesOnly_of_same rfl rfl (fun _ _ => rfl) List.prefix_rfl
  exact (((h.trans (accessesOnly_withdrawOffers _)).trans (accessesOnly_endUse _ _)).trans
    (accessesOnly_foldl _ (accessesOnly_leaveSet e) _ _)).trans (accessesOnly_foldl _ accessesOnly_testFlush _ _)

theorem accessesOnly_discard (p : Part) (e : Entry) : p.AccessesOnly (p.discard e) :=
  Part.AccessesOnly.trans (q := p.disown (·.isDrainOf e))
    (accessesOnly_of_same rfl rfl (fun _ _ => rfl) List.prefix_rfl) (accessesOnly_entryLeaves _ e)

theorem accessesOnly_post (p : Part) (c : ClientId) : p.AccessesOnly (p.post c) := by
  unfold Part.post
  split
  · rename_i a payload phase h
    simp only
    have k : p.AccessesOnly ({ p with
        posting := p.posting.filter (· != c)
        writeQueue := p.writeQueue ++ [⟨c, a.handle, a.offset, a.length, payload⟩] } : Part) :=
      accessesOnly_of_same rfl rfl (fun _ _ => rfl) List.prefix_rfl
    have k := k.trans (accessesOnly_finish _ c .done [] _ h rfl)
    split
    · exact k.trans (accessesOnly_discard _ _)
    · exact k
  · exact .refl p

theorem accessesOnly_postWrites (p : Part) : p.AccessesOnly p.postWrites := by
  unfold Part.postWrites
  generalize p.posting.length = n
  induction n generalizing p with
  | zero => exact .refl p
  | succ n ih =>
    unfold postRounds
    split
    · exact .refl p
    · exact (accessesOnly_post p _).trans (ih _)

theorem accessesOnly_discardHomeless (p : Part) : p.AccessesOnly p.discardHomeless :=
  (accessesOnly_foldl _ accessesOnly_discard _ _).trans (accessesOnly_postWrites _)

theorem accessesOnly_cutRead (s : SlotId) (p : Part) (c : ClientId) : p.AccessesOnly (p.cutRead s c) := by
  unfold Part.cutRead
  split
  · rename_i h
    split
    · split
      · have k : p.AccessesOnly (p.withdrawRead c) :=
          accessesOnly_of_same rfl rfl (fun _ _ => rfl) List.prefix_rfl
        exact (k.trans (accessesOnly_finish (p.withdrawRead c) c _ _ _ h rfl)).trans (accessesOnly_endUse _ _)
      · exact .refl p
    · exact .refl p
  · exact .refl p

theorem accessesOnly_leaveHold (p : Part) (c : ClientId) : p.AccessesOnly (p.leaveHold c) := by
  unfold Part.leaveHold
  split
  · unfold Part.enterOrdering
    split
    · rename_i h
      split
      · exact accessesOnly_proceedRead p c
      · exact accessesOnly_setWork p c _ _ h rfl
    · exact .refl p
  · unfold Part.joinPosting
    split
    · rename_i a payload _ h
      exact ((accessesOnly_setWork p c _ (.write a payload .posting) h rfl).trans
        (accessesOnly_of_same (q := { p.setWork c (.write a payload .posting) with posting := p.posting ++ [c] })
          rfl rfl (fun _ _ => rfl) List.prefix_rfl)).trans (accessesOnly_postWrites _)
    · exact .refl p
  · exact .refl p

/-- R86, R91: the end of wipe holds. -/
theorem accessesOnly_endHolds (p : Part) (slots : List SlotId) : p.AccessesOnly (p.endHolds slots) :=
  Part.AccessesOnly.trans (q := { p with wipeHold := p.wipeHold.filter fun c => !p.accesses slots c })
    (accessesOnly_of_same rfl rfl (fun _ _ => rfl) List.prefix_rfl) (accessesOnly_foldl _ accessesOnly_leaveHold _ _)

/-! ### A region that no entry and no WRITE reaches beyond (R54, R96)

The discards and postings of an act leave the record of a region whole, its in-use count with it, when every entry and every
WRITE of the region has a current frame. -/

/-- The record R stands in the slot, and every entry and every WRITE of the slot lies within its frame list. -/
structure Part.Within (p : Part) (slot : SlotId) (R : Region) : Prop where
  region : p.region slot = some R
  entries : ∀ e ∈ p.writeQueue, e.handle.slot = slot → e.offset / 1024 < R.frames.length
  writes : ∀ c a payload ph, p.work c = some (.write a payload ph) → a.handle.slot = slot →
    a.offset / 1024 < R.frames.length

section Within
variable {p : Part} {slot : SlotId} {R : Region}

theorem within_finish (h : p.Within slot R) (c : ClientId) (st : Status) (body : List Byte) :
    (p.finish c st body).Within slot R := by
  unfold Part.finish
  split
  · refine ⟨h.region, h.entries, ?_⟩
    intro d a payload ph hw
    by_cases e : c = d
    · subst e
      simp [Part.work] at hw
    · apply h.writes d a payload ph
      rw [← hw]
      simp [Part.work, client_modClient, e]
  · exact h

theorem within_endUse (h : p.Within slot R) (u : SlotId) (hu : u ≠ slot) : (p.endUse u).Within slot R := by
  obtain ⟨t, g, e⟩ := reach_endUse p u
  refine ⟨?_, by rw [e]; exact h.entries, by rw [e]; exact h.writes⟩
  unfold Part.endUse
  rw [region_freeRegion_ne _ _ _ (Ne.symm hu), region_modRegion, if_neg hu]
  exact h.region

theorem within_setRead (h : p.Within slot R) (c : ClientId) (verify : Bool) (a : Access) (phase : ReadPhase) :
    (p.setWork c (.read verify a phase)).Within slot R := by
  refine ⟨h.region, h.entries, ?_⟩
  intro d b payload ph hw
  by_cases e : c = d
  · subst e
    simp [Part.work, Part.setWork] at hw
  · apply h.writes d b payload ph
    rw [← hw]
    simp [Part.work, Part.setWork, client_modClient, e]

theorem within_proceedRead (h : p.Within slot R) (c : ClientId) (verify : Bool) (a : Access) (phase : ReadPhase)
    (hw : p.work c = some (.read verify a phase)) (ha : a.handle.slot ≠ slot) : (p.proceedRead c).Within slot R := by
  unfold Part.proceedRead
  rw [hw]
  simp only
  split
  · exact within_finish h _ _ _
  · split
    · exact within_endUse (within_finish h _ _ _) _ ha
    · split
      · exact within_endUse (within_finish h _ _ _) _ ha
      · have k := within_setRead h c verify a .issued
        exact ⟨k.region, k.entries, k.writes⟩

/-- R86: an entry of another slot leaves the wait sets. -/
theorem within_leaveSet (h : p.Within slot R) (e : Entry) (he : e.handle.slot ≠ slot) (c : ClientId) :
    (p.leaveSet e c).Within slot R := by
  unfold Part.leaveSet
  split
  · rename_i verify a ws hw
    split
    · rename_i hc
      rw [Bool.and_eq_true, beq_iff_eq] at hc
      split
      · exact within_proceedRead h c verify a _ hw (hc.1 ▸ he)
      · exact within_setRead h _ _ _ _
    · exact h
  · exact h

theorem within_testFlush (h : p.Within slot R) (c : ClientId) : (p.testFlush c).Within slot R := by
  unfold Part.testFlush
  split
  · split
    · exact within_finish h _ _ _
    · exact h
  · exact h

theorem within_foldl {α : Type} (op : Part → α → Part) (l : List α)
    (once : ∀ a ∈ l, ∀ p : Part, p.Within slot R → (op p a).Within slot R) (h : p.Within slot R) :
    (l.foldl op p).Within slot R := by
  induction l generalizing p with
  | nil => exact h
  | cons a l ih =>
    exact ih (fun b hb => once b (List.mem_cons_of_mem a hb)) (once a List.mem_cons_self p h)

/-- R96: an entry of another slot is discarded. -/
theorem within_discard (h : p.Within slot R) (e : Entry) (he : e.handle.slot ≠ slot) : (p.discard e).Within slot R := by
  unfold Part.discard Part.entryLeaves
  generalize hq : p.disown (·.isDrainOf e) = q
  have hq : q.Within slot R := hq ▸ ⟨h.region, h.entries, h.writes⟩
  have k : ({ q with writeQueue := q.writeQueue.filter fun d => !d.same e } : Part).withdrawOffers.Within slot R := by
    obtain ⟨b, hb⟩ := reach_withdrawOffers ({ q with writeQueue := q.writeQueue.filter fun d => !d.same e } : Part)
    rw [hb]
    exact ⟨hq.region, fun d hd => hq.entries d (List.mem_filter.mp hd).1, hq.writes⟩
  exact within_foldl _ _ (fun c _ _ h => within_testFlush h c)
    (within_foldl _ _ (fun c _ _ h => within_leaveSet h e he c) (within_endUse k _ he))

/-- R92: a posting. -/
theorem within_post (h : p.Within slot R) (c : ClientId) : (p.post c).Within slot R := by
  unfold Part.post
  split
  · rename_i a payload ph hw
    simp only
    have k : ({ p with
        posting := p.posting.filter (· != c)
        writeQueue := p.writeQueue ++ [⟨c, a.handle, a.offset, a.length, payload⟩] } : Part).Within slot R := by
      refine ⟨h.region, ?_, h.writes⟩
      intro e he hs
      rw [List.mem_append, List.mem_singleton] at he
      rcases he with he | rfl
      · exact h.entries e he hs
      · exact h.writes c a payload ph hw hs
    have k := within_finish k c .done []
    split
    · rename_i homeless
      refine within_discard k _ fun hs => ?_
      have hs : a.handle.slot = slot := hs
      unfold Part.currentFrame at homeless
      simp [hs, k.region, h.writes c a payload ph hw hs] at homeless
    · exact k
  · exact h

theorem within_postWrites (h : p.Within slot R) : p.postWrites.Within slot R := by
  unfold Part.postWrites
  generalize p.posting.length = n
  induction n generalizing p with
  | zero => exact h
  | succ n ih =>
    unfold postRounds
    split
    · exact h
    · exact ih (within_post h _)

/-- R96, R92: THE DISCARDS OF AN ACT leave the record. -/
theorem within_discardHomeless (h : p.Within slot R) : p.discardHomeless.Within slot R := by
  unfold Part.discardHomeless
  refine within_postWrites (within_foldl _ _ (fun e he q hq => within_discard hq e fun hs => ?_) h)
  rw [List.mem_filter] at he
  have homeless := he.2
  unfold Part.currentFrame at homeless
  simp [hs, h.region, h.entries e he.1 hs] at homeless

end Within

/-! ### An aborted migration -/

/-- R153: an aborted migration moves its target frame and no other. -/
theorem frame_abortMigration (p : Part) (s : SlotId) (st : FrameState) (r : Region) (h : p.region s = some r) (f : FrameId) :
    (p.abortMigration s st).frame f = match r.migration with
      | some g => if g.target = f then { p.frame f with state := st, region := none, doomed := false } else p.frame f
      | none => p.frame f := by
  unfold Part.abortMigration
  rw [h]
  cases hm : r.migration with
  | none => simp [hm]
  | some g =>
    simp only [Option.bind, hm]
    rw [reach_stopCopying]
    show tget (p.pool.leave g.target st).frames f = _
    rw [frame_leave]
    split
    · rename_i e; subst e; rfl
    · rfl

/-- R153: an aborted migration leaves owners, states and frame lists. -/
theorem region_abortMigration (p : Part) (s u : SlotId) (st : FrameState) (y : Region)
    (hy : (p.abortMigration s st).region u = some y) :
    ∃ x, p.region u = some x ∧ y.owner = x.owner ∧ y.state = x.state ∧ y.frames = x.frames := by
  unfold Part.abortMigration at hy
  split at hy
  · exact ⟨y, hy, rfl, rfl, rfl⟩
  · replace hy : (p.modRegion s fun r => { r with migration := none }).region u = some y := by
      rw [← hy, reach_stopCopying]; rfl
    rw [region_modRegion] at hy
    split at hy
    · rename_i e; subst e
      cases h : p.region s with
      | none => rw [h] at hy; cases hy
      | some x => rw [h] at hy; cases hy; exact ⟨x, rfl, rfl, rfl, rfl⟩
    · exact ⟨y, hy, rfl, rfl, rfl⟩

theorem kept_abortMigration (p : Part) (s u : SlotId) (st : FrameState) (x : Region) (h : p.region u = some x) :
    ∃ y, (p.abortMigration s st).region u = some y := by
  unfold Part.abortMigration
  split
  · exact ⟨x, h⟩
  · have k : ∃ y, (p.modRegion s fun r => { r with migration := none }).region u = some y := by
      rw [region_modRegion]
      split
      · rename_i e
        subst e
        rw [h]
        exact ⟨_, rfl⟩
      · exact ⟨x, h⟩
    obtain ⟨y, k⟩ := k
    exact ⟨y, by rw [← k, reach_stopCopying]; rfl⟩

/-- R30: a release vacates the pending extension after the migration is aborted, and moves no other frame. -/
theorem pool_enterReleasing (p : Part) (s : SlotId) (r : Region) (h : p.region s = some r) :
    ∃ g : Pool, (p.enterReleasing s r).pool = g.vacateAll (r.extension.getD []) ∧
      ∀ f, tget g.frames f = match r.migration with
        | some m => if m.target = f then { p.frame f with state := .dirty, region := none, doomed := false } else p.frame f
        | none => p.frame f := by
  obtain ⟨q, hq⟩ : ∃ q : Part, q = { p with slots := tmod p.slots s fun x => { x with generation := x.generation + 1 } } :=
    ⟨_, rfl⟩
  have hr : q.region s = some r := by
    rw [hq, Part.region, tget_tmod_same]
    exact h
  have hf : ∀ f, q.frame f = p.frame f := fun f => by rw [hq]; rfl
  refine ⟨(q.abortMigration s .dirty).pool, ?_, fun f => ?_⟩
  · unfold Part.enterReleasing
    simp only [← hq]
    obtain ⟨k, hk⟩ := reach_notifyAll ((({ (q.abortMigration s .dirty).endWipeSteps s with
      pool := ((q.abortMigration s .dirty).endWipeSteps s).pool.vacateAll (r.extension.getD [])
      fills := ((q.abortMigration s .dirty).endWipeSteps s).fills.filter fun x => x.slot != s } : Part).leaveQueue
        r.frames).modRegion s fun x =>
          { x with state := .releasing, lease := none, wipe := none, extension := none, access := [] })
      .revoked r.matchSet
    rw [hk]
    rfl
  · have k := frame_abortMigration q s .dirty r hr f
    rw [hf] at k
    exact k

/-- R30: entering RELEASING leaves owners, frame lists and the states of the other slots. -/
theorem region_enterReleasing (p : Part) (s u : SlotId) (r : Region) (h : p.region s = some r) :
    (∀ y, (p.enterReleasing s r).region u = some y → ∃ x, p.region u = some x ∧ y.owner = x.owner ∧
      y.frames = x.frames ∧ (u ≠ s → y.state = x.state) ∧ (u = s → y.state = .releasing)) ∧
    (∀ x, p.region u = some x → ∃ y, (p.enterReleasing s r).region u = some y) := by
  by_cases e : u = s
  · subst e
    rw [(slot_enterReleasing p u r h).1]
    refine ⟨?_, fun _ _ => ⟨_, rfl⟩⟩
    intro y hy
    cases hy
    exact ⟨r, h, rfl, rfl, fun x => absurd rfl x, fun _ => rfl⟩
  · obtain ⟨q, hq⟩ : ∃ q : Part, q = { p with slots := tmod p.slots s fun x => { x with generation := x.generation + 1 } } :=
      ⟨_, rfl⟩
    have hu : q.region u = p.region u := by rw [hq, Part.region, Part.region, tget_tmod, if_neg fun x => e x.symm]
    have k : (p.enterReleasing s r).region u = (q.abortMigration s .dirty).region u := by
      unfold Part.enterReleasing
      simp only [← hq, region_notifyAll]
      rw [region_modRegion, if_neg fun x => e x.symm]
      rfl
    rw [k, ← hu]
    refine ⟨?_, fun x hx => kept_abortMigration q s u .dirty x hx⟩
    intro y hy
    obtain ⟨x, hx, e1, e2, e3⟩ := region_abortMigration q s u .dirty y hy
    exact ⟨x, hx, e1, e3, fun _ => e2, fun x => absurd x e⟩

end Sys2Proof.Machine
end

