-- ==== Sys2Proof/Laws/Releases.lean ====
section
/-! SUPPORT. What the release of a region, and of all regions of a client, does to the region table, to the waiting requests and
to the responses. -/

namespace Sys2Proof.Machine

/-! ### Waits that end -/

theorem prefix_resolveWait (p : Part) (w : Wait) (st : Status) : p.tx <+: (p.resolveWait w st).tx := by
  obtain ⟨x, h⟩ := reach_resolveWait p w st
  rw [h]
  exact ⟨_, rfl⟩

theorem region_resolveWait (p : Part) (w : Wait) (st : Status) (u : SlotId) : (p.resolveWait w st).region u = p.region u := by
  obtain ⟨x, h⟩ := reach_resolveWait p w st
  rw [h]
  rfl

/-- The end of a wait leaves every client that executes neither that wait nor a BATCH_CLOSE. -/
theorem client_resolveWait (p : Part) (w : Wait) (st : Status) (d : ClientId) (h : p.work d ≠ some (.waiting w))
    (k : ∀ rs, p.work d ≠ some (.batchClose rs)) : (p.resolveWait w st).client d = p.client d := by
  have once : ∀ (q : Part) (c : ClientId), q.client d = p.client d → (q.endWait w st c).client d = p.client d := by
    intro q c hq
    by_cases hc : d = c
    · subst hc
      have hw : q.work d = p.work d := by rw [Part.work, Part.work, hq]
      rw [← hw] at h k
      unfold Part.endWait
      split
      · rename_i x hx
        split
        · rename_i e
          rw [beq_iff_eq] at e
          subst e
          exact absurd hx h
        · exact hq
      · rename_i rs hx
        exact absurd hx (k rs)
      · exact hq
    · rw [client_endWait_ne _ _ _ _ _ hc]
      exact hq
  have run : ∀ (l : List ClientId) (q : Part), q.client d = p.client d →
      (l.foldl (Part.endWait w st) q).client d = p.client d := by
    intro l
    induction l with
    | nil => exact fun _ e => e
    | cons a l ih => exact fun q e => ih _ (once q a e)
  exact run _ _ rfl

/-- The end of a wait touches no access. -/
theorem accessSlot_resolveWait (p : Part) (w : Wait) (st : Status) (d : ClientId) :
    (p.resolveWait w st).accessSlot d = p.accessSlot d := by
  have work : ∀ {q r : Part}, q.client d = r.client d → q.accessSlot d = r.accessSlot d := by
    intro q r e
    rw [Part.accessSlot, Part.accessSlot, Part.work, Part.work, e]
  have ended : ∀ (q : Part) (x : Status) (body : List Byte), q.accessSlot d = none →
      (q.finish d x body).accessSlot d = none := by
    intro q x body h
    unfold Part.finish
    split
    · rw [Part.accessSlot, Part.work, client_answer, client_modClient_same]
      rfl
    · exact h
  have once : ∀ (q : Part) (c : ClientId), (q.endWait w st c).accessSlot d = q.accessSlot d := by
    intro q c
    by_cases hc : d = c
    · subst hc
      unfold Part.endWait
      split
      · rename_i x hx
        have h : q.accessSlot d = none := by rw [Part.accessSlot, hx]
        split
        · rw [ended _ _ _ h, h]
        · rfl
      · rename_i rs hx
        have h : q.accessSlot d = none := by rw [Part.accessSlot, hx]
        simp only
        split
        · rw [ended _ _ _ h, h]
        · rw [h, Part.accessSlot, Part.work, Part.setWork, client_modClient_same]
          cases (q.client d).executing <;> rfl
      · rfl
    · exact work (client_endWait_ne _ _ _ _ _ hc)
  have run : ∀ (l : List ClientId) (q : Part), (l.foldl (Part.endWait w st) q).accessSlot d = q.accessSlot d := by
    intro l
    induction l with
    | nil => exact fun _ => rfl
    | cons a l ih => exact fun q => (ih _).trans (once q a)
  exact run _ _

/-- Wipe holds without an access of the slots do not end. -/
theorem endHolds_self (p : Part) (slots : List SlotId) (h : ∀ d ∈ p.wipeHold, p.accesses slots d = false) :
    p.endHolds slots = p := by
  have none : p.wipeHold.filter (p.accesses slots) = [] := by
    rw [List.filter_eq_nil_iff]
    intro d hd
    simp [h d hd]
  have all : p.wipeHold.filter (fun c => !p.accesses slots c) = p.wipeHold := by
    rw [List.filter_eq_self]
    intro d hd
    simp [h d hd]
  rw [Part.endHolds, none, all]
  rfl

/-! ### One region -/

/-- The waits that a release of a slot ends. -/
def Wait.isOf (s : SlotId) (w : Wait) : Prop := w = .fill s ∨ w = .extension s ∨ w = .wipe s

/-- R31: the end of a slot's waits leaves every client whose request it does not reach. -/
theorem client_abortWaits (p : Part) (s : SlotId) (d : ClientId)
    (h : ∀ w, p.work d = some w → (∀ rs, w ≠ .batchClose rs) ∧ ∀ x, x.isOf s → w ≠ .waiting x) :
    (p.abortWaits s).client d = p.client d := by
  have once : ∀ (q : Part) (x : Wait), x.isOf s → q.client d = p.client d →
      (q.resolveWait x .aborted).client d = p.client d := by
    intro q x hx hq
    have hw : q.work d = p.work d := by rw [Part.work, Part.work, hq]
    rw [client_resolveWait q x .aborted d (fun e => (h _ (hw ▸ e)).2 x hx rfl)
      (fun rs e => (h _ (hw ▸ e)).1 rs rfl), hq]
  exact once _ _ (.inr (.inr rfl)) (once _ _ (.inr (.inl rfl)) (once _ _ (.inl rfl) rfl))

theorem prefix_abortWaits (p : Part) (s : SlotId) : p.tx <+: (p.abortWaits s).tx :=
  ((prefix_resolveWait _ _ _).trans (prefix_resolveWait _ _ _)).trans (prefix_resolveWait _ _ _)

theorem region_abortWaits (p : Part) (s u : SlotId) : (p.abortWaits s).region u = p.region u := by
  simp only [Part.abortWaits, region_resolveWait]

theorem wipeHold_abortWaits (p : Part) (s : SlotId) : (p.abortWaits s).wipeHold = p.wipeHold := by
  have once : ∀ (q : Part) (w : Wait), (q.resolveWait w .aborted).wipeHold = q.wipeHold := by
    intro q w
    obtain ⟨x, h⟩ := reach_resolveWait q w .aborted
    rw [h]
  rw [Part.abortWaits, once, once, once]

theorem accessSlot_abortWaits (p : Part) (s : SlotId) (d : ClientId) : (p.abortWaits s).accessSlot d = p.accessSlot d := by
  simp only [Part.abortWaits, accessSlot_resolveWait]

/-- R31: a request that waits for the region is answered ABORTED. -/
theorem abortWaits_answers (p : Part) (s : SlotId) (d : ClientId) (tag : Byte) (x : Wait) (hx : x.isOf s)
    (h : (p.client d).executing = some ⟨tag, .waiting x⟩) :
    ((p.abortWaits s).client d).executing = none ∧
      ∃ attention, ⟨d, (Work.waiting x).code, tag, .aborted, attention, []⟩ ∈ (p.abortWaits s).tx := by
  have keep : ∀ (q : Part) (w : Wait), (q.client d).executing = none →
      ((q.resolveWait w .aborted).client d).executing = none := by
    intro q w hq
    have hw : q.work d = none := by rw [Part.work, hq]; rfl
    rw [client_resolveWait q w _ d (by rw [hw]; exact nofun) (by rw [hw]; exact nofun), hq]
  have stay : ∀ (q : Part) (w : Wait), x ≠ w → (q.client d).executing = some ⟨tag, .waiting x⟩ →
      ((q.resolveWait w .aborted).client d).executing = some ⟨tag, .waiting x⟩ := by
    intro q w hne hq
    have hw := work_executing hq
    rw [client_resolveWait q w _ d (by rw [hw]; simpa using hne) (by rw [hw]; exact fun _ e => by cases e), hq]
  have ends : ∀ q : Part, (q.client d).executing = some ⟨tag, .waiting x⟩ →
      ((q.resolveWait x .aborted).client d).executing = none ∧
        ∃ attention, ⟨d, (Work.waiting x).code, tag, .aborted, attention, []⟩ ∈ (q.resolveWait x .aborted).tx :=
    fun q hq => resolveWait_answers q x .aborted d tag hq
  rcases hx with rfl | rfl | rfl
  · obtain ⟨a, att, b⟩ := ends p h
    exact ⟨keep _ _ (keep _ _ a), att, (prefix_resolveWait _ _ _).subset ((prefix_resolveWait _ _ _).subset b)⟩
  · obtain ⟨a, att, b⟩ := ends _ (stay p (.fill s) nofun h)
    exact ⟨keep _ _ a, att, (prefix_resolveWait _ _ _).subset b⟩
  · exact ends _ (stay _ (.extension s) nofun (stay p (.fill s) nofun h))

/-- R31, R32: behind its waits, the end of a release is one of accesses. -/
theorem endRelease_waits (p : Part) (s : SlotId) : (p.abortWaits s).AccessesOnly (p.endRelease s) :=
  (accessesOnly_endHolds _ [s]).trans (accessesOnly_freeRegion _ s)

/-- R30: entering RELEASING touches no request and no wipe hold, and makes no response. -/
theorem told_enterReleasing (p : Part) (s : SlotId) (r : Region) (d : ClientId) :
    ((p.enterReleasing s r).client d).executing = (p.client d).executing ∧ (p.enterReleasing s r).tx = p.tx ∧
      (p.enterReleasing s r).wipeHold = p.wipeHold := by
  have hn : ∀ (l : List ClientId) (q : Part), ((q.notifyAll .revoked l).client d).executing = (q.client d).executing ∧
      (q.notifyAll .revoked l).tx = q.tx ∧ (q.notifyAll .revoked l).wipeHold = q.wipeHold := by
    intro l
    unfold Part.notifyAll
    induction l with
    | nil => exact fun _ => ⟨rfl, rfl, rfl⟩
    | cons a l ih =>
      intro q
      rw [List.foldl_cons]
      refine ⟨(ih _).1.trans ?_, (ih _).2⟩
      rw [Part.notify, client_modClient]
      split
      · rename_i e
        subst e
        rfl
      · rfl
  obtain ⟨t, b, g, e, ha⟩ := reach_abortMigration
    ({ p with slots := tmod p.slots s fun x => { x with generation := x.generation + 1 } } : Part) s .dirty
  unfold Part.enterReleasing
  simp only [ha]
  exact hn _ _

/-- R30: the release of a region that is not RELEASING. -/
theorem releaseRegion_of (p : Part) (s : SlotId) (r : Region) (h : p.region s = some r) (hs : r.state ≠ .releasing) :
    p.releaseRegion s false = (p.enterReleasing s r).endRelease s := by
  unfold Part.releaseRegion
  rw [h]
  simp [hs]

/-- R30: there is nothing to release. -/
theorem releaseRegion_self (p : Part) (s : SlotId) (h : ∀ r, p.region s = some r → r.state = .releasing) :
    p.releaseRegion s false = p := by
  unfold Part.releaseRegion
  split
  · rfl
  · rename_i r hr
    rw [h r hr]
    rfl

/-- R30: a release begins at a region that is not RELEASING, and nowhere else. -/
theorem beginRelease_cases (p : Part) (s : SlotId) :
    p.beginRelease s = p ∧ (∀ r, p.region s = some r → r.state = .releasing) ∨
    ∃ r, p.region s = some r ∧ r.state ≠ .releasing ∧ p.beginRelease s = (p.enterReleasing s r).abortWaits s := by
  unfold Part.beginRelease
  cases h : p.region s with
  | none => exact .inl ⟨rfl, nofun⟩
  | some r =>
    by_cases e : r.state = .releasing
    · refine .inl ⟨by simp [e], ?_⟩
      intro x hx
      cases hx
      exact e
    · exact .inr ⟨r, rfl, e, by simp [e]⟩

theorem prefix_beginRelease (p : Part) (s : SlotId) : p.tx <+: (p.beginRelease s).tx := by
  rcases beginRelease_cases p s with ⟨e, -⟩ | ⟨r, -, -, e⟩ <;> rw [e]
  have k := prefix_abortWaits (p.enterReleasing s r) s
  rwa [(told_enterReleasing p s r 0).2.1] at k

/-- R31: a request that the release does not reach goes on. -/
theorem executing_beginRelease (p : Part) (s : SlotId) (d : ClientId)
    (h : ∀ w, p.work d = some w → (∀ rs, w ≠ .batchClose rs) ∧ ∀ x, x.isOf s → w ≠ .waiting x) :
    ((p.beginRelease s).client d).executing = (p.client d).executing := by
  rcases beginRelease_cases p s with ⟨e, -⟩ | ⟨r, -, -, e⟩ <;> rw [e]
  have k := (told_enterReleasing p s r d).1
  rw [client_abortWaits _ s d ?_, k]
  intro w hw
  rw [Part.work, k] at hw
  exact h w hw

/-- R30: a release that begins leaves owners and the states of the other slots; its own slot is RELEASING or UNUSED. -/
theorem region_beginRelease (p : Part) (s u : SlotId) :
    (∀ y, (p.beginRelease s).region u = some y → ∃ x, p.region u = some x ∧ y.owner = x.owner ∧
      (u ≠ s → y.state = x.state) ∧ (u = s → y.state = .releasing)) ∧
    (∀ x, p.region u = some x → ∃ y, (p.beginRelease s).region u = some y) := by
  rcases beginRelease_cases p s with ⟨e, h⟩ | ⟨r, hr, -, e⟩ <;> rw [e]
  · exact ⟨fun y hy => ⟨y, hy, rfl, fun _ => rfl, fun x => h y (x ▸ hy)⟩, fun x hx => ⟨x, hx⟩⟩
  · rw [region_abortWaits]
    have a := region_enterReleasing p s u r hr
    refine ⟨fun y hy => ?_, a.2⟩
    obtain ⟨x, hx, f1, -, f2⟩ := a.1 y hy
    exact ⟨x, hx, f1, f2⟩

/-! ### All releases of an act (R107) -/

/-- The release of one region as one of an act. -/
theorem releaseRegions_one (p : Part) (s : SlotId) (r : Region) (h : p.region s = some r) (hs : r.state ≠ .releasing) :
    p.releaseRegions [s] = p.releaseRegion s false := by
  simp [Part.releaseRegions, Part.beginRelease, Part.releaseRegion, Part.endRelease, Part.endHold, h, hs]

/-- Behind the beginnings, the releases of an act are one end of accesses. -/
theorem releaseRegions_begun (l : List SlotId) (p : Part) :
    (l.foldl Part.beginRelease p).AccessesOnly (p.releaseRegions l) :=
  (accessesOnly_endHolds _ l).trans (accessesOnly_foldl _ accessesOnly_freeRegion l _)

theorem prefix_begun (l : List SlotId) (p : Part) : p.tx <+: (l.foldl Part.beginRelease p).tx := by
  induction l generalizing p with
  | nil => exact List.prefix_rfl
  | cons a l ih => exact (prefix_beginRelease p a).trans (ih _)

theorem executing_begun (l : List SlotId) (p : Part) (d : ClientId)
    (h : ∀ w, p.work d = some w → (∀ rs, w ≠ .batchClose rs) ∧ ∀ s ∈ l, ∀ x, x.isOf s → w ≠ .waiting x) :
    ((l.foldl Part.beginRelease p).client d).executing = (p.client d).executing := by
  induction l generalizing p with
  | nil => rfl
  | cons a l ih =>
    have e := executing_beginRelease p a d fun w hw => ⟨(h w hw).1, (h w hw).2 a List.mem_cons_self⟩
    have k : (p.beginRelease a).work d = p.work d := by rw [Part.work, Part.work, e]
    exact (ih _ fun w hw => ⟨(h w (k ▸ hw)).1, fun s hs => (h w (k ▸ hw)).2 s (List.mem_cons_of_mem _ hs)⟩).trans e

/-- R30: the slots of an act's releases are RELEASING or UNUSED behind their beginnings; owners stay. -/
theorem region_begun (l : List SlotId) (p : Part) (u : SlotId) (y : Region)
    (hy : (l.foldl Part.beginRelease p).region u = some y) :
    ∃ x, p.region u = some x ∧ y.owner = x.owner ∧ (u ∉ l → y.state = x.state) ∧ (u ∈ l → y.state = .releasing) := by
  induction l generalizing p with
  | nil => exact ⟨y, hy, rfl, fun _ => rfl, nofun⟩
  | cons a l ih =>
    obtain ⟨x, hx, e1, e2, e3⟩ := ih _ hy
    obtain ⟨z, hz, f1, f2, f3⟩ := (region_beginRelease p a u).1 x hx
    refine ⟨z, hz, e1.trans f1, ?_, ?_⟩
    · intro n
      rw [List.mem_cons, not_or] at n
      exact (e2 n.2).trans (f2 n.1)
    · intro m
      by_cases k : u ∈ l
      · exact e3 k
      · rcases List.mem_cons.1 m with rfl | m
        · exact (e2 k).trans (f3 rfl)
        · exact absurd m k

/-- R31: the releases of an act answer ABORTED what waits for one of their regions. -/
theorem begun_answers (l : List SlotId) (p : Part) (s : SlotId) (r : Region) (d : ClientId) (tag : Byte) (x : Wait)
    (hx : x.isOf s) (hm : s ∈ l) (hr : p.region s = some r) (hs : r.state ≠ .releasing)
    (h : (p.client d).executing = some ⟨tag, .waiting x⟩) :
    ((l.foldl Part.beginRelease p).client d).executing = none ∧
      ∃ attention, ⟨d, (Work.waiting x).code, tag, .aborted, attention, []⟩ ∈ (l.foldl Part.beginRelease p).tx := by
  induction l generalizing p r with
  | nil => cases hm
  | cons a l ih =>
    rw [List.foldl_cons]
    by_cases e : a = s
    · subst e
      rcases beginRelease_cases p a with ⟨-, n⟩ | ⟨r', -, -, k⟩
      · exact absurd (n r hr) hs
      obtain ⟨b, att, c⟩ := abortWaits_answers (p.enterReleasing a r') a d tag x hx
        ((told_enterReleasing p a r' d).1.trans h)
      rw [← k] at b c
      have hw : (p.beginRelease a).work d = none := by rw [Part.work, b]; rfl
      exact ⟨(executing_begun l _ d fun w hw' => by rw [hw] at hw'; cases hw').trans b, att,
        (prefix_begun l _).subset c⟩
    · have hl : s ∈ l := (List.mem_cons.1 hm).resolve_left fun x => e x.symm
      have k := region_beginRelease p a s
      obtain ⟨y, hy⟩ := k.2 r hr
      obtain ⟨r', hr', -, f, -⟩ := k.1 y hy
      rw [hr] at hr'
      cases hr'
      refine ih _ y hl hy (f (fun x => e x.symm) ▸ hs) ?_
      rw [executing_beginRelease p a d, h]
      intro w hw
      rw [work_executing h] at hw
      cases hw
      refine ⟨nofun, ?_⟩
      rintro z hz hxz
      cases hxz
      rcases hx with rfl | rfl | rfl <;> rcases hz with hz | hz | hz <;> cases hz <;> exact e rfl

/-- R30, R107: the slots of an act's releases are RELEASING or UNUSED; owners stay. -/
theorem region_releaseRegions (l : List SlotId) (p : Part) (u : SlotId) (y : Region)
    (hy : (p.releaseRegions l).region u = some y) :
    ∃ x, p.region u = some x ∧ y.owner = x.owner ∧ (u ∉ l → y.state = x.state) ∧ (u ∈ l → y.state = .releasing) := by
  obtain ⟨z, hz, e1, e2, -⟩ := (releaseRegions_begun l p).regions u y hy
  obtain ⟨x, hx, f1, f2, f3⟩ := region_begun l p u z hz
  exact ⟨x, hx, e1.trans f1, fun n => e2.trans (f2 n), fun m => e2.trans (f3 m)⟩

/-- R31, R107: the releases of an act answer ABORTED what waits for one of their regions. -/
theorem releaseRegions_answers (l : List SlotId) (p : Part) (s : SlotId) (r : Region) (d : ClientId) (tag : Byte)
    (x : Wait) (hx : x.isOf s) (hm : s ∈ l) (hr : p.region s = some r) (hs : r.state ≠ .releasing)
    (h : (p.client d).executing = some ⟨tag, .waiting x⟩) :
    ((p.releaseRegions l).client d).executing = none ∧
      ∃ attention, ⟨d, (Work.waiting x).code, tag, .aborted, attention, []⟩ ∈ (p.releaseRegions l).tx := by
  obtain ⟨a, att, b⟩ := begun_answers l p s r d tag x hx hm hr hs h
  have k := releaseRegions_begun l p
  refine ⟨?_, att, k.responses.subset b⟩
  rw [k.requests d, a]
  intro w hw
  rw [Part.work, a] at hw
  cases hw

/-- R107: which slots a client's departure releases. -/
theorem mem_ownedSlots (p : Part) (d : ClientId) (s : SlotId) :
    s ∈ p.ownedSlots d ↔ ∃ r, p.region s = some r ∧ r.owner = d ∧ r.state ≠ .releasing := by
  rw [Part.ownedSlots, mem_slotsWhere]
  simp

end Sys2Proof.Machine
end

