-- ==== Sys2Proof/Tests/Slice0.lean ====
section
/-! SUPPORT. The model's own tests: ill-formed commands that the check refuses, small steps with the answers the manual
gives, and for each statement with hypotheses a state that meets them. -/

namespace Sys2Proof.Tests

open Sys2Proof.Machine

-- One theorem at a time: the evaluations below run in the kernel, and side by side they take more memory.
set_option Elab.async false

/-! ### Small states -/

/-- An ATTACHED client with nothing queued. -/
def idleClient : Client := ⟨true, false, 1024, [], none, none, 0, 511, false⟩

/-- An ACTIVE part with eight idle clients and every frame in one state. -/
def partOf (f : FrameState) : Part :=
  { Part.reset (Vector.replicate 4096 ⟨f, none, false, 0, none, 0⟩) .powerOn with
    clients := Vector.replicate 8 idleClient
    power := ⟨.active, some 500, 50, []⟩ }

/-- Every frame RETIRED: the engines find no work. -/
def quiet : Part := partOf .retired

def st (p : Part) : State := ⟨[], ⟨[], 0⟩, p⟩

/-- A region of client 2 with two frames and a lease. -/
def sample : Region := ⟨.live, 2, .keep, [100, 101], none, [], some ⟨60, 5000⟩, [], 0, none, none⟩

/-- The quiet part with a region in slot 5, generation 3. -/
def withRegion (r : Region) : Part := { quiet with slots := tset quiet.slots 5 ⟨3, some r⟩ }

def h53 : RegionHandle := ⟨5, 3⟩

def entry (c : ClientId) (offset length : Nat) : Entry :=
  ⟨c, h53, offset, length, List.replicate (64 * length) 7⟩

def withQueue (q : List Entry) : Part := { withRegion sample with writeQueue := q }

def withClient (c : ClientId) (k : Client) : Part := { quiet with clients := tset quiet.clients c k }

/-- An operation in progress at a bank. -/
def runningAt (b : BankId) (op : BankOp) (live : Bool) : Part :=
  (withRegion sample).modBank b fun k => { k with running := some ⟨op, live⟩ }

/-- The part with one frame given and every other RETIRED. -/
def holding (g : Frame) (r : Region) : Part := (withRegion r).modFrame 100 fun _ => g

/-- A HELD frame of slot 5. -/
def heldFrame : Frame := ⟨.held, some 5, false, 0, none, 0⟩

/-- The part with the request that a client executes. -/
def serving (c : ClientId) (w : Work) : Part := (withRegion sample).execute c 7 w

/-- The part in another power state, with segment 3 masked. -/
def asleep (p : PowerState) : Part := { quiet with power := ⟨p, none, 50, [3]⟩ }

/-- What a command answers, as packets. -/
def answers (i : Instr) (p : Part) : Option (List (List Byte)) :=
  match exec i (st p) with
  | .next t => some (t.part.tx.map Response.bytes)
  | .fault _ => none
  | .refused _ => none

theorem free_of {p : Part} (c : ClientId) (h1 : p.hold = none) (h2 : p.power.state = .active)
    (h3 : tget p.clients c = idleClient) : p.free c :=
  ⟨⟨h1, h2, by simp [Part.client, h3, idleClient], by simp [Part.client, h3, idleClient],
    by simp [Part.client, h3, idleClient]⟩, by simp [Part.client, h3, idleClient]⟩

theorem quiet_free (c : ClientId) : quiet.free c :=
  free_of c rfl rfl (by simp [quiet, partOf])

theorem region_free (r : Region) (c : ClientId) : (withRegion r).free c :=
  free_of c rfl rfl (by simp [withRegion, quiet, partOf])

theorem queue_free (q : List Entry) (c : ClientId) : (withQueue q).free c :=
  free_of c rfl rfl (by simp [withQueue, withRegion, quiet, partOf])

theorem region_owns (r : Region) (h1 : r.state ≠ .filling) (h2 : r.state ≠ .releasing) (h3 : r.owner = 2) :
    (withRegion r).owns 2 h53 r :=
  ⟨by simp [Part.named, Part.region, Part.generation, withRegion, h53, h2], h1, h3,
    by simp [Part.client, withRegion, quiet, partOf, idleClient]⟩

theorem frame_partOf (f : FrameState) (x : FrameId) : (partOf f).frame x = ⟨f, none, false, 0, none, 0⟩ := by
  simp [partOf, Part.frame, Part.reset]

theorem frame_holding (g : Frame) (r : Region) (x : FrameId) :
    (holding g r).frame x = if 100 = x then g else ⟨.retired, none, false, 0, none, 0⟩ := by
  rw [holding, frame_modFrame]
  split
  · rfl
  · exact frame_partOf .retired x

theorem region_withRegion (r : Region) (s : SlotId) : (withRegion r).region s = if 5 = s then some r else none := by
  simp only [withRegion, Part.region, tget_tset]
  split
  · rfl
  · simp [quiet, partOf, Part.reset]

theorem region_holding (g : Frame) (r : Region) (s : SlotId) :
    (holding g r).region s = if 5 = s then some r else none := region_withRegion r s

theorem quiet_region (s : SlotId) : quiet.region s = none := by simp [quiet, partOf, Part.region, Part.reset]

theorem quiet_work (c : ClientId) : quiet.work c = none := by
  simp [quiet, partOf, Part.work, Part.client, idleClient]

theorem executing_serving (c : ClientId) (w : Work) : ((serving c w).client c).executing = some ⟨7, w⟩ := by
  simp [serving, Part.execute]

/-! ### WellFormed: an ill-formed term for each check -/

theorem test_wf_write_request : (Request.write (.region h53) 0 1 [7]).wf = false := by decide
theorem test_wf_write : (Instr.write 2 7 (.region h53) 0 1 [7]).wf = false := by decide
theorem test_wf_selector : (Instr.configureUnknownSelector 0 7 5 0 0).wf = false := by decide
theorem test_wf_line_read : (Instr.lineReadComplete 0 (List.replicate 65 .good)).wf = false := by decide
theorem test_wf_read_half : (Instr.copyReadHalfComplete 0 (List.replicate 65 .good)).wf = false := by decide
theorem test_wf_copy : (Instr.copyStepComplete 0 (List.replicate 65 .good)).wf = false := by decide
theorem test_wf_scrub : (Instr.scrubStepComplete 0 (List.replicate 65 .good)).wf = false := by decide
theorem test_wf_boundaries :
    (Instr.write 2 7 (.region h53) 0 0 []).wf = true ∧ (Instr.configureUnknownSelector 0 7 6 0 0).wf = true ∧
    (Instr.lineReadComplete 0 (List.replicate 64 .good)).wf = true := by decide

/-! ### Packets (11.2, 11.3): bytes written out from the manual's tables -/

theorem test_packet_grant :
    decodePacket 2 [16, 9, 4, 1, 1, 10, 0] = .request 2 9 (.command (.grant 4 .volatile (some 10))) := by decide
theorem test_packet_share :
    decodePacket 2 [20, 9, 5, 3, 4, 1, 1] = .request 2 9 (.command (.share (.region h53) 4 1 .readWrite)) := by decide
theorem test_packet_flush_all : decodePacket 2 [35, 9, 128, 0] = .request 2 9 (.flush .all) := by decide
theorem test_packet_read :
    decodePacket 2 [32, 9, 5, 3, 0, 4, 0, 0, 64] = .request 2 9 (.read (.region h53) 1024 64) := by decide
theorem test_packet_malformed :
    decodePacket 2 [] = .malformed 2 0 0 ∧ decodePacket 2 [7] = .malformed 2 7 0 ∧
    decodePacket 2 [4, 9] = .malformed 2 4 9 ∧ decodePacket 2 [22, 9, 192, 0] = .malformed 2 22 9 := by decide

/-- R188 at the ends of its ranges: handle kinds, lengths, closed codes. -/
theorem test_packet_forms :
    decodePacket 2 [22, 9, 63, 255] = .request 2 9 (.command (.lock (.region ⟨63, 255⟩))) ∧
    decodePacket 2 [22, 9, 71, 0] = .request 2 9 (.command (.lock (.batchRef 7))) ∧
    [[22, 9, 72, 0], [22, 9, 64, 1], [22, 9, 128, 0], [35, 9, 128, 1], [35, 9, 129, 0], [22, 9, 5], [1, 9, 0],
      [16, 9, 4, 2, 0, 0, 0], [16, 9, 4, 0, 2, 0, 0], [9, 9, 5, 0, 0], [3, 9, 0, 2, 0, 0, 0], [3, 9, 0, 0, 2, 0, 0],
      [3, 9, 0, 0, 1, 0, 2], [19, 9, 5, 3, 8], [20, 9, 5, 3, 0, 0, 2], [21, 9, 5, 3, 0, 8],
      [33, 9, 5, 3, 0, 0, 0, 0, 1]].all (fun x => match decodePacket 2 x with
        | .malformed c code tag => c == 2 && some code == x.head? && tag == 9
        | .request _ _ _ => false) = true ∧
    decodePacket 2 [3, 9, 0, 1, 0, 255, 255] = .request 2 9 (.notices 256 none) ∧
    decodePacket 2 [32, 9, 5, 3, 0, 0, 0, 0, 200] = .request 2 9 (.read (.region h53) 0 200) := by decide

/-! ### Small steps -/

theorem test_list : answers (.list 2 7) (withRegion sample) = some [[2, 27, 7, 0, 0, 1, 0, 5, 3]] := by
  decide +kernel
theorem test_resize_shrink :
    answers (.resize 2 7 (.region h53) 1) (withRegion sample) = some [[2, 18, 7, 0, 0, 1]] := by decide +kernel
theorem test_grant_reserve_short : answers (.grant 2 7 1 .keep none) quiet = some [[2, 16, 7, 23, 0]] := by
  decide +kernel
theorem test_write_posted :
    answers (.write 2 7 (.region h53) 0 1 (List.replicate 64 7)) (withRegion sample) = some [[2, 33, 7, 0, 0]] := by
  decide +kernel
theorem test_read_boundary :
    answers (.read 2 7 (.region h53) 1023 2) (withRegion sample) = some [[2, 32, 7, 13, 0]] := by decide +kernel
theorem test_dead_handle :
    answers (.lock 2 7 (.region ⟨5, 4⟩)) (withRegion sample) = some [[2, 22, 7, 10, 0]] := by decide +kernel
theorem test_lock : answers (.lock 2 7 (.region h53)) (withRegion sample) = some [[2, 22, 7, 0, 0]] := by
  decide +kernel
theorem test_denied : answers (.release 3 7 (.region h53)) (withRegion sample) = some [[3, 17, 7, 11, 0]] := by
  decide +kernel
theorem test_not_ready :
    answers (.attach 2 7) (Part.reset (Vector.replicate 4096 Frame.reset) .powerOn) = some [[2, 1, 7, 2, 0]] := by
  decide +kernel

/-- Every timer stands at n, and the next quarter ends a millisecond. -/
def ticking (n : Nat) : Part :=
  { (withRegion { sample with lease := some ⟨60, n⟩ }).modBank 3 fun k => { k with slotTimer := some n } with
    phase := 3
    power := ⟨.active, some n, 50, []⟩
    scrub := ⟨0, 0, none, some n, 24⟩ }
theorem test_tick_expiries :
    (tick (st (ticking 1))).pending = [.refreshSlotExpiry 3, .leaseExpiry 5, .idleTimerExpiry, .scrubIntervalExpiry] ∧
    (tick (st (ticking 2))).pending = [] := by decide +kernel
/-- An expiry whose timer was restarted does not happen (R41, R164; log 4). -/
theorem test_early_lease :
    exec (.leaseExpiry 5) (st (withRegion sample)) = .next (st (withRegion sample)) := by
  have h : (withRegion sample).leaseDue 5 = false := by decide +kernel
  simp [exec, execLeaseExpiry, st, h]
theorem test_early_idle : exec .idleTimerExpiry (st quiet) = .next (st quiet) := by
  have h : (quiet.running && quiet.power.idleTimer == some 0) = false := by decide +kernel
  show Host.Outcome.next (if (quiet.running && quiet.power.idleTimer == some 0) = true then _ else _) = _
  rw [h]
  rfl
/-- R111: a region whose pending extension would put the new owner above its quota is not handed over (log 26). -/
theorem test_handover_extension :
    answers (.handover 2 7 (.region h53) 3)
      { withRegion { sample with extension := some [7, 8] } with
        clients := tset quiet.clients 3 { idleClient with quota := 3 } } = some [[2, 19, 7, 22, 0]] := by decide +kernel
/-- R158, R115: the DONE of a RETIRE shows the RESERVE that its evaluation sets (log 27). -/
theorem test_retire_attention :
    answers (.retire 0 7 100) (holding heldFrame sample) = some [[0, 50, 7, 0, 1]] := by decide +kernel

/-! ### The hypotheses of the statements are met -/

theorem test_hyp_time :
    (st (ticking 1)).pending = [] ∧ (ticking 1).hold = none ∧ 3 ≤ (ticking 1).phase ∧
    (ticking 1).power.state = .active ∧ (ticking 1).region 5 = some { sample with lease := some ⟨60, 1⟩ } ∧
    sample.state = .live ∧ (1 : Nat) ≤ 1 ∧ quiet.phase < 3 ∧ quiet.region 5 = none ∧
    (withRegion (⟨.filling, 2, .keep, [], none, [], none, [], 0, none, none⟩)).region 5 ≠ none := by decide +kernel

theorem test_hyp_step : (⟨[.list 2 7], ⟨[], 0⟩, quiet⟩ : State).pending = .list 2 7 :: [] := rfl
theorem test_hyp_idle : State.reset.pending = [] ∧ (st { quiet with hold := some .pin }).part.hold ≠ none := by
  decide +kernel
theorem test_hyp_array_left : touchesArray (.attach 2 7) = false := rfl
theorem test_hyp_lines : (st quiet).part.linesFollow ∧ ∃ t, step (st quiet) = .next t :=
  ⟨by unfold Part.linesFollow; decide +kernel, _, rfl⟩
theorem test_hyp_array : (st quiet).storeWf ∧ ∃ t, step (st quiet) = .next t := ⟨by rfl, _, rfl⟩
theorem test_hyp_packets : (Request.write (.region h53) 0 1 (List.replicate 64 7)).wf = true := by decide
theorem test_hyp_close : quiet.queued = 0 := by decide +kernel

/-- Every operation, in the issuer's hands or given up, can be in progress: the hypotheses of the completion statements. -/
theorem test_hyp_completions (b : BankId) (op : BankOp) (live : Bool) :
    ((st (runningAt b op live)).part.bank b).running = some ⟨op, live⟩ := by simp [st, runningAt]
theorem test_hyp_drained :
    (withRegion { sample with state := .releasing, inUse := 1 }).region (entry 2 0 1).handle.slot =
      some { sample with state := .releasing, inUse := 1 } ∧
    (withRegion { sample with inUse := 2 }).region (entry 2 0 1).handle.slot = some { sample with inUse := 2 } := by
  decide +kernel
/-- READs whose wait set empties, keeps another entry, does not hold the entry that leaves; no READ. -/
theorem test_hyp_wait_set (v : Bool) :
    ((serving 2 (.read v ⟨h53, 8, 4⟩ (.ordering [8]))).client 2).executing = some ⟨7, .read v ⟨h53, 8, 4⟩ (.ordering [8])⟩ ∧
    h53.slot = (entry 3 8 1).handle.slot ∧ (8 ∈ [8] ∧ ([8].filter fun o => o != 8) = []) ∧
    (8 ∈ [8, 9] ∧ ([8, 9].filter fun o => o != 8) ≠ []) ∧ 8 ∉ [9] ∧
    ∀ verify a ws, quiet.work 2 ≠ some (.read verify a (.ordering ws)) :=
  ⟨executing_serving _ _, rfl, by decide, by decide, by decide, fun _ _ _ => by rw [quiet_work]; simp⟩
/-- A READ that meets a poisoned line, one whose entry is gone, and one of the last line of an entry. -/
theorem test_hyp_proceed (v : Bool) :
    ((serving 2 (.read v ⟨h53, 8, 4⟩ .wipeHold)).client 2).executing = some ⟨7, .read v ⟨h53, 8, 4⟩ .wipeHold⟩ ∧
    (serving 2 (.read v ⟨h53, 8, 4⟩ .wipeHold)).region h53.slot = some sample ∧
    [7, 11, 12].find? (inRange 8 4) = some 11 ∧ (∀ x ∈ [7, 12], ¬ (8 ≤ x ∧ x < 8 + 4)) ∧
    sample.frames[2047 / 1024]? = some 101 ∧ sample.frames[2048 / 1024]? = none :=
  ⟨executing_serving _ _, region_withRegion sample 5, by decide, by decide, rfl, rfl⟩
/-- A posting list whose second WRITE can be posted, one that has none, and WRITEs with and without a current frame. -/
theorem test_hyp_post_rounds :
    let p : Part := { (withRegion sample).execute 2 7 (.write ⟨h53, 2047, 1⟩ [] .posting) with posting := [3, 2] }
    p.posting = [3] ++ 2 :: [] ∧ (∀ d ∈ [3], p.postable d = false) ∧ p.postable 2 = true ∧
    (∀ c ∈ quiet.posting, quiet.postable c = false) ∧
    (p.client 2).executing = some ⟨7, .write ⟨h53, 2047, 1⟩ [] .posting⟩ ∧
    ¬ (sample.frames.length ≤ 2047 / 1024) ∧ sample.frames.length ≤ 2048 / 1024 ∧ p.region 5 = some sample := by
  decide +kernel
theorem test_hyp_drain_payload : 0 < (entry 2 0 1).payload.length ∧ 63 < (entry 2 0 1).payload.length := by decide
theorem test_hyp_copy : (100 : FrameId) ≠ 101 ∧ 0 < 16 ∧ 15 < 16 := by decide

/-- The part with a READ or VERIFY of four lines from line 8 issued. -/
def reading (verify : Bool) (poison : List Nat) : Part :=
  (withRegion { sample with poison := poison }).execute 2 7 (.read verify ⟨h53, 8, 4⟩ .issued)

theorem test_hyp_read_answer (verify : Bool) (poison : List Nat) :
    (reading verify poison).work 2 = some (.read verify ⟨h53, 8, 4⟩ .issued) ∧
    (reading verify poison).region 5 = some { sample with poison := poison } := by
  refine ⟨by simp [reading], ?_⟩
  simp [reading, Part.execute, withRegion, Part.region]
/-- A range with no bad line, and one whose lowest bad line is its last, poisoned, line. -/
theorem test_hyp_read_bad :
    (∀ x, ¬ (8 ≤ x ∧ x < 8 + 4 ∧ (conditionAt [] (x - 8) = .uncorrectable ∨ x ∈ ([] : List Nat)))) ∧
    (8 ≤ 11 ∧ 11 < 8 + 4 ∧ (conditionAt [] (11 - 8) = .uncorrectable ∨ 11 ∈ [11, 12])) ∧
    (∀ y, 8 ≤ y ∧ y < 8 + 4 ∧ (conditionAt [] (y - 8) = .uncorrectable ∨ y ∈ [11, 12]) → 11 ≤ y) := by
  refine ⟨?_, by decide, ?_⟩
  · simp [conditionAt]
  · simp only [conditionAt, List.getD_nil]
    rintro y ⟨_, _, h | h⟩
    · cases h
    · simp at h; omega

/-- The lines of a report and a frame that fails, passes, is doomed already, or stands nowhere. -/
theorem test_hyp_report :
    ((holding { heldFrame with corrected := 15 } sample).frame 100).state = .held ∧
    ((holding { heldFrame with corrected := 15 } sample).frame 100).doomed = false ∧
    (holding heldFrame sample).retire.threshold ≤ min 65535 (15 + 1) ∧ ¬ (holding heldFrame sample).retire.threshold ≤ 1 ∧
    (holding { heldFrame with doomed := true } sample).frame 100 = { heldFrame with doomed := true } ∧
    quiet.placeOf 100 = none ∧ (holding heldFrame sample).placeOf 100 = some ⟨5, sample, 0⟩ ∧
    100 ∉ (holding heldFrame sample).retire.queue ∧ (holding heldFrame sample).retire.queue.length < 16 ∧
    sample.state ≠ .releasing ∧ (conditionAt [.corrected] 0, conditionAt [.uncorrectable] 0) = (.corrected, .uncorrectable) ∧
    16 ∉ List.range 16 ∧ 16 ≤ (List.range 16).length ∧ 0 ∈ List.range 16 := by decide +kernel
/-- A fill with a CLAIMED frame, and the same one zeroed. -/
def filling (f : FrameState) (extension : Bool) : Part :=
  { holding { heldFrame with state := f }
      (if extension then { sample with extension := some [100] } else { sample with state := .filling }) with
    fills := [⟨5, extension⟩] }
theorem test_hyp_zeroing (b : Bool) :
    (filling .claimed b).fills = [] ++ (⟨5, b⟩ : Fill) :: [] ∧
    (filling .claimed b).fillClaimed ⟨5, b⟩ = [100] ∧ (filling .held b).fillClaimed ⟨5, b⟩ = [] ∧
    (partOf .dirty).fills = [] ∧ ((partOf .dirty).frame 0).state = .dirty ∧ (partOf .dirty).hold = none ∧
    (partOf .dirty).power.state = .active ∧ (partOf .dirty).zero.current = none ∧ (14 : Nat) < 15 ∧
    (asleep .standby).power.state ≠ .active := by revert b; decide +kernel
theorem test_hyp_fill_waits :
    ((serving 2 (.waiting (.fill 5))).client 2).executing = some ⟨7, .waiting (.fill 5)⟩ ∧
    ((serving 2 (.waiting (.extension 5))).client 2).executing = some ⟨7, .waiting (.extension 5)⟩ ∧
    (serving 2 (.waiting (.fill 5))).region 5 = some sample :=
  ⟨executing_serving _ _, executing_serving _ _, region_withRegion sample 5⟩
/-- A pending extension whose one frame is doomed, with n frames in the retire queue. -/
def extending (n : Nat) : Part :=
  { holding { heldFrame with doomed := true } { sample with frames := [101], extension := some [100] } with
    retire := ⟨List.replicate n 7, 0, 0, .idle, 16, 8⟩ }
theorem test_hyp_extension_joins (n : Nat) :
    (extending n).region 5 = some { sample with frames := [101], extension := some [100] } ∧
    sample.state ≠ .releasing ∧ [(100 : FrameId)].Nodup ∧
    (extending n).frame 100 = { heldFrame with doomed := true } ∧ heldFrame.state = .held ∧ heldFrame.region = some 5 ∧
    100 ∉ (extending n).retire.queue :=
  ⟨region_holding { heldFrame with doomed := true } _ 5, by decide, by decide, frame_holding { heldFrame with doomed := true } _ 100, rfl, rfl,
    fun h => absurd (List.mem_replicate.mp h).2 (by decide)⟩
/-- A doomed frame at the head of the retire queue. -/
def heading (e : EngineState) (r : Region) : Part :=
  { holding { heldFrame with doomed := true } r with retire := ⟨[100], 0, 0, e, 64, 0⟩ }
/-- The same with frame 101 in a state beside it. -/
def beside (f : FrameState) (r : Region) : Part := (heading .idle r).modFrame 101 fun g => { g with state := f }
theorem frame_beside (f : FrameState) (r : Region) (x : FrameId) : (beside f r).frame x =
    if 101 = x then ⟨f, none, false, 0, none, 0⟩ else if 100 = x then { heldFrame with doomed := true }
    else ⟨.retired, none, false, 0, none, 0⟩ := by
  have h : ∀ y, (heading .idle r).frame y = (holding { heldFrame with doomed := true } r).frame y := fun _ => rfl
  rw [beside, frame_modFrame]
  split
  · rw [h, frame_holding]; rfl
  · rw [h, frame_holding]
/-- Frame 101 is the lowest frame that fits, as SPARE or as FREE, and without it there is none. -/
theorem test_hyp_target (e : EngineState) :
    (heading e sample).retire.queue = 100 :: [] ∧ (heading e sample).retire.engine = e ∧
    (heading e sample).placeOf 100 = some ⟨5, sample, 0⟩ ∧
    (∀ x, ((heading e sample).frame x).state ≠ .spare ∧ ((heading e sample).frame x).state ≠ .free) ∧
    (∀ f : FrameState, f = .spare ∨ f = .free → ((beside f sample).frame 101).state = f ∧
      (tget (beside f sample).pool.segments (segmentOf 101)).cls = .unclaimed ∧
      ((beside f sample).frame 100).state = .held ∧
      (∀ x, x < 101 → ((beside f sample).frame x).state ≠ f)) ∧
    (∀ x, ((beside .free sample).frame x).state ≠ .spare) := by
  refine ⟨rfl, rfl, ?_, ?_, ?_, ?_⟩
  · cases e <;> decide +kernel
  · intro x
    have h : (heading e sample).frame x = (holding { heldFrame with doomed := true } sample).frame x := rfl
    rw [h, frame_holding]
    split <;> decide
  · rintro f hf
    refine ⟨by rw [frame_beside]; rfl, ?_, by rw [frame_beside]; rfl, ?_⟩
    · simp [beside, heading, holding, withRegion, quiet, partOf, Part.reset, Part.modFrame]
    · intro x hx
      have h1 : ¬ 101 = x := fun h => by subst h; exact absurd hx (lt_irrefl _)
      rw [frame_beside, if_neg h1]
      rcases hf with rfl | rfl <;> split <;> decide
  · intro x
    rw [frame_beside]
    split
    · decide
    · split <;> decide
/-- A doomed HELD frame of a frame list that is not in the queue waits, and it alone. -/
theorem test_hyp_waits (f : FrameId) :
    f ∈ [100] ↔ (((holding { heldFrame with doomed := true } sample).frame f).doomed = true ∧
      ((holding { heldFrame with doomed := true } sample).frame f).state = .held ∧
      f ∉ (holding { heldFrame with doomed := true } sample).retire.queue ∧
      ∃ x, (holding { heldFrame with doomed := true } sample).placeOf f = some x ∧ x.region.state ≠ .releasing) := by
  constructor
  · intro h
    rw [List.mem_singleton] at h
    subst h
    exact ⟨by decide +kernel, by decide +kernel, by decide +kernel, ⟨5, sample, 0⟩, by decide +kernel, by decide⟩
  · rintro ⟨h, _⟩
    rw [frame_holding] at h
    split at h
    · rename_i e
      simp [← e]
    · cases h
/-- Heads whose region has a WIPE, or is LOST. -/
theorem test_hyp_heads :
    (heading .idle { sample with wipe := some .waiting }).placeOf 100 =
      some ⟨5, { sample with wipe := some .waiting }, 0⟩ ∧
    (heading .idle { sample with state := .lost }).placeOf 100 = some ⟨5, { sample with state := .lost }, 0⟩ ∧
    sample.wipe = none := by decide +kernel
/-- The zeroing engine's frame in and out of service, and an evaluation that leaves the head. -/
theorem test_hyp_react :
    ({ quiet with zero := ⟨some 5, 3⟩ } : Part).zero.current = some 5 ∧ (quiet.frame 5).state = .retired ∧
    ((partOf .dirty).frame 5).state ≠ .retired ∧ (heading .idle sample).hold = none ∧
    (heading .idle sample).power.state = .active ∧ (heading .idle sample).retire.engine ≠ .copying ∧
    (heading .idle sample).refillQueue.evaluateHead.retire.queue = (heading .idle sample).refillQueue.retire.queue := by
  decide +kernel
/-- A migration at a cursor. -/
def copying (cursor : Nat) : Part :=
  { withRegion { sample with migration := some ⟨0, 100, 7, cursor⟩ } with retire := ⟨[100], 0, 0, .copying, 64, 0⟩ }
theorem test_hyp_copying (cursor : Nat) :
    (copying cursor).region 5 = some { sample with migration := some ⟨0, 100, 7, cursor⟩ } ∧
    (∀ u x, u < 5 → (copying cursor).region u = some x → x.migration = none) ∧
    (copying cursor).hold = none ∧ (copying cursor).power.state = .active ∧
    (copying cursor).retire.engine = .copying ∧ (100 : FrameId) ≠ 7 ∧ 896 + 64 < 1024 ∧ 1024 ≤ 960 + 64 := by
  have h : ∀ u, (copying cursor).region u =
      if 5 = u then some { sample with migration := some ⟨0, 100, 7, cursor⟩ } else none := region_withRegion _
  refine ⟨h 5, ?_, rfl, rfl, rfl, by decide, by decide, by decide⟩
  intro u x hu hx
  rw [h] at hx
  split at hx
  · rename_i e
    subst e
    exact absurd hu (lt_irrefl _)
  · cases hx

theorem test_hyp_lease :
    (withRegion { sample with lease := some ⟨60, 0⟩ }).hold = none ∧
    (withRegion { sample with lease := some ⟨60, 0⟩ }).power.state = .active ∧
    (withRegion { sample with lease := some ⟨60, 0⟩ }).region 5 = some { sample with lease := some ⟨60, 0⟩ } ∧
    (withRegion sample).region 5 = some sample ∧ sample.lease = some ⟨60, 5000⟩ ∧ sample.state = .live := by
  decide +kernel
/-- The part with the idle timer at 0. -/
def idleOver (p : Part) : Part := { p with power := ⟨.active, some 0, 50, []⟩ }
/-- The standby conditions hold in the idle part; each part of the list breaks one of them. -/
theorem test_hyp_standby :
    (idleOver quiet).hold = none ∧ (idleOver quiet).power.state = .active ∧
    (idleOver quiet).power.idleTimer = some 0 ∧ quiet.power.idleTimer ≠ some 0 ∧
    ((idleOver quiet).writeQueue = [] ∧
      (∀ slot r, (idleOver quiet).region slot = some r → r.state ≠ .filling ∧ r.extension = none ∧ r.wipe = none) ∧
      (∀ c x, (idleOver quiet).work c = some x →
        (∀ v a ph, x ≠ .read v a ph) ∧ (∀ a l ph, x ≠ .write a l ph) ∧ ∀ slot, x ≠ .flush slot) ∧
      (idleOver quiet).thermal.cls ≠ .freeze ∧ (idleOver quiet).thermal.cls ≠ .overheat) ∧
    (withQueue [entry 2 0 1]).writeQueue ≠ [] ∧
    (withRegion { sample with wipe := some .waiting }).region 5 = some { sample with wipe := some .waiting } ∧
    (serving 2 (.flush none)).work 2 = some (.flush none) := by
  refine ⟨rfl, rfl, rfl, by decide, ⟨rfl, ?_, ?_, by decide, by decide⟩, by decide, region_withRegion _ 5, ?_⟩
  · intro slot r h
    have := quiet_region slot
    rw [show (idleOver quiet).region slot = quiet.region slot from rfl, this] at h
    cases h
  · intro c x h
    have := quiet_work c
    rw [show (idleOver quiet).work c = quiet.work c from rfl, this] at h
    cases h
  · simp [serving]
theorem test_hyp_masks :
    (∀ c, (quiet.client c).queue = []) ∧
    ((withClient 0 { idleClient with queue := [⟨1, .list⟩] }).client 0).queue ≠ [] ∧
    ((quiet.modBank 0 fun k => { k with copy := some (.writeHalf 1 1024 0 [] []) }).bank 0).copy =
      some (.writeHalf 1 1024 0 [] []) ∧ (quiet.bank 0).copy = none := by decide +kernel
/-- The part with one HELD frame, and the scrub timer at 0 with its cursor before or behind it. -/
def scrubbing (f : FrameState) (cursor : FrameId) : Part :=
  { holding { heldFrame with state := f } sample with scrub := ⟨cursor, 0, none, some 0, 24⟩ }
theorem test_hyp_scrub (cursor : FrameId) :
    let fits : FrameState → FrameId → Prop := fun st f => ((scrubbing st cursor).frame f).state = .held ∧
      (∀ slot r m, (scrubbing st cursor).region slot = some r → r.migration = some m → m.source ≠ f) ∧
      (∀ slot r, ((scrubbing st cursor).frame f).region = some slot →
        (scrubbing st cursor).region slot = some r → r.state ≠ .lost)
    (scrubbing .held cursor).hold = none ∧ (scrubbing .held cursor).power.state = .active ∧
    (scrubbing .held cursor).scrub.timer = some 0 ∧ quiet.scrub.timer ≠ some 0 ∧
    (∀ f, fits .held f ↔ f = 100) ∧ (∀ f, ¬ fits .retired f) ∧ (100 : FrameId) ≤ 100 ∧ (100 : FrameId) < 101 := by
  have hf : ∀ st f, (scrubbing st cursor).frame f = (holding { heldFrame with state := st } sample).frame f :=
    fun _ _ => rfl
  have hr : ∀ st s r, (scrubbing st cursor).region s = some r → r = sample := by
    intro st s r h
    rw [show (scrubbing st cursor).region s = (withRegion sample).region s from rfl, region_withRegion] at h
    split at h
    · exact (Option.some.inj h).symm
    · cases h
  refine ⟨rfl, rfl, rfl, by decide, ?_, ?_, by decide, by decide⟩
  · intro f
    constructor
    · rintro ⟨h, _⟩
      rw [hf, frame_holding] at h
      split at h
      · rename_i e
        exact e.symm
      · cases h
    · rintro rfl
      refine ⟨by rw [hf, frame_holding]; rfl, ?_, ?_⟩
      · intro s r m h hm
        rw [hr _ _ _ h] at hm
        cases hm
      · intro s r _ h
        rw [hr _ _ _ h]
        decide
  · rintro f ⟨h, _⟩
    rw [hf, frame_holding] at h
    split at h <;> cases h
theorem test_hyp_scrub_steps : (14 : Nat) < 15 ∧ (15 : Nat) ≤ 15 ∧ (asleep .standby).power.state ≠ .active := by decide
theorem test_hyp_slot :
    (ticking 0).hold = none ∧ ((ticking 0).bank 3).slotTimer = some 0 ∧ ((ticking 1).bank 3).slotTimer ≠ some 0 := by
  decide +kernel
theorem test_hyp_sample :
    quiet.hold = none ∧ quiet.thermal.cls.update (clampTemperature 50) = quiet.thermal.cls ∧
    quiet.thermal.cls.update (clampTemperature 85) ≠ quiet.thermal.cls ∧
    (-41 : Int) < -40 ∧ (125 : Int) < 126 ∧ (-40 : Int) ≤ -40 ∧ (125 : Int) ≤ 125 := by decide +kernel
theorem test_thermal_boundaries :
    ThermalClass.update .freeze (-23) = .freeze ∧ ThermalClass.update .freeze (-22) = .cool ∧
    ThermalClass.update .cool 44 = .cool ∧ ThermalClass.update .cool 45 = .normal ∧
    ThermalClass.update .normal 84 = .normal ∧ ThermalClass.update .normal 105 = .overheat ∧
    ThermalClass.update .overheat 103 = .overheat ∧ ThermalClass.update .overheat 102 = .hot ∧
    ThermalClass.update .hot 42 = .cool ∧ ThermalClass.update .cool (-26) = .freeze := by decide
theorem test_hyp_waking :
    (asleep .standby).power.state = .standby ∧ ((asleep .standby).client 2).queue = [] ∧
    (asleep (.waking .standby)).power.state = .waking .standby ∧
    (asleep (.waking .down)).power.state = .waking .down ∧ (asleep (.waking .standby)).hold = none ∧
    [3].contains (segmentOf 96) = true ∧ [3].contains (segmentOf 95) = false ∧
    (withRegion { sample with cls := .volatile, migration := some ⟨0, 100, 7, 64⟩ }).region 5 =
      some { sample with cls := .volatile, migration := some ⟨0, 100, 7, 64⟩ } ∧
    (withRegion { sample with cls := .volatile }).region 5 = some { sample with cls := .volatile } ∧
    0 < quiet.pool.spareTarget ∧ (partOf .spare).pool.spareTarget ≤ (partOf .spare).pool.count .spare := by
  decide +kernel
/-- The part with an operation in progress at bank 0. -/
def busyWith (p : Part) (op : BankOp) : Part := p.modBank 0 fun k => { k with running := some ⟨op, true⟩ }
def zeroingAt : Part := { quiet with zero := ⟨some 96, 3⟩ }
def scrubbingAt (g : Frame) : Part := { holding g sample with scrub := ⟨101, 0, some (100, 4), none, 10⟩ }
/-- What the engines find at a wake: nothing, a frame to begin again or to give up, a step under way, a step to issue. -/
theorem test_hyp_resume :
    (quiet.zero.current = none ∧ quiet.scrub.current = none ∧ zeroingAt.zero.current = some 96 ∧
      [3].contains (segmentOf 96) = true ∧ [2].contains (segmentOf 96) = false ∧
      (∀ b, (zeroingAt.bank b).zero = none ∧ (zeroingAt.bank b).running = none)) ∧
    ((busyWith zeroingAt (.zeroStep 96 3)).zero.current = some 96 ∧
      ((busyWith zeroingAt (.zeroStep 96 3)).bank 0).running = some ⟨.zeroStep 96 3, true⟩) ∧
    ((scrubbingAt heldFrame).scrub.current = some (100, 4) ∧ (scrubbingAt heldFrame).scrubbable 100 = true ∧
      (scrubbingAt { heldFrame with state := .retired }).scrubbable 100 = false ∧
      (∀ b, ((scrubbingAt heldFrame).bank b).running = none)) ∧
    ((busyWith (scrubbingAt heldFrame) (.scrubStep 100 4)).scrubbable 100 = true ∧
      ((busyWith (scrubbingAt heldFrame) (.scrubStep 100 4)).bank 0).running = some ⟨.scrubStep 100 4, true⟩) ∧
    ((copying 64).migration = some (5, ⟨0, 100, 7, 64⟩) ∧
      (∀ b, ((copying 64).bank b).copy = none ∧ ((copying 64).bank b).running = none) ∧
      (busyWith (copying 64) (.copy (.whole 100 7 1))).migration = some (5, ⟨0, 100, 7, 64⟩) ∧
      ((busyWith (copying 64) (.copy (.whole 100 7 1))).bank 0).running = some ⟨.copy (.whole 100 7 1), true⟩) := by
  decide +kernel
theorem test_hyp_wake_frames (f : FrameState) (x : FrameId) :
    ((partOf f).frame x).state = f ∧ ∀ s r m, (partOf f).region s = some r → r.migration = some m → x ≠ m.source := by
  refine ⟨by rw [frame_partOf], ?_⟩
  intro s r m h
  have : (partOf f).region s = none := by simp [partOf, Part.region, Part.reset]
  rw [this] at h
  cases h
theorem test_hyp_release :
    ({ quiet with hold := some .pin } : Part).hold = some .pin ∧
    ({ quiet with hold := some .powerOn } : Part).hold = some .powerOn := by decide
theorem test_hyp_soft_reset : (st quiet).part.free 0 := quiet_free 0
theorem test_hyp_client_table :
    State.reset.part.hold = none ∧ State.reset.part.power.state = .initializing ∧
    (State.reset.part.client 2).queue = [] ∧ (State.reset.part.client 2).executing = none ∧
    (State.reset.part.client 2).evictionPending = false ∧ Request.attach.wf = true ∧ Request.identify.wf = true := by
  decide +kernel
theorem test_hyp_training :
    State.reset.part.hold = none ∧ State.reset.part.power.state = .initializing ∧
    State.reset.part.power.idleTimeout ≠ 0 := by decide +kernel
theorem test_hyp_packet :
    quiet.hold = none ∧ decodePacket 2 [4, 9] = .malformed 2 4 9 ∧ decodePacket 2 [1, 9] = .request 2 9 .attach ∧
    Request.attach.wf = true ∧
    ((withClient 2 { idleClient with queue := List.replicate 4 ⟨1, .list⟩ }).client 2).queue.length = 4 := by
  decide +kernel
/-- A queue of n requests, a request that is executing, an eviction pending; and heads to take. -/
theorem test_hyp_queues :
    4 ≤ ((withClient 2 { idleClient with queue := List.replicate 4 ⟨1, .list⟩ }).client 2).queue.length ∧
    ((withClient 2 { idleClient with queue := List.replicate 3 ⟨1, .list⟩ }).client 2).queue.length < 4 ∧
    ((withClient 2 { idleClient with queue := List.replicate 3 ⟨1, .list⟩ }).client 2).queue ≠ [] ∧
    ((serving 2 (.flush none)).client 2).executing ≠ none ∧ ((serving 2 (.flush none)).client 2).queue.length < 4 ∧
    ((withClient 2 { idleClient with evictionPending := true }).client 2).evictionPending = true ∧
    (asleep .standby).power.state = .standby ∧ (asleep (.waking .down)).power.state = .waking .down ∧
    (asleep .down).power.state = .down ∧ ((asleep .down).client 2).queue = [] ∧
    ((asleep .down).client 2).executing = none ∧ ((asleep .down).client 2).evictionPending = false ∧
    (∀ d, ((asleep .standby).client d).queue = []) ∧
    ((withClient 2 { idleClient with queue := [⟨1, .list⟩] }).client 2).queue = ⟨1, .list⟩ :: [] ∧
    (∀ d, d < 2 → ((withClient 2 { idleClient with queue := [⟨1, .list⟩] }).client d).queue = []) ∧
    (withClient 2 { idleClient with queue := [⟨1, .list⟩] }).power.state = .active := by decide +kernel
theorem test_hyp_attach :
    quiet.ready 2 ∧ (quiet.client 2).attached = true ∧
    (withClient 2 { idleClient with attached := false }).ready 2 ∧
    ((withClient 2 { idleClient with attached := false }).client 2).attached = false :=
  ⟨(quiet_free 2).toready, (quiet_free 2).attached, ⟨rfl, rfl, rfl, rfl, rfl⟩, rfl⟩
theorem test_hyp_refusals : quiet.ready 7 ∧ (quiet.client 7).attached = true ∧ (7 : ClientId) ≠ 0 :=
  ⟨(quiet_free 7).toready, (quiet_free 7).attached, by decide⟩
/-- The handles and owners that a command on a region can meet. -/
theorem test_hyp_common :
    (withClient 2 { idleClient with attached := false }).ready 2 ∧
    ((withClient 2 { idleClient with attached := false }).client 2).attached = false ∧
    ((withRegion sample).client 2).batch = none ∧ (withRegion sample).named ⟨5, 4⟩ = none ∧
    (withRegion { sample with state := .filling }).named h53 = some { sample with state := .filling } ∧
    (withRegion sample).named h53 = some sample ∧ sample.state ≠ .filling ∧ sample.owner ≠ 3 ∧
    commandHandle (.lock (.batchRef 0)) = some (.batchRef 0) ∧ commandHandle (.lock (.region h53)) = some (.region h53) :=
  ⟨⟨rfl, rfl, rfl, rfl, rfl⟩, by decide +kernel⟩
/-- The requests of a client that an eviction meets. -/
theorem test_hyp_evicted (v : Bool) :
    ((serving 2 (.write ⟨h53, 0, 1⟩ [] .posting)).client 2).executing = some ⟨7, .write ⟨h53, 0, 1⟩ [] .posting⟩ ∧
    ((serving 2 (.read v ⟨h53, 0, 1⟩ .wipeHold)).client 2).executing = some ⟨7, .read v ⟨h53, 0, 1⟩ .wipeHold⟩ ∧
    ((serving 2 (.read v ⟨h53, 0, 1⟩ .issued)).client 2).executing = some ⟨7, .read v ⟨h53, 0, 1⟩ .issued⟩ ∧
    ((serving 2 (.flush none)).client 2).executing = some ⟨7, .flush none⟩ ∧
    ((serving 0 (.evict 2)).client 0).executing = some ⟨7, .evict 2⟩ ∧ (serving 0 (.evict 2)).work 2 = none ∧
    ((serving 0 (.evict 2)).execute 2 7 (.read v ⟨h53, 0, 1⟩ .issued)).work 2 = some (.read v ⟨h53, 0, 1⟩ .issued) ∧
    (((serving 0 (.evict 2)).execute 2 7 (.read v ⟨h53, 0, 1⟩ .issued)).client 0).executing = some ⟨7, .evict 2⟩ := by
  revert v
  decide +kernel
/-- The completion: a BATCH_CLOSE, and what waits for a region of the evicted client. -/
theorem test_hyp_eviction_ends :
    (2 : ClientId) ≠ 0 ∧ ((serving 2 (.batchClose [])).client 2).executing = some ⟨7, .batchClose []⟩ ∧
    (serving 2 (.flush none)).work 2 = some (.flush none) ∧ (withRegion sample).region 5 = some sample ∧
    sample.owner = 2 ∧ sample.state ≠ .releasing ∧
    ((withRegion { sample with state := .releasing, inUse := 1 }).departs 2).region 5 =
      some { sample with state := .releasing, inUse := 1 } ∧
    (∀ x : Wait, ((serving 2 (.waiting x)).client 2).executing = some ⟨7, .waiting x⟩ ∧
      (serving 2 (.waiting x)).region 5 = some sample) ∧
    (5 : SlotId) ∈ (List.finRange 64).filter fun x => match (withRegion sample).region x with
      | some r => r.owner == 2 && r.state != .releasing
      | none => false :=
  ⟨by decide, executing_serving 2 _, work_executing (executing_serving 2 _), region_withRegion sample 5, rfl, by decide,
    by decide +kernel, fun x => ⟨executing_serving 2 (.waiting x), region_withRegion sample 5⟩, by decide +kernel⟩
/-- An eviction releases the region, aborts the close, and answers EVICT last. -/
theorem test_evict_completes :
    let p := ((serving 0 (.evict 2)).execute 2 9 (.batchClose [])).testEviction
    p.region 5 = none ∧ p.tx.map (fun r => (r.client, r.code, r.tag, r.status)) =
      [(2, 41, 9, .aborted), (0, 49, 7, .done)] := by decide +kernel
/-- Client 2's BATCH_CLOSE has WIPEs pending on slots 5 and 6; client 3's WRITE to slot 6 was taken before client 4's to slot 5. -/
def wiping : Part :=
  let r : Region := { sample with wipe := some (.zeroing 0 0), inUse := 1, access := [⟨0, 7, .readWrite⟩] }
  let held (s : SlotId) : Work := .write ⟨⟨s, 3⟩, 0, 1⟩ (List.replicate 64 0) .wipeHold
  let p := (((serving 0 (.evict 2)).execute 2 9
    (.batchClose [⟨.done, none, some (.wipe 5)⟩, ⟨.done, none, some (.wipe 6)⟩])).execute 3 1 (held 6)).execute 4 1 (held 5)
  { p with slots := tset (tset p.slots 5 ⟨3, some r⟩) 6 ⟨3, some { r with frames := [102, 103] }⟩, wipeHold := [3, 4] }
/-- R91: the WRITEs that the eviction's releases let go are posted in the order they were taken, across the regions. -/
theorem test_evict_joins_as_taken :
    wiping.testEviction.writeQueue.map (·.client) = [3, 4] ∧ wiping.testEviction.wipeHold = [] ∧
    wiping.testEviction.tx.map (fun r => (r.client, r.code, r.tag, r.status)) =
      [(2, 41, 9, .aborted), (3, 33, 1, .done), (4, 33, 1, .done), (0, 49, 7, .done)] := by decide +kernel
/-- Releases of one act: no region, a RELEASING one, one to release. -/
theorem test_hyp_releases_of_one_act :
    quiet.region 5 = none ∧
    (withRegion { sample with state := .releasing, inUse := 1 }).region 5 =
      some { sample with state := .releasing, inUse := 1 } ∧
    (withRegion sample).region 5 = some sample ∧ sample.state ≠ .releasing ∧ sample.inUse = 0 ∧
    (∀ d ∈ (withRegion sample).wipeHold, (withRegion sample).accessSlot d ≠ some h53.slot) :=
  ⟨quiet_region 5, region_withRegion _ 5, region_withRegion _ 5, by decide, rfl, by
    simp [withRegion, quiet, partOf, Part.reset]⟩
theorem test_hyp_evict :
    quiet.free 0 ∧ (0 : Byte).toNat = 0 ∧ 7 < (8 : Byte).toNat ∧ (7 : Byte) = BitVec.ofNat 8 (7 : ClientId).val ∧
    (7 : ClientId) ≠ 0 ∧ (quiet.client 7).attached = true ∧
    (withClient 2 { idleClient with attached := false }).free 0 ∧
    ((withClient 2 { idleClient with attached := false }).client 2).attached = false :=
  ⟨quiet_free 0, rfl, by decide, by decide, by decide, (quiet_free 7).attached, free_of 0 rfl rfl rfl, rfl⟩
theorem test_hyp_health :
    quiet.free 2 ∧ (4095 : Half).toNat < 4096 ∧ 4096 ≤ (4096 : Half).toNat ∧ (127 : Half).toNat < 128 ∧
    128 ≤ (128 : Half).toNat := ⟨quiet_free 2, by decide⟩
/-- The part with a migration in flight, a frame that waits doomed and holds the largest count. -/
theorem test_hyp_report_pages :
    (∀ f, f ∉ [] ↔ (quiet.frame f).doomed = false) ∧ (∀ s, quiet.region s = none) ∧
    (copying 64).region 5 = some { sample with migration := some ⟨0, 100, 7, 64⟩ } ∧
    (copying 64).retire.queue.findIdx? (· == 100) = some 0 ∧
    ((holding { heldFrame with corrected := 5 } sample).frame 100).corrected = 5 ∧
    (∀ f, f ≠ 100 → ((holding { heldFrame with corrected := 5 } sample).frame f).state = .retired) := by
  refine ⟨fun f => ?_, quiet_region, by decide +kernel, by decide, by decide +kernel, fun f h => ?_⟩
  · simp [quiet, frame_partOf]
  · rw [frame_holding, if_neg (fun e => h e.symm)]
theorem test_hyp_retired : quiet.free 2 ∧ 4095 < (4096 : Half).toNat ∧ (4095 : Half).toNat ≤ 4095 :=
  ⟨quiet_free 2, by decide⟩

/-- A part without a spare target whose frames are RETIRED but for the first four. -/
def granting (f : FrameState) : Part :=
  { quiet with pool := { quiet.pool with
      frames := [0, 1, 2, 3].foldl (fun v i => tset v i ⟨f, none, false, 0, none, 0⟩) quiet.pool.frames
      spareTarget := 0 } }
theorem granting_free (f : FrameState) (c : ClientId) : (granting f).free c :=
  free_of c rfl rfl (by simp [granting, quiet, partOf])
theorem test_hyp_grant_refused :
    quiet.free 2 ∧ (quiet.client 2).batch = none ∧ quiet.judgeGrant 2 0 none = some .tooLarge ∧
    quiet.judgeGrant 2 129 none = some .tooLarge ∧ quiet.judgeGrant 2 128 (some 3601) = some .badValue ∧
    quiet.judgeGrant 2 1 (some 3600) = some .reserveShort := ⟨quiet_free 2, by decide +kernel⟩
theorem test_hyp_grant_no_frames :
    (granting .retired).judgeGrant 2 1 none = none ∧
    ((granting .retired).pool.candidates .free .keep).length +
      ((granting .retired).pool.candidates .dirty .keep).length < 1 := by decide +kernel
theorem test_hyp_grant :
    (granting .free).free 2 ∧ ((granting .free).client 2).batch = none ∧ (granting .free).judgeGrant 2 3 none = none ∧
    (granting .free).region 0 = none ∧ (∀ t, t < 5 → (withRegion sample).region t = none) ∧
    ({ quiet with slots := tset quiet.slots 0 ⟨3, some sample⟩ } : Part).region 1 = none ∧
    ({ quiet with slots := tset quiet.slots 0 ⟨3, some sample⟩ } : Part).region 0 ≠ none ∧
    ((granting .free).pool.allocate 3 .keep 0).map (·.fill) = some false ∧
    ((granting .dirty).pool.allocate 3 .keep 0).map (·.fill) = some true :=
  ⟨granting_free .free 2, by decide +kernel⟩
theorem test_hyp_claims : quiet.pool.claimsAgree := by
  intro g
  have h : indices (fun f x => x.state.counted && segmentOf f == g) quiet.pool.frames = [] := by
    rw [List.eq_nil_iff_forall_not_mem]
    intro f hf
    rw [mem_indices] at hf
    simp [quiet, partOf, Part.reset, FrameState.counted] at hf
  rw [Pool.countedIn, h]
  simp [quiet, partOf, Part.reset]
theorem test_hyp_claims_step : ∃ t, step (st quiet) = .next t := ⟨_, rfl⟩
theorem test_hyp_frame_states : FrameState.counted .held = true ∧ FrameState.counted .dirty = false := by decide
theorem test_hyp_owner : (withRegion sample).free 2 ∧ (withRegion sample).owns 2 h53 sample :=
  ⟨region_free sample 2, region_owns sample (by decide) (by decide) rfl⟩
/-- Releases: with a migration, with a pending extension, of a region in use and of one that nothing uses; what waits. -/
theorem test_hyp_releases :
    (withRegion { sample with migration := some ⟨0, 100, 7, 0⟩ }).owns 2 h53
      { sample with migration := some ⟨0, 100, 7, 0⟩ } ∧
    (withRegion { sample with extension := some [7, 8] }).owns 2 h53 { sample with extension := some [7, 8] } ∧
    ([7, 8] : List FrameId).Nodup ∧
    (withRegion { sample with state := .releasing, inUse := 1 }).region 5 =
      some { sample with state := .releasing, inUse := 1 } ∧
    (withRegion { sample with state := .releasing }).region 5 = some { sample with state := .releasing } ∧
    sample.frames.Nodup ∧
    (∀ x : Wait, ((serving 2 (.waiting x)).client 2).executing = some ⟨7, .waiting x⟩) :=
  ⟨region_owns _ (by decide) (by decide) rfl, region_owns _ (by decide) (by decide) rfl, by decide,
    region_withRegion _ 5, region_withRegion _ 5, by decide, fun x => executing_serving 2 (.waiting x)⟩
/-- Releases of a region with both a migration and a pending extension. -/
theorem test_hyp_release_both :
    (withRegion { sample with migration := some ⟨0, 100, 7, 0⟩, extension := some [8, 9] }).owns 2 h53
      { sample with migration := some ⟨0, 100, 7, 0⟩, extension := some [8, 9] } ∧
    (7 : FrameId) ∉ (some [8, 9] : Option (List FrameId)).getD [] ∧ (8 : FrameId) ≠ 7 ∧ ([8, 9] : List FrameId).Nodup :=
  ⟨region_owns _ (by decide) (by decide) rfl, by decide⟩
/-- The part with the region and frames to grow into. -/
def growing (f : FrameState) : Part := { granting f with slots := tset quiet.slots 5 ⟨3, some sample⟩ }
theorem test_hyp_grow (f : FrameState) : (growing f).free 2 ∧ (growing f).owns 2 h53 sample :=
  ⟨free_of 2 rfl rfl (by simp [growing, granting, quiet, partOf]), rfl, by decide, rfl, rfl⟩
theorem test_hyp_resize :
    sample.state = .live ∧ sample.extension = none ∧ (2 : Byte).toNat = sample.frames.length ∧
    (1 : Byte).toNat < sample.frames.length ∧ sample.frames.length < (3 : Byte).toNat ∧
    (growing .free).thermalLimit = false ∧ (growing .free).pool.shortfall = false ∧
    (growing .free).heldFrames 2 + (3 - 2) ≤ ((growing .free).client 2).quota ∧
    ((growing .free).pool.allocate (3 - 2) .keep 5).map (·.fill) = some false ∧
    ((growing .dirty).pool.allocate (3 - 2) .keep 5).map (·.fill) = some true := by
  decide +kernel
theorem test_hyp_resize_refused :
    (withRegion { sample with extension := some [7] }).owns 2 h53 { sample with extension := some [7] } ∧
    (growing .free).judgeGrow sample 129 = some .tooLarge ∧ (growing .retired).judgeGrow sample 3 = none ∧
    ((growing .retired).pool.allocate 1 .keep 5).isNone = true ∧ (2 : Byte) ≠ 0 :=
  ⟨region_owns _ (by decide) (by decide) rfl, by decide +kernel⟩
/-- A WRITE that can be posted behind an entry. -/
def writing : Part :=
  { (withQueue [entry 3 0 8]).execute 2 7 (.write ⟨h53, 8, 1⟩ (List.replicate 64 7) .posting) with posting := [2] }
/-- A region of two frames, its second one read by a LINE READ that no bank has accepted. -/
def cutting : Part :=
  ((withRegion sample).execute 2 7 (.read false ⟨h53, 1030, 4⟩ .issued)).modBank 0 fun k =>
    { k with reads := [⟨2, 101, 6, 4⟩] }
theorem test_hyp_shrink :
    cutting.region 5 = some sample ∧ sample.state = .live ∧ 1 < sample.frames.length ∧
    (∀ u x, cutting.region u = some x → x.state ≠ .releasing) ∧
    (∀ f u x, cutting.region u = some x → x.state = .releasing → f ∉ x.frames) ∧
    (withRegion { sample with migration := some ⟨1, 101, 7, 64⟩ }).region 5 =
      some { sample with migration := some ⟨1, 101, 7, 64⟩ } ∧
    (sample.frames.drop 1).Nodup ∧ (cutting.client 2).executing = some ⟨7, .read false ⟨h53, 1030, 4⟩ .issued⟩ ∧
    1024 * 1 < 1030 + 4 ∧ cutting.readWaits 2 = true := by
  have none : ∀ u x, cutting.region u = some x → x.state ≠ .releasing := by
    intro u x h
    rw [show cutting.region u = (withRegion sample).region u from rfl, region_withRegion] at h
    split at h
    · rw [← Option.some.inj h]
      decide
    · cases h
  exact ⟨region_withRegion _ 5, rfl, by decide, none, fun _ u x h e => absurd e (none u x h), region_withRegion _ 5,
    by decide, executing_serving 2 _, by decide, by decide +kernel⟩
/-- A shrink to one entry that discards no entry and refuses no access: the queue, a WRITE and a READ stay below the cut. -/
theorem test_hyp_shrink_keeps_uses :
    let p : Part := ((writing.execute 3 7 (.read false ⟨h53, 1020, 4⟩ .issued)).modBank 0 fun k =>
      { k with reads := [⟨3, 100, 1020, 4⟩] })
    p.region 5 = some sample ∧ (∀ e ∈ p.writeQueue, e.handle.slot = 5 → e.offset / 1024 < 1) ∧
    (p.work 2 = some (.write ⟨h53, 8, 1⟩ (List.replicate 64 7) .posting) ∧ 8 / 1024 < 1) ∧
    (p.work 3 = some (.read false ⟨h53, 1020, 4⟩ .issued) ∧ p.readWaits 3 = true ∧ 1020 + 4 ≤ 1024 * 1) ∧
    ∀ c, c ≠ 2 → c ≠ 3 → p.work c = none := by decide +kernel
/-- The READ that a cut refuses, on the region as cut, and one that it leaves. -/
theorem test_hyp_cut_read :
    let p : Part := ((withRegion { sample with frames := [100] }).execute 2 7 (.read false ⟨h53, 1030, 4⟩ .issued)).modBank 0
      fun k => { k with reads := [⟨2, 101, 6, 4⟩] }
    p.region 5 = some { sample with frames := [100] } ∧
    (p.client 2).executing = some ⟨7, .read false ⟨h53, 1030, 4⟩ .issued⟩ ∧ 1024 * 1 < 1030 + 4 ∧ p.readWaits 2 = true ∧
    p.work 3 = none := by decide +kernel
/-- The part with the region and client 3 in another condition. -/
def besides (k : Client) : Part := { withRegion sample with clients := tset quiet.clients 3 k }
theorem test_hyp_besides (k : Client) : (besides k).free 2 ∧ (besides k).owns 2 h53 sample :=
  ⟨free_of 2 rfl rfl (by simp [besides, quiet, partOf, tget_tset]), rfl, by decide, rfl,
    by simp [besides, Part.client, quiet, partOf, tget_tset, idleClient]⟩
theorem test_hyp_handover :
    ((besides { idleClient with attached := false }).client 3).attached = false ∧
    ((besides idleClient).client 3).attached = true ∧ ((besides idleClient).client 2).attached = true ∧
    (3 : ClientId) ≠ 2 ∧
    (besides idleClient).heldFrames 3 + (sample.frames.length + (sample.extension.getD []).length) ≤
      ((besides idleClient).client 3).quota ∧
    ((besides { idleClient with quota := 1 }).client 3).quota <
      (besides { idleClient with quota := 1 }).heldFrames 3 +
        (sample.frames.length + (sample.extension.getD []).length) := by decide +kernel
/-- The region in another state with an access list. -/
def shared (s : RegionState) (l : List AccessEntry) : Region := { sample with state := s, access := l }
theorem test_hyp_shared (s : RegionState) (l : List AccessEntry) (h1 : s ≠ .filling) (h2 : s ≠ .releasing) :
    (withRegion (shared s l)).free 2 ∧ (withRegion (shared s l)).owns 2 h53 (shared s l) :=
  ⟨region_free _ 2, region_owns _ h1 h2 rfl⟩
theorem test_hyp_share :
    (shared .locked []).state = .locked ∧
    (∃ e ∈ (shared .live [⟨4, 1, .read⟩]).access, e.base = 4 ∧ e.mask = 1) ∧
    (∀ e ∈ (shared .live [⟨4, 1, .read⟩, ⟨0, 0, .read⟩, ⟨1, 0, .read⟩]).access, ¬ (e.base = 5 ∧ e.mask = 0)) ∧
    (shared .live [⟨4, 1, .read⟩, ⟨0, 0, .read⟩, ⟨1, 0, .read⟩]).access.length < 4 ∧
    (∀ e ∈ (shared .live [⟨4, 1, .read⟩, ⟨0, 0, .read⟩, ⟨1, 0, .read⟩, ⟨3, 0, .read⟩]).access,
      ¬ (e.base = 5 ∧ e.mask = 0)) ∧
    4 ≤ (shared .live [⟨4, 1, .read⟩, ⟨0, 0, .read⟩, ⟨1, 0, .read⟩, ⟨3, 0, .read⟩]).access.length := by decide
/-- Regions for LOCK, UNLOCK and WIPE: VOLATILE, extended, LOCKED, FAULTED, LOST. -/
theorem test_hyp_lock :
    (withRegion { sample with cls := .volatile }).owns 2 h53 { sample with cls := .volatile } ∧
    (withRegion { sample with extension := some [7] }).owns 2 h53 { sample with extension := some [7] } ∧
    (withRegion (shared .locked [⟨4, 1, .read⟩])).owns 2 h53 (shared .locked [⟨4, 1, .read⟩]) ∧
    (withRegion (shared .live [⟨4, 1, .readWrite⟩])).owns 2 h53 (shared .live [⟨4, 1, .readWrite⟩]) ∧
    (withRegion (shared .faulted [])).owns 2 h53 (shared .faulted []) ∧
    (withRegion (shared .lost [])).owns 2 h53 (shared .lost []) :=
  ⟨region_owns _ (by decide) (by decide) rfl, region_owns _ (by decide) (by decide) rfl,
    region_owns _ (by decide) (by decide) rfl, region_owns _ (by decide) (by decide) rfl,
    region_owns _ (by decide) (by decide) rfl, region_owns _ (by decide) (by decide) rfl⟩
/-- WIPEs whose wait is over and is not, and steps inside an entry, at its end and past the last entry. -/
theorem test_hyp_wipe_steps :
    (withRegion { sample with wipe := some .waiting }).region 5 = some { sample with wipe := some .waiting } ∧
    (withRegion { sample with wipe := some .waiting }).wipeReady 5 = true ∧
    (withQueue [entry 2 0 1]).wipeReady 5 = false ∧
    (serving 2 (.read true ⟨h53, 8, 4⟩ .issued)).wipeReady 5 = false ∧
    (serving 2 (.read true ⟨h53, 8, 4⟩ .wipeHold)).wipeReady 5 = true ∧
    (withRegion { sample with wipe := some (.zeroing 0 14) }).region 5 = some { sample with wipe := some (.zeroing 0 14) } ∧
    (withRegion { sample with wipe := some (.zeroing 0 15) }).region 5 = some { sample with wipe := some (.zeroing 0 15) } ∧
    (14 < 15 ∧ 15 ≤ 15 ∧ 0 + 1 < sample.frames.length) ∧ sample.frames[1]? = some 101 ∧ sample.frames[2]? = none := by
  decide +kernel
/-- A migration of the region with a SPARE frame 200 that fits, and with none. -/
def settling (f : FrameState) : Part := (copying 64).modFrame 200 fun g => { g with state := f }
theorem test_hyp_settle (f : FrameState) :
    let x := (settling f).abortMigration 5 .dirty
    (settling f).region 5 = some { sample with migration := some ⟨0, 100, 7, 64⟩ } ∧ (200 : FrameId) ≠ 100 ∧
    (x.frame 200).state = f ∧ (tget x.pool.segments (segmentOf 200)).cls = .unclaimed ∧
    (∀ u, u ≠ 200 → (x.frame u).state ≠ .spare) := by
  intro x
  have hr : (settling f).region 5 = some { sample with migration := some ⟨0, 100, 7, 64⟩ } := by
    rw [settling, region_modFrame]
    exact (test_hyp_copying 64).1
  have hc : ∀ u, (copying 64).frame u = ⟨.retired, none, false, 0, none, 0⟩ := frame_partOf .retired
  have hs : ∀ u, (settling f).frame u =
      if 200 = u then ⟨f, none, false, 0, none, 0⟩ else ⟨.retired, none, false, 0, none, 0⟩ := by
    intro u
    rw [settling, frame_modFrame]
    split <;> rw [hc]
  have hx : x.pool = (settling f).pool.leave 7 .dirty := by
    show ((settling f).abortMigration 5 .dirty).pool = _
    unfold Part.abortMigration
    rw [hr]
    simp only [Option.bind_some]
    rw [reach_stopCopying]
  have hf : ∀ u, x.frame u = if 7 = u then { (settling f).frame 7 with state := .dirty, region := none, doomed := false }
      else (settling f).frame u := by
    intro u
    show tget x.pool.frames u = _
    rw [hx, frame_leave]
    split <;> rfl
  refine ⟨hr, by decide, ?_, ?_, ?_⟩
  · rw [hf, if_neg (by decide), hs, if_pos rfl]
  · rw [hx]
    have hg : ∀ g, tget (settling f).pool.segments g = ⟨.unclaimed, 0⟩ := by
      intro g
      simp [settling, copying, withRegion, quiet, partOf, Part.reset, Part.modFrame]
    unfold Pool.leave
    simp only
    split
    · rw [tget_tmod]
      split <;> simp [hg, Segment.drop]
    · rw [hg]
  · intro u hu
    rw [hf]
    split
    · simp
    · rw [hs, if_neg (fun e => hu e.symm)]
      simp
/-- Accesses that leave wipe hold: a READ with and without an entry to wait for, and a WRITE. -/
theorem test_hyp_leave_hold :
    let p : Part := (withQueue [entry 3 11 1]).execute 2 7 (.read false ⟨h53, 8, 4⟩ .wipeHold)
    (p.client 2).executing = some ⟨7, .read false ⟨h53, 8, 4⟩ .wipeHold⟩ ∧ p.waitSet ⟨h53, 8, 4⟩ = [11] ∧
    p.waitSet ⟨h53, 12, 4⟩ = [] ∧
    ((serving 2 (.write ⟨h53, 8, 1⟩ [] .wipeHold)).client 2).executing = some ⟨7, .write ⟨h53, 8, 1⟩ [] .wipeHold⟩ := by
  decide +kernel
theorem test_hyp_wipe_end :
    (withRegion { sample with wipe := some (.zeroing 1 15) }).region 5 =
      some { sample with wipe := some (.zeroing 1 15) } ∧ sample.frames.length ≤ 1 + 1 := by decide +kernel
theorem test_hyp_renew :
    (withRegion { sample with lease := none }).owns 2 h53 { sample with lease := none } ∧ sample.lease ≠ none :=
  ⟨region_owns _ (by decide) (by decide) rfl, by decide⟩
/-- RENEW with a batch open, and what it can meet. -/
def renewing (r : Region) : Part := { withRegion r with clients := tset quiet.clients 2 { idleClient with batch := some [] } }
theorem test_hyp_renew_batched (r : Region) :
    (renewing r).free 2 ∧ ((renewing r).client 2).batch = some [] ∧
    (renewing sample).named h53 = some sample ∧ (renewing sample).named ⟨5, 4⟩ = none ∧ sample.state ≠ .filling ∧
    sample.owner = 2 ∧ sample.owner ≠ 3 ∧ (renewing sample).free 3 ∧
    (renewing { sample with state := .filling }).named h53 = some { sample with state := .filling } ∧
    (renewing { sample with lease := none }).named h53 = some { sample with lease := none } :=
  ⟨⟨⟨rfl, rfl, rfl, rfl, rfl⟩, rfl⟩, rfl, rfl, by decide +kernel, by decide, rfl, by decide, free_of 3 rfl rfl (by simp [renewing, quiet, partOf, tget_tset]),
    rfl, rfl⟩
/-- Batch references at both ends of their range. -/
theorem test_batch_references :
    answers (.renew 2 7 (.batchRef 7)) (renewing sample) = some [[2, 25, 7, 10, 0]] ∧
    answers (.describe 2 7 (.batchRef 0) 0) quiet = some [[2, 26, 7, 10, 0]] ∧
    answers (.describe 2 7 (.batchRef 7) 255) quiet = some [[2, 26, 7, 10, 0]] ∧
    answers (.read 2 7 (.batchRef 7) 0 1) quiet = some [[2, 32, 7, 10, 0]] ∧
    answers (.renew 2 7 (.region h53)) (renewing sample) = some [[2, 25, 7, 0, 0]] := by decide +kernel
theorem test_hyp_describe :
    (withRegion sample).named h53 = some sample ∧ (withRegion sample).named ⟨5, 4⟩ = none ∧
    (2 : ClientId) = sample.owner ∧ ¬ ((3 : ClientId) = sample.owner ∨ sample.inMatchSet 3 = true ∨ (3 : ClientId) = 0) ∧
    1 < (2 : Byte).toNat ∧ (1 : Byte).toNat = 1 ∧ (0 : Byte).toNat = 0 := by decide +kernel
/-- A range that passes the checks up to its last line, for reading and writing. -/
theorem test_hyp_access :
    (match (withRegion sample).judgeAccess 2 (.region h53) false (1984 : Long).toNat (64 : Byte).toNat with
      | .ok x => x = (h53, sample) | .error _ => False) ∧
    (match (withRegion sample).judgeAccess 2 (.region h53) true (1984 : Long).toNat (64 : Byte).toNat with
      | .ok x => x = (h53, sample) | .error _ => False) ∧
    (withRegion sample).waitSet ⟨h53, 1984, 64⟩ = [] ∧ sample.frames[1984 / 1024]? = some 101 ∧
    sample.wipe = none ∧ (withQueue [entry 2 2000 1]).waitSet ⟨h53, 1984, 64⟩ = [2000] ∧
    ([1983, 2047, 2048].find? (inRange 1984 64) = some 2047) := ⟨rfl, rfl, by decide +kernel⟩
theorem test_hyp_access_queue (q : List Entry) (c : ClientId) :
    (withQueue q).free c ∧ c ∉ (withQueue q).posting ∧ (∀ d ∈ (withQueue q).posting, (withQueue q).postable d = false) :=
  ⟨queue_free q c, by simp [withQueue, withRegion, quiet, partOf, Part.reset],
    by simp [withQueue, withRegion, quiet, partOf, Part.reset]⟩
theorem test_hyp_write :
    (List.replicate 64 (7 : Byte)).length = 64 * (1 : Byte).toNat ∧ (withQueue [entry 2 0 1]).writeQueue.length < 32 ∧
    32 ≤ (withQueue (List.replicate 32 (entry 2 0 1))).writeQueue.length := by decide
theorem test_hyp_flush :
    (∀ e ∈ (withQueue [entry 3 0 1]).writeQueue, e.client ≠ 2) ∧
    (∃ e ∈ (withQueue [entry 2 0 1]).writeQueue, e.client = 2 ∧ e.handle.slot = h53.slot) ∧
    (withQueue [entry 2 0 1]).named h53 = some sample ∧ sample.grade 2 ≠ .none ∧ sample.state ≠ .filling ∧
    (withRegion { sample with state := .filling }).named h53 = some { sample with state := .filling } ∧
    (withRegion sample).named ⟨5, 4⟩ = none ∧ sample.grade 3 = .none ∧
    ((serving 2 (.flush none)).client 2).executing = some ⟨7, .flush none⟩ ∧
    (∀ e ∈ (serving 2 (.flush none)).writeQueue, e.client ≠ 2) := by
  decide +kernel
theorem test_hyp_checks :
    (withRegion sample).named ⟨4, 3⟩ = none ∧ (sample.grade 3).mayRead = false ∧
    1024 * sample.frames.length < 1985 + 64 ∧ 1984 + 64 ≤ 1024 * sample.frames.length ∧
    (0 < 1 ∧ 64 < 65 ∧ 1 ≤ 64) ∧ 1023 / 1024 ≠ (1023 + 2 - 1) / 1024 ∧ 1022 / 1024 = (1022 + 2 - 1) / 1024 := by
  decide +kernel
/-- Refused accesses: too long for the region, and a WRITE of a LOCKED one by a reader. -/
theorem test_hyp_refused_access :
    (match (withRegion sample).judgeAccess 2 (.region h53) false (1985 : Long).toNat (64 : Byte).toNat with
      | .ok _ => False | .error x => x = .badRange) ∧
    (match (withRegion (shared .locked [⟨3, 0, .read⟩])).judgeAccess 2 (.region h53) true (0 : Long).toNat
        (1 : Byte).toNat with
      | .ok _ => False | .error x => x = .locked) ∧
    (match (withRegion (shared .locked [⟨3, 0, .read⟩])).judgeAccess 3 (.region h53) true (0 : Long).toNat
        (1 : Byte).toNat with
      | .ok _ => False | .error x => x = .denied) ∧
    (shared .locked [⟨3, 0, .read⟩]).grade 3 = .read := ⟨rfl, rfl, rfl, rfl⟩
theorem test_hyp_posting : disjointEntries writing.writeQueue ∧ writing.postable 2 = true :=
  ⟨by unfold disjointEntries; decide +kernel, by decide +kernel⟩
theorem test_hyp_steps :
    disjointEntries (st quiet).part.writeQueue ∧ (st quiet).part.poisonBounded ∧ ∃ t, step (st quiet) = .next t := by
  refine ⟨by simp [st, quiet, partOf, Part.reset, disjointEntries], ?_, _, rfl⟩
  intro slot r h
  rw [show (st quiet).part.region slot = none from quiet_region slot] at h
  cases h
theorem test_hyp_poison :
    (withRegion { sample with poison := List.range 16 }).region 5 = some { sample with poison := List.range 16 } ∧
    (List.range 16).Pairwise (· < ·) ∧ (List.range 16).length = 16 ∧ 16 ∉ List.range 16 ∧
    (List.range 15).length < 16 ∧ (List.range 15).Pairwise (· < ·) ∧ 15 ∉ List.range 15 ∧ 0 ∈ List.range 16 ∧
    sample.state ≠ .releasing ∧ (6 : SlotId) ≠ 5 ∧ RegionState.lost ≠ .live ∧ RegionState.lost ≠ .locked := by decide +kernel
/-- A bank with one operation of each rank below REFRESH. -/
def busyBank : Bank :=
  ⟨none, [⟨2, 100, 0, 1⟩], [], [.drainOffer], some (.whole 1 2 0), some (3, 0), some (4, 0), none, 16, 0, none⟩
theorem test_hyp_arbiter :
    ({ busyBank with owed := some 1 }).choose true = some (.refresh 1) ∧
    busyBank.choose true = some (.copy (.whole 1 2 0)) ∧
    ({ busyBank with copyWait := 15 }).choose true = some (.turn .drainOffer) ∧
    ({ busyBank with copyWait := 15 }).choose false = some (.read ⟨2, 100, 0, 1⟩) ∧
    ({ busyBank with copyWait := 15, reads := [] }).choose false = some (.turn .drainOffer) ∧
    ({ busyBank with copyWait := 15, reads := [], turns := [] }).choose false = some (.copy (.whole 1 2 0)) ∧
    ({ busyBank with reads := [], turns := [], copy := none }).choose false = some (.zero 3 0) ∧
    ({ busyBank with reads := [], turns := [], copy := none, zero := none }).choose false = some (.scrub 4 0) ∧
    (Bank.reset 0).choose true = none ∧
    ({ busyBank with copyWait := 15, reads := [], turns := [.wipeStep 5 100 2] }).choose false =
      some (.turn (.wipeStep 5 100 2)) := by
  decide
/-- Two entries of bank 0, the older one drained already; LINE READs of one act. -/
theorem test_hyp_candidate :
    let p : Part := (withQueue [entry 3 0 1, entry 2 1024 1]).modBank 0 fun _ =>
      { busyBank with running := some ⟨.drain (entry 3 0 1) 100, true⟩ }
    p.writeQueue = [entry 3 0 1] ++ entry 2 1024 1 :: [] ∧ p.drainableAt 0 (entry 3 0 1) = false ∧
    p.drainableAt 0 (entry 2 1024 1) = true ∧ p.currentFrame (entry 2 1024 1) = some 101 ∧
    (∀ e ∈ p.writeQueue, p.drainableAt 1 e = false) ∧ (p.bank 0).running ≠ none ∧ (p.bank 1).running = none ∧
    [(⟨1, 100, 0, 1⟩ : LineRead), ⟨4, 100, 0, 1⟩].Pairwise (fun x y => x.client < y.client) ∧
    (∀ x ∈ [(⟨1, 100, 0, 1⟩ : LineRead), ⟨4, 100, 0, 1⟩], x.client ≠ (⟨2, 100, 0, 1⟩ : LineRead).client) := by
  decide +kernel
/-- A part whose client 2 has a batch. -/
def batched (b : List RegionCommand) : Part := withClient 2 { idleClient with batch := some b }
theorem test_hyp_batch (b : List RegionCommand) : (batched b).free 2 ∧ ((batched b).client 2).batch = some b :=
  ⟨⟨⟨rfl, rfl, rfl, rfl, rfl⟩, rfl⟩, rfl⟩
/-- R77, R191: a close whose last wait ends gives the handle that its GRANT produced. -/
theorem test_batch_result_gives_its_handle :
    ((serving 2 (.batchClose [⟨.done, some h53, none⟩, ⟨.done, none, some (.wipe 6)⟩])).resolveWait (.wipe 6) .done).tx.map
      (·.body) = [[2, 0, 5, 3, 0, 0, 0]] := by decide +kernel
/-- R78, R190: with its region released since, the response gives the GRANT's generation or the slot's, and no other (log 28). -/
theorem test_batch_result_of_a_released_region :
    let p := (withRegion sample).releaseRegion 5 false
    p.named h53 = none ∧ ((p.returnedHandle h53).generation = 3 ∨ (p.returnedHandle h53).generation = 4) := by
  refine ⟨by decide +kernel, (generation_returnedHandle _ _).imp id fun h => h.trans ?_⟩
  decide +kernel
theorem test_hyp_batch_none : quiet.free 2 ∧ (quiet.client 2).batch = none := ⟨quiet_free 2, by decide +kernel⟩
theorem test_hyp_staging :
    8 ≤ (List.replicate 8 (RegionCommand.lock (.region h53))).length ∧
    (List.replicate 7 (RegionCommand.lock (.region h53))).length < 8 ∧
    referenceValid [.lock (.region h53)] (.lock (.batchRef 0)) = false ∧
    referenceValid [.grant 1 .keep none] (.lock (.batchRef 0)) = true ∧
    referenceValid [.grant 1 .keep none] (.lock (.batchRef 1)) = false ∧
    (commandHandle (.grant 1 .keep none) = none ∧ commandHandle (.lock (.batchRef 7)) = some (.batchRef 7)) := by decide
/-- The rounds of a close: a refusal, a region wiped before, a RELEASE, a WIPE, another command; references. -/
theorem test_hyp_rounds :
    let k : Closing := ⟨withRegion sample, [⟨.done, some h53, none⟩, ⟨.done, none, some (.extension 5)⟩], [5]⟩
    let free : Closing := { k with wiped := [] }
    let passes : RegionCommand → Bool := fun x => match k.part.apply 2 x with
      | .ok _ => true
      | .error _ => false
    mapHandle k.resolve (.lock (.batchRef 0)) = .lock (.region h53) ∧ k.resolve (.batchRef 1) = .batchRef 1 ∧
    k.resolve (.batchRef 2) = .batchRef 2 ∧
    passes (.release (.region h53)) = true ∧ passes (.wipe (.region h53)) = true ∧ passes (.lock (.region h53)) = true ∧
    passes (.lock (.batchRef 1)) = false ∧ k.namesWiped (.lock (.region h53)) = true ∧
    free.namesWiped (.lock (.region h53)) = false ∧
    (match closeRounds 2 [.lock (.batchRef 0)] k with
      | .error x => x == (2, .busy) | .ok _ => false) = true ∧
    (match closeRounds 2 [.release (.batchRef 0)] free with
      | .error _ => false | .ok k => k.results.map (·.status) == [.done, .aborted, .done]) = true ∧
    (match closeRounds 2 [.wipe (.batchRef 0)] free with
      | .error _ => false | .ok k => k.wiped == [5]) = true := by decide +kernel
/-- Commands executed at once: refused, done, waiting; and a GRANT that passes. -/
theorem test_hyp_applied :
    (match (withRegion sample).taken.apply 2 (.lock (.region ⟨5, 4⟩)) with
      | .error st => st == .notFound | .ok _ => false) = true ∧
    (match (withRegion sample).taken.apply 2 (.lock (.region h53)) with
      | .error _ => false | .ok a => a.wait == none && a.handle == none) = true ∧
    (match (withRegion sample).taken.apply 2 (.wipe (.region h53)) with
      | .error _ => false | .ok a => a.wait == some (.wipe 5)) = true ∧
    (match (granting .free).apply 2 (.grant 3 .keep none) with
      | .error _ => false | .ok a => a.handle == some ⟨0, 0⟩) = true := by decide +kernel
/-- A close that a wait's end answers, one that it leaves waiting, and requests that wait for something else. -/
theorem test_hyp_end_wait :
    let one : List BatchResult := [⟨.done, none, some (.wipe 5)⟩]
    let two : List BatchResult := [⟨.done, none, some (.wipe 5)⟩, ⟨.done, none, some (.fill 6)⟩]
    let after : List BatchResult → List BatchResult := fun rs =>
      rs.map fun r => if r.wait = some (.wipe 5) then { r with status := .done, wait := none } else r
    ((serving 2 (.batchClose one)).client 2).executing = some ⟨7, .batchClose one⟩ ∧
    (∀ r ∈ after one, r.wait = none) ∧ (∃ r ∈ after two, r.wait ≠ none) ∧
    ((serving 2 (.waiting (.wipe 5))).client 2).executing = some ⟨7, .waiting (.wipe 5)⟩ ∧
    Wait.wipe 5 ≠ .fill 5 ∧ quiet.work 2 = none := by decide +kernel
/-- The results of a close: refused at a position, done at once, and waiting. -/
theorem test_hyp_closing :
    (match closeRounds 2 [.lock (.region h53)] ⟨quiet, [], []⟩ with
      | .error x => x == (0, .notFound) | .ok _ => false) = true ∧
    (match closeRounds 2 [.lock (.region h53)] ⟨withRegion sample, [], []⟩ with
      | .ok k => k.results.map (·.wait) == [none] | .error _ => false) = true ∧
    (match closeRounds 2 [.wipe (.region h53)] ⟨withRegion sample, [], []⟩ with
      | .ok k => k.results.map (·.wait) == [some (.wipe 5)] | .error _ => false) = true := by decide +kernel
theorem test_hyp_configure :
    quiet.free 0 ∧ 7 < (8 : Byte).toNat ∧ (7 : Byte) = BitVec.ofNat 8 (7 : ClientId).val ∧
    4096 < (4097 : Half).toNat ∧ (4096 : Half).toNat ≤ 4096 ∧ quiet.ownedSlots 7 = [] ∧
    (withRegion sample).ownedSlots 2 ≠ [] ∧ 5 < (6 : Byte).toNat := ⟨quiet_free 0, by decide +kernel⟩
/-- The spare target raised and lowered, a shortfall that begins, and the scrub interval set with and without a timer. -/
theorem test_hyp_parameters :
    quiet.pool.spareTarget < 256 ∧ 0 ≤ (granting .free).pool.spareTarget ∧ (granting .free).pool.spareTarget < 5 ∧
    (granting .free).pool.spareTarget ≤ (granting .free).pool.count .spare ∧
    (granting .free).pool.count .free = 4 ∧ quiet.scrub.interval ≠ 0 ∧ quiet.scrub.current = none ∧
    ({ quiet with scrub := ⟨0, 0, none, none, 0⟩ } : Part).scrub.interval = 0 := by decide +kernel
theorem test_hyp_retire :
    quiet.free 0 ∧ 4096 ≤ (4096 : Half).toNat ∧ (4095 : Half).toNat = (4095 : FrameId).val ∧
    (∀ f : FrameState, ((partOf f).frame 4095).state = f ∧ ((partOf f).frame 4095).doomed = false ∧
      (((partOf f).modFrame 4095 fun g => { g with doomed := true }).frame 4095).doomed = true ∧
      (((partOf f).modFrame 4095 fun g => { g with region := some 5 }).frame 4095).region = some 5) :=
  ⟨quiet_free 0, by decide, by decide, fun f => by simp [partOf, Part.frame, Part.reset, Part.modFrame]⟩
theorem test_hyp_abort :
    (copying 0).region 5 = some { sample with migration := some ⟨0, 100, 7, 0⟩ } := region_withRegion _ 5
theorem test_hyp_power :
    quiet.free 0 ∧ (withQueue [entry 2 0 1]).free 0 ∧ (∀ slot, quiet.region slot = none) ∧ (withRegion sample).region 5 = some sample :=
  ⟨quiet_free 0, queue_free _ 0, quiet_region, region_withRegion sample 5⟩

end Sys2Proof.Tests
end

section
/-! PROOFS. The segment table after power-on, pin and soft reset (R6). -/

namespace Sys2Proof.Machine

/-- R6, R177: the part that leaves a power-on or pin reset has every segment UNCLAIMED. -/
@[simp] theorem segment_reset (frames : Vector Frame 4096) (cause : ResetCause) (g : SegId) :
    tget (Part.reset frames cause).pool.segments g = ⟨.unclaimed, 0⟩ :=
  tget_replicate _ g

/-- Releasing a held part puts it into its reset values (R177). -/
theorem exec_resetRelease_held {s : State} {h : Hold} (held : s.part.hold = some h) :
    exec .resetRelease s = .next { s with
      store := s.store.forgetFrames fun _ => true
      part := Part.reset (h.frames s.part.pool.frames) h.cause } := by
  show execResetRelease s = _
  rw [execResetRelease, held]

@[simp] theorem abandonScrub_pool (p : Part) : p.abandonScrub.pool = p.pool := rfl

/-- R3, R6: the pool at soft reset: every frame follows its own rule and every segment becomes UNCLAIMED. -/
theorem clearForReset_pool (p : Part) :
    p.clearForReset.pool = { p.pool with
      frames := tmap Frame.softReset p.pool.frames
      segments := Vector.replicate 128 ⟨.unclaimed, 0⟩ } := by
  unfold Part.clearForReset
  split
  · rw [startIdle_pool, abandonScrub_pool]
  · rw [startIdle_pool]

/-- The responses of RESET leave the pool as the soft reset made it (R185). -/
theorem serveReset_pool (p : Part) (c : ClientId) (tag : Byte) :
    (p.serveReset c tag).pool = p.clearForReset.pool := by
  obtain ⟨x, told⟩ := reach_serveReset p c tag
  rw [told]

/-- R3, R4: a soft reset leaves no frame in a state that a claim count counts. -/
theorem softReset_not_counted (g : Frame) : g.softReset.state.counted = false := by
  unfold Frame.softReset
  cases g.state with
  | claimed | held => cases g.doomed <;> rfl
  | target | free | dirty | spare | retired => rfl

/-- R6: RESET leaves every segment UNCLAIMED. -/
theorem segment_serveReset (p : Part) (c : ClientId) (tag : Byte) (g : SegId) :
    tget (p.serveReset c tag).pool.segments g = ⟨.unclaimed, 0⟩ := by
  rw [serveReset_pool, clearForReset_pool, tget_replicate]

/-- R3: RESET takes each frame by its own rule. -/
theorem frame_serveReset (p : Part) (c : ClientId) (tag : Byte) (f : FrameId) :
    (p.serveReset c tag).frame f = (p.frame f).softReset := by
  rw [Part.frame, serveReset_pool, clearForReset_pool, tget_tmap, Part.frame]

/-- A free supervisor's RESET is served in the act of its arrival (R105, R184). -/
theorem exec_reset_free {s : State} (tag : Byte) (free : s.part.free 0) :
    exec (.reset 0 tag) s = .next (s.withPart (s.part.taken.serveReset 0 tag).closeAct) :=
  next_served free rfl (.inr rfl) rfl

/-- Settles O25: the part that leaves a power-on or pin reset is `Part.reset`, whose segments are UNCLAIMED; the soft
reset writes the same table, and its responses leave the pool alone. -/
theorem segmentsAreUnclaimedAfterReset : Obligations.SegmentsAreUnclaimedAfterReset := by
  refine ⟨fun s h held => ⟨_, exec_resetRelease_held held, segment_reset _ _⟩, segment_reset _ _,
    fun s tag free => ⟨exec_reset_free tag free, segment_serveReset _ 0 tag, fun f => ?_⟩⟩
  rw [frame_serveReset]
  exact softReset_not_counted _

end Sys2Proof.Machine
end

section
/-! PROOFS. BATCH_OPEN (R70). -/

namespace Sys2Proof.Machine

@[simp] theorem client_taken (p : Part) (c : ClientId) : p.taken.client c = p.client c := client_startIdle p c

/-- R70: a client that has no batch gets an empty one, and DONE. -/
theorem serveBatchOpen_of_none {p : Part} {c : ClientId} (tag : Byte) (closed : (p.client c).batch = none) :
    p.serveBatchOpen c tag = (p.setBatch c (some [])).answer c 40 tag .done [] := by
  simp [Part.serveBatchOpen, closed]

/-- R70: a client that has a batch keeps it, and is answered BATCH_OPEN. -/
theorem serveBatchOpen_of_some {p : Part} {c : ClientId} {staged : List RegionCommand} (tag : Byte)
    (opened : (p.client c).batch = some staged) :
    p.serveBatchOpen c tag = p.answer c 40 tag .batchOpen [] := by
  simp [Part.serveBatchOpen, opened]

/-- Settles O54: a free client's BATCH_OPEN is taken and served in the act of its arrival. Taking it restarts the idle timer
and leaves the client's batch as it was, so the two cases are those of `Part.serveBatchOpen`. -/
theorem batchOpenOpensOneBatch : Obligations.BatchOpenOpensOneBatch := by
  intro s c tag free
  constructor
  · intro closed
    have served := serveBatchOpen_of_none tag (by rwa [client_taken] : (s.part.taken.client c).batch = none)
    exact next_served free rfl (.inl rfl) served
  · intro staged opened
    have served := serveBatchOpen_of_some tag (by rwa [client_taken] : (s.part.taken.client c).batch = some staged)
    exact next_served free rfl (.inl rfl) served

end Sys2Proof.Machine
end

section
/-! PROOFS. The client table after power-on and pin reset, and requests during INITIALIZING (R117). -/

namespace Sys2Proof.Machine

/-- R117: every client of the part that leaves a power-on or pin reset has its reset context. -/
@[simp] theorem client_reset (frames : Vector Frame 4096) (cause : ResetCause) (c : ClientId) :
    (Part.reset frames cause).client c = Client.reset :=
  tget_replicate _ c

/-- R105, R162: during INITIALIZING a request of a client with nothing queued, executing or pending is taken in the act of
its arrival, and the act is closed. -/
theorem arrive_initializing {p : Part} {c : ClientId} (tag : Byte) {r : Request} (released : p.hold = none)
    (init : p.power.state = .initializing) (empty : (p.client c).queue = []) (idle : (p.client c).executing = none)
    (kept : (p.client c).evictionPending = false) (formed : r.wf = true) :
    p.arrive c tag r = (p.take c tag r).closeAct := by
  have takes : p.takeable c = true := by simp [Part.takeable, PowerState.takes, released, init, idle, kept]
  simp [Part.arrive, released, formed, empty, Config.maxQueue, takes]

/-- R105, R178: during INITIALIZING the first refusal meets every request but IDENTIFY. -/
theorem refusal_initializing {p : Part} (c : ClientId) {r : Request} (init : p.power.state = .initializing)
    (other : r ≠ .identify) : p.refusal c r = some .notReady := by
  have first : (p.power.state == .initializing && r != .identify) = true := by simp [init, other]
  rw [Part.refusal, first, firstFail]

/-- R103, R105, R180: no refusal meets an IDENTIFY during INITIALIZING, whoever sends it. -/
theorem refusal_initializing_identify {p : Part} (c : ClientId) (init : p.power.state = .initializing) :
    p.refusal c .identify = none := by
  simp [Part.refusal, firstFail_none, init, openToDetached, supervisorRequest]

/-- R105, R163: outside ACTIVE a refused request is answered with the refusal's status; the idle timer does not restart. -/
theorem take_inactive_refused {p : Part} {c : ClientId} {r : Request} {st : Status} (tag : Byte)
    (inactive : p.power.state ≠ .active) (refused : p.refusal c r = some st) :
    p.take c tag r = p.answer c r.code tag st [] := by
  simp [Part.take, inactive, refused]

/-- R105, R163: outside ACTIVE a request that meets no refusal is served; the idle timer does not restart. -/
theorem take_inactive_served {p : Part} {c : ClientId} {r : Request} (tag : Byte)
    (inactive : p.power.state ≠ .active) (passed : p.refusal c r = none) :
    p.take c tag r = p.serve c tag r := by
  simp [Part.take, inactive, passed]

/-- R117, R178: a request taken during INITIALIZING is served if it is IDENTIFY, and answered NOT_READY otherwise. -/
theorem take_initializing {p : Part} (c : ClientId) (tag : Byte) (r : Request) (init : p.power.state = .initializing) :
    p.take c tag r =
      if r = .identify then p.answer c 8 tag .done p.identity else p.answer c r.code tag .notReady [] := by
  have inactive : p.power.state ≠ .active := by simp [init]
  split_ifs with isIdentify
  · subst isIdentify
    exact take_inactive_served tag inactive (refusal_initializing_identify c init)
  · exact take_inactive_refused tag inactive (refusal_initializing c init isIdentify)

/-- Settles O26: the part that leaves a power-on or pin reset is `Part.reset`; during INITIALIZING an arriving request is
taken at once and judged by the first refusal of R105; ATTACH and IDENTIFY are arrivals of their requests. -/
theorem clientTableAfterReset : Obligations.ClientTableAfterReset := by
  refine ⟨fun s h held => ⟨_, exec_resetRelease_held held, rfl, rfl, client_reset _ _⟩, ?_, fun s c tag => ⟨rfl, rfl⟩⟩
  intro p c tag r released init empty idle kept formed
  rw [arrive_initializing tag released init empty idle kept formed, take_initializing c tag r init]

end Sys2Proof.Machine
end

section
/-! PROOFS. HEALTH RETIRED (R161). -/

namespace Sys2Proof.Machine

/-- The frames in a state, as a filter of all frames in ascending order. -/
theorem framesIn_eq (p : Part) (st : FrameState) :
    p.pool.framesIn st = (List.finRange 4096).filter fun f => (p.frame f).state == st :=
  indices_eq _ _

/-- R161: the frames that page RETIRED reports, as one filter of all frames in ascending order. -/
theorem retiredReport_eq (p : Part) (start : Nat) :
    p.retiredReport start =
      let fs := ((List.finRange 4096).filter fun f => (p.frame f).state == .retired && decide (start ≤ f.val)).take 64
      byte fs.length :: fs.flatMap fun f => bytes2 f.val := by
  have reported : ((p.pool.framesIn .retired).filter fun f => decide (start ≤ f.val)) =
      (List.finRange 4096).filter fun f => (p.frame f).state == .retired && decide (start ≤ f.val) := by
    rw [framesIn_eq, List.filter_filter]
    simp only [Bool.and_comm]
  rw [Part.retiredReport, reported]

/-- Taking a request leaves every frame as it was. -/
@[simp] theorem frame_taken (p : Part) (f : FrameId) : p.taken.frame f = p.frame f := rfl

/-- R161: page RETIRED depends on the frames alone, which taking a request leaves. -/
theorem retiredReport_taken (p : Part) (start : Nat) : p.taken.retiredReport start = p.retiredReport start := by
  simp only [retiredReport_eq, frame_taken]

/-- R161: a start that numbers a frame is answered with the page. -/
theorem serveHealth_retired_page (p : Part) (c : ClientId) (tag : Byte) {arg : Half} (within : arg.toNat ≤ 4095) :
    p.serveHealth c tag .retired arg = p.answer c 9 tag .done (p.retiredReport arg.toNat) :=
  if_pos (Nat.lt_succ_of_le within)

/-- R161: a start above the last frame is answered BAD_VALUE. -/
theorem serveHealth_retired_badValue (p : Part) (c : ClientId) (tag : Byte) {arg : Half} (beyond : 4095 < arg.toNat) :
    p.serveHealth c tag .retired arg = p.answer c 9 tag .badValue [] :=
  if_neg (Nat.not_lt.mpr beyond)

/-- Settles O34: a free client's HEALTH RETIRED is taken and served in the act of its arrival. Taking it leaves the frames as
they were, and the page is one filter of all frames in ascending order; the two cases are those of `Part.serveHealth`. -/
theorem retiredPageListsRetiredFrames : Obligations.RetiredPageListsRetiredFrames := by
  intro s c tag arg free
  constructor
  · intro beyond
    exact next_served free rfl (.inl rfl) (serveHealth_retired_badValue _ c tag beyond)
  · intro within fs
    have served := serveHealth_retired_page s.part.taken c tag within
    rw [retiredReport_taken, retiredReport_eq] at served
    exact next_served free rfl (.inl rfl) served

end Sys2Proof.Machine
end

section
/-! PROOFS. What a step does to the queue and to the array (log 3, 6): each event carries out its completion or changes
nothing, and only the completions that read or write lines, wakes and reset releases touch the array. -/

namespace Sys2Proof.Machine

-- The proofs are elaborated in order: the limit on memory counts the stack of every thread at work.
set_option Elab.async false

/-- Settles O1: the front of the queue decides the step. -/
theorem stepRunsFrontCommand : Obligations.StepRunsFrontCommand := step_cons

/-! ### The queue and the array -/

/-- An event that may happen or change nothing leaves the queue and the array when its change is one of the part. -/
theorem withPart_or_same {b : Bool} (s : State) (q : Part) :
    (if b then s.withPart q else s).pending = s.pending ∧ (if b then s.withPart q else s).store = s.store := by
  cases b <;> exact ⟨rfl, rfl⟩

/-- How a command changes the array's contents: not at all, by writing a run of bytes, or by forgetting some (R119, R170,
R174). -/
inductive Store.Step (s : Store) : Store → Prop
  | same : Store.Step s s
  | zeroed (f : FrameId) (step : Nat) : Store.Step s (s.zeroStep f step)
  | drained (f : FrameId) (e : Entry) : Store.Step s (s.drain f e)
  | read (f : FrameId) (line : Nat) (ks : List Nat) :
      Store.Step s { s.forgetLines f line ks with draws := s.draws + 1 }
  | forgotten (f : FrameId) (line : Nat) (ks : List Nat) : Store.Step s (s.forgetLines f line ks)
  | copied (f g : FrameId) (line step : Nat) (ks : List Nat) (lines : List (Option Byte)) :
      Store.Step s ((s.forgetLines f line ks).placeStep g step lines)
  | placed (g : FrameId) (step : Nat) (lines : List (Option Byte)) : Store.Step s (s.placeStep g step lines)
  | lost (P : FrameId → Bool) : Store.Step s (s.forgetFrames P)

/-- WHAT A COMMAND DOES TO THE QUEUE AND THE ARRAY: it leaves the queue, and the array changes in one of the ways of
`Store.Step`; a command that does not touch the array leaves it. -/
theorem exec_pending_store (i : Instr) (s t : State) (h : exec i s = .next t) :
    t.pending = s.pending ∧ s.store.Step t.store ∧ (touchesArray i = false → t.store = s.store) := by
  have quiet : ∀ {b : Bool} {q : Part} {u : State}, u = (if b then s.withPart q else s) →
      u.pending = s.pending ∧ s.store.Step u.store ∧ (touchesArray i = false → u.store = s.store) := by
    rintro b q u rfl
    obtain ⟨queue, array⟩ := withPart_or_same (b := b) s q
    exact ⟨queue, array ▸ .same, fun _ => array⟩
  cases i
  case leaseExpiry | idleTimerExpiry | scrubIntervalExpiry | refreshSlotExpiry | thermalSample | trainingEnd =>
    cases h; exact quiet rfl
  case lineReadComplete =>
    cases h
    split
    · exact ⟨rfl, .read _ _ _, nofun⟩
    · exact ⟨rfl, .same, nofun⟩
  case drainComplete =>
    cases h
    split
    · exact ⟨rfl, .drained _ _, nofun⟩
    · exact ⟨rfl, .same, nofun⟩
  case wipeStepComplete | zeroStepComplete =>
    cases h
    split
    · exact ⟨rfl, .zeroed _ _, nofun⟩
    · exact ⟨rfl, .same, nofun⟩
  case copyReadHalfComplete | scrubStepComplete =>
    cases h
    split
    · exact ⟨rfl, .forgotten _ _ _, nofun⟩
    · exact ⟨rfl, .same, nofun⟩
  case copyStepComplete =>
    cases h
    split
    · exact ⟨rfl, .copied _ _ _ _ _ _, nofun⟩
    · exact ⟨rfl, .placed _ _ _, nofun⟩
    · exact ⟨rfl, .same, nofun⟩
  case refreshComplete =>
    cases h
    split <;> exact ⟨rfl, .same, fun _ => rfl⟩
  case wakingEnd =>
    cases h
    split
    · exact ⟨rfl, .same, nofun⟩
    · split
      · exact ⟨rfl, .lost fun f => s.part.power.masked.contains (segmentOf f), nofun⟩
      · exact ⟨rfl, .lost fun _ => true, nofun⟩
      · exact ⟨rfl, .same, nofun⟩
  case resetRelease =>
    cases h
    split
    · exact ⟨rfl, .lost fun _ => true, nofun⟩
    · exact ⟨rfl, .same, nofun⟩
  all_goals cases h; exact ⟨rfl, .same, fun _ => rfl⟩

/-- Settles O3: every command has an effect (exec_next), and `exec_pending_store` says what it leaves. -/
theorem everyCommandAnswersANextState : Obligations.EveryCommandAnswersANextState := by
  intro i s
  obtain ⟨t, h⟩ := exec_next i s
  obtain ⟨queue, -, array⟩ := exec_pending_store i s t h
  exact ⟨t, h, queue, array⟩

/-- Each way in which a command changes the array keeps its canonical form. -/
theorem wf_storeStep {s t : Store} (h : s.Step t) (wf : Memory.wf s.cells = true) : Memory.wf t.cells = true := by
  cases h with
  | same => exact wf
  | zeroed => exact wf_zeroStep _ _ _ wf
  | drained => exact wf_drain _ _ _ wf
  | read => exact wf_forgetLines _ _ _ _ wf
  | forgotten => exact wf_forgetLines _ _ _ _ wf
  | copied => exact wf_placeStep _ _ _ _ (wf_forgetLines _ _ _ _ wf)
  | placed => exact wf_placeStep _ _ _ _ wf
  | lost => exact wf_forgetFrames _ _ wf

/-- What a step is: time passes, or a command is carried out on the rest of the queue. -/
theorem step_cases {s t : State} (h : step s = .next t) :
    (s.pending = [] ∧ t = tick s) ∨ ∃ i rest, s.pending = i :: rest ∧ exec i { s with pending := rest } = .next t := by
  unfold step at h
  split at h
  · rename_i empty
    cases h
    exact .inl ⟨empty, rfl⟩
  · rename_i i rest front
    exact .inr ⟨i, rest, front, h⟩

/-- Time leaves the array. -/
theorem store_tick (s : State) : (tick s).store = s.store := by
  unfold tick
  split
  · rfl
  · dsimp only
    split <;> rfl

/-- Settles O5: time leaves the array, and a command changes it in one of the ways that keep its form. -/
theorem everyStepKeepsArrayCanonical : Obligations.EveryStepKeepsArrayCanonical := by
  intro s t wf h
  rcases step_cases h with ⟨-, rfl⟩ | ⟨i, rest, -, run⟩
  · rw [State.storeWf, store_tick]
    exact wf
  · obtain ⟨-, change, -⟩ := exec_pending_store i _ t run
    exact wf_storeStep change wf

end Sys2Proof.Machine
end

section
/-! PROOFS. The claim counts of the segments under every move of frames (R4). -/

namespace Sys2Proof.Machine

set_option Elab.async false

/-! ### Counting the frames of a segment -/

/-- Two conditions that agree away from one index count alike but for that index. -/
theorem countP_change {α : Type} [DecidableEq α] (l : List α) (P Q : α → Bool) (a : α) (once : l.Nodup) (mem : a ∈ l)
    (away : ∀ b, b ≠ a → P b = Q b) :
    l.countP P + (Q a).toNat = l.countP Q + (P a).toNat := by
  induction l with
  | nil => cases mem
  | cons x l ih =>
    rw [List.nodup_cons] at once
    rw [List.countP_cons, List.countP_cons]
    by_cases e : x = a
    · subst e
      have rest : l.countP P = l.countP Q :=
        List.countP_congr fun b hb => by rw [away b fun e => once.1 (e ▸ hb)]
      rw [rest]
      cases P x <;> cases Q x <;> simp
    · have tail := ih once.2 ((List.mem_cons.1 mem).resolve_left (Ne.symm e))
      rw [away x e]
      split <;> omega

/-- R4: the counted frames of a segment, as a count over all frames. -/
theorem countedIn_eq (p : Pool) (g : SegId) :
    p.countedIn g = (List.finRange 4096).countP fun f => (tget p.frames f).state.counted && segmentOf f == g := by
  rw [Pool.countedIn, indices_eq, List.countP_eq_length_filter]

/-- R4: pools whose frames are counted alike count the same frames in each segment. -/
theorem countedIn_congr {p q : Pool} (g : SegId)
    (same : ∀ f, (tget q.frames f).state.counted = (tget p.frames f).state.counted) : q.countedIn g = p.countedIn g := by
  rw [countedIn_eq, countedIn_eq]
  exact List.countP_congr fun f _ => by rw [same f]

/-- R4: a segment's counted frames when one frame's record is replaced. -/
theorem countedIn_setFrame {p q : Pool} {f : FrameId} {x : Frame} (frames : q.frames = tset p.frames f x) (g : SegId) :
    q.countedIn g + ((tget p.frames f).state.counted && segmentOf f == g).toNat =
      p.countedIn g + (x.state.counted && segmentOf f == g).toNat := by
  rw [countedIn_eq, countedIn_eq, frames]
  have change := countP_change (List.finRange 4096)
    (fun y => (tget (tset p.frames f x) y).state.counted && segmentOf y == g)
    (fun y => (tget p.frames y).state.counted && segmentOf y == g) f (List.nodup_finRange _) (List.mem_finRange _)
    (fun y hy => by rw [tget_tset_ne _ _ _ _ (Ne.symm hy)])
  simpa only [tget_tset_same] using change

/-- R4: a pool that counts as another does, with its segments, agrees when that one does. -/
theorem claimsAgree_congr {p q : Pool} (segments : q.segments = p.segments)
    (same : ∀ f, (tget q.frames f).state.counted = (tget p.frames f).state.counted) (h : p.claimsAgree) :
    q.claimsAgree := by
  intro g
  rw [segments, countedIn_congr g same]
  exact h g

/-- R4, R6: a pool that counts no frame agrees with UNCLAIMED segments. -/
theorem claimsAgree_of_none {p : Pool} (segments : p.segments = Vector.replicate 128 ⟨.unclaimed, 0⟩)
    (none : ∀ f, (tget p.frames f).state.counted = false) : p.claimsAgree := by
  intro g
  rw [segments, tget_replicate, countedIn_eq, eq_comm, List.countP_eq_zero]
  intro f _
  simp [none f]

/-- R4: a frame that enters a region is counted. -/
theorem claimsAgree_enter {p : Pool} (f : FrameId) {st : FrameState} (slot : SlotId) (k : RegionClass)
    (counted : st.counted = true) (h : p.claimsAgree) : (p.enter f st slot k).claimsAgree := by
  intro g
  have change := countedIn_setFrame (p := p) (q := p.enter f st slot k) (f := f) rfl g
  rw [counted] at change
  have claims := h g
  cases old : (tget p.frames f).state.counted with
  | true =>
    simp only [old] at change
    simp only [Pool.enter, old, if_true] at change ⊢
    omega
  | false =>
    simp only [Pool.enter, old, Bool.false_eq_true, if_false, tget_tmod] at change ⊢
    by_cases e : segmentOf f = g
    · subst e
      simp only [if_true, Segment.gain, beq_self_eq_true, Bool.true_and, Bool.false_and, Bool.toNat_true,
        Bool.toNat_false] at change ⊢
      omega
    · have e' : (segmentOf f == g) = false := by simpa using e
      simp only [e, e', if_false, Bool.and_false] at change ⊢
      omega

/-- R4: a frame that leaves a region is counted no longer. -/
theorem claimsAgree_leave {p : Pool} (f : FrameId) {st : FrameState} (uncounted : st.counted = false)
    (h : p.claimsAgree) : (p.leave f st).claimsAgree := by
  intro g
  have change := countedIn_setFrame (p := p) (q := p.leave f st) (f := f) rfl g
  rw [uncounted] at change
  have claims := h g
  cases old : (tget p.frames f).state.counted with
  | false =>
    simp only [old] at change
    simp only [Pool.leave, old, Bool.false_eq_true, if_false] at change ⊢
    omega
  | true =>
    simp only [Pool.leave, old, if_true, tget_tmod] at change ⊢
    by_cases e : segmentOf f = g
    · subst e
      simp only [if_true, Segment.drop, beq_self_eq_true, Bool.true_and, Bool.false_and, Bool.toNat_true,
        Bool.toNat_false] at change ⊢
      omega
    · have e' : (segmentOf f == g) = false := by simpa using e
      simp only [e, e', if_false, Bool.and_false] at change ⊢
      omega

/-! ### What the pool's operations keep -/

/-- The claim counts keep agreeing, and the spare target stays. -/
structure Pool.Moves (p q : Pool) : Prop where
  claims : p.claimsAgree → q.claimsAgree
  target : q.spareTarget = p.spareTarget

theorem Pool.Moves.refl (p : Pool) : p.Moves p := ⟨id, rfl⟩

theorem Pool.Moves.trans {p q r : Pool} (h : p.Moves q) (k : q.Moves r) : p.Moves r :=
  ⟨fun x => k.claims (h.claims x), k.target.trans h.target⟩

theorem moves_foldl {α : Type} (op : Pool → α → Pool) (once : ∀ (p : Pool) (a : α), p.Moves (op p a)) (l : List α) (p : Pool) :
    p.Moves (l.foldl op p) := by
  induction l generalizing p with
  | nil => exact .refl p
  | cons a l ih => exact (once p a).trans (ih _)

theorem moves_enter (p : Pool) (f : FrameId) {st : FrameState} (slot : SlotId) (k : RegionClass)
    (counted : st.counted = true) : p.Moves (p.enter f st slot k) := ⟨claimsAgree_enter f slot k counted, rfl⟩

theorem moves_leave (p : Pool) (f : FrameId) {st : FrameState} (uncounted : st.counted = false) :
    p.Moves (p.leave f st) := ⟨claimsAgree_leave f uncounted, rfl⟩

theorem moves_vacate (p : Pool) (f : FrameId) : p.Moves (p.vacate f) := by
  unfold Pool.vacate
  split <;> exact moves_leave p f rfl

theorem moves_vacateAll (p : Pool) (fs : List FrameId) : p.Moves (p.vacateAll fs) := moves_foldl _ moves_vacate fs p

theorem moves_topUp (p : Pool) : p.Moves p.topUp :=
  moves_foldl _ (fun q f => moves_leave q f (st := .spare) rfl) _ p

theorem moves_shed (p : Pool) : p.Moves p.shed :=
  moves_foldl _ (fun q f => moves_leave q f (st := .free) rfl) _ p

theorem moves_refill (p : Pool) (f : FrameId) : p.Moves (p.refill f) := by
  unfold Pool.refill
  split <;> exact moves_leave p f rfl

/-- R14: what the allocator takes enters HELD or CLAIMED. -/
theorem moves_allocate {p : Pool} {n : Nat} {k : RegionClass} {slot : SlotId} {a : Allocation}
    (h : p.allocate n k slot = some a) : p.Moves a.pool := by
  unfold Pool.allocate at h
  dsimp only at h
  split at h
  · cases h
  · cases h
    exact (moves_foldl _ (fun q f => moves_enter q f (st := .held) slot k rfl) _ p).trans
      (moves_foldl _ (fun q f => moves_enter q f (st := .claimed) slot k rfl) _ _)

/-- A change of frame records that counts each frame as before. -/
theorem moves_frames (p : Pool) (frames : Vector Frame 4096)
    (same : ∀ f, (tget frames f).state.counted = (tget p.frames f).state.counted) :
    p.Moves { p with frames := frames } := ⟨claimsAgree_congr rfl same, rfl⟩

/-- R170: the frames made DIRTY at a wake were FREE or SPARE. -/
theorem moves_dirtyMasked (p : Pool) (masked : List SegId) : p.Moves (p.dirtyMasked masked) := by
  refine moves_frames p _ fun f => ?_
  rw [tget_tmapIdx]
  split
  · rename_i idle
    rw [Bool.and_eq_true, Bool.or_eq_true, beq_iff_eq, beq_iff_eq] at idle
    rcases idle.2 with e | e <;> rw [e] <;> rfl
  · rfl

/-- R172, R174: after DOWN no frame is counted. -/
theorem claimsAgree_dirtyAll (p : Pool) : p.dirtyAll.claimsAgree := by
  refine claimsAgree_of_none rfl fun f => ?_
  simp only [Pool.dirtyAll, tget_tmap]
  split
  · rename_i retired
    rw [beq_iff_eq.1 retired]
    rfl
  · rfl

end Sys2Proof.Machine
end

section
/-! PROOFS. What the inner work of the part keeps: the claim counts (R4), the disjoint entries of the write queue (R95) and
the bounded poison lists (R38), and, of the engines' work at the close of an act, everything that only requests, timers and
events change. One lemma per operation, in the order of the model. -/

namespace Sys2Proof.Machine

set_option Elab.async false

/-! ### The two relations -/

/-- The three invariants are kept from one part to another. -/
structure Part.Keeps (p q : Part) : Prop where
  claims : p.pool.claimsAgree → q.pool.claimsAgree
  entries : disjointEntries p.writeQueue → disjointEntries q.writeQueue
  poison : p.poisonBounded → q.poisonBounded

/-- What the engines never change: the power state and timers, the thermal monitor, the reset, the parameters, the health
totals, the scrub cursor and count, the clients' quotas and enable sets. -/
structure Ambient where
  power : Power
  thermal : Thermal
  hold : Option Hold
  cause : ResetCause
  phase : Nat
  spareTarget : Nat
  threshold : Nat
  margin : Nat
  totalCorrected : Nat
  totalUncorrectable : Nat
  cursor : FrameId
  passes : Nat
  interval : Nat
  quota : ClientId → Nat
  enable : ClientId → NoticeSet

def Part.ambient (p : Part) : Ambient where
  power := p.power
  thermal := p.thermal
  hold := p.hold
  cause := p.cause
  phase := p.phase
  spareTarget := p.pool.spareTarget
  threshold := p.retire.threshold
  margin := p.retire.margin
  totalCorrected := p.retire.totalCorrected
  totalUncorrectable := p.retire.totalUncorrectable
  cursor := p.scrub.cursor
  passes := p.scrub.passes
  interval := p.scrub.interval
  quota c := (p.client c).quota
  enable c := (p.client c).enable

/-- The engines' work, evictions included: the invariants are kept and the ambient values stay. -/
structure Part.Runs (p q : Part) : Prop extends Part.Keeps p q where
  ambient : q.ambient = p.ambient

/-- Inner work: the invariants are kept, the ambient values stay, and of a client's record only the executing request, the
flags and the line change. -/
structure Part.Works (p q : Part) : Prop extends Part.Runs p q where
  clients : ∀ c, ∃ e f l, q.client c = { p.client c with executing := e, flags := f, line := l }

theorem Part.Keeps.refl (p : Part) : p.Keeps p := ⟨id, id, id⟩

theorem Part.Keeps.trans {p q r : Part} (h : p.Keeps q) (k : q.Keeps r) : p.Keeps r :=
  ⟨fun x => k.claims (h.claims x), fun x => k.entries (h.entries x), fun x => k.poison (h.poison x)⟩

theorem Part.Runs.refl (p : Part) : p.Runs p := ⟨.refl p, rfl⟩

theorem Part.Runs.trans {p q r : Part} (h : p.Runs q) (k : q.Runs r) : p.Runs r :=
  ⟨h.toKeeps.trans k.toKeeps, k.ambient.trans h.ambient⟩

theorem Part.Works.refl (p : Part) : p.Works p := ⟨.refl p, fun _ => ⟨_, _, _, rfl⟩⟩

theorem Part.Works.trans {p q r : Part} (h : p.Works q) (k : q.Works r) : p.Works r := by
  refine ⟨h.toRuns.trans k.toRuns, fun c => ?_⟩
  obtain ⟨e, f, l, eq⟩ := h.clients c
  obtain ⟨e', f', l', eq'⟩ := k.clients c
  exact ⟨e', f', l', by rw [eq', eq]⟩

theorem Part.Runs.after {p q r : Part} (k : q.Runs r) (h : p.Runs q) : p.Runs r := h.trans k

/-- Work seen from its end: the last operation, after the work before it. -/
theorem Part.Works.after {p q r : Part} (k : q.Works r) (h : p.Works q) : p.Works r := h.trans k

theorem Part.Keeps.after {p q r : Part} (k : q.Keeps r) (h : p.Keeps q) : p.Keeps r := h.trans k

theorem keeps_foldl {α : Type} (op : Part → α → Part) (once : ∀ (p : Part) (a : α), p.Keeps (op p a)) (l : List α)
    (p : Part) : p.Keeps (l.foldl op p) := by
  induction l generalizing p with
  | nil => exact .refl p
  | cons a l ih => exact (once p a).trans (ih _)

theorem works_foldl {α : Type} (op : Part → α → Part) (once : ∀ (p : Part) (a : α), p.Works (op p a)) (l : List α)
    (p : Part) : p.Works (l.foldl op p) := by
  induction l generalizing p with
  | nil => exact .refl p
  | cons a l ih => exact (once p a).trans (ih _)

/-! ### The kinds of change -/

/-- A change of none of the fields that the invariants read. -/
theorem keeps_of_same {p q : Part} (pool : q.pool = p.pool) (slots : q.slots = p.slots)
    (queue : q.writeQueue = p.writeQueue) : p.Keeps q where
  claims h := pool ▸ h
  entries h := queue ▸ h
  poison h := by
    intro u r hr
    rw [Part.region, slots] at hr
    exact h u r hr

/-- A change of none of the fields that the invariants read, with the ambient values as they were. -/
theorem works_of_same {p q : Part} (pool : q.pool = p.pool) (slots : q.slots = p.slots)
    (queue : q.writeQueue = p.writeQueue) (ambient : q.ambient = p.ambient)
    (clients : q.clients = p.clients := by exact rfl) : p.Works q :=
  ⟨⟨keeps_of_same pool slots queue, ambient⟩, fun c => ⟨_, _, _, congrArg (tget · c) clients⟩⟩

/-- Clients that keep their quotas and enable sets. -/
theorem runs_clients {p q : Part} (clients : Vector Client 8) (e : q = { p with clients := clients })
    (kept : ∀ c, (q.client c).quota = (p.client c).quota ∧ (q.client c).enable = (p.client c).enable) : p.Runs q := by
  subst e
  refine ⟨keeps_of_same rfl rfl rfl, ?_⟩
  rw [Part.ambient, Part.ambient]
  congr 1
  · funext c; exact (kept c).1
  · funext c; exact (kept c).2

/-- Clients of which the executing requests, the flags and the lines change. -/
theorem works_clients {p q : Part} (clients : Vector Client 8) (e : q = { p with clients := clients })
    (kept : ∀ c, ∃ x f l, q.client c = { p.client c with executing := x, flags := f, line := l }) : p.Works q := by
  refine ⟨runs_clients clients e fun c => ?_, kept⟩
  obtain ⟨x, f, l, e⟩ := kept c
  rw [e]
  exact ⟨rfl, rfl⟩

/-- One client changed but for its quota and its enable set. -/
theorem runs_modClient (p : Part) (c : ClientId) (f : Client → Client)
    (quota : ∀ k, (f k).quota = k.quota := by exact fun _ => rfl)
    (enable : ∀ k, (f k).enable = k.enable := by exact fun _ => rfl) : p.Runs (p.modClient c f) := by
  refine runs_clients _ rfl fun d => ?_
  rw [client_modClient]
  split
  · rename_i e
    subst e
    exact ⟨quota _, enable _⟩
  · exact ⟨rfl, rfl⟩

/-- One client of which the executing request, the flags or the line change. -/
theorem works_modClient (p : Part) (c : ClientId) (f : Client → Client)
    (kept : ∀ k, ∃ x g l, f k = { k with executing := x, flags := g, line := l } := by exact fun _ => ⟨_, _, _, rfl⟩) :
    p.Works (p.modClient c f) := by
  refine works_clients _ rfl fun d => ?_
  rw [client_modClient]
  split
  · rename_i e
    subst e
    exact kept _
  · exact ⟨_, _, _, rfl⟩

/-- Region records whose poison lists have lost offsets or are new and empty. -/
theorem works_slots {p : Part} (slots : Vector Slot 64)
    (shrunk : ∀ u r, ({ p with slots := slots } : Part).region u = some r →
      r.poison = [] ∨ ∃ x, p.region u = some x ∧ r.poison.Sublist x.poison) : p.Works { p with slots := slots } := by
  refine ⟨⟨⟨id, id, fun h u r hr => ?_⟩, rfl⟩, fun _ => ⟨_, _, _, rfl⟩⟩
  rcases shrunk u r hr with e | ⟨x, hx, sub⟩
  · rw [e]
    exact ⟨.nil, by simp⟩
  · obtain ⟨ascend, short⟩ := h u x hx
    exact ⟨ascend.sublist sub, sub.length_le.trans short⟩

/-- One region record changed, its poison list not grown. -/
theorem works_modRegion (p : Part) (s : SlotId) (f : Region → Region)
    (shrunk : ∀ r, (f r).poison.Sublist r.poison := by exact fun r => List.Sublist.refl r.poison) : p.Works (p.modRegion s f) := by
  refine works_slots _ fun u r hr => .inr ?_
  replace hr : (p.modRegion s f).region u = some r := hr
  rw [region_modRegion] at hr
  split at hr
  · rename_i e
    subst e
    obtain ⟨x, hx, rfl⟩ := Option.map_eq_some_iff.1 hr
    exact ⟨x, hx, shrunk x⟩
  · exact ⟨r, hr, .refl _⟩

/-- The pool after moves of frames. -/
theorem works_pool (p : Part) {g : Pool} (h : p.pool.Moves g) : p.Works { p with pool := g } := by
  refine ⟨⟨⟨h.claims, id, id⟩, ?_⟩, fun _ => ⟨_, _, _, rfl⟩⟩
  simp [Part.ambient, Part.client, h.target]

/-- Entries that leave the write queue. -/
theorem works_queue (p : Part) {l : List Entry} (h : l.Sublist p.writeQueue) : p.Works { p with writeQueue := l } :=
  ⟨⟨⟨id, fun x => List.Pairwise.sublist h x, id⟩, rfl⟩, fun _ => ⟨_, _, _, rfl⟩⟩

theorem works_banks (p : Part) (v : Vector Bank 4) : p.Works { p with banks := v } := works_of_same rfl rfl rfl rfl

theorem works_posting (p : Part) (l : List ClientId) : p.Works { p with posting := l } := works_of_same rfl rfl rfl rfl

theorem works_wipeHold (p : Part) (l : List ClientId) : p.Works { p with wipeHold := l } := works_of_same rfl rfl rfl rfl

theorem works_zero (p : Part) (z : ZeroEngine) : p.Works { p with zero := z } := works_of_same rfl rfl rfl rfl

theorem works_scrub (p : Part) (current : Option (FrameId × Nat)) (timer : Option Nat) :
    p.Works { p with scrub := { p.scrub with current := current, timer := timer } } := works_of_same rfl rfl rfl rfl

theorem works_fills (p : Part) (l : List Fill) : p.Works { p with fills := l } := works_of_same rfl rfl rfl rfl

theorem works_answer (p : Part) (c : ClientId) (code tag : Byte) (st : Status) (body : List Byte) :
    p.Works (p.answer c code tag st body) := works_of_same rfl rfl rfl rfl

theorem works_notify (p : Part) (n : Notice) (c : ClientId) : p.Works (p.notify n c) :=
  works_modClient p c _

theorem works_notifyAll (p : Part) (n : Notice) (cs : List ClientId) : p.Works (p.notifyAll n cs) :=
  works_foldl _ (fun q c => works_notify q n c) cs p

theorem works_finish (p : Part) (c : ClientId) (st : Status) (body : List Byte) : p.Works (p.finish c st body) := by
  unfold Part.finish
  split
  · exact (works_answer _ _ _ _ _ _).after (works_modClient p c _)
  · exact .refl p

theorem works_execute (p : Part) (c : ClientId) (tag : Byte) (w : Work) : p.Works (p.execute c tag w) :=
  works_modClient p c _

theorem works_setWork (p : Part) (c : ClientId) (w : Work) : p.Works (p.setWork c w) :=
  works_modClient p c _

theorem works_modBank (p : Part) (b : BankId) (f : Bank → Bank) : p.Works (p.modBank b f) := works_banks p _

theorem works_modBanks (p : Part) (f : Bank → Bank) : p.Works (p.modBanks f) := works_banks p _

theorem works_setQueue (p : Part) (q : List FrameId) : p.Works (p.setQueue q) := works_of_same rfl rfl rfl rfl

theorem works_setEngine (p : Part) (e : EngineState) : p.Works (p.setEngine e) := works_of_same rfl rfl rfl rfl

theorem works_driveLines (p : Part) : p.Works p.driveLines :=
  works_clients _ rfl fun c => ⟨_, _, _, client_driveLines p c⟩

/-! ### The pool and the banks -/

theorem works_settleSpare (p : Part) (before : Pool) : p.Works (p.settleSpare before) := by
  unfold Part.settleSpare
  dsimp only
  split
  · exact (works_notify _ _ _).after (works_pool p (moves_topUp _))
  · exact works_pool p (moves_topUp _)

theorem works_withdrawOffers (p : Part) : p.Works p.withdrawOffers := by
  obtain ⟨b, h⟩ := reach_withdrawOffers p
  exact h ▸ works_banks p b

theorem works_arbitrate (p : Part) : p.Works p.arbitrate := by
  obtain ⟨b, h⟩ := reach_arbitrate p
  exact h ▸ works_banks p b

theorem works_disown (p : Part) (P : BankOp → Bool) : p.Works (p.disown P) := works_banks p _

theorem works_endCopy (p : Part) : p.Works p.endCopy := (works_disown _ _).after (works_modBanks p _)

theorem works_endWipeSteps (p : Part) (s : SlotId) : p.Works (p.endWipeSteps s) :=
  (works_disown _ _).after (works_modBanks p _)

/-! ### The access unit -/

theorem works_freeRegion (p : Part) (s : SlotId) : p.Works (p.freeRegion s) := by
  unfold Part.freeRegion
  split
  · split
    · refine (works_slots _ fun u r hr => .inr ?_).after (works_pool p (moves_vacateAll _ _))
      simp only [Part.region, tget_tmod] at hr
      split at hr
      · cases hr
      · exact ⟨r, hr, .refl _⟩
    · exact .refl p
  · exact .refl p

theorem works_endUse (p : Part) (s : SlotId) : p.Works (p.endUse s) :=
  (works_freeRegion _ s).after (works_modRegion p s _)

theorem works_finish_endUse (p : Part) (c : ClientId) (st : Status) (body : List Byte) (s : SlotId) :
    p.Works ((p.finish c st body).endUse s) := (works_endUse _ s).after (works_finish p c st body)

theorem works_proceedRead (p : Part) (c : ClientId) : p.Works (p.proceedRead c) := by
  unfold Part.proceedRead
  split
  · split
    · exact works_finish _ _ _ _
    · split
      · exact works_finish_endUse _ _ _ _ _
      · split
        · exact works_finish_endUse _ _ _ _ _
        · exact (works_modBank _ _ _).after (works_setWork p c _)
  · exact .refl p

theorem works_enterOrdering (p : Part) (c : ClientId) : p.Works (p.enterOrdering c) := by
  unfold Part.enterOrdering
  split
  · split
    · exact works_proceedRead p c
    · exact works_setWork p c _
  · exact .refl p

theorem works_leaveSet (e : Entry) (p : Part) (c : ClientId) : p.Works (p.leaveSet e c) := by
  unfold Part.leaveSet
  split
  · split
    · split
      · exact works_proceedRead p c
      · exact works_setWork p c _
    · exact .refl p
  · exact .refl p

theorem works_testFlush (p : Part) (c : ClientId) : p.Works (p.testFlush c) := by
  unfold Part.testFlush
  split
  · split
    · exact works_finish p c _ _
    · exact .refl p
  · exact .refl p

/-- R96, R98: an entry leaves the queue. -/
theorem works_entryLeaves (p : Part) (e : Entry) : p.Works (p.entryLeaves e) := by
  unfold Part.entryLeaves
  exact (works_foldl _ works_testFlush _ _).after <| (works_foldl _ (works_leaveSet e) _ _).after <|
    (works_endUse _ _).after <| (works_withdrawOffers _).after (works_queue p List.filter_sublist)

theorem works_discard (p : Part) (e : Entry) : p.Works (p.discard e) :=
  (works_entryLeaves _ e).after (works_disown p _)

/-- What the wait set of an access leaves out: an entry of its region that covers none of its lines (R86). -/
theorem waitSet_isEmpty (p : Part) (a : Access) :
    (p.waitSet a).isEmpty = true ↔
      ∀ e ∈ p.writeQueue, ¬ (e.handle.slot = a.handle.slot ∧ overlaps e.offset e.length a.offset a.length = true) := by
  simp [Part.waitSet]

/-- R91: what makes a WRITE postable. -/
theorem postable_iff (p : Part) (c : ClientId) :
    p.postable c = true ↔ ∃ a payload, p.work c = some (.write a payload .posting) ∧ p.writeQueue.length < 32 ∧
      (p.waitSet a).isEmpty = true := by
  unfold Part.postable
  split
  · rename_i a payload h
    rw [Bool.and_eq_true, decide_eq_true_eq, h]
    constructor
    · exact fun free => ⟨a, payload, rfl, free⟩
    · rintro ⟨b, payload, e, free⟩
      cases e
      exact free
  · rename_i other
    simp only [Bool.false_eq_true, false_iff]
    rintro ⟨a, payload, e, -⟩
    exact other a payload e

/-- R91, R92, R95: the entry of a postable WRITE has no line in common with an entry of the queue. -/
theorem works_post (p : Part) (c : ClientId) (free : p.postable c = true) : p.Works (p.post c) := by
  obtain ⟨a, payload, work, -, apart⟩ := (postable_iff p c).1 free
  unfold Part.post
  rw [work]
  dsimp only
  have posted : p.Works { p with
      posting := p.posting.filter (· != c)
      writeQueue := p.writeQueue ++ [⟨c, a.handle, a.offset, a.length, payload⟩] } := by
    refine ⟨⟨⟨id, fun old => ?_, id⟩, rfl⟩, fun _ => ⟨_, _, _, rfl⟩⟩
    refine List.pairwise_append.2 ⟨old, List.pairwise_singleton _ _, fun d hd e he => ?_⟩
    rw [List.mem_singleton.1 he]
    exact (waitSet_isEmpty p a).1 apart d hd
  have answered := (works_finish _ c .done []).after posted
  split
  · exact (works_discard _ _).after answered
  · exact answered

theorem works_postRounds (n : Nat) (p : Part) : p.Works (postRounds n p) := by
  induction n generalizing p with
  | zero => exact .refl p
  | succ n ih =>
    unfold postRounds
    split
    · exact .refl p
    · rename_i c found
      exact (works_post p c (List.find?_some found)).trans (ih _)

theorem works_postWrites (p : Part) : p.Works p.postWrites := works_postRounds _ p

theorem works_joinPosting (p : Part) (c : ClientId) : p.Works (p.joinPosting c) := by
  unfold Part.joinPosting
  split
  · exact (works_postWrites _).after <| (works_posting _ _).after (works_setWork p c _)
  · exact .refl p

theorem works_discardHomeless (p : Part) : p.Works p.discardHomeless :=
  (works_postWrites _).after (works_foldl _ works_discard _ _)

theorem works_drained (p : Part) (e : Entry) : p.Works (p.drained e) :=
  (works_postWrites _).after <| (works_entryLeaves _ e).after (works_modRegion p _ _ fun _ => List.filter_sublist)

theorem works_leaveHold (p : Part) (c : ClientId) : p.Works (p.leaveHold c) := by
  unfold Part.leaveHold
  split
  · exact works_enterOrdering p c
  · exact works_joinPosting p c
  · exact .refl p

theorem works_endHolds (p : Part) (slots : List SlotId) : p.Works (p.endHolds slots) :=
  (works_foldl _ works_leaveHold _ _).after (works_of_same rfl rfl rfl rfl)

theorem works_countUse (p : Part) (s : SlotId) : p.Works (p.countUse s) := works_modRegion p s _

theorem works_takeRead (p : Part) (c : ClientId) (code tag : Byte) (verify : Bool) (h : Handle) (offset length : Nat) :
    p.Works (p.takeRead c code tag verify h offset length) := by
  unfold Part.takeRead
  split
  · exact works_answer _ _ _ _ _ _
  · dsimp only
    split
    · exact (works_wipeHold _ _).after <| (works_execute _ c tag _).after (works_countUse p _)
    · exact (works_enterOrdering _ c).after <| (works_execute _ c tag _).after (works_countUse p _)

theorem works_takeWrite (p : Part) (c : ClientId) (code tag : Byte) (h : Handle) (offset length : Nat)
    (payload : List Byte) : p.Works (p.takeWrite c code tag h offset length payload) := by
  unfold Part.takeWrite
  split
  · exact works_answer _ _ _ _ _ _
  · dsimp only
    split
    · exact (works_wipeHold _ _).after <| (works_execute _ c tag _).after (works_countUse p _)
    · exact (works_joinPosting _ c).after <| (works_execute _ c tag _).after (works_countUse p _)

theorem works_takeFlush (p : Part) (c : ClientId) (code tag : Byte) (sel : FlushSelector) :
    p.Works (p.takeFlush c code tag sel) := by
  unfold Part.takeFlush
  split
  · exact (works_testFlush _ c).after (works_execute p c tag _)
  · split
    · exact works_answer _ _ _ _ _ _
    · exact (works_testFlush _ c).after (works_execute p c tag _)

theorem works_answerRead (p : Part) (c : ClientId) (conditions : List LineCondition) (data : List Byte) :
    p.Works (p.answerRead c conditions data) := by
  unfold Part.answerRead
  split
  · exact works_finish_endUse _ _ _ _ _
  · exact .refl p

theorem works_dropAccess (p : Part) (c : ClientId) : p.Works (p.dropAccess c) := by
  have dropped : p.Works { p with
      wipeHold := p.wipeHold.filter (· != c)
      posting := p.posting.filter (· != c) } := works_of_same rfl rfl rfl rfl
  unfold Part.dropAccess
  dsimp only
  split
  · exact (works_postWrites _).after <| (works_finish_endUse _ _ _ _ _).after dropped
  · exact (works_finish_endUse _ _ _ _ _).after dropped
  · exact (works_finish_endUse _ _ _ _ _).after dropped
  · exact (works_finish _ _ _ _).after dropped
  · exact .refl p

theorem works_cutRead (s : SlotId) (p : Part) (c : ClientId) : p.Works (p.cutRead s c) := by
  unfold Part.cutRead
  split
  · split
    · split
      · exact (works_finish_endUse _ _ _ _ _).after (works_modBanks p _)
      · exact .refl p
    · exact .refl p
  · exact .refl p

/-! ### The retirement unit and the migration engine -/

theorem works_joinQueue (p : Part) (f : FrameId) : p.Works (p.joinQueue f) := by
  unfold Part.joinQueue
  split
  · exact works_setQueue p _
  · exact .refl p

theorem works_refillQueue (p : Part) : p.Works p.refillQueue := works_setQueue p _

theorem works_leaveQueue (p : Part) (fs : List FrameId) : p.Works (p.leaveQueue fs) := works_setQueue p _

/-- A frame's record changed, its state one that is counted alike. -/
theorem works_modFrame (p : Part) (f : FrameId) (g : Frame → Frame)
    (counted : (g (p.frame f)).state.counted = (p.frame f).state.counted) : p.Works (p.modFrame f g) := by
  refine works_pool p (moves_frames _ _ fun y => ?_)
  rw [tget_tmod]
  split
  · rename_i e
    subst e
    exact counted
  · rfl

theorem works_doom (p : Part) (f : FrameId) : p.Works (p.doom f) :=
  (works_joinQueue _ f).after (works_modFrame p f _ rfl)

theorem works_startScrubTimer (p : Part) : p.Works p.startScrubTimer := works_of_same rfl rfl rfl rfl

theorem works_abandonScrub (p : Part) : p.Works p.abandonScrub :=
  (works_startScrubTimer _).after <| (works_scrub _ _ _).after <| (works_disown _ _).after (works_modBanks p _)

theorem works_checkScrub (p : Part) : p.Works p.checkScrub := by
  unfold Part.checkScrub
  split
  · split
    · exact works_abandonScrub p
    · exact .refl p
  · exact .refl p

theorem works_stopCopying (p : Part) : p.Works p.stopCopying := by
  unfold Part.stopCopying
  split
  · exact works_setEngine p _
  · exact .refl p

theorem works_abortMigration (p : Part) (s : SlotId) {st : FrameState} (uncounted : st.counted = false) :
    p.Works (p.abortMigration s st) := by
  unfold Part.abortMigration
  split
  · exact .refl p
  · exact (works_stopCopying _).after <| (works_pool _ (moves_leave _ _ uncounted)).after <| (works_endCopy _).after
      (works_modRegion p s _)

theorem works_switch (p : Part) (s : SlotId) (m : Migration) : p.Works (p.switch s m) := by
  unfold Part.switch
  split
  · exact .refl p
  · exact (works_stopCopying _).after <| (works_leaveQueue _ _).after <|
      (works_pool _ ((moves_enter _ _ s _ rfl).trans (moves_leave _ _ rfl))).after
        (works_modRegion p s _)

theorem works_abortAtWake (p : Part) (s : SlotId) : p.Works (p.abortAtWake s) := by
  unfold Part.abortAtWake
  split
  · exact .refl p
  · exact (works_switch _ s _).after (works_endCopy p)

theorem works_selectTarget (p : Part) (x : Place) (f t : FrameId) : p.Works (p.selectTarget x f t) := by
  unfold Part.selectTarget
  dsimp only
  generalize targeted : Part.modRegion _ x.slot _ = q
  have fielded : p.Works q := by
    rw [← targeted]
    exact (works_modRegion _ _ _).after (works_pool p (moves_enter _ t x.slot _ (st := .target) rfl))
  have settled := (works_settleSpare _ p.pool).after <| (works_checkScrub _).after <| (works_withdrawOffers _).after <|
    (works_setEngine _ .copying).after fielded
  split
  · exact (works_switch _ _ _).after settled
  · exact (works_modBank _ _ _).after settled

theorem works_lackTarget (p : Part) : p.Works p.lackTarget := by
  unfold Part.lackTarget
  split
  · exact works_setEngine p _
  · exact (works_setEngine _ _).after (works_notify p _ _)

theorem works_evaluateHead (p : Part) : p.Works p.evaluateHead := by
  unfold Part.evaluateHead
  split
  · exact works_setEngine p _
  · split
    · exact .refl p
    · split
      · exact works_setEngine p _
      · split
        · exact works_lackTarget p
        · exact works_selectTarget p _ _ _

theorem works_evaluateRounds (n : Nat) (p : Part) : p.Works (evaluateRounds n p) := by
  induction n generalizing p with
  | zero => exact .refl p
  | succ n ih =>
    unfold evaluateRounds
    dsimp only
    split
    · exact .refl p
    · split
      · exact works_evaluateHead p
      · exact (ih _).after <| (works_refillQueue _).after (works_evaluateHead p)

theorem works_evaluate (p : Part) : p.Works p.evaluate := by
  unfold Part.evaluate
  split
  · exact (works_evaluateRounds _ _).after (works_refillQueue p)
  · exact works_refillQueue p

theorem works_copyStepped (p : Part) : p.Works p.copyStepped := by
  unfold Part.copyStepped
  split
  · exact .refl p
  · dsimp only
    split
    · split
      · exact (works_modBank _ _ _).after (works_modRegion p _ _)
      · exact works_modRegion p _ _
    · exact (works_switch _ _ _).after (works_modRegion p _ _)

theorem works_settleForWipe (p : Part) (s : SlotId) : p.Works (p.settleForWipe s) := by
  unfold Part.settleForWipe
  split
  · exact .refl p
  · split
    · exact .refl p
    · dsimp only
      have aborted : p.Works (p.abortMigration s .dirty) := works_abortMigration p s rfl
      split
      · rename_i t _
        exact (works_settleSpare _ _).after <| (works_leaveQueue _ _).after <|
          (works_pool _ ((moves_enter _ t s _ (st := .held) rfl).trans (moves_leave _ _ (st := .retired) rfl))).after <|
          (works_modRegion _ s _).after aborted
      · exact (works_setQueue _ _).after aborted

/-! ### The region table -/

theorem works_endWait (w : Wait) (st : Status) (p : Part) (c : ClientId) : p.Works (p.endWait w st c) := by
  unfold Part.endWait
  split
  · split
    · exact works_finish p c _ _
    · exact .refl p
  · dsimp only
    split
    · exact works_finish p c _ _
    · exact works_setWork p c _
  · exact .refl p

theorem works_resolveWait (p : Part) (w : Wait) (st : Status) : p.Works (p.resolveWait w st) :=
  works_foldl _ (works_endWait w st) _ p

theorem works_abortWaits (p : Part) (s : SlotId) : p.Works (p.abortWaits s) :=
  (works_resolveWait _ _ _).after <| (works_resolveWait _ _ _).after (works_resolveWait p _ _)

theorem works_enterReleasing (p : Part) (s : SlotId) (r : Region) : p.Works (p.enterReleasing s r) := by
  have renamed : p.Works { p with slots := tmod p.slots s fun x => { x with generation := x.generation + 1 } } := by
    refine works_slots _ fun u r hr => .inr ⟨r, ?_, .refl _⟩
    simp only [Part.region, tget_tmod] at hr
    split at hr
    · rename_i e
      subst e
      exact hr
    · exact hr
  unfold Part.enterReleasing
  dsimp only
  exact (works_notifyAll _ _ _).after <| (works_modRegion _ s _).after <| (works_leaveQueue _ _).after <|
    (works_fills _ _).after <| (works_pool _ (moves_vacateAll _ _)).after <| (works_endWipeSteps _ s).after <|
    (works_abortMigration _ s rfl).after renamed

theorem works_endRelease (p : Part) (s : SlotId) : p.Works (p.endRelease s) :=
  (works_freeRegion _ s).after <| (works_endHolds _ _).after (works_abortWaits p s)

theorem works_releaseRegion (p : Part) (s : SlotId) (expired : Bool) : p.Works (p.releaseRegion s expired) := by
  unfold Part.releaseRegion
  split
  · exact .refl p
  · split
    · exact .refl p
    · dsimp only
      split
      · exact (works_endRelease _ s).after <| (works_notify _ _ _).after (works_enterReleasing p s _)
      · exact (works_endRelease _ s).after (works_enterReleasing p s _)

theorem works_beginRelease (p : Part) (s : SlotId) : p.Works (p.beginRelease s) := by
  unfold Part.beginRelease
  split
  · exact .refl p
  · split
    · exact .refl p
    · exact (works_abortWaits _ s).after (works_enterReleasing p s _)

theorem works_releaseRegions (p : Part) (slots : List SlotId) : p.Works (p.releaseRegions slots) :=
  (works_foldl _ works_freeRegion _ _).after <| (works_endHolds _ _).after (works_foldl _ works_beginRelease _ p)

theorem works_shrink (p : Part) (s : SlotId) (m : Nat) : p.Works (p.shrink s m) := by
  unfold Part.shrink
  split
  · exact .refl p
  · rename_i r _
    dsimp only
    have settled : p.Works (match r.migration with
        | some g => if m ≤ g.index then p.abortMigration s .dirty else p
        | none => p) := by
      split
      · split
        · exact works_abortMigration p s rfl
        · exact .refl p
      · exact .refl p
    exact (works_discardHomeless _).after <| (works_foldl _ (works_cutRead s) _ _).after <|
      (works_withdrawOffers _).after <| (works_modRegion _ s _ fun _ => List.filter_sublist).after <|
      (works_leaveQueue _ _).after <| (works_pool _ (moves_vacateAll _ _)).after settled

theorem works_wipeEntry (p : Part) (s : SlotId) (entry step : Nat) : p.Works (p.wipeEntry s entry step) := by
  unfold Part.wipeEntry
  split
  · exact (works_modBank _ _ _).after (works_modRegion p s _)
  · exact .refl p

theorem works_startWipe (p : Part) (s : SlotId) : p.Works (p.startWipe s) := by
  unfold Part.startWipe
  split
  · split
    · exact (works_wipeEntry _ _ _ _).after (works_settleForWipe p s)
    · exact .refl p
  · exact .refl p

theorem works_testWipes (p : Part) : p.Works p.testWipes := works_foldl _ works_startWipe _ p

theorem works_completeWipe (p : Part) (s : SlotId) : p.Works (p.completeWipe s) :=
  (works_endHolds _ _).after <| (works_resolveWait _ _ _).after (works_modRegion p s _ fun _ => List.nil_sublist _)

theorem works_wipeStepped (p : Part) (s : SlotId) : p.Works (p.wipeStepped s) := by
  unfold Part.wipeStepped
  split
  · split
    · split
      · exact works_wipeEntry _ _ _ _
      · split
        · exact works_wipeEntry _ _ _ _
        · exact works_completeWipe p s
    · exact .refl p
  · exact .refl p

/-! ### The zeroing engine -/

theorem works_zeroFrom (p : Part) (f : FrameId) (step : Nat) : p.Works (p.zeroFrom f step) :=
  (works_modBank _ _ _).after (works_zero _ _)

theorem works_selectZero (p : Part) : p.Works p.selectZero := by
  unfold Part.selectZero
  split
  · split
    · exact works_zeroFrom p _ _
    · exact .refl p
  · exact .refl p

theorem works_endZero (p : Part) (f : FrameId) : p.Works (p.endZero f) :=
  (works_disown _ _).after (works_modBank p _ _)

theorem works_checkZero (p : Part) : p.Works p.checkZero := by
  unfold Part.checkZero
  split
  · split
    · exact (works_endZero _ _).after (works_zero _ _)
    · exact .refl p
  · exact .refl p

theorem works_completeFill (p : Part) (x : Fill) : p.Works (p.completeFill x) := by
  unfold Part.completeFill
  dsimp only
  split
  · exact (works_resolveWait _ _ _).after <| (works_foldl _ works_joinQueue _ _).after <|
      (works_modRegion _ _ _).after (works_fills p _)
  · exact (works_resolveWait _ _ _).after <| (works_modRegion _ _ _).after (works_fills p _)

theorem works_completeFills (p : Part) : p.Works p.completeFills := works_foldl _ works_completeFill _ p

/-- R17: a CLAIMED frame that becomes HELD is counted as before. -/
theorem works_claimZeroed (p : Part) (f : FrameId) (claimed : (p.frame f).state = .claimed) :
    p.Works (p.claimZeroed f) :=
  (works_completeFills _).after <| (works_joinQueue _ f).after (works_modFrame p f _ (by rw [claimed]; rfl))

theorem works_frameZeroed (p : Part) (f : FrameId) : p.Works (p.frameZeroed f) := by
  have dropped : p.Works { p with zero := ⟨none, 0⟩ } := works_of_same rfl rfl rfl rfl
  unfold Part.frameZeroed
  dsimp only
  split
  · exact (works_pool _ (moves_refill _ f)).after dropped
  · rename_i claimed
    exact (works_claimZeroed _ f claimed).after dropped
  · exact dropped

theorem works_zeroStepped (p : Part) (f : FrameId) (step : Nat) : p.Works (p.zeroStepped f step) := by
  unfold Part.zeroStepped
  split
  · split
    · exact works_zeroFrom p _ _
    · exact works_of_same rfl rfl rfl rfl
  · exact works_frameZeroed p f

theorem works_react (p : Part) : p.Works p.react :=
  (works_evaluate _).after <| (works_checkZero _).after (works_testWipes p)

/-! ### Evictions and the close of an act -/

theorem works_abortAnswers (p : Part) (c : ClientId) (l : List Queued) :
    p.Works (l.foldl (fun q x => q.answer c x.request.code x.tag .aborted []) p) :=
  works_foldl _ (fun q (x : Queued) => works_answer q c x.request.code x.tag .aborted []) l p

theorem runs_abortQueue (p : Part) (c : ClientId) : p.Runs (p.abortQueue c) :=
  (runs_modClient _ c _).after (works_abortAnswers p c _).toRuns

theorem works_abortClose (p : Part) (d : ClientId) : p.Works (p.abortClose d) := by
  unfold Part.abortClose
  split
  · exact works_finish p d _ _
  · exact .refl p

theorem runs_departs (p : Part) (c : ClientId) : p.Runs (p.departs c) :=
  (runs_modClient _ c _).after (works_releaseRegions p _).toRuns

theorem runs_completeEviction (p : Part) (c d : ClientId) : p.Runs (p.completeEviction c d) :=
  (works_finish _ _ _ _).toRuns.after <| (works_notify _ _ _).toRuns.after <| (runs_modClient _ d _).after <|
    (works_react _).toRuns.after <| (runs_departs _ d).after <| (works_abortClose _ d).toRuns.after (runs_abortQueue p d)

theorem runs_testEviction (p : Part) : p.Runs p.testEviction := by
  unfold Part.testEviction
  split
  · split
    · exact .refl p
    · exact runs_completeEviction p _ _
  · exact .refl p

/-- THE ENGINES OF AN ACT run. -/
theorem runs_engines (p : Part) : p.Runs p.engines := by
  unfold Part.engines
  dsimp only
  have reacted := (works_react _).toRuns.after (runs_testEviction p)
  split
  · exact (works_selectZero _).toRuns.after <| (works_checkScrub _).toRuns.after reacted
  · exact (works_selectZero _).toRuns.after reacted

end Sys2Proof.Machine
end

section
/-! PROOFS. What requests, events and time keep: the claim counts (R4), the disjoint entries (R95), the bounded poison lists
(R38) and the notice lines (R115), by one lemma that says what a step can do to the part. -/

namespace Sys2Proof.Machine

set_option Elab.async false

/-! ### Requests -/

theorem keeps_answer (p : Part) (c : ClientId) (code tag : Byte) (st : Status) (body : List Byte) :
    p.Keeps (p.answer c code tag st body) := keeps_of_same rfl rfl rfl

theorem keeps_modClient (p : Part) (c : ClientId) (f : Client → Client) : p.Keeps (p.modClient c f) :=
  keeps_of_same rfl rfl rfl

theorem keeps_setPower (p : Part) (x : Power) : p.Keeps { p with power := x } := keeps_of_same rfl rfl rfl

theorem keeps_setScrub (p : Part) (x : Scrub) : p.Keeps { p with scrub := x } := keeps_of_same rfl rfl rfl

theorem keeps_startIdle (p : Part) : p.Keeps p.startIdle := keeps_setPower p _

/-- R47: the record that a grant writes has no poisoned offset. -/
theorem keeps_placeGrant {p : Part} (c : ClientId) (n : Nat) (k : RegionClass) (lease : Option Half) (s : SlotId)
    {a : Allocation} (moved : p.pool.Moves a.pool) : p.Keeps (p.placeGrant c n k lease s a).part := by
  have filled := (works_fills _ (if a.fill then p.fills ++ [⟨s, false⟩] else p.fills)).after (works_pool p moved)
  have placed : p.Works (p.placeGrant c n k lease s a).part := by
    refine (works_slots _ fun u r hr => ?_).after filled
    simp only [Part.region, tget_tmod] at hr
    split at hr
    · cases hr
      exact .inl rfl
    · exact .inr ⟨r, hr, .refl _⟩
  exact placed.toKeeps

theorem keeps_applyGrant {p : Part} {c : ClientId} {size : Byte} {k : RegionClass} {lease : Option Half} {a : Applied}
    (h : p.applyGrant c size k lease = .ok a) : p.Keeps a.part := by
  unfold Part.applyGrant at h
  split at h
  · cases h
  · split at h
    · cases h
    · split at h
      · cases h
      · rename_i allocated
        cases h
        exact keeps_placeGrant _ _ _ _ _ (moves_allocate allocated)

theorem keeps_applyRelease {p : Part} {c : ClientId} {x : Handle} {a : Applied} (h : p.applyRelease c x = .ok a) :
    p.Keeps a.part := by
  unfold Part.applyRelease at h
  split at h
  · cases h
  · cases h
    exact (works_releaseRegion p _ _).toKeeps

theorem keeps_placeGrow {p : Part} (s : SlotId) (m : Nat) {a : Allocation} (moved : p.pool.Moves a.pool) :
    p.Keeps (p.placeGrow s m a).part := by
  unfold Part.placeGrow
  dsimp only
  split
  · exact ((works_modRegion _ s _).after <| (works_fills _ _).after (works_pool p moved)).toKeeps
  · exact ((works_modRegion _ s _).after (works_pool p moved)).toKeeps

theorem keeps_applyResize {p : Part} {c : ClientId} {x : Handle} {size : Byte} {a : Applied}
    (h : p.applyResize c x size = .ok a) : p.Keeps a.part := by
  unfold Part.applyResize at h
  dsimp only at h
  split at h
  · cases h
  · split at h
    · cases h
    · split_ifs at h
      · cases h
        exact .refl p
      · cases h
        exact (works_shrink p _ _).toKeeps
      · split at h
        · cases h
        · split at h
          · cases h
          · rename_i allocated
            cases h
            exact keeps_placeGrow _ _ (moves_allocate allocated)

theorem keeps_applyHandover {p : Part} {c d : ClientId} {x : Handle} {a : Applied}
    (h : p.applyHandover c x d = .ok a) : p.Keeps a.part := by
  unfold Part.applyHandover at h
  split at h
  · cases h
  · split at h
    · cases h
    · cases h
      exact ((works_notify _ _ _).after (works_modRegion p _ _)).toKeeps

theorem keeps_applyShare {p : Part} {c : ClientId} {x : Handle} {base mask : Fin 8} {right : Right} {a : Applied}
    (h : p.applyShare c x base mask right = .ok a) : p.Keeps a.part := by
  unfold Part.applyShare at h
  split at h
  · cases h
  · split at h
    · cases h
    · cases h
      exact (works_modRegion p _ _).toKeeps

theorem keeps_applyUnshare {p : Part} {c : ClientId} {x : Handle} {base mask : Fin 8} {a : Applied}
    (h : p.applyUnshare c x base mask = .ok a) : p.Keeps a.part := by
  unfold Part.applyUnshare at h
  split at h
  · cases h
  · split at h
    · cases h
    · cases h
      exact ((works_notifyAll _ _ _).after (works_modRegion p _ _)).toKeeps

theorem keeps_applyLock {p : Part} {c : ClientId} {x : Handle} {a : Applied} (h : p.applyLock c x = .ok a) :
    p.Keeps a.part := by
  unfold Part.applyLock at h
  split at h
  · cases h
  · split at h
    · cases h
      exact .refl p
    · cases h
    · cases h
    · split at h
      · cases h
      · cases h
        exact (works_modRegion p _ _).toKeeps

theorem keeps_applyUnlock {p : Part} {c : ClientId} {x : Handle} {a : Applied} (h : p.applyUnlock c x = .ok a) :
    p.Keeps a.part := by
  unfold Part.applyUnlock at h
  split at h
  · cases h
  · split at h
    · cases h
    · cases h
    · split at h
      · cases h
        exact (works_modRegion p _ _).toKeeps
      · cases h
    · cases h
      exact .refl p

theorem keeps_applyWipe {p : Part} {c : ClientId} {x : Handle} {a : Applied} (h : p.applyWipe c x = .ok a) :
    p.Keeps a.part := by
  unfold Part.applyWipe at h
  split at h
  · cases h
  · split at h
    · cases h
    · cases h
      exact (works_modRegion p _ _).toKeeps

/-- A region command that passes its checks keeps the invariants. -/
theorem keeps_apply {p : Part} {c : ClientId} {cmd : RegionCommand} {a : Applied} (h : p.apply c cmd = .ok a) :
    p.Keeps a.part := by
  cases cmd with
  | grant => exact keeps_applyGrant h
  | release => exact keeps_applyRelease h
  | resize => exact keeps_applyResize h
  | handover => exact keeps_applyHandover h
  | share => exact keeps_applyShare h
  | unshare => exact keeps_applyUnshare h
  | lock => exact keeps_applyLock h
  | unlock => exact keeps_applyUnlock h
  | wipe => exact keeps_applyWipe h

theorem keeps_serveCommand (p : Part) (c : ClientId) (tag : Byte) (cmd : RegionCommand) :
    p.Keeps (p.serveCommand c tag cmd) := by
  unfold Part.serveCommand
  split
  · exact keeps_answer _ _ _ _ _ _
  · rename_i applied
    split
    · exact (keeps_modClient _ _ _).after (keeps_apply applied)
    · exact (keeps_answer _ _ _ _ _ _).after (keeps_apply applied)

theorem keeps_stage (p : Part) (c : ClientId) (tag : Byte) (staged : List RegionCommand) (cmd : RegionCommand) :
    p.Keeps (p.stage c tag staged cmd) := by
  unfold Part.stage
  split_ifs <;> exact keeps_of_same rfl rfl rfl

theorem keeps_serveRegion (p : Part) (c : ClientId) (tag : Byte) (cmd : RegionCommand) :
    p.Keeps (p.serveRegion c tag cmd) := by
  unfold Part.serveRegion
  split
  · exact keeps_stage p c tag _ cmd
  · exact keeps_serveCommand p c tag cmd

theorem keeps_serveRenew (p : Part) (c : ClientId) (tag : Byte) (h : Handle) : p.Keeps (p.serveRenew c tag h) := by
  unfold Part.serveRenew
  split
  · exact keeps_answer _ _ _ _ _ _
  · split
    · exact keeps_answer _ _ _ _ _ _
    · exact (keeps_answer _ _ _ _ _ _).after (works_modRegion p _ _).toKeeps

theorem keeps_serveDescribe (p : Part) (c : ClientId) (tag : Byte) (h : Handle) (page : Byte) :
    p.Keeps (p.serveDescribe c tag h page) := by
  unfold Part.serveDescribe
  split
  · exact keeps_answer _ _ _ _ _ _
  · split <;> exact keeps_answer _ _ _ _ _ _

/-- R75: each position of a batch keeps the invariants, and so do all that pass. -/
theorem keeps_closeRounds (c : ClientId) (cmds : List RegionCommand) {k k' : Closing}
    (h : closeRounds c cmds k = .ok k') : k.part.Keeps k'.part := by
  induction cmds generalizing k with
  | nil =>
    cases h
    exact .refl _
  | cons cmd rest ih =>
    unfold closeRounds at h
    dsimp only at h
    split at h
    · cases h
    · rename_i applied
      split at h
      · cases h
      · exact (keeps_apply applied).trans (ih h)

theorem keeps_serveBatchClose (p : Part) (c : ClientId) (tag : Byte) : p.Keeps (p.serveBatchClose c tag) := by
  unfold Part.serveBatchClose
  split
  · exact keeps_answer _ _ _ _ _ _
  · dsimp only
    have taken : p.Keeps (p.setBatch c none) := keeps_modClient p c _
    split
    · exact (keeps_answer _ _ _ _ _ _).after taken
    · rename_i closed
      have closing := taken.trans (keeps_closeRounds c _ closed)
      split
      · exact (keeps_answer _ _ _ _ _ _).after closing
      · exact (keeps_modClient _ _ _).after closing

theorem keeps_serveBatchOpen (p : Part) (c : ClientId) (tag : Byte) : p.Keeps (p.serveBatchOpen c tag) := by
  unfold Part.serveBatchOpen
  split <;> exact keeps_of_same rfl rfl rfl

theorem keeps_serveBatchDrop (p : Part) (c : ClientId) (tag : Byte) : p.Keeps (p.serveBatchDrop c tag) := by
  unfold Part.serveBatchDrop
  split <;> exact keeps_of_same rfl rfl rfl

theorem keeps_serveAttach (p : Part) (c : ClientId) (tag : Byte) : p.Keeps (p.serveAttach c tag) := by
  unfold Part.serveAttach
  split <;> exact keeps_of_same rfl rfl rfl

theorem keeps_serveHealth (p : Part) (c : ClientId) (tag : Byte) (page : HealthPage) (argument : Half) :
    p.Keeps (p.serveHealth c tag page argument) := by
  unfold Part.serveHealth
  cases page with
  | summary | temperature => exact keeps_of_same rfl rfl rfl
  | frame => dsimp only; split <;> exact keeps_answer _ _ _ _ _ _
  | retired | segments => dsimp only; split <;> exact keeps_answer _ _ _ _ _ _

/-- R9: the spare target with the pool that follows it. -/
theorem keeps_setSpareTarget (p : Part) (v : Nat) : p.Keeps (p.setSpareTarget v) := by
  have targeted : p.Keeps { p with pool := { p.pool with spareTarget := v } } := ⟨id, id, id⟩
  unfold Part.setSpareTarget
  dsimp only
  split
  · exact (works_settleSpare _ _).toKeeps.after targeted
  · exact (works_pool _ (moves_shed _)).toKeeps.after targeted

theorem keeps_setScrubInterval (p : Part) (v : Nat) : p.Keeps (p.setScrubInterval v) := by
  unfold Part.setScrubInterval
  dsimp only
  split_ifs <;> exact keeps_of_same rfl rfl rfl

theorem keeps_configured (p : Part) (c : ClientId) (tag : Byte) (inRange : Bool) {changed : Part}
    (h : p.Keeps changed) : p.Keeps (p.configured c tag inRange changed) := by
  unfold Part.configured
  split
  · exact (keeps_answer _ _ _ _ _ _).after h
  · exact keeps_answer _ _ _ _ _ _

theorem keeps_configureQuota (p : Part) (c : ClientId) (tag client : Byte) (v : Nat) :
    p.Keeps (p.configureQuota c tag client v) := by
  unfold Part.configureQuota
  split
  · exact keeps_answer _ _ _ _ _ _
  · split_ifs <;> exact keeps_of_same rfl rfl rfl

theorem keeps_serveConfigure (p : Part) (c : ClientId) (tag selector client : Byte) (value : Half) :
    p.Keeps (p.serveConfigure c tag selector client value) := by
  unfold Part.serveConfigure
  dsimp only
  split
  · exact keeps_configured _ _ _ _ (keeps_setSpareTarget p _)
  · exact keeps_configured _ _ _ _ (keeps_of_same rfl rfl rfl)
  · exact keeps_configured _ _ _ _ (keeps_of_same rfl rfl rfl)
  · exact keeps_configured _ _ _ _ (keeps_setScrubInterval p _)
  · exact keeps_configured _ _ _ _ (keeps_of_same rfl rfl rfl)
  · exact keeps_configureQuota _ _ _ _ _
  · exact keeps_answer _ _ _ _ _ _

theorem keeps_serveEvict (p : Part) (c : ClientId) (tag client : Byte) : p.Keeps (p.serveEvict c tag client) := by
  unfold Part.serveEvict
  split
  · exact keeps_answer _ _ _ _ _ _
  · split
    · exact keeps_answer _ _ _ _ _ _
    · exact ((works_execute _ c tag _).toRuns.after <| (works_dropAccess _ _).toRuns.after <| (runs_abortQueue _ _).after
        (runs_modClient p _ _)).toKeeps

theorem keeps_retireFrame (p : Part) (f : FrameId) : p.Keeps (p.retireFrame f) := by
  unfold Part.retireFrame
  dsimp only
  split
  · exact (works_pool p (moves_leave _ f rfl)).toKeeps
  · exact ((works_settleSpare _ _).after (works_pool p (moves_leave _ f rfl))).toKeeps
  · exact (works_pool p (moves_leave _ f rfl)).toKeeps
  · split
    · exact .refl p
    · exact (works_doom p f).toKeeps
  · split
    · exact .refl p
    · exact (works_doom p f).toKeeps
  · split
    · exact (works_abortMigration p _ rfl).toKeeps
    · exact .refl p
  · exact .refl p

theorem keeps_serveRetire (p : Part) (c : ClientId) (tag : Byte) (frame : Half) : p.Keeps (p.serveRetire c tag frame) := by
  unfold Part.serveRetire
  split
  · exact (keeps_answer _ _ _ _ _ _).after <| (works_react _).toKeeps.after (keeps_retireFrame p _)
  · exact keeps_answer _ _ _ _ _ _

theorem keeps_enterStandby (p : Part) : p.Keeps p.enterStandby := by
  unfold Part.enterStandby
  dsimp only
  split <;> exact keeps_of_same rfl rfl rfl

theorem keeps_enterDown (p : Part) : p.Keeps p.enterDown := by
  unfold Part.enterDown
  dsimp only
  split <;> exact keeps_of_same rfl rfl rfl

theorem keeps_serveStandby (p : Part) (c : ClientId) (tag : Byte) : p.Keeps (p.serveStandby c tag) := by
  unfold Part.serveStandby
  split
  · exact (keeps_enterStandby _).after (keeps_answer _ _ _ _ _ _)
  · exact keeps_answer _ _ _ _ _ _

theorem keeps_servePowerdown (p : Part) (c : ClientId) (tag : Byte) : p.Keeps (p.servePowerdown c tag) := by
  unfold Part.servePowerdown
  split
  · exact (keeps_enterDown _).after (keeps_answer _ _ _ _ _ _)
  · exact keeps_answer _ _ _ _ _ _

/-- R184: a soft reset leaves nothing that an invariant speaks of: no counted frame, no entry, no region. -/
theorem keeps_clearForReset (p : Part) : p.Keeps p.clearForReset := by
  have cleared : p.clearForReset.writeQueue = [] ∧
      p.clearForReset.slots = tmap Slot.softReset p.slots := by
    unfold Part.clearForReset
    dsimp only
    split <;> exact ⟨rfl, rfl⟩
  obtain ⟨queue, slots⟩ := cleared
  refine ⟨fun _ => ?_, fun _ => ?_, fun _ u r hr => ?_⟩
  · rw [clearForReset_pool]
    refine claimsAgree_of_none rfl fun f => ?_
    rw [tget_tmap]
    exact softReset_not_counted _
  · rw [queue]
    exact .nil
  · rw [Part.region, slots, tget_tmap] at hr
    cases hr

theorem keeps_serveReset (p : Part) (c : ClientId) (tag : Byte) : p.Keeps (p.serveReset c tag) := by
  obtain ⟨x, told⟩ := reach_serveReset p c tag
  rw [told]
  exact (keeps_clearForReset p).trans (keeps_of_same rfl rfl rfl)

/-- Whatever request is served, the invariants are kept. -/
theorem keeps_serve (p : Part) (c : ClientId) (tag : Byte) (r : Request) : p.Keeps (p.serve c tag r) := by
  cases r with
  | attach => exact keeps_serveAttach p c tag
  | detach => exact (keeps_answer _ _ _ _ _ _).after (runs_departs p c).toKeeps
  | notices => exact keeps_of_same rfl rfl rfl
  | identify => exact keeps_answer _ _ _ _ _ _
  | health => exact keeps_serveHealth p c tag _ _
  | command => exact keeps_serveRegion p c tag _
  | renew => exact keeps_serveRenew p c tag _
  | describe => exact keeps_serveDescribe p c tag _ _
  | list => exact keeps_answer _ _ _ _ _ _
  | read => exact (works_takeRead p c _ tag _ _ _ _).toKeeps
  | write => exact (works_takeWrite p c _ tag _ _ _ _).toKeeps
  | verify => exact (works_takeRead p c _ tag _ _ _ _).toKeeps
  | flush => exact (works_takeFlush p c _ tag _).toKeeps
  | batchOpen => exact keeps_serveBatchOpen p c tag
  | batchClose => exact keeps_serveBatchClose p c tag
  | batchDrop => exact keeps_serveBatchDrop p c tag
  | configure => exact keeps_serveConfigure p c tag _ _ _
  | evict => exact keeps_serveEvict p c tag _
  | retire => exact keeps_serveRetire p c tag _
  | standby => exact keeps_serveStandby p c tag
  | powerdown => exact keeps_servePowerdown p c tag
  | reset => exact keeps_serveReset p c tag

theorem keeps_take (p : Part) (c : ClientId) (tag : Byte) (r : Request) : p.Keeps (p.take c tag r) := by
  have idled : p.Keeps (if p.power.state == .active then p.startIdle else p) := by
    split
    · exact keeps_startIdle p
    · exact .refl p
  unfold Part.take
  dsimp only
  split
  · exact (keeps_answer _ _ _ _ _ _).after idled
  · exact (keeps_serve _ c tag r).after idled

theorem keeps_takeRounds (n : Nat) (p : Part) : p.Keeps (takeRounds n p) := by
  induction n generalizing p with
  | zero => exact .refl p
  | succ n ih =>
    unfold takeRounds
    split
    · exact (ih _).after <| (runs_engines _).toKeeps.after <| (keeps_take _ _ _ _).after (keeps_modClient p _ _)
    · exact .refl p

/-- THE CLOSE OF AN ACT keeps the invariants. -/
theorem keeps_closeAct (p : Part) : p.Keeps p.closeAct := by
  rw [closeAct_eq]
  exact (works_driveLines _).toKeeps.after <| (works_arbitrate _).toKeeps.after <| (keeps_takeRounds _ _).after
    (runs_engines p).toKeeps

theorem keeps_arrive (p : Part) (c : ClientId) (tag : Byte) (r : Request) : p.Keeps (p.arrive c tag r) := by
  have queued : p.Keeps (p.enqueue c tag r) := by
    unfold Part.enqueue
    dsimp only
    split
    · exact keeps_of_same rfl rfl rfl
    · split <;> exact keeps_of_same rfl rfl rfl
    · exact keeps_of_same rfl rfl rfl
  unfold Part.arrive
  split_ifs
  · exact .refl p
  · exact keeps_answer _ _ _ _ _ _
  · exact keeps_answer _ _ _ _ _ _
  · exact (keeps_closeAct _).after (keeps_take p c tag r)
  · exact (keeps_closeAct _).after queued

/-! ### Reports of lines -/

/-- R38: a record whose region stands in its slot is damaged within its bounds. -/
theorem keeps_damage (p : Part) (x : Place) (offset : Nat) (stands : p.region x.slot = some x.region) :
    p.Keeps (p.damage x offset) := by
  rcases damage_cases p x offset with ⟨-, new, few, e⟩ | ⟨-, -, -, e⟩ | ⟨-, e⟩
  · rw [e]
    refine (works_notifyAll _ _ _).toKeeps.after ⟨id, id, fun h u r hr => ?_⟩
    rw [region_modRegion] at hr
    split at hr
    · rw [stands] at hr
      cases hr
      obtain ⟨ascend, -⟩ := h x.slot x.region stands
      exact ⟨pairwise_insertOffset _ _ ascend new, by simpa using few⟩
    · exact h u r hr
  · rw [e]
    exact ((works_notifyAll _ _ _).after (works_modRegion p _ _)).toKeeps
  · rw [e]
    exact .refl p

/-- R24: what a frame's place names stands in the region table. -/
theorem region_placeOf {p : Part} {f : FrameId} {x : Place} (h : p.placeOf f = some x) :
    p.region x.slot = some x.region := by
  unfold Part.placeOf at h
  obtain ⟨s, -, h⟩ := Option.bind_eq_some_iff.1 h
  obtain ⟨r, stands, h⟩ := Option.bind_eq_some_iff.1 h
  obtain ⟨i, -, rfl⟩ := Option.map_eq_some_iff.1 h
  exact stands

theorem keeps_setRetire (p : Part) (x : Retirement) : p.Keeps { p with retire := x } := keeps_of_same rfl rfl rfl

theorem keeps_reportCorrected (p : Part) (f : FrameId) (line : Nat) : p.Keeps (p.reportCorrected f line) := by
  unfold Part.reportCorrected
  dsimp only
  split
  · exact (works_doom _ f).toKeeps.after <| (keeps_setRetire _ _).after (works_modFrame p f _ rfl).toKeeps
  · exact (keeps_setRetire _ _).after (works_modFrame p f _ rfl).toKeeps

theorem keeps_reportUncorrectable (p : Part) (f : FrameId) (line : Nat) : p.Keeps (p.reportUncorrectable f line) := by
  unfold Part.reportUncorrectable
  dsimp only
  generalize counted : ({ Part.modFrame p f _ with retire := _ } : Part) = q
  have raised : p.Keeps q := by
    rw [← counted]
    exact (keeps_setRetire _ _).after (works_modFrame p f _ rfl).toKeeps
  have doomed : p.Keeps (if (q.frame f).condemnable then q.doom f else q) := by
    split
    · exact (works_doom q f).toKeeps.after raised
    · exact raised
  split
  · rename_i place
    exact (keeps_damage _ _ _ (region_placeOf place)).after doomed
  · exact doomed

theorem keeps_reportLines (p : Part) (f : FrameId) (line n : Nat) (conditions : List LineCondition) :
    p.Keeps (p.reportLines f line n conditions) := by
  refine keeps_foldl _ (fun q k => ?_) _ p
  unfold Part.reportLine
  split
  · exact .refl q
  · exact keeps_reportCorrected q f _
  · exact keeps_reportUncorrectable q f _

/-! ### Events -/

theorem keeps_idleExpiry (p : Part) : p.Keeps p.idleExpiry := by
  unfold Part.idleExpiry
  split
  · exact keeps_enterStandby p
  · exact keeps_startIdle p

theorem keeps_scrubExpiry (p : Part) : p.Keeps p.scrubExpiry := by
  unfold Part.scrubExpiry
  split <;> exact keeps_of_same rfl rfl rfl

theorem keeps_scrubStepped (p : Part) (f : FrameId) (step : Nat) : p.Keeps (p.scrubStepped f step) := by
  unfold Part.scrubStepped
  dsimp only
  split_ifs <;> exact keeps_of_same rfl rfl rfl

theorem keeps_sample (p : Part) (t : Int) : p.Keeps (p.sample t) := by
  unfold Part.sample
  dsimp only
  split
  · exact (works_notifyAll _ _ _).toKeeps.after (keeps_of_same rfl rfl rfl)
  · exact keeps_of_same rfl rfl rfl

theorem works_loseRegion (p : Part) (s : SlotId) : p.Works (p.loseRegion s) := by
  unfold Part.loseRegion
  split
  · exact (works_abortAtWake _ s).after <| (works_notify _ _ _).after (works_modRegion p s _)
  · exact .refl p

theorem works_resumeZero (p : Part) (masked : List SegId) : p.Works (p.resumeZero masked) := by
  unfold Part.resumeZero
  split
  · exact .refl p
  · split_ifs
    · exact (works_zeroFrom _ _ _).after (works_endZero p _)
    · exact .refl p
    · exact works_zeroFrom p _ _

theorem works_resumeScrub (p : Part) : p.Works p.resumeScrub := by
  unfold Part.resumeScrub
  split
  · exact .refl p
  · split
    · exact works_abandonScrub p
    · split
      · exact .refl p
      · exact works_modBank p _ _

theorem works_resumeCopy (p : Part) : p.Works p.resumeCopy := by
  unfold Part.resumeCopy
  split
  · split
    · exact .refl p
    · exact works_modBank p _ _
  · exact .refl p

/-- R170, R171: a wake from STANDBY. -/
theorem keeps_wakeFromStandby (p : Part) : p.Keeps p.wakeFromStandby := by
  unfold Part.wakeFromStandby
  dsimp only
  have settled := (works_settleSpare _ (p.slotsLost.foldl Part.loseRegion p).pool).after <|
    (works_pool _ (moves_dirtyMasked _ p.power.masked)).after (works_foldl _ works_loseRegion p.slotsLost p)
  exact (keeps_startIdle _).after <| (works_resumeCopy _).toKeeps.after <| (works_resumeScrub _).toKeeps.after <|
    (works_resumeZero _ _).toKeeps.after <| (keeps_setPower _ _).after settled.toKeeps

/-- R174: a wake from DOWN. -/
theorem keeps_wakeFromDown (p : Part) : p.Keeps p.wakeFromDown := by
  have dirtied : p.Keeps { p with pool := p.pool.dirtyAll } := ⟨fun _ => claimsAgree_dirtyAll _, id, id⟩
  have dropped : ∀ q : Part, q.Works q.dropZero := by
    intro q
    unfold Part.dropZero
    split
    · exact (works_endZero _ _).after (works_zero _ _)
    · exact .refl q
  unfold Part.wakeFromDown
  dsimp only
  exact (keeps_startIdle _).after <| (works_startScrubTimer _).toKeeps.after <| (works_modBanks _ _).toKeeps.after <|
    (dropped _).toKeeps.after <| (keeps_setPower _ _).after <| (works_settleSpare _ _).toKeeps.after dirtied

theorem works_homeCursors (p : Part) : p.Works p.homeCursors := works_foldl _ (fun q b => works_modBank q b _) _ p

theorem keeps_endTraining (p : Part) : p.Keeps p.endTraining :=
  (keeps_startIdle _).after <| (works_startScrubTimer _).toKeeps.after <| (works_modBanks _ _).toKeeps.after <|
    (works_homeCursors _).toKeeps.after (keeps_setPower p _)

/-- A change of records that leaves every poison list. -/
theorem keeps_tmapRegions (p : Part) (f : Region → Region) (same : ∀ r, (f r).poison = r.poison) :
    p.Keeps { p with slots := tmap (fun x => { x with region := x.region.map f }) p.slots } := by
  refine (works_slots _ fun u r hr => .inr ?_).toKeeps
  rw [Part.region, tget_tmap] at hr
  obtain ⟨x, hx, rfl⟩ := Option.map_eq_some_iff.1 hr
  exact ⟨x, hx, by rw [same]⟩

theorem keeps_enterReset (p : Part) (h : Hold) : p.Keeps (p.enterReset h) := by
  unfold Part.enterReset
  exact (works_driveLines _).toKeeps.after <| 
    (keeps_tmapRegions p Region.entersReset fun _ => rfl).trans (keeps_of_same rfl rfl rfl)

theorem keeps_tick (s : State) : s.part.Keeps (tick s).part := by
  have counted : ∀ p : Part, p.Keeps p.countSlots := fun p => (works_modBanks p _).toKeeps
  have beat : ∀ p : Part, p.Keeps p.countMillisecond := by
    intro p
    unfold Part.countMillisecond
    dsimp only
    split
    · have leases : p.Keeps p.countLeases := keeps_tmapRegions p _ fun r => by split <;> rfl
      exact leases.trans (keeps_of_same rfl rfl rfl)
    · exact keeps_of_same rfl rfl rfl
  unfold tick
  split
  · exact .refl _
  · dsimp only
    split
    · exact (counted s.part).trans (keeps_of_same rfl rfl rfl)
    · exact (counted s.part).trans <| (beat _).trans (keeps_of_same rfl rfl rfl)

/-! ### What a step does to the part -/

/-- What a command can do to the part: nothing; an answer MALFORMED; the arrival of a request; the change of an event, which
keeps the invariants, with the close of the act; the entry into reset; the release of a reset. -/
inductive Part.Acts (p : Part) : Part → Prop
  | same : Part.Acts p p
  | malformed (c : ClientId) (code tag : Byte) : Part.Acts p (p.answer c code tag .malformed [])
  | arrives (c : ClientId) (tag : Byte) (r : Request) : Part.Acts p (p.arrive c tag r)
  | closes {q : Part} (change : p.Keeps q) : Part.Acts p q.closeAct
  | enters (h : Hold) : Part.Acts p (p.enterReset h)
  | leaves (h : Hold) : Part.Acts p (Part.reset (h.frames p.pool.frames) h.cause)

theorem acts_arrivePacket (p : Part) (stamp : Byte) (rest : List Byte) : p.Acts (p.arrivePacket stamp rest) := by
  unfold Part.arrivePacket
  split
  · exact .same
  · split
    · exact .malformed _ _ _
    · exact .arrives _ _ _

/-- An event that happens on a condition. -/
theorem acts_event {s : State} {b : Bool} {q : Part} (change : s.part.Keeps q) :
    s.part.Acts (if b then s.withPart q.closeAct else s).part := by
  split
  · exact .closes change
  · exact .same

/-- A completion of an operation, live or given up by its issuer. -/
theorem acts_completion {p q r : Part} {live : Bool} (given : p.Keeps r) (lived : r.Keeps q) :
    p.Acts (if live then q else r).closeAct := by
  split
  · exact .closes (given.trans lived)
  · exact .closes given

/-- WHAT A COMMAND DOES TO THE PART. -/
theorem exec_acts (i : Instr) (s t : State) (h : exec i s = .next t) : s.part.Acts t.part := by
  have freed : ∀ b, s.part.Keeps (s.part.freeBank b) := fun b => (works_modBank _ b _).toKeeps
  have reported : ∀ b f line n conditions, s.part.Keeps ((s.part.freeBank b).reportLines f line n conditions) :=
    fun b f line n conditions => (freed b).trans (keeps_reportLines _ _ _ _ _)
  cases i
  case requestArrival => cases h; exact acts_arrivePacket _ _ _
  case leaseExpiry => cases h; exact acts_event (works_releaseRegion _ _ _).toKeeps
  case idleTimerExpiry => cases h; exact acts_event (keeps_idleExpiry _)
  case scrubIntervalExpiry => cases h; exact acts_event (keeps_scrubExpiry _)
  case refreshSlotExpiry => cases h; exact acts_event (works_modBank _ _ _).toKeeps
  case thermalSample => cases h; exact acts_event (keeps_sample _ _)
  case trainingEnd => cases h; exact acts_event (keeps_endTraining _)
  case lineReadComplete =>
    cases h
    split
    · exact acts_completion (reported _ _ _ _ _) (works_answerRead _ _ _ _).toKeeps
    · exact .same
  case drainComplete =>
    cases h
    split
    · exact acts_completion (freed _) (works_drained _ _).toKeeps
    · exact .same
  case wipeStepComplete =>
    cases h
    split
    · exact acts_completion (freed _) (works_wipeStepped _ _).toKeeps
    · exact .same
  case copyReadHalfComplete =>
    cases h
    split
    · dsimp only
      split
      · exact .closes ((works_modBank _ _ _).toKeeps.after (freed _))
      · exact .closes (reported _ _ _ _ _)
    · exact .same
  case copyStepComplete =>
    cases h
    split
    · exact acts_completion (reported _ _ _ _ _) (works_copyStepped _).toKeeps
    · exact acts_completion (reported _ _ _ _ _) (works_copyStepped _).toKeeps
    · exact .same
  case zeroStepComplete =>
    cases h
    split
    · exact acts_completion (freed _) (works_zeroStepped _ _ _).toKeeps
    · exact .same
  case scrubStepComplete =>
    cases h
    split
    · exact acts_completion (reported _ _ _ _ _) (keeps_scrubStepped _ _ _)
    · exact .same
  case refreshComplete =>
    cases h
    split
    · exact .closes (freed _)
    · exact .same
  case wakingEnd =>
    cases h
    split
    · exact .same
    · split
      · exact .closes (keeps_wakeFromStandby _)
      · exact .closes (keeps_wakeFromDown _)
      · exact .same
  case powerOnReset => cases h; exact .enters _
  case pinReset => cases h; exact .enters _
  case resetRelease =>
    cases h
    split
    · exact .leaves _
    · exact .same
  all_goals cases h; exact .arrives _ _ _

/-- WHAT A STEP DOES TO THE PART: time passes, or a command acts. -/
theorem step_acts {s t : State} (h : step s = .next t) : t = tick s ∨ s.part.Acts t.part := by
  rcases step_cases h with ⟨-, e⟩ | ⟨i, rest, -, run⟩
  · exact .inl e
  · exact .inr (exec_acts i { s with pending := rest } t run)

/-! ### The part right after reset -/

/-- R3, R177: no frame of a part that leaves reset is counted. -/
theorem claimsAgree_reset (frames : Vector Frame 4096) (h : Hold) (cause : ResetCause) :
    (Part.reset (h.frames frames) cause).pool.claimsAgree := by
  refine claimsAgree_of_none rfl fun f => ?_
  show (tget (h.frames frames) f).state.counted = false
  cases h with
  | powerOn => rw [Hold.frames, tget_replicate]; rfl
  | pin =>
    rw [Hold.frames, tget_tmap, Frame.pinReset]
    dsimp only
    split <;> rfl

theorem poisonBounded_reset (frames : Vector Frame 4096) (cause : ResetCause) : (Part.reset frames cause).poisonBounded := by
  intro u r hr
  have unused : (Part.reset frames cause).region u = none := by
    show (tget (Vector.replicate 64 (⟨0, none⟩ : Slot)) u).region = none
    rw [tget_replicate]
  rw [unused] at hr
  cases hr

theorem linesFollow_reset (frames : Vector Frame 4096) (cause : ResetCause) : (Part.reset frames cause).linesFollow := by
  intro c
  rw [client_reset]
  rfl

/-! ### Every step -/

/-- Whatever a command does, the three invariants are kept. -/
theorem keeps_acts {p q : Part} (h : p.Acts q) : p.Keeps q := by
  cases h with
  | same => exact .refl p
  | malformed => exact keeps_answer _ _ _ _ _ _
  | arrives => exact keeps_arrive _ _ _ _
  | closes change => exact (keeps_closeAct _).after change
  | enters => exact keeps_enterReset _ _
  | leaves h => exact ⟨fun _ => claimsAgree_reset _ h _, fun _ => .nil, fun _ => poisonBounded_reset _ _⟩

/-- EVERY STEP KEEPS THE THREE INVARIANTS. -/
theorem keeps_step {s t : State} (h : step s = .next t) : s.part.Keeps t.part := by
  rcases step_acts h with rfl | acts
  · exact keeps_tick s
  · exact keeps_acts acts

/-- Time leaves the clients and the reset. -/
theorem clients_tick (s : State) : (tick s).part.clients = s.part.clients ∧ (tick s).part.hold = s.part.hold := by
  have beat : ∀ p : Part, p.countMillisecond.clients = p.clients ∧ p.countMillisecond.hold = p.hold := by
    intro p
    unfold Part.countMillisecond
    dsimp only
    split <;> exact ⟨rfl, rfl⟩
  unfold tick
  split
  · exact ⟨rfl, rfl⟩
  · dsimp only
    split
    · exact ⟨rfl, rfl⟩
    · exact beat _

/-- R115, R176: whatever a command does, the lines follow the flags. -/
theorem linesFollow_acts {p q : Part} (h : p.Acts q) (follow : p.linesFollow) : q.linesFollow := by
  cases h with
  | same => exact follow
  | malformed => exact linesFollow_answer _ _ _ _ _ _ follow
  | arrives => exact linesFollow_arrive _ _ _ _ follow
  | closes => exact linesFollow_closeAct _
  | enters => exact linesFollow_enterReset _ _
  | leaves => exact linesFollow_reset _ _

/-- Settles O4: time leaves clients and reset; every act of a command drives the lines, answers, or changes nothing. -/
theorem everyStepKeepsNoticeLines : Obligations.EveryStepKeepsNoticeLines := by
  intro s t follow h
  rcases step_acts h with rfl | acts
  · obtain ⟨clients, hold⟩ := clients_tick s
    intro c
    rw [Part.client, clients, hold]
    exact follow c
  · exact linesFollow_acts acts follow

/-- Settles O38: the two moves of frames keep the counts, and every step consists of such moves and of changes that count
each frame as before. -/
theorem frameMovesKeepClaimCounts : Obligations.FrameMovesKeepClaimCounts :=
  ⟨fun _ f _ slot k agree => ⟨fun counted => claimsAgree_enter f slot k counted agree,
    fun uncounted => claimsAgree_leave f uncounted agree⟩, fun _ _ agree h => (keeps_step h).claims agree⟩

/-- Settles O51: a postable WRITE has no line in common with an entry, and nothing else adds an entry. -/
theorem postingKeepsEntriesDisjoint : Obligations.PostingKeepsEntriesDisjoint :=
  ⟨fun p c apart free => (works_post p c free).entries apart, fun _ _ apart h => (keeps_step h).entries apart⟩

/-- Settles O6. -/
theorem invariantsHoldAfterReset : Obligations.InvariantsHoldAfterReset :=
  ⟨linesFollow_reset _ _, rfl, claimsAgree_reset (Vector.replicate 4096 Frame.reset) .powerOn .powerOn, .nil,
    poisonBounded_reset _ _⟩

/-- Settles O9: with no request queued the close of an act is the engines, the arbiters and the lines, whose work leaves the
ambient values. -/
theorem closeOfAnActKeeps : Obligations.CloseOfAnActKeeps := by
  intro p empty
  have closed : p.Runs p.closeAct := by
    rw [closeAct_eq, empty]
    exact (works_driveLines _).toRuns.after <| (works_arbitrate _).toRuns.after (runs_engines p)
  have kept := closed.ambient
  refine ⟨congrArg Ambient.power kept, congrArg Ambient.thermal kept, congrArg Ambient.hold kept,
    congrArg Ambient.cause kept, congrArg Ambient.phase kept, congrArg Ambient.spareTarget kept,
    congrArg Ambient.threshold kept, congrArg Ambient.margin kept, congrArg Ambient.totalCorrected kept,
    congrArg Ambient.totalUncorrectable kept, congrArg Ambient.cursor kept, congrArg Ambient.passes kept,
    congrArg Ambient.interval kept, fun c => ⟨?_, ?_⟩⟩
  · exact congrFun (congrArg Ambient.quota kept) c
  · exact congrFun (congrArg Ambient.enable kept) c

end Sys2Proof.Machine
end

section
/-! PROOFS. What an uncorrectable line does to a region's record (R38, R29). -/

namespace Sys2Proof.Machine

set_option Elab.async false

/-- R38, R29: damage leaves the other slots and every generation. -/
theorem damage_elsewhere (p : Part) (x : Place) (offset : Nat) :
    (∀ u, u ≠ x.slot → (p.damage x offset).region u = p.region u) ∧
      ∀ u, (p.damage x offset).generation u = p.generation u := by
  rcases damage_cases p x offset with ⟨-, -, -, e⟩ | ⟨-, -, -, e⟩ | ⟨-, e⟩ <;> rw [e]
  · exact ⟨fun u other => by rw [region_notifyAll, region_modRegion, if_neg (Ne.symm other)],
      fun u => by rw [generation_notifyAll, generation_modRegion]⟩
  · exact ⟨fun u other => by rw [region_notifyAll, region_modRegion, if_neg (Ne.symm other)],
      fun u => by rw [generation_notifyAll, generation_modRegion]⟩
  · exact ⟨fun _ _ => rfl, fun _ => rfl⟩

/-- R38: an offset joins a poison list that has room for it. -/
theorem region_damage_joins {p : Part} {x : Place} {offset : Nat} (stands : p.region x.slot = some x.region)
    (held : x.region.state ≠ .releasing) (new : offset ∉ x.region.poison) (few : x.region.poison.length < 16) :
    (p.damage x offset).region x.slot = some { x.region with poison := insertOffset offset x.region.poison } := by
  rcases damage_cases p x offset with ⟨-, -, -, e⟩ | ⟨-, full, -⟩ | ⟨releasing | old | ⟨full, -⟩, -⟩
  · rw [e, region_notifyAll, region_modRegion_same, stands]
    rfl
  · exact absurd few (Nat.not_lt.2 full)
  · exact absurd releasing held
  · exact absurd old new
  · exact absurd few (Nat.not_lt.2 full)

/-- R29: a further offset makes a LIVE or LOCKED region with a full list FAULTED. -/
theorem region_damage_faults {p : Part} {x : Place} {offset : Nat} (stands : p.region x.slot = some x.region)
    (new : offset ∉ x.region.poison) (full : 16 ≤ x.region.poison.length)
    (sound : x.region.state = .live ∨ x.region.state = .locked) :
    (p.damage x offset).region x.slot = some { x.region with state := .faulted } := by
  rcases damage_cases p x offset with ⟨-, -, few, -⟩ | ⟨-, -, -, e⟩ | ⟨releasing | old | ⟨-, live, locked⟩, -⟩
  · exact absurd few (Nat.not_lt.2 full)
  · rw [e, region_notifyAll, region_modRegion_same, stands]
    rfl
  · rcases sound with e | e <;> rw [e] at releasing <;> cases releasing
  · exact absurd old new
  · exact (sound.elim live locked).elim

/-- R38, R29: every other line changes nothing of the record. -/
theorem region_damage_same {p : Part} {x : Place} {offset : Nat} (stands : p.region x.slot = some x.region)
    (none : x.region.state = .releasing ∨ offset ∈ x.region.poison ∨
      (16 ≤ x.region.poison.length ∧ x.region.state ≠ .live ∧ x.region.state ≠ .locked)) :
    (p.damage x offset).region x.slot = some x.region := by
  rcases damage_cases p x offset with ⟨held, new, few, -⟩ | ⟨new, -, sound, -⟩ | ⟨-, e⟩
  · rcases none with releasing | old | ⟨full, -⟩
    · exact absurd releasing held
    · exact absurd old new
    · exact absurd few (Nat.not_lt.2 full)
  · rcases none with releasing | old | ⟨-, live, locked⟩
    · rcases sound with e | e <;> rw [e] at releasing <;> cases releasing
    · exact absurd old new
    · exact (sound.elim live locked).elim
  · rw [e, stands]

/-- R38: the record that damage leaves has its list within its bounds, and differs in list and state alone. -/
theorem region_damage_bounded {p : Part} {x : Place} {offset : Nat} (stands : p.region x.slot = some x.region)
    (ascend : x.region.poison.Pairwise (· < ·)) (short : x.region.poison.length ≤ 16) :
    ∃ r, (p.damage x offset).region x.slot = some r ∧ r.poison.Pairwise (· < ·) ∧ r.poison.length ≤ 16 ∧
      r = { x.region with poison := r.poison, state := r.state } := by
  rcases damage_cases p x offset with ⟨held, new, few, -⟩ | ⟨new, full, sound, -⟩ | ⟨none, -⟩
  · exact ⟨_, region_damage_joins stands held new few, pairwise_insertOffset _ _ ascend new, by simpa using few, rfl⟩
  · exact ⟨_, region_damage_faults stands new full sound, ascend, short, rfl⟩
  · exact ⟨_, region_damage_same stands none, ascend, short, rfl⟩

/-- Settles O52: the three cases of `Part.damage`, and `keeps_step` for the steps. -/
theorem poisonListStaysBounded : Obligations.PoisonListStaysBounded := by
  refine ⟨fun p x offset stands => ?_, fun _ _ bounded h => (keeps_step h).poison bounded⟩
  intro old q ascend short
  obtain ⟨slots, generations⟩ := damage_elsewhere p x offset
  refine ⟨region_damage_bounded stands ascend short, ?_, ?_, ?_, slots, generations⟩
  · intro held new few
    exact ⟨_, region_damage_joins stands held new few, fun y => mem_insertOffset offset y _⟩
  · intro new full sound
    exact region_damage_faults stands new full.ge sound
  · intro none
    exact region_damage_same stands (none.imp_right fun rest => rest.imp_right fun ⟨full, states⟩ => ⟨full.ge, states⟩)

end Sys2Proof.Machine
end

section
/-! PROOFS. Requests survive their packets (R187, R188). -/

namespace Sys2Proof

/-- A class survives its byte. -/
@[simp] theorem decodeClass_code (k : RegionClass) : decodeClass k.code = some k := by cases k <;> rfl

/-- A right survives its byte. -/
@[simp] theorem decodeRight_code (r : Right) : decodeRight r.code = some r := by cases r <;> rfl

/-- A health page survives its byte. -/
@[simp] theorem decodePage_code (page : HealthPage) : decodePage page.code = some page := by cases page <;> rfl

/-- The body of a stageable command is read back under its code. -/
theorem decodeBody_command (cmd : RegionCommand) : decodeBody cmd.code cmd.body = some (.command cmd) := by
  cases cmd with
  | grant size k lease =>
    cases lease with
    | none => simp [decodeBody, RegionCommand.code, RegionCommand.body, bodyGrant, decodeOptional]
    | some period =>
      simp [decodeBody, RegionCommand.code, RegionCommand.body, bodyGrant, decodeOptional, halfBytes, half_halfBytes]
  | release h | lock h | unlock h | wipe h | resize h | handover h | share h | unshare h =>
    obtain ⟨a, b, bytes, read⟩ := decodeHandle_bytes h
    simp [decodeBody, RegionCommand.code, RegionCommand.body, bodyHandle, bodyResize, bodyHandover, bodyShare, bodyUnshare,
      eightOfByte_ofNat, bytes, read]

/-- The body of a well-formed request is read back under its code. -/
theorem decodeBody_body {r : Request} (formed : r.wf = true) : decodeBody r.code r.body = some r := by
  cases r with
  | command cmd => exact decodeBody_command cmd
  | attach | detach | identify | list | batchOpen | batchClose | batchDrop | standby | powerdown | reset => rfl
  | notices clear enable =>
    obtain ⟨a, b, cleared, readClear⟩ := decodeNoticeSet_bytes clear
    cases enable with
    | none => simp [decodeBody, Request.code, Request.body, bodyNotices, decodeOptional, cleared, readClear]
    | some enable =>
      obtain ⟨d, e, enabled, readEnable⟩ := decodeNoticeSet_bytes enable
      simp [decodeBody, Request.code, Request.body, bodyNotices, decodeOptional, cleared, readClear, enabled, readEnable]
  | health page argument => simp [decodeBody, Request.code, Request.body, bodyHealth, halfBytes, half_halfBytes]
  | renew h | describe h =>
    obtain ⟨a, b, bytes, read⟩ := decodeHandle_bytes h
    simp [decodeBody, Request.code, Request.body, bodyHandle, bodyDescribe, bytes, read]
  | read h | verify h =>
    obtain ⟨a, b, bytes, read⟩ := decodeHandle_bytes h
    simp [decodeBody, Request.code, Request.body, bodyAccess, longBytes, long_longBytes, bytes, read]
  | write h offset length payload =>
    obtain ⟨a, b, bytes, read⟩ := decodeHandle_bytes h
    have carried : payload.length = length.toNat * Config.bytesPerLine := by simpa [Request.wf] using formed
    simp [decodeBody, Request.code, Request.body, bodyWrite, longBytes, long_longBytes, bytes, read, carried]
  | flush sel =>
    obtain ⟨a, b, bytes, read⟩ := decodeFlushSelector_bytes sel
    simp [decodeBody, Request.code, Request.body, bodyFlush, bytes, read]
  | configure => simp [decodeBody, Request.code, Request.body, bodyConfigure, halfBytes, half_halfBytes]
  | evict => rfl
  | retire => simp [decodeBody, Request.code, Request.body, bodyRetire, halfBytes, half_halfBytes]

/-- Settles O7: the form check reads the body back, shape by shape of the command table. -/
theorem packetsCarryRequestsWhole : Obligations.PacketsCarryRequestsWhole := by
  intro stamp tag r formed
  simp only [encodePacket, decodePacket, decodeBody_body formed]

end Sys2Proof
end

section
/-! PROOFS. Responses, notices and notice lines (R114, R115, R189). -/

namespace Sys2Proof.Machine

/-- R115: a closed act has every line at the level of its client's enabled flags, and low in reset. -/
theorem line_closeAct (p : Part) (d : ClientId) : (p.closeAct.client d).line =
    (p.closeAct.hold.isNone && (p.closeAct.client d).flags &&& (p.closeAct.client d).enable != 0) := by
  rw [linesFollow_closeAct p d, Client.lineLevel]
  cases p.closeAct.hold <;> rfl

/-- Settles O8. -/
theorem responsesNoticesAndLines : Obligations.ResponsesNoticesAndLines :=
  fun p c d => ⟨fun _ _ _ _ => rfl, fun _ => client_modClient p c d _, line_closeAct p d⟩

end Sys2Proof.Machine
end

section
/-! PROOFS. The passage of time on an empty queue (log 3, 5). -/

namespace Sys2Proof.Machine

set_option Elab.async false

/-- R176: in reset no time passes. -/
theorem tick_held {s : State} (held : s.part.hold ≠ none) : tick s = s := by
  unfold tick
  rw [if_pos (Option.isSome_iff_ne_none.2 held)]

/-- Time within a millisecond: the slot timers count. -/
theorem tick_quarter {s : State} (released : s.part.hold = none) (within : s.part.phase < 3) :
    tick s = { s with
      pending := s.pending ++ s.part.slotExpiries
      part := { s.part.countSlots with phase := s.part.phase + 1 } } := by
  simp [tick, released, within]

/-- Time at the end of a millisecond: the slot timers count, and then the timers of milliseconds. -/
theorem tick_millisecond {s : State} (released : s.part.hold = none) (full : ¬ s.part.phase < 3) :
    tick s = { s with
      pending := s.pending ++ (s.part.slotExpiries ++ s.part.millisecondExpiries)
      part := { s.part.countSlots.countMillisecond with phase := 0 } } := by
  simp [tick, released, full]

/-- In ACTIVE the leases, the idle timer and the scrub timer count beside the sampling schedule. -/
theorem countMillisecond_active {p : Part} (active : p.power.state = .active) :
    p.countMillisecond = { p.countLeases with
      thermal := { p.thermal with timer := p.thermal.timer - 1 }
      power := { p.power with idleTimer := p.power.idleTimer.map (· - 1) }
      scrub := { p.scrub with timer := p.scrub.timer.map (· - 1) } } := by
  unfold Part.countMillisecond
  rw [active]
  rfl

/-- Outside ACTIVE the sampling schedule counts alone. -/
theorem countMillisecond_inactive {p : Part} (inactive : p.power.state ≠ .active) :
    p.countMillisecond = { p with thermal := { p.thermal with timer := p.thermal.timer - 1 } } := by
  have other : (p.power.state == .active) = false := by simpa using inactive
  unfold Part.countMillisecond
  rw [other]
  rfl

theorem bank_countSlots (p : Part) (b : BankId) :
    p.countSlots.bank b = { p.bank b with slotTimer := (p.bank b).slotTimer.map (· - 1) } :=
  bank_modBanks p _ b

/-- R40: whether the lease timer of a region runs, its lease apart. -/
theorem leaseRuns_iff (r : Region) : r.leaseRuns = true ↔
    r.lease.isSome = true ∧ (r.state = .live ∨ r.state = .locked ∨ r.state = .faulted ∨ r.state = .lost) := by
  simp [Region.leaseRuns, or_assoc]

/-- R40: the record of a slot after a millisecond of ACTIVE. -/
theorem region_countLeases {p : Part} {slot : SlotId} {r : Region} (stands : p.region slot = some r) :
    ((r.state = .live ∨ r.state = .locked ∨ r.state = .faulted ∨ r.state = .lost) →
      p.countLeases.region slot =
        some { r with lease := r.lease.map fun l => { l with remaining := l.remaining - 1 } }) ∧
    (¬ (r.state = .live ∨ r.state = .locked ∨ r.state = .faulted ∨ r.state = .lost) →
      p.countLeases.region slot = some r) := by
  have counted : p.countLeases.region slot = some (if r.leaseRuns then
      { r with lease := r.lease.map fun l => { l with remaining := countDown l.remaining } } else r) := by
    unfold Part.region at stands
    simp only [Part.countLeases, Part.region, tget_tmap, stands, Option.map_some]
  constructor
  · intro runs
    rw [counted]
    cases leased : r.lease with
    | none =>
      have still : ¬ r.leaseRuns = true := by simp [leaseRuns_iff, leased]
      rw [if_neg still, Option.map_none, ← leased]
    | some l =>
      rw [if_pos ((leaseRuns_iff r).2 ⟨by simp [leased], runs⟩)]
      rfl
  · intro stopped
    rw [counted, if_neg fun runs => stopped ((leaseRuns_iff r).1 runs).2]

/-- Time changes no generation and places no region. -/
theorem countLeases_elsewhere (p : Part) (slot : SlotId) :
    p.countLeases.generation slot = p.generation slot ∧
      (p.region slot = none → p.countLeases.region slot = none) := by
  constructor
  · simp [Part.countLeases, Part.generation]
  · intro unused
    unfold Part.region at unused ⊢
    simp [Part.countLeases, unused]

/-! ### The expiries that join the queue -/

/-- A timer runs out at the next unit when it stands at 1 or 0. -/
theorem runsOut_iff (x : Option Nat) : runsOut x = true ↔ ∃ n, x = some n ∧ n ≤ 1 := by
  cases x <;> simp [runsOut]

theorem mem_slotExpiries (p : Part) (i : Instr) :
    i ∈ p.slotExpiries ↔ ∃ b, i = .refreshSlotExpiry b ∧ ∃ n, (p.bank b).slotTimer = some n ∧ n ≤ 1 := by
  simp only [Part.slotExpiries, List.mem_map, List.mem_filter, runsOut_iff]
  constructor
  · rintro ⟨b, ⟨-, out⟩, rfl⟩
    exact ⟨b, rfl, out⟩
  · rintro ⟨b, rfl, out⟩
    exact ⟨b, ⟨mem_allBanks b, out⟩, rfl⟩

/-- A slot whose lease runs out. -/
theorem mem_leasesEnding (p : Part) (slot : SlotId) : slot ∈ p.leasesEnding ↔ ∃ r, p.region slot = some r ∧
    (r.state = .live ∨ r.state = .locked ∨ r.state = .faulted ∨ r.state = .lost) ∧
      ∃ n, r.lease.map (·.remaining) = some n ∧ n ≤ 1 := by
  rw [Part.leasesEnding, mem_slotsWhere]
  refine exists_congr fun r => and_congr_right fun _ => ?_
  rw [Bool.and_eq_true, leaseRuns_iff, runsOut_iff]
  constructor
  · rintro ⟨⟨-, runs⟩, out⟩
    exact ⟨runs, out⟩
  · rintro ⟨runs, n, e, few⟩
    refine ⟨⟨?_, runs⟩, n, e, few⟩
    obtain ⟨l, leased, -⟩ := Option.map_eq_some_iff.1 e
    simp [leased]

theorem mem_millisecondExpiries (p : Part) (i : Instr) : i ∈ p.millisecondExpiries ↔ p.power.state = .active ∧
    ((∃ slot r, i = .leaseExpiry slot ∧ p.region slot = some r ∧
        (r.state = .live ∨ r.state = .locked ∨ r.state = .faulted ∨ r.state = .lost) ∧
          ∃ n, r.lease.map (·.remaining) = some n ∧ n ≤ 1) ∨
      (i = .idleTimerExpiry ∧ ∃ n, p.power.idleTimer = some n ∧ n ≤ 1) ∨
      (i = .scrubIntervalExpiry ∧ ∃ n, p.scrub.timer = some n ∧ n ≤ 1)) := by
  have single : ∀ (out : Bool) (j : Instr), i ∈ (if out then [j] else []) ↔ i = j ∧ out = true := by
    intro out j
    cases out <;> simp
  have leases : i ∈ p.leasesEnding.map Instr.leaseExpiry ↔ ∃ slot r, i = .leaseExpiry slot ∧ p.region slot = some r ∧
      (r.state = .live ∨ r.state = .locked ∨ r.state = .faulted ∨ r.state = .lost) ∧
        ∃ n, r.lease.map (·.remaining) = some n ∧ n ≤ 1 := by
    simp only [List.mem_map, mem_leasesEnding]
    constructor
    · rintro ⟨slot, ⟨r, stands, ends⟩, rfl⟩
      exact ⟨slot, r, rfl, stands, ends⟩
    · rintro ⟨slot, r, rfl, stands, ends⟩
      exact ⟨slot, ⟨r, stands, ends⟩, rfl⟩
  unfold Part.millisecondExpiries
  by_cases active : p.power.state = .active
  · rw [if_pos (by simp [active]), List.mem_append, List.mem_append, leases, single, single, runsOut_iff, runsOut_iff,
      or_assoc]
    exact (and_iff_right active).symm
  · rw [if_neg (by simpa using active)]
    simp [active]

/-- Settles O2: in reset nothing moves; otherwise the slot timers count, and at the end of a millisecond the other timers, in
ACTIVE or outside it. -/
theorem emptyQueueLetsTimePass : Obligations.EmptyQueueLetsTimePass := by
  intro s empty
  dsimp only
  refine ⟨by simp [step, empty], store_tick s, tick_held, fun released => ?_⟩
  by_cases within : s.part.phase < 3
  · have quiet : ¬ (3 ≤ s.part.phase ∧ s.part.power.state = .active) := fun ⟨full, _⟩ => absurd within (Nat.not_lt.2 full)
    rw [tick_quarter released within, empty]
    refine ⟨(if_pos within).symm, bank_countSlots s.part, ?_, fun beat => absurd beat quiet, fun _ => ⟨rfl, rfl, rfl⟩,
      fun _ => ⟨rfl, id⟩, fun i => ?_, rfl, rfl, rfl, rfl, rfl, rfl, rfl, rfl, rfl, rfl, released⟩
    · rw [if_pos within]
      rfl
    · rw [List.nil_append, mem_slotExpiries, or_iff_left fun ⟨beat, _⟩ => quiet beat]
  · have full : 3 ≤ s.part.phase := Nat.le_of_not_lt within
    have queue : ∀ i, i ∈ [] ++ (s.part.slotExpiries ++ s.part.millisecondExpiries) ↔
        i ∈ s.part.slotExpiries ∨ i ∈ s.part.millisecondExpiries := by simp
    rw [tick_millisecond released within, empty]
    by_cases active : s.part.power.state = .active
    · have beat : 3 ≤ s.part.phase ∧ s.part.power.state = .active := ⟨full, active⟩
      rw [countMillisecond_active (p := s.part.countSlots) active]
      refine ⟨(if_neg within).symm, bank_countSlots s.part, ?_,
        fun _ => ⟨rfl, rfl, fun _ _ stands => region_countLeases (p := s.part) stands⟩,
        fun quiet => absurd beat quiet, countLeases_elsewhere s.part, fun i => ?_,
        rfl, rfl, rfl, rfl, rfl, rfl, rfl, rfl, rfl, rfl, released⟩
      · rw [if_neg within]
        rfl
      · rw [queue, mem_slotExpiries, mem_millisecondExpiries, and_iff_right active, and_iff_right beat]
    · have quiet : ¬ (3 ≤ s.part.phase ∧ s.part.power.state = .active) := fun ⟨_, e⟩ => active e
      rw [countMillisecond_inactive (p := s.part.countSlots) active]
      refine ⟨(if_neg within).symm, bank_countSlots s.part, ?_, fun beat => absurd beat quiet, fun _ => ⟨rfl, rfl, rfl⟩,
        fun _ => ⟨rfl, id⟩, fun i => ?_, rfl, rfl, rfl, rfl, rfl, rfl, rfl, rfl, rfl, rfl, released⟩
      · rw [if_neg within]
        rfl
      · rw [queue, mem_slotExpiries, mem_millisecondExpiries, or_iff_left fun ⟨e, _⟩ => active e,
          or_iff_left fun ⟨beat, _⟩ => quiet beat]

end Sys2Proof.Machine
end

section
/-! PROOFS. Where an arriving request stands and how queued heads are taken (R104, R105, R168, R173, R188; log 9, 10, 11). -/

namespace Sys2Proof.Machine

set_option Elab.async false

/-! ### The clients in order -/

theorem allClients_eq : allClients = List.finRange 8 := by decide

/-- The lowest client that meets a condition. -/
theorem find?_allClients (P : ClientId → Bool) (c : ClientId) :
    allClients.find? P = some c ↔ P c = true ∧ ∀ d, d < c → P d = false := by
  rw [allClients_eq, List.find?_eq_some_iff_getElem]
  refine and_congr_right fun _ => ⟨?_, fun lower => ?_⟩
  · rintro ⟨i, hi, rfl, lower⟩ d hd
    simpa using lower d.val (by simpa [Fin.lt_def] using hd)
  · exact ⟨c.val, by simp, by simp, fun j hj => by simpa using lower ⟨j, by omega⟩ (Fin.lt_def.2 hj)⟩

/-- R104: the requests that wait, client by client. -/
theorem queued_eq (p : Part) : p.queued = (allClients.map fun c => (p.client c).queue.length).sum := by
  rw [Part.queued, toList_eq, List.map_map, allClients_eq]
  rfl

/-! ### Arrivals -/

section
variable {p : Part} {c : ClientId} {tag : Byte} {r : Request}

/-- R104: a fifth request is answered QUEUE_FULL. -/
theorem arrive_full (released : p.hold = none) (formed : r.wf = true) (full : 4 ≤ (p.client c).queue.length) :
    p.arrive c tag r = p.answer c r.code tag .queueFull [] := by
  simp [Part.arrive, released, formed, Config.maxQueue, full]

/-- R105: a request that cannot be taken at once waits. -/
theorem arrive_waits (released : p.hold = none) (formed : r.wf = true) (room : (p.client c).queue.length < 4)
    (waits : ((p.client c).queue.isEmpty && p.takeable c) = false) :
    p.arrive c tag r = (p.enqueue c tag r).closeAct := by
  simp [Part.arrive, released, formed, Config.maxQueue, Nat.not_le.2 room, waits]

/-- R105: a request that can be taken at once is taken. -/
theorem arrive_taken (released : p.hold = none) (formed : r.wf = true) (empty : (p.client c).queue = [])
    (takes : p.takeable c = true) : p.arrive c tag r = (p.take c tag r).closeAct := by
  simp [Part.arrive, released, formed, Config.maxQueue, empty, takes]

/-- R105: a client with a request queued or executing, or being evicted, is not taken from. -/
theorem busy_not_taken
    (busy : (p.client c).queue ≠ [] ∨ (p.client c).executing ≠ none ∨ (p.client c).evictionPending = true) :
    ((p.client c).queue.isEmpty && p.takeable c) = false := by
  rcases busy with waiting | running | evicted
  · simp [waiting]
  · simp [Part.takeable, running]
  · simp [Part.takeable, evicted]

/-- R162, R172: in DOWN the request of a client other than 0 is answered POWERED_DOWN. -/
theorem arrive_poweredDown (released : p.hold = none) (formed : r.wf = true) (down : p.power.state = .down) (other : c ≠ 0)
    (empty : (p.client c).queue = []) (idle : (p.client c).executing = none)
    (kept : (p.client c).evictionPending = false) :
    p.arrive c tag r = (p.answer c r.code tag .poweredDown []).closeAct := by
  have takes : p.takeable c = true := by simp [Part.takeable, released, down, PowerState.takes, other, idle, kept]
  have first : (p.power.state == .initializing && r != .identify) = false := by simp [down]
  have second : (p.power.state == .down) = true := by simp [down]
  have refused : p.refusal c r = some .poweredDown := by rw [Part.refusal, first, second, firstFail, firstFail]
  rw [arrive_taken released formed empty takes, take_inactive_refused tag (by simp [down]) refused]

/-- R162: a power state that takes no head of the client. -/
theorem asleep_not_taken (asleep : p.power.state.takes c = false) :
    ((p.client c).queue.isEmpty && p.takeable c) = false := by
  simp [Part.takeable, asleep]

end

/-- R105, R162: when a client's queued head may be taken. -/
theorem mayTake_iff (p : Part) (d : ClientId) :
    (p.takeable d && !(p.client d).queue.isEmpty) = true ↔
      (p.client d).queue ≠ [] ∧ p.hold = none ∧ (p.client d).executing = none ∧ (p.client d).evictionPending = false ∧
        (p.power.state = .active ∨ p.power.state = .initializing ∨ (p.power.state = .down ∧ d ≠ 0)) := by
  have takes : p.power.state.takes d = true ↔
      p.power.state = .active ∨ p.power.state = .initializing ∨ (p.power.state = .down ∧ d ≠ 0) := by
    cases p.power.state <;> simp [PowerState.takes]
  simp only [Part.takeable, Bool.and_eq_true, takes, Bool.not_eq_true', List.isEmpty_eq_false_iff,
    Option.isNone_iff_eq_none]
  tauto

/-- R105, log 10: the head of the lowest client that may be taken. -/
theorem nextHead_lowest {p : Part} {c : ClientId} {x : Queued} {rest : List Queued}
    (may : (p.takeable c && !(p.client c).queue.isEmpty) = true)
    (lowest : ∀ d, d < c → (p.takeable d && !(p.client d).queue.isEmpty) = false)
    (front : (p.client c).queue = x :: rest) : p.nextHead = some (c, x) := by
  have found := (find?_allClients (fun c => p.takeable c && !(p.client c).queue.isEmpty) c).2 ⟨may, lowest⟩
  simp [Part.nextHead, found, front]

theorem nextHead_none {p : Part} (no : ∀ d, ¬ (p.takeable d && !(p.client d).queue.isEmpty) = true) :
    p.nextHead = none := by
  have found : allClients.find? (fun c => p.takeable c && !(p.client c).queue.isEmpty) = none :=
    List.find?_eq_none.2 fun d _ => no d
  rw [Part.nextHead, found]

/-- Settles O10: an arrival is taken, waits, or is answered QUEUE_FULL or POWERED_DOWN; a round of takings takes the lowest
head that may be taken. -/
theorem requestsWaitAndAreTaken : Obligations.RequestsWaitAndAreTaken := by
  refine ⟨fun s c tag r released formed => ?_, fun p n => ?_, fun p => ⟨closeAct_eq p, queued_eq p⟩⟩
  · intro p k queued after
    have row : ∀ q, p.arrive c tag r = q → exec (requestRow c tag r) s = .next (s.withPart q) := by
      rintro q rfl
      exact exec_requestRow c tag r s
    have waits : ∀ q, k.queue.length < 4 → (k.queue.isEmpty && p.takeable c) = false → p.enqueue c tag r = q →
        after q := by
      rintro q room waits rfl
      exact row _ (arrive_waits released formed room waits)
    refine ⟨fun full => row _ (arrive_full released formed full), fun room => ⟨?_, ?_, ?_, ?_, ?_, ?_⟩⟩
    · exact fun ready => row _ (arrive_ready p c tag r ready formed)
    · intro awake busy
      refine waits _ room (busy_not_taken busy) ?_
      rcases awake with e | e <;> simp [Part.enqueue, e, queued]
    · intro standby
      exact waits _ room (asleep_not_taken (by rw [standby]; rfl)) (by simp [Part.enqueue, standby, Part.startWaking, queued])
    · intro o waking
      exact waits _ room (asleep_not_taken (by rw [waking]; rfl)) (by simp [Part.enqueue, waking, queued])
    · rintro down rfl
      exact waits _ room (asleep_not_taken (by rw [down]; rfl)) (by simp [Part.enqueue, down, Part.startWaking, queued])
    · intro down other empty idle kept
      exact row _ (arrive_poweredDown released formed down other empty idle kept)
  · intro may
    refine ⟨fun no => ?_, fun c x rest allowed lowest front => ?_⟩
    · have none := nextHead_none fun d yes => no d ((mayTake_iff p d).1 yes)
      cases n with
      | zero => rfl
      | succ n => rw [takeRounds, none]
    · have head := nextHead_lowest ((mayTake_iff p c).2 allowed)
        (fun d hd => by simpa using fun yes => lowest d hd ((mayTake_iff p d).1 yes)) front
      have rest : p.modClient c (fun k => { k with queue := k.queue.tail }) =
          p.modClient c fun k => { k with queue := rest } := by
        have front' : (tget p.clients c).queue = x :: rest := front
        simp [Part.modClient, tmod, front']
      rw [takeRounds, head]
      dsimp only
      rw [Part.takeHead, rest]

end Sys2Proof.Machine
end

section
/-! PROOFS. DRAINs, the entries that leave the write queue and what waited for them (R86, R87, R91, R92, R96, R98). -/

namespace Sys2Proof.Machine

set_option Elab.async false

/-! ### Bytes written from an address on -/

/-- Inside a run of known bytes the memory reads as written. -/
theorem read_place_inside (m : List Host.Cell) (a : Nat) (bytes : List Byte) (k : Nat) (h : k < bytes.length) :
    Memory.read (Memory.place m a (bytes.map some)) (a + k) = some bytes[k] := by
  rw [read_place, if_pos ⟨Nat.le_add_right a k, by simpa using h⟩]
  simp [h]

/-- Outside a run the memory reads as before. -/
theorem read_place_outside (m : List Host.Cell) (a x : Nat) (bytes : List (Option Byte))
    (h : x < a ∨ a + bytes.length ≤ x) : Memory.read (Memory.place m a bytes) x = Memory.read m x := by
  rw [read_place, if_neg (by omega)]

/-! ### The end of a use -/

/-- R32, R42: the record whose in-use count falls: freed when RELEASING at 0, else kept with the count lower. -/
theorem region_endUse {p : Part} {s : SlotId} {r : Region} (stands : p.region s = some r) :
    (r.state = .releasing → r.inUse ≤ 1 → (p.endUse s).region s = none) ∧
    (¬ (r.state = .releasing ∧ r.inUse ≤ 1) → (p.endUse s).region s = some { r with inUse := r.inUse - 1 }) := by
  have counted : (p.modRegion s fun r => { r with inUse := r.inUse - 1 }).region s =
      some { r with inUse := r.inUse - 1 } := by
    rw [region_modRegion_same, stands]
    rfl
  constructor
  · intro releasing last
    rw [Part.endUse, Part.freeRegion, counted]
    dsimp only
    rw [if_pos (by simp [releasing]; omega), Part.region, tget_tmod_same]
  · intro kept
    rw [Part.endUse, Part.freeRegion, counted]
    dsimp only
    rw [if_neg (by simp; intro e; exact fun zero => kept ⟨e, by omega⟩)]
    exact counted

/-- R32, R42: the end of a use leaves the other slots. -/
theorem region_endUse_ne (p : Part) {s u : SlotId} (other : u ≠ s) : (p.endUse s).region u = p.region u := by
  rw [Part.endUse, region_freeRegion_ne _ _ _ other, region_modRegion, if_neg (Ne.symm other)]

@[simp] theorem endUse_writeQueue (p : Part) (s : SlotId) : (p.endUse s).writeQueue = p.writeQueue := by
  obtain ⟨t, g, e⟩ := reach_endUse p s
  rw [e]

@[simp] theorem endUse_clients (p : Part) (s : SlotId) : (p.endUse s).clients = p.clients := by
  obtain ⟨t, g, e⟩ := reach_endUse p s
  rw [e]

@[simp] theorem endUse_posting (p : Part) (s : SlotId) : (p.endUse s).posting = p.posting := by
  obtain ⟨t, g, e⟩ := reach_endUse p s
  rw [e]

@[simp] theorem endUse_tx (p : Part) (s : SlotId) : (p.endUse s).tx = p.tx := by
  obtain ⟨t, g, e⟩ := reach_endUse p s
  rw [e]

@[simp] theorem bank_endUse (p : Part) (s : SlotId) (b : BankId) : (p.endUse s).bank b = p.bank b := by
  obtain ⟨t, g, e⟩ := reach_endUse p s
  rw [e]
  rfl

/-! ### An entry leaves the queue -/

/-- R120: withdrawing DRAIN offers changes a bank's rank 3 alone. -/
theorem bank_withdrawOffers (p : Part) (b : BankId) : ∃ turns, p.withdrawOffers.bank b = { p.bank b with turns := turns } := by
  unfold Part.withdrawOffers
  generalize allBanks = l
  induction l generalizing p with
  | nil => exact ⟨_, rfl⟩
  | cons a l ih =>
    obtain ⟨turns, e⟩ := ih (if (p.bank a).offers && (p.candidate a).isNone then
      p.modBank a fun k => { k with turns := k.turns.filter (· != .drainOffer) } else p)
    refine ⟨turns, e.trans ?_⟩
    split
    · rw [bank_modBank]
      split
      · rename_i same
        subst same
        rfl
      · rfl
    · rfl

/-- R96, R98: the part once an entry has left the queue, before what waited for it is told. -/
def Part.withoutEntry (p : Part) (e : Entry) : Part :=
  ({ p with writeQueue := p.writeQueue.filter fun d => !d.same e } : Part).withdrawOffers.endUse e.handle.slot

/-- R86, R94: what waited for an entry is told: the wait sets, then the FLUSHes. -/
theorem entryLeaves_eq (p : Part) (e : Entry) :
    p.entryLeaves e = allClients.foldl Part.testFlush (allClients.foldl (Part.leaveSet e) (p.withoutEntry e)) := rfl

/-- R95: an entry is told by its region and its offset. -/
theorem same_iff (d e : Entry) : d.same e = true ↔ d.handle.slot = e.handle.slot ∧ d.offset = e.offset := by
  simp [Entry.same]

/-- R96, R98: what the leaving of an entry changes. -/
theorem withoutEntry_spec (p : Part) (e : Entry) :
    (∀ d, d ∈ (p.withoutEntry e).writeQueue ↔
      d ∈ p.writeQueue ∧ ¬ (d.handle.slot = e.handle.slot ∧ d.offset = e.offset)) ∧
    (∀ slot, slot ≠ e.handle.slot → (p.withoutEntry e).region slot = p.region slot) ∧
    (∀ r, p.region e.handle.slot = some r →
      (r.state = .releasing → r.inUse ≤ 1 → (p.withoutEntry e).region e.handle.slot = none) ∧
      (¬ (r.state = .releasing ∧ r.inUse ≤ 1) →
        (p.withoutEntry e).region e.handle.slot = some { r with inUse := r.inUse - 1 })) ∧
    (∀ b, ((p.withoutEntry e).bank b).running = (p.bank b).running) ∧
    (p.withoutEntry e).clients = p.clients ∧ (p.withoutEntry e).posting = p.posting ∧ (p.withoutEntry e).tx = p.tx := by
  obtain ⟨q, left⟩ : ∃ q, q = ({ p with writeQueue := p.writeQueue.filter fun d => !d.same e } : Part) := ⟨_, rfl⟩
  obtain ⟨banks, offered⟩ := reach_withdrawOffers q
  have region : ∀ slot, q.withdrawOffers.region slot = p.region slot := by
    intro slot
    rw [offered, left]
    rfl
  unfold Part.withoutEntry
  rw [← left]
  refine ⟨fun d => ?_, fun slot other => ?_, fun r stands => ?_, fun b => ?_, ?_, ?_, ?_⟩
  · rw [endUse_writeQueue, offered, left]
    rw [List.mem_filter, Bool.not_eq_true', ← Bool.not_eq_true, same_iff]
  · rw [region_endUse_ne _ other, region]
  · exact region_endUse (by rw [region, stands])
  · obtain ⟨turns, bank⟩ := bank_withdrawOffers q b
    rw [bank_endUse, bank, left]
    rfl
  · rw [endUse_clients, offered, left]
  · rw [endUse_posting, offered, left]
  · rw [endUse_tx, offered, left]

/-! ### READs and VERIFYs that proceed -/

section
variable {p : Part} {c : ClientId} {tag : Byte} {verify : Bool} {a : Access} {phase : ReadPhase} {r : Region}

/-- R86: the command code of a READ or VERIFY. -/
theorem code_read (verify : Bool) (a : Access) (phase : ReadPhase) :
    (Work.read verify a phase).code = if verify then 34 else 32 := by cases verify <;> rfl

/-- R88, R90: a READ or VERIFY ends with one response. -/
theorem finish_read (st : Status) (body : List Byte) (h : (p.client c).executing = some ⟨tag, .read verify a phase⟩) :
    p.finish c st body =
      (p.modClient c fun k => { k with executing := none }).answer c (if verify then 34 else 32) tag st body := by
  rw [finish_executing st body h, code_read]

/-- R38, R87: no offset of the poison list lies in the range. -/
theorem find?_inRange_none (l : List Nat) (o n : Nat) :
    l.find? (inRange o n) = none ↔ ∀ x ∈ l, ¬ (o ≤ x ∧ x < o + n) := by
  simp [inRange]

/-- R87: a READ that meets a poisoned line ends UNCORRECTABLE. -/
theorem proceedRead_poisoned {x : Nat} (h : (p.client c).executing = some ⟨tag, .read false a phase⟩)
    (stands : p.region a.handle.slot = some r) (poisoned : r.poison.find? (inRange a.offset a.length) = some x) :
    p.proceedRead c = (p.finish c .uncorrectable (bytes4 x)).endUse a.handle.slot := by
  simp [Part.proceedRead, work_executing h, stands, poisoned]

/-- R87, R90: otherwise the range is translated by the frame list as it stands. -/
theorem proceedRead_clean (h : (p.client c).executing = some ⟨tag, .read verify a phase⟩)
    (stands : p.region a.handle.slot = some r)
    (clean : verify = true ∨ ∀ x ∈ r.poison, ¬ (a.offset ≤ x ∧ x < a.offset + a.length)) :
    (r.frames[a.offset / 1024]? = none → p.proceedRead c = (p.finish c .badRange []).endUse a.handle.slot) ∧
    (∀ f, r.frames[a.offset / 1024]? = some f → p.proceedRead c =
      (p.execute c tag (.read verify a .issued)).issueRead ⟨c, f, a.offset % 1024, a.length⟩) := by
  have passed : (if verify then none else r.poison.find? (inRange a.offset a.length)) = none := by
    rcases clean with rfl | clean
    · rfl
    · rw [(find?_inRange_none _ _ _).2 clean, ite_self]
  constructor
  · intro gone
    simp [Part.proceedRead, work_executing h, stands, passed, gone]
  · intro f entry
    simp [Part.proceedRead, work_executing h, stands, passed, entry, setWork_executing _ h]

end

/-! ### WRITEs that are posted -/

/-- R92: the rounds of postings: the oldest postable WRITE first. -/
theorem postRounds_succ (n : Nat) (p : Part) :
    ((∀ c ∈ p.posting, p.postable c = false) → postRounds (n + 1) p = p) ∧
    (∀ older c younger, p.posting = older ++ c :: younger → (∀ d ∈ older, p.postable d = false) →
      p.postable c = true → postRounds (n + 1) p = postRounds n (p.post c)) := by
  constructor
  · intro stuck
    have found : p.posting.find? p.postable = none := List.find?_eq_none.2 fun c hc => by simp [stuck c hc]
    rw [postRounds, found]
  · intro older c younger order before free
    have found : p.posting.find? p.postable = some c := by
      rw [List.find?_eq_some_iff_append]
      exact ⟨free, older, younger, order, fun d hd => by simp [before d hd]⟩
    rw [postRounds, found]

/-- R92, R96: a posting, with the discard of an entry that has no current frame. -/
theorem post_executing {p : Part} {c : ClientId} {tag : Byte} {a : Access} {payload : List Byte} {phase : WritePhase}
    (h : (p.client c).executing = some ⟨tag, .write a payload phase⟩) :
    let e : Entry := ⟨c, a.handle, a.offset, a.length, payload⟩
    let posted := (({ p with posting := p.posting.filter (· != c), writeQueue := p.writeQueue ++ [e] } : Part).modClient c
      fun k => { k with executing := none }).answer c 33 tag .done []
    p.post c = if ∀ r, p.region a.handle.slot = some r → r.frames.length ≤ a.offset / 1024 then posted.discard e
      else posted := by
  intro e posted
  have answered : ({ p with posting := p.posting.filter (· != c), writeQueue := p.writeQueue ++ [e] } : Part).finish c
      .done [] = posted :=
    finish_executing (p := { p with posting := p.posting.filter (· != c), writeQueue := p.writeQueue ++ [e] }) .done [] h
  have homeless : (posted.currentFrame e).isNone = true ↔
      ∀ r, p.region a.handle.slot = some r → r.frames.length ≤ a.offset / 1024 := by
    show ((p.region a.handle.slot).bind fun r => r.frames[a.offset / 1024]?).isNone = true ↔ _
    cases p.region a.handle.slot <;> simp
  unfold Part.post
  rw [work_executing h]
  dsimp only
  rw [answered]
  exact if_congr homeless rfl rfl

/-- R95: the lines of two runs, as two comparisons. -/
theorem overlaps_iff (o1 n1 o2 n2 : Nat) : overlaps o1 n1 o2 n2 = true ↔ o1 < o2 + n2 ∧ o2 < o1 + n1 := by
  simp [overlaps]

/-- R86: an entry leaves the wait set of a READ or VERIFY that waits for it. -/
theorem leaveSet_executing {p : Part} {c : ClientId} {tag : Byte} {verify : Bool} {a : Access} {ws : List Nat}
    (e : Entry) (h : (p.client c).executing = some ⟨tag, .read verify a (.ordering ws)⟩) :
    Part.leaveSet e p c =
      if a.handle.slot = e.handle.slot ∧ e.offset ∈ ws then
        if (ws.filter fun o => o != e.offset) = [] then p.proceedRead c
        else p.execute c tag (.read verify a (.ordering (ws.filter fun o => o != e.offset)))
      else p := by
  unfold Part.leaveSet
  rw [work_executing h]
  dsimp only
  rw [setWork_executing _ h]
  refine if_congr ?_ (if_congr ?_ rfl rfl) rfl
  · simp
  · simp only [List.isEmpty_iff]

/-- R98: the poison offsets of the entry's lines go. -/
theorem drained_eq (p : Part) (e : Entry) : p.drained e =
    ((p.modRegion e.handle.slot fun r => { r with
      poison := r.poison.filter fun x => decide (x < e.offset ∨ e.offset + e.length ≤ x) }).entryLeaves e).postWrites := by
  have outside : ∀ x, (!inRange e.offset e.length x) = decide (x < e.offset ∨ e.offset + e.length ≤ x) := by
    intro x
    rw [Bool.eq_iff_iff]
    simp only [inRange, Bool.not_eq_true', Bool.and_eq_false_iff, decide_eq_false_iff_not, decide_eq_true_eq]
    omega
  simp only [Part.drained, outside]

/-- Settles O11: the completion writes its run of bytes; the entry leaves (withoutEntry), and what waited goes on. -/
theorem drainWritesItsEntry : Obligations.DrainWritesItsEntry := by
  refine ⟨?_, ?_, fun _ => rfl, ?_, ?_, fun p => ⟨rfl, rfl, fun n => postRounds_succ n p⟩, ?_, ?_, ?_⟩
  · intro s b e f live running
    have run : exec (.drainComplete b) s = .next { s with
        store := s.store.drain f e
        part := (if live then (s.part.freeBank b).drained e else s.part.freeBank b).closeAct } := by
      show execDrainComplete b s = _
      rw [execDrainComplete, running]
    exact ⟨_, run, rfl, rfl, fun k h => read_place_inside _ _ _ k h,
      fun a outside => read_place_outside _ _ _ _ (by simpa using outside)⟩
  · intro p e
    rw [drained_eq, entryLeaves_eq]
    generalize cleaned : p.modRegion e.handle.slot _ = q
    obtain ⟨queue, others, record, -, clients, posting, tx⟩ := withoutEntry_spec q e
    subst cleaned
    refine ⟨_, rfl, queue, fun slot other => ?_, fun r stands => ?_, clients, posting, tx⟩
    · rw [others slot other, region_modRegion, if_neg (Ne.symm other)]
    · have stands' := record { r with
        poison := r.poison.filter fun x => decide (x < e.offset ∨ e.offset + e.length ≤ x) }
        (by rw [region_modRegion_same, stands]; rfl)
      exact stands'
  · intro p e c
    refine ⟨?_, fun other => ?_⟩
    · intro tag verify a ws executing left
      rw [leaveSet_executing e executing]
      exact ⟨fun slot mem last => by rw [if_pos ⟨slot, mem⟩, if_pos last],
        fun slot mem more => by rw [if_pos ⟨slot, mem⟩, if_neg more], fun outside => if_neg outside⟩
    · unfold Part.leaveSet
      split
      · rename_i verify a ws work
        exact absurd work (other verify a ws)
      · rfl
  · intro p c tag verify a phase r executing stands ended
    refine ⟨?_, fun clean => ?_⟩
    · rintro x rfl poisoned
      rw [proceedRead_poisoned executing stands poisoned, finish_read _ _ executing]
    · obtain ⟨gone, entry⟩ := proceedRead_clean executing stands clean
      refine ⟨fun none => ?_, entry⟩
      rw [gone none, finish_read _ _ executing]
  · intro p c
    rw [postable_iff]
    refine exists_congr fun a => exists_congr fun payload => and_congr_right fun _ => and_congr_right fun _ => ?_
    rw [waitSet_isEmpty]
    refine forall_congr' fun e => forall_congr' fun _ => ?_
    rw [overlaps_iff, not_and]
  · intro p c tag a payload phase executing e homeless posted
    have post := post_executing executing
    exact ⟨fun housed => post.trans (if_neg housed), fun lost => post.trans (if_pos lost)⟩
  · intro p e
    obtain ⟨queue, others, record, banks, clients, posting, tx⟩ := withoutEntry_spec (p.disown (·.isDrainOf e)) e
    refine ⟨_, entryLeaves_eq _ e, queue, others, record, fun b d f live running slot offset => ?_, clients, posting, tx⟩
    have same : d.same e = true := (same_iff d e).2 ⟨slot, offset⟩
    rw [banks, bank_disown, running]
    simp [BankOp.isDrainOf, same]

end Sys2Proof.Machine
end

section
/-! PROOFS. What the completions that read or write lines do to the array's bytes (R98, R119, R121; log 6, 7). -/

namespace Sys2Proof.Machine

set_option Elab.async false

/-! ### Runs of bytes -/

@[simp] theorem length_load (m : List Host.Cell) (a n : Nat) : (Memory.load m a n).length = n := by
  induction n generalizing a with
  | zero => rfl
  | succ n ih => rw [Memory.load, List.length_cons, ih]

/-- A run of bytes read from an address on. -/
theorem getElem?_load (m : List Host.Cell) (a n k : Nat) (h : k < n) :
    (Memory.load m a n)[k]? = some (Memory.read m (a + k)) := by
  induction n generalizing a k with
  | zero => omega
  | succ n ih =>
    rw [Memory.load]
    cases k with
    | zero => simp
    | succ k =>
      rw [List.getElem?_cons_succ, ih (a + 1) k (by omega)]
      congr 2
      omega

/-- Runs of one length laid one behind the other. -/
theorem length_flatten_range {α : Type} (g : Nat → List α) (n m : Nat) (each : ∀ i, (g i).length = n) :
    ((List.range m).map g).flatten.length = n * m := by
  induction m with
  | zero => rfl
  | succ m ih => simp [List.range_succ, ih, each, Nat.mul_succ]

theorem getElem?_flatten_range {α : Type} (g : Nat → List α) (n m k : Nat) (each : ∀ i, (g i).length = n)
    (h : k < n * m) : ((List.range m).map g).flatten[k]? = (g (k / n))[k % n]? := by
  induction m with
  | zero => omega
  | succ m ih =>
    have before := length_flatten_range g n m each
    rw [List.range_succ, List.map_append, List.flatten_append]
    by_cases early : k < n * m
    · rw [List.getElem?_append_left (by omega), ih early]
    · have last : k = n * m + (k - n * m) := by omega
      have rest : k - n * m < n := by
        rw [Nat.mul_succ] at h
        omega
      have quotient : k / n = m := by
        rw [last, Nat.mul_add_div (by omega), Nat.div_eq_of_lt rest, Nat.add_zero]
      have remainder : k % n = k - n * m := by
        rw [last, Nat.mul_add_mod, Nat.mod_eq_of_lt rest]
        omega
      rw [List.getElem?_append_right (by omega), before, quotient, remainder]
      simp

/-! ### Lines found in a condition -/

theorem mem_linesFound (kind : LineCondition) (cs : List LineCondition) (n k : Nat) :
    k ∈ linesFound kind cs n ↔ k < n ∧ conditionAt cs k = kind := by
  simp [linesFound]

/-- Log 7: the bytes of the lines that are not written back are unknown, every other byte stays. -/
theorem read_forgetLines (s : Store) (f : FrameId) (line : Nat) (ks : List Nat) (x : Nat) :
    Memory.read (s.forgetLines f line ks).cells x =
      if ∃ k ∈ ks, lineAddress f (line + k) ≤ x ∧ x < lineAddress f (line + k) + 64 then none
      else Memory.read s.cells x := by
  induction ks generalizing s with
  | nil => simp [Store.forgetLines]
  | cons k ks ih =>
    rw [Store.forgetLines, ih]
    dsimp only
    rw [read_place, List.length_replicate]
    by_cases later : ∃ j ∈ ks, lineAddress f (line + j) ≤ x ∧ x < lineAddress f (line + j) + 64
    · obtain ⟨j, mem, within⟩ := later
      rw [if_pos ⟨j, mem, within⟩, if_pos ⟨j, List.mem_cons_of_mem k mem, within⟩]
    · rw [if_neg later]
      by_cases first : lineAddress f (line + k) ≤ x ∧ x < lineAddress f (line + k) + 64
      · rw [if_pos first, if_pos ⟨k, List.mem_cons_self, first⟩, List.getElem?_replicate, if_pos (by omega)]
        rfl
      · rw [if_neg first, if_neg]
        rintro ⟨j, mem, within⟩
        rcases List.mem_cons.1 mem with rfl | mem
        · exact first within
        · exact later ⟨j, mem, within⟩

/-- R121, log 7: an uncorrectable line is unknown after an operation that read it. -/
theorem read_forgotten (s : Store) (f : FrameId) (line n : Nat) (cs : List LineCondition) {k j : Nat} (within : k < n)
    (bad : conditionAt cs k = .uncorrectable) (byte : j < 64) :
    Memory.read (s.forgetLines f line (linesFound .uncorrectable cs n)).cells (lineAddress f (line + k) + j) = none := by
  rw [read_forgetLines, if_pos]
  exact ⟨k, (mem_linesFound _ _ _ _).2 ⟨within, bad⟩, by omega, by omega⟩

/-- R121: every byte outside the uncorrectable lines stays. -/
theorem read_not_forgotten (s : Store) (f : FrameId) (line n : Nat) (cs : List LineCondition) (a : Nat)
    (outside : ∀ k, k < n → conditionAt cs k = .uncorrectable →
      a < lineAddress f (line + k) ∨ lineAddress f (line + k) + 64 ≤ a) :
    Memory.read (s.forgetLines f line (linesFound .uncorrectable cs n)).cells a = Memory.read s.cells a := by
  rw [read_forgetLines, if_neg]
  rintro ⟨k, mem, within⟩
  obtain ⟨few, bad⟩ := (mem_linesFound _ _ _ _).1 mem
  have := outside k few bad
  omega

/-! ### Steps -/

/-- R119: a WIPE STEP or ZERO STEP leaves zeros in its 64 lines. -/
theorem read_zeroStep (s : Store) (f : FrameId) (n a : Nat) :
    (lineAddress f (64 * n) ≤ a → a < lineAddress f (64 * n) + 4096 → Memory.read (s.zeroStep f n).cells a = some 0) ∧
    ((a < lineAddress f (64 * n) ∨ lineAddress f (64 * n) + 4096 ≤ a) →
      Memory.read (s.zeroStep f n).cells a = Memory.read s.cells a) := by
  constructor
  · intro low high
    rw [Store.zeroStep, read_place, List.length_replicate, if_pos ⟨low, high⟩, List.getElem?_replicate, if_pos (by omega)]
    rfl
  · intro outside
    exact read_place_outside _ _ _ _ (by rwa [List.length_replicate])

/-- R121: a line of the copy, zeros where the source's is uncorrectable. -/
theorem copyLines_eq (s : Store) (source : FrameId) (step : Nat) (cs : List LineCondition) :
    (s.copyLines source step cs).length = 4096 ∧ ∀ k, k < 4096 → (s.copyLines source step cs)[k]? =
      some (if conditionAt cs (k / 64) = .uncorrectable then some 0
        else Memory.read s.cells (lineAddress source (64 * step) + k)) := by
  have each : ∀ i, (if conditionAt cs i == .uncorrectable then List.replicate 64 (some 0)
      else Memory.load s.cells (lineAddress source (64 * step + i)) 64).length = 64 := by
    intro i
    split <;> simp
  refine ⟨length_flatten_range _ 64 64 each, fun k few => ?_⟩
  rw [Store.copyLines, getElem?_flatten_range _ 64 64 k each few]
  have rest : k % 64 < 64 := Nat.mod_lt _ (by decide)
  by_cases bad : conditionAt cs (k / 64) = .uncorrectable
  · rw [if_pos (by simp [bad]), if_pos bad, List.getElem?_replicate, if_pos rest]
  · have good : (conditionAt cs (k / 64) == .uncorrectable) = false := by simpa using bad
    rw [good, if_neg bad, if_neg Bool.false_ne_true, getElem?_load _ _ _ _ rest]
    congr 2
    unfold lineAddress
    omega

/-- Settles O12. -/
theorem stepsThatZeroLines : Obligations.StepsThatZeroLines := by
  refine fun s b f n live => ⟨fun slot running => ?_, fun running => ?_,
    fun a => (read_zeroStep s.store f n a).1, fun a => (read_zeroStep s.store f n a).2⟩
  · show execWipeStepComplete b s = _
    rw [execWipeStepComplete, running]
  · show execZeroStepComplete b s = _
    rw [execZeroStepComplete, running]

/-- Settles O13: the target's lines are the run of `copyLines_eq`, laid over the source's forgotten lines. -/
theorem copyStepCopiesLines : Obligations.CopyStepCopiesLines := by
  refine fun s b src dst n live cs _ => ⟨fun _ running => ?_, fun running => ?_, fun lines found running => ?_⟩
  · obtain ⟨length, bytes⟩ := copyLines_eq s.store src n cs
    have run : exec (.copyStepComplete b cs) s = .next { s with
        store := (s.store.forgetLines src (64 * n) (linesFound .uncorrectable cs 64)).placeStep
          dst n (s.store.copyLines src n cs)
        part := (if live then ((s.part.freeBank b).reportLines src (64 * n) 64 cs).copyStepped
          else (s.part.freeBank b).reportLines src (64 * n) 64 cs).closeAct } := by
      show execCopyStepComplete b cs s = _
      rw [execCopyStepComplete, running]
    refine ⟨_, run, rfl, fun k few => ?_, fun a outside kept => ?_⟩
    · rw [Store.placeStep, read_place, if_pos ⟨Nat.le_add_right _ _, by omega⟩, Nat.add_sub_cancel_left, bytes k few]
      rfl
    · rw [Store.placeStep, read_place_outside _ _ _ _ (by omega)]
      exact read_not_forgotten _ _ _ _ _ _ kept
  · refine ⟨{ s with
      store := s.store.forgetLines src (64 * n) (linesFound .uncorrectable cs 64)
      part := _ }, ?_, rfl, rfl⟩
    show execCopyReadHalfComplete b cs s = _
    rw [execCopyReadHalfComplete, running]
  · refine ⟨{ s with store := s.store.placeStep dst n lines, part := _ }, ?_, rfl, rfl⟩
    show execCopyStepComplete b cs s = _
    rw [execCopyStepComplete, running]

/-! ### The end of a READ or VERIFY -/

/-- Log 6: the data of a run of lines: known bytes as they stand, unknown ones free values of this reading. -/
theorem data_eq (w : Store) (f : FrameId) (line n : Nat) : (w.data f line n).length = 64 * n ∧
    ∀ k, k < 64 * n → (w.data f line n)[k]? = some
      ((Memory.read w.cells (lineAddress f line + k)).getD (Config.unknownByte w.draws (lineAddress f line + k))) := by
  refine ⟨by simp [Store.data, Nat.mul_comm], fun k few => ?_⟩
  rw [Store.data, List.getElem?_mapIdx, getElem?_load _ _ _ _ (by omega)]
  rfl

/-- R88, R90: an offset of the range that is uncorrectable or poisoned. -/
def badOffset (a : Access) (cs : List LineCondition) (poison : List Nat) (x : Nat) : Prop :=
  a.offset ≤ x ∧ x < a.offset + a.length ∧ (conditionAt cs (x - a.offset) = .uncorrectable ∨ x ∈ poison)

theorem badOffset_add (a : Access) (cs : List LineCondition) (poison : List Nat) (k : Nat) :
    badOffset a cs poison (a.offset + k) ↔
      k < a.length ∧ (conditionAt cs k == .uncorrectable || poison.contains (a.offset + k)) = true := by
  simp [badOffset]

/-- R88, R90: no bad offset in the range. -/
theorem firstUncorrectable_none {a : Access} {cs : List LineCondition} {poison : List Nat}
    (no : ∀ x, ¬ badOffset a cs poison x) : firstUncorrectable a cs poison = none := by
  rw [firstUncorrectable, Option.map_eq_none_iff, List.find?_eq_none]
  intro k mem yes
  exact no _ ((badOffset_add a cs poison k).2 ⟨List.mem_range.1 mem, yes⟩)

/-- R88, R90: the lowest bad offset of the range. -/
theorem firstUncorrectable_some {a : Access} {cs : List LineCondition} {poison : List Nat} {x : Nat}
    (bad : badOffset a cs poison x) (lowest : ∀ y, badOffset a cs poison y → x ≤ y) :
    firstUncorrectable a cs poison = some x := by
  have low : a.offset ≤ x := bad.1
  obtain ⟨k, rfl⟩ := Nat.exists_eq_add_of_le low
  obtain ⟨few, yes⟩ := (badOffset_add a cs poison k).1 bad
  rw [firstUncorrectable, Option.map_eq_some_iff]
  refine ⟨k, List.find?_range_eq_some.2 ⟨yes, List.mem_range.2 few, fun j lower => ?_⟩, rfl⟩
  rw [Bool.not_eq_true', ← Bool.not_eq_true]
  intro also
  have := lowest _ ((badOffset_add a cs poison j).2 ⟨by omega, also⟩)
  omega

/-- R88, R90: the answer of a READ or VERIFY, by the lowest bad offset. -/
theorem answerRead_eq {p : Part} {c : ClientId} {a : Access} {r : Region} {verify : Bool} {phase : ReadPhase}
    (cs : List LineCondition) (data : List Byte) (work : p.work c = some (.read verify a phase))
    (stands : p.region a.handle.slot = some r) :
    p.answerRead c cs data =
      (p.finish c (if (firstUncorrectable a cs r.poison).isSome then .uncorrectable else .done)
        (if verify then verifyBody (linesFound .corrected cs a.length).length (firstUncorrectable a cs r.poison)
        else match firstUncorrectable a cs r.poison with
          | some x => bytes4 x
          | none => data)).endUse a.handle.slot := by
  unfold Part.answerRead
  rw [work]
  dsimp only
  rw [stands] <;> rfl

/-- Settles O14. -/
theorem lineReadAnswersItsRequest : Obligations.LineReadAnswersItsRequest := by
  refine ⟨?_, data_eq, ?_, ?_⟩
  · intro s b r live cs running q
    have run : exec (.lineReadComplete b cs) s = .next { s with
        store := { s.store.forgetLines r.frame r.line (linesFound .uncorrectable cs r.length) with
          draws := s.store.draws + 1 }
        part := (if live then q.answerRead r.client cs (s.store.data r.frame r.line r.length) else q).closeAct } := by
      show execLineReadComplete b cs s = _
      rw [execLineReadComplete, running]
    exact ⟨_, run, rfl, rfl, rfl, fun k j within bad byte => read_forgotten _ _ _ _ _ within bad byte,
      fun a outside => read_not_forgotten _ _ _ _ _ _ outside⟩
  · intro p c a r cs data verify phase work stands bad count
    rw [answerRead_eq cs data work stands]
    constructor
    · intro no
      rw [firstUncorrectable_none no]
      cases verify <;> rfl
    · intro x isBad lowest
      rw [firstUncorrectable_some isBad lowest]
      cases verify <;> rfl
  · exact fun p c a tag verify phase st body slot executing => ⟨finish_read st body executing, rfl⟩

end Sys2Proof.Machine
end

section
/-! PROOFS. Reported lines: health counts, tests, the doomed flag, the retire queue and notices of damage (R136 to R141). -/

namespace Sys2Proof.Machine

set_option Elab.async false

theorem saturate_eq (limit n : Nat) : saturate limit n = min limit n := by
  unfold saturate
  split <;> omega

/-- One frame changed in two ways that agree on it. -/
theorem modFrame_congr (p : Part) (f : FrameId) (g h : Frame → Frame) (same : g (p.frame f) = h (p.frame f)) :
    p.modFrame f g = p.modFrame f h := by
  unfold Part.frame at same
  unfold Part.modFrame tmod
  rw [same]

/-- R136: the lines of a report, one behind the other. -/
theorem reportLines_succ (p : Part) (f : FrameId) (line n : Nat) (cs : List LineCondition) :
    p.reportLines f line (n + 1) cs = Part.reportLine f line cs (p.reportLines f line n cs) n := by
  rw [Part.reportLines, List.range_succ, List.foldl_append]
  rfl

/-! ### Places -/

/-- R24: what the place of a frame is. -/
theorem placeOf_iff (p : Part) (f : FrameId) (x : Place) : p.placeOf f = some x ↔
    (p.frame f).region = some x.slot ∧ p.region x.slot = some x.region ∧
      x.region.frames.findIdx? (· == f) = some x.entry := by
  simp only [Part.placeOf, Option.bind_eq_some_iff, Option.map_eq_some_iff]
  constructor
  · rintro ⟨s, slot, r, stands, i, entry, rfl⟩
    exact ⟨slot, stands, entry⟩
  · rintro ⟨slot, stands, entry⟩
    exact ⟨_, slot, _, stands, _, entry, rfl⟩

/-- A frame's place depends on its region field and the region table. -/
theorem placeOf_congr {p q : Part} {f : FrameId} (region : (q.frame f).region = (p.frame f).region)
    (slots : q.slots = p.slots) : q.placeOf f = p.placeOf f := by
  have same : q.region = p.region := by
    funext s
    rw [Part.region, Part.region, slots]
  simp only [Part.placeOf, region, same]

/-! ### The doomed flag -/

/-- R137, R138: a frame on which the doomed flag can be set. -/
theorem condemnable_iff (g : Frame) :
    g.condemnable = true ↔ (g.state = .claimed ∨ g.state = .held) ∧ g.doomed = false := by
  simp [Frame.condemnable]

/-- R141: what brings a frame into the retire queue. -/
theorem qualifies_iff (p : Part) (f : FrameId) : p.qualifies f = true ↔
    (p.frame f).doomed = true ∧ (p.frame f).state = .held ∧ f ∉ p.retire.queue ∧
      ∃ x, p.placeOf f = some x ∧ x.region.state ≠ .releasing := by
  unfold Part.qualifies
  cases p.placeOf f <;> simp [and_assoc]

/-- R141: a frame joins a retire queue that has room when it qualifies. -/
theorem joinQueue_eq (p : Part) (f : FrameId) : p.joinQueue f =
    if p.qualifies f = true ∧ p.retire.queue.length < 16 then p.setQueue (p.retire.queue ++ [f]) else p := by
  unfold Part.joinQueue
  exact if_congr (by rw [Bool.and_eq_true, decide_eq_true_eq]; rfl) rfl rfl

@[simp] theorem frame_joinQueue (p : Part) (f x : FrameId) : (p.joinQueue f).frame x = p.frame x := by
  obtain ⟨q, e⟩ := reach_joinQueue p f
  rw [e]
  rfl

@[simp] theorem joinQueue_slots (p : Part) (f : FrameId) : (p.joinQueue f).slots = p.slots := by
  obtain ⟨q, e⟩ := reach_joinQueue p f
  rw [e]

@[simp] theorem joinQueue_clients (p : Part) (f : FrameId) : (p.joinQueue f).clients = p.clients := by
  obtain ⟨q, e⟩ := reach_joinQueue p f
  rw [e]

/-- R139: the doomed flag of a frame, and of no other. -/
theorem frame_doom (p : Part) (f x : FrameId) :
    (p.doom f).frame x = if x = f then { p.frame f with doomed := true } else p.frame x := by
  rw [Part.doom, frame_joinQueue, frame_modFrame]
  exact if_congr eq_comm rfl rfl

@[simp] theorem doom_slots (p : Part) (f : FrameId) : (p.doom f).slots = p.slots := by
  rw [Part.doom, joinQueue_slots]
  rfl

@[simp] theorem doom_clients (p : Part) (f : FrameId) : (p.doom f).clients = p.clients := by
  rw [Part.doom, joinQueue_clients]
  rfl

/-- R139, R141: the retire queue behind a doomed frame. -/
theorem doom_retire (p : Part) (f : FrameId) :
    let joins : Prop := (p.frame f).state = .held ∧ f ∉ p.retire.queue ∧ p.retire.queue.length < 16 ∧
      ∃ x, p.placeOf f = some x ∧ x.region.state ≠ .releasing
    (joins → (p.doom f).retire = { p.retire with queue := p.retire.queue ++ [f] }) ∧
      (¬ joins → (p.doom f).retire = p.retire) := by
  intro joins
  have flagged : ((p.modFrame f fun g => { g with doomed := true }).qualifies f = true ∧ p.retire.queue.length < 16) ↔
      joins := by
    have place : (p.modFrame f fun g => { g with doomed := true }).placeOf f = p.placeOf f :=
      placeOf_congr (by rw [frame_modFrame_same]) rfl
    rw [qualifies_iff, frame_modFrame_same, place]
    constructor
    · rintro ⟨⟨-, held, new, placed⟩, room⟩
      exact ⟨held, new, room, placed⟩
    · rintro ⟨held, new, room, placed⟩
      exact ⟨⟨rfl, held, new, placed⟩, room⟩
  rw [Part.doom, joinQueue_eq]
  exact ⟨fun yes => congrArg Part.retire (if_pos (flagged.2 yes)),
    fun no => (congrArg Part.retire (if_neg fun yes => no (flagged.1 yes))).trans rfl⟩

/-! ### Corrected lines -/

/-- R137: the floor mean over the frames that are not RETIRED. -/
theorem floorMean_eq (p : Part) : p.pool.floorMean =
    (((List.finRange 4096).filter fun x => (p.frame x).state != .retired).map fun x => (p.frame x).corrected).sum /
      ((List.finRange 4096).filter fun x => (p.frame x).state != .retired).length := by
  rw [Pool.floorMean, Pool.inService, toList_eq, List.filter_map, List.map_map, List.length_map]
  rfl

/-- R136: the part once a corrected line is counted. -/
def Part.countCorrected (p : Part) (f : FrameId) (line : Nat) : Part :=
  { (p.modFrame f fun x => { x with corrected := min 65535 ((p.frame f).corrected + 1), lastCorrected := some line }) with
    retire := { p.retire with totalCorrected := min 4294967295 (p.retire.totalCorrected + 1) } }

theorem frame_countCorrected (p : Part) (f : FrameId) (line : Nat) (x : FrameId) : (p.countCorrected f line).frame x =
    if f = x then { p.frame f with corrected := min 65535 ((p.frame f).corrected + 1), lastCorrected := some line }
    else p.frame x := frame_modFrame p f x _

/-- R136, R137: a corrected line is counted, and its frame doomed when it fails a test. -/
theorem reportCorrected_eq (p : Part) (f : FrameId) (line : Nat) : p.reportCorrected f line =
    let counted := p.countCorrected f line
    if (counted.frame f).condemnable && counted.failsTests (counted.frame f) then counted.doom f else counted := by
  unfold Part.reportCorrected
  have counted : (p.modFrame f fun g =>
      { g with corrected := saturate 65535 (g.corrected + 1), lastCorrected := some line }) =
      p.modFrame f fun x => { x with corrected := min 65535 ((p.frame f).corrected + 1), lastCorrected := some line } :=
    modFrame_congr _ _ _ _ (by rw [saturate_eq])
  simp only [counted, saturate_eq]
  rfl

/-- R137: the floor mean once a corrected line is counted. -/
theorem floorMean_countCorrected (p : Part) (f : FrameId) (line : Nat) :
    let n := min 65535 ((p.frame f).corrected + 1)
    let serving := (List.finRange 4096).filter fun x => (p.frame x).state != .retired
    (p.countCorrected f line).pool.floorMean =
      (serving.map fun x => if x = f then n else (p.frame x).corrected).sum / serving.length := by
  intro n serving
  have state : ∀ x, ((p.countCorrected f line).frame x).state = (p.frame x).state := by
    intro x
    rw [frame_countCorrected]
    split
    · rename_i e
      rw [← e]
    · rfl
  have corrected : ∀ x, ((p.countCorrected f line).frame x).corrected = if x = f then n else (p.frame x).corrected := by
    intro x
    rw [frame_countCorrected]
    by_cases e : x = f
    · rw [if_pos e.symm, if_pos e]
    · rw [if_neg (Ne.symm e), if_neg e]
  rw [floorMean_eq]
  simp only [state, corrected]
  rfl

/-! ### Uncorrectable lines -/

/-- R136, R138: an uncorrectable line is counted, dooms a sound frame and damages the region that holds it. -/
theorem reportUncorrectable_eq (p : Part) (f : FrameId) (line : Nat) :
    let counted : Part := { (p.modFrame f fun x => { x with uncorrectable := min 255 (x.uncorrectable + 1) }) with
      retire := { p.retire with totalUncorrectable := min 4294967295 (p.retire.totalUncorrectable + 1) } }
    let judged := if (p.frame f).condemnable then counted.doom f else counted
    (p.placeOf f = none → p.reportUncorrectable f line = judged) ∧
    (∀ x, p.placeOf f = some x → p.reportUncorrectable f line = judged.damage x (1024 * x.entry + line)) := by
  intro counted judged
  have record : counted.frame f = { p.frame f with uncorrectable := min 255 ((p.frame f).uncorrectable + 1) } :=
    frame_modFrame_same p f _
  have doomed : (counted.frame f).condemnable = (p.frame f).condemnable := by rw [record]; rfl
  have reported : p.reportUncorrectable f line = match judged.placeOf f with
      | some x => judged.damage x (1024 * x.entry + line)
      | none => judged := by
    have rule : counted = { (p.modFrame f fun g => { g with uncorrectable := saturate 255 (g.uncorrectable + 1) }) with
        retire := { p.retire with
          totalUncorrectable := saturate fourByteLimit (p.retire.totalUncorrectable + 1) } } := by
      simp only [saturate_eq]
      rfl
    simp only [judged, ← doomed, rule]
    rfl
  have place : judged.placeOf f = p.placeOf f := by
    refine placeOf_congr ?_ ?_
    · simp only [judged]
      split
      · rw [frame_doom, if_pos rfl, record]
      · rw [record]
    · simp only [judged]
      split
      · rw [doom_slots]
        rfl
      · rfl
  rw [reported, place]
  exact ⟨fun nowhere => by rw [nowhere], fun x placed => by rw [placed]⟩

/-! ### Notices of damage -/

/-- R36, R114: whom DAMAGE and FAULT tell. -/
theorem mem_audience (r : Region) (c : ClientId) : c ∈ r.audience ↔ c = r.owner ∨ r.inMatchSet c = true := by
  simp [Region.audience, Region.matchSet, mem_allClients]

/-- R114: a notice to the audience of a region. -/
theorem flags_notifyAudience (p : Part) (n : Notice) (r : Region) (c : ClientId) :
    ((p.notifyAll n r.audience).client c).flags =
      if c = r.owner ∨ r.inMatchSet c = true then (p.client c).flags ||| n.bit else (p.client c).flags := by
  rw [flags_notifyAll]
  exact if_congr (mem_audience r c) rfl rfl

/-- Settles O15. -/
theorem reportedLinesCountAndDoomFrames : Obligations.ReportedLinesCountAndDoomFrames := by
  intro p f g sound
  refine ⟨fun line cs => ⟨rfl, fun n => reportLines_succ p f line n cs⟩, ?_, ?_, placeOf_iff p f, ?_, ?_⟩
  · intro line n counted serving mean fails
    have condemned : ((counted.frame f).condemnable && counted.failsTests (counted.frame f)) = true ↔ sound ∧ fails := by
      have record : counted.frame f = { g with corrected := n, lastCorrected := some line } := by
        exact (frame_countCorrected p f line f).trans (if_pos rfl)
      have average : counted.pool.floorMean = mean := floorMean_countCorrected p f line
      rw [Bool.and_eq_true, condemnable_iff, record, Part.failsTests, average]
      refine and_congr Iff.rfl ?_
      simp only [Bool.or_eq_true, Bool.and_eq_true, decide_eq_true_eq, bne_iff_ne]
      rfl
    have report : p.reportCorrected f line = if _ then counted.doom f else counted := reportCorrected_eq p f line
    exact ⟨fun yes => report.trans (if_pos (condemned.2 yes)), fun no => report.trans (if_neg fun yes => no (condemned.1 yes))⟩
  · intro line counted judged doomed spared
    have same : judged = if (p.frame f).condemnable then counted.doom f else counted := by
      split
      · rename_i yes
        exact doomed ((condemnable_iff _).1 yes)
      · rename_i no
        exact spared fun yes => no ((condemnable_iff _).2 yes)
    rw [same]
    exact reportUncorrectable_eq p f line
  · intro q joins
    exact ⟨frame_doom p f, doom_slots p f, doom_clients p f, doom_retire p f⟩
  · intro x o tells
    rcases damage_cases p x o with ⟨held, new, few, e⟩ | ⟨new, full, sound, e⟩ | ⟨none, e⟩
    · refine ⟨fun _ _ _ c => ?_, fun _ _ full => absurd few (Nat.not_lt.2 full), ?_⟩
      · rw [e, flags_notifyAudience, client_modRegion]
      · rintro (releasing | old | ⟨full, -⟩)
        · exact absurd releasing held
        · exact absurd old new
        · exact absurd few (Nat.not_lt.2 full)
    · refine ⟨fun _ _ few => absurd few (Nat.not_lt.2 full), fun _ _ _ c => ?_, ?_⟩
      · rw [e, flags_notifyAudience, client_modRegion]
      · rintro (releasing | old | ⟨-, live, locked⟩)
        · rcases sound with s | s <;> rw [s] at releasing <;> cases releasing
        · exact absurd old new
        · exact (sound.elim live locked).elim
    · refine ⟨fun held new few => ?_, fun sound new full => ?_, fun _ => e⟩
      · rcases none with releasing | old | ⟨full, -⟩
        · exact absurd releasing held
        · exact absurd old new
        · exact absurd few (Nat.not_lt.2 full)
      · rcases none with releasing | old | ⟨-, live, locked⟩
        · rcases sound with s | s <;> rw [s] at releasing <;> cases releasing
        · exact absurd old new
        · exact (sound.elim live locked).elim

end Sys2Proof.Machine
end

section
/-! PROOFS. The zeroing engine: its choice, its steps, and the fills that complete (R7, R16, R17, R19, R51). -/

namespace Sys2Proof.Machine

set_option Elab.async false

/-- R20, R148: the engines run in ACTIVE, out of reset. -/
theorem running_iff (p : Part) : p.running = true ↔ p.hold = none ∧ p.power.state = .active := by
  simp [Part.running]

theorem not_running_iff (p : Part) : p.running = false ↔ p.hold ≠ none ∨ p.power.state ≠ .active := by
  rw [← Bool.not_eq_true, running_iff, not_and_or]

/-! ### The choice -/

/-- R16: the first CLAIMED frame of the oldest fill that has one. -/
theorem zeroChoice_fill {p : Part} {old new : List Fill} {x : Fill} {f : FrameId} {rest : List FrameId}
    (order : p.fills = old ++ x :: new) (before : ∀ y ∈ old, p.fillClaimed y = []) (first : p.fillClaimed x = f :: rest) :
    p.zeroChoice = some f := by
  have skipped : old.findSome? (fun y => (p.fillClaimed y).head?) = none :=
    List.findSome?_eq_none_iff.2 fun y hy => by rw [before y hy]; rfl
  have found : p.fills.findSome? (fun y => (p.fillClaimed y).head?) = some f := by
    rw [order, List.findSome?_append, skipped, List.findSome?_cons, first]
    rfl
  rw [Part.zeroChoice, found]

/-- R16: without a CLAIMED frame in a fill, the lowest DIRTY frame. -/
theorem zeroChoice_dirty {p : Part} (no : ∀ x ∈ p.fills, p.fillClaimed x = []) (f : FrameId) :
    p.zeroChoice = some f ↔ (p.frame f).state = .dirty ∧ ∀ g, g < f → (p.frame g).state ≠ .dirty := by
  have skipped : p.fills.findSome? (fun y => (p.fillClaimed y).head?) = none :=
    List.findSome?_eq_none_iff.2 fun y hy => by rw [no y hy]; rfl
  rw [Part.zeroChoice, skipped]
  exact (indices_head _ _ f).trans (by simp [Part.frame])

/-! ### The steps -/

/-- R20: while the engine runs the next step is issued, and otherwise not. -/
theorem zeroStepped_next (p : Part) (f : FrameId) {n : Nat} (h : n < 15) :
    p.zeroStepped f n = if p.running then p.zeroFrom f (n + 1) else { p with zero := ⟨some f, n + 1⟩ } :=
  if_pos (by simp only [Config.stepsPerFrame]; omega)

/-- R17: the last step ends the frame. -/
theorem zeroStepped_last (p : Part) (f : FrameId) : p.zeroStepped f 15 = p.frameZeroed f := rfl

/-- R7: a DIRTY frame that has been zeroed. -/
theorem frameZeroed_dirty {p : Part} {f : FrameId} (h : (p.frame f).state = .dirty) :
    p.frameZeroed f = { p with
      zero := ⟨none, 0⟩
      pool := p.pool.leave f (if p.pool.count .spare < p.pool.spareTarget then .spare else .free) } := by
  have state : (({ p with zero := ⟨none, 0⟩ } : Part).frame f).state = .dirty := h
  simp only [Part.frameZeroed, state, Pool.refill, Pool.shortfall, decide_eq_true_eq]

/-- R17: a CLAIMED frame that has been zeroed. -/
theorem frameZeroed_claimed {p : Part} {f : FrameId} (h : (p.frame f).state = .claimed) :
    p.frameZeroed f = ((({ p with zero := ⟨none, 0⟩ } : Part).modFrame f fun g => { g with state := .held }).joinQueue
      f).completeFills := by
  have state : (({ p with zero := ⟨none, 0⟩ } : Part).frame f).state = .claimed := h
  simp only [Part.frameZeroed, state, Part.claimZeroed]

/-- R18: a frame that has left both states. -/
theorem frameZeroed_other {p : Part} {f : FrameId} (dirty : (p.frame f).state ≠ .dirty)
    (claimed : (p.frame f).state ≠ .claimed) : p.frameZeroed f = { p with zero := ⟨none, 0⟩ } := by
  unfold Part.frameZeroed
  dsimp only
  split
  · rename_i e
    exact absurd e dirty
  · rename_i e
    exact absurd e claimed
  · rfl

/-! ### Fills that complete -/

/-- The frames that joined the retire queue are all that a run of joins changes. -/
theorem reach_joins (p : Part) (l : List FrameId) :
    ∃ q, l.foldl Part.joinQueue p = { p with retire := { p.retire with queue := q } } :=
  reach_foldl (fun p q => { p with retire := { p.retire with queue := q } }) _ (fun p => ⟨p.retire.queue, rfl⟩)
    reach_joinQueue (fun _ _ c => ⟨c, rfl⟩) l p

/-- R19: the part in which a fill has completed, before what waited for it is told. -/
def Part.filled (p : Part) (x : Fill) : Part :=
  let closed : Part := { p with fills := p.fills.filter (· != x) }
  if x.extension then
    (p.fillFrames x).foldl Part.joinQueue
      (closed.modRegion x.slot fun r => { r with frames := r.frames ++ r.extension.getD [], extension := none })
  else closed.modRegion x.slot fun r => { r with state := .live }

/-- R19: what waited for the fill is told. -/
theorem completeFill_eq (p : Part) (x : Fill) :
    p.completeFill x = (p.filled x).resolveWait (if x.extension then .extension x.slot else .fill x.slot) .done := by
  unfold Part.completeFill Part.filled
  cases x.extension <;> rfl

/-- R19, R51: the part in which a fill has completed. -/
theorem filled_spec (p : Part) (x : Fill) {r : Region} (stands : p.region x.slot = some r) :
    (p.filled x).fills = p.fills.filter (· != x) ∧ (p.filled x).pool = p.pool ∧ (p.filled x).clients = p.clients ∧
    (∀ s, (p.filled x).generation s = p.generation s) ∧
    (x.extension = false → (p.filled x).region x.slot = some { r with state := .live } ∧
      (p.filled x).retire = p.retire) ∧
    (x.extension = true → (p.filled x).region x.slot =
      some { r with frames := r.frames ++ r.extension.getD [], extension := none }) := by
  unfold Part.filled
  dsimp only
  cases x.extension with
  | false =>
    rw [if_neg Bool.false_ne_true]
    refine ⟨rfl, rfl, rfl, fun s => generation_modRegion _ _ _ _, fun _ => ⟨?_, rfl⟩, nofun⟩
    rw [region_modRegion_same]
    show (p.region x.slot).map _ = _
    rw [stands]
    rfl
  | true =>
    rw [if_pos rfl]
    obtain ⟨queue, joined⟩ := reach_joins (({ p with fills := p.fills.filter (· != x) } : Part).modRegion x.slot fun r =>
      { r with frames := r.frames ++ r.extension.getD [], extension := none }) (p.fillFrames x)
    rw [joined]
    refine ⟨rfl, rfl, rfl, fun s => generation_modRegion _ _ _ _, nofun, fun _ => ?_⟩
    show (({ p with fills := p.fills.filter (· != x) } : Part).modRegion x.slot _).region x.slot = _
    rw [region_modRegion_same]
    show (p.region x.slot).map _ = _
    rw [stands]
    rfl

/-- R51, R141: the doomed frames of an extension that joins the frame list stand behind the retire queue in its order. -/
theorem retire_filled {p : Part} {x : Fill} {r : Region} {ext : List FrameId} (stands : p.region x.slot = some r)
    (grown : x.extension = true) (extension : r.extension = some ext) (kept : r.state ≠ .releasing) (once : ext.Nodup)
    (held : ∀ f ∈ ext, (p.frame f).state = .held ∧ (p.frame f).region = some x.slot ∧ f ∉ p.retire.queue) :
    (p.filled x).retire = { p.retire with queue := p.retire.queue ++
      (ext.filter fun f => (p.frame f).doomed).take (16 - p.retire.queue.length) } := by
  have frames : p.fillFrames x = ext := by simp [Part.fillFrames, stands, grown, extension]
  obtain ⟨q, appended⟩ : ∃ q, q = (({ p with fills := p.fills.filter (· != x) } : Part).modRegion x.slot fun r =>
      { r with frames := r.frames ++ r.extension.getD [], extension := none }) := ⟨_, rfl⟩
  have region : q.region x.slot = some { r with frames := r.frames ++ ext, extension := none } := by
    rw [appended, region_modRegion_same]
    show (p.region x.slot).map _ = _
    rw [stands, Option.map_some, extension]
    rfl
  have record : ∀ f, q.frame f = p.frame f := fun f => by rw [appended]; rfl
  have retire : q.retire = p.retire := by rw [appended]; rfl
  have qualified : ∀ f ∈ ext, f ∉ q.retire.queue ∧ q.qualifies f = (q.frame f).doomed := by
    intro f mem
    obtain ⟨state, slot, new⟩ := held f mem
    rw [retire]
    refine ⟨new, ?_⟩
    obtain ⟨i, entry⟩ : ∃ i, (r.frames ++ ext).findIdx? (· == f) = some i := by
      rw [← Option.isSome_iff_exists, List.findIdx?_isSome]
      simp [mem]
    have place : q.placeOf f = some ⟨x.slot, { r with frames := r.frames ++ ext, extension := none }, i⟩ :=
      (placeOf_iff q f _).2 ⟨by rw [record, slot], region, entry⟩
    rw [Bool.eq_iff_iff, qualifies_iff, record, retire]
    exact ⟨fun yes => yes.1, fun doomed => ⟨doomed, state, new, _, place, kept⟩⟩
  unfold Part.filled
  dsimp only
  rw [if_pos grown, frames, ← appended, foldl_joinQueue ext q once qualified, retire]
  simp only [record]
  exact congrArg (fun x : Retirement => ({ x with queue := _ } : Retirement)) retire

/-- R47: what a GRANT that waited for its fill is answered. -/
theorem waitBody_fill {p : Part} {s : SlotId} {r : Region} (stands : p.region s = some r) :
    p.waitBody (.fill s) = [byte s.val, p.generation s, byte r.frames.length, r.cls.code] := by
  simp only [Part.waitBody, stands]
  rfl

/-- R51: what a RESIZE that waited for its extension is answered. -/
theorem waitBody_extension {p : Part} {s : SlotId} {r : Region} (stands : p.region s = some r) :
    p.waitBody (.extension s) = [byte r.frames.length] := by
  simp only [Part.waitBody, stands]

/-- Settles O16. -/
theorem zeroingRefillsAndCompletes : Obligations.ZeroingRefillsAndCompletes := by
  intro p claimed started ended
  have listed : claimed = p.fillClaimed := by
    funext x
    simp only [claimed, Part.fillClaimed, Part.fillFrames]
    cases p.region x.slot <;> rfl
  rw [listed]
  refine ⟨fun old x new f rest order before first => zeroChoice_fill order before first, fun no => zeroChoice_dirty no,
    ?_, ?_, ?_, ?_, ?_, ?_⟩
  · intro f released active idle choice
    have runs := (running_iff p).2 ⟨released, active⟩
    simp only [Part.selectZero, runs, idle, choice]
    rfl
  · intro f n few
    rw [zeroStepped_next p f few]
    exact ⟨fun released active => if_pos ((running_iff p).2 ⟨released, active⟩),
      fun paused => if_neg (Bool.eq_false_iff.1 ((not_running_iff p).2 paused))⟩
  · exact fun f => ⟨frameZeroed_dirty, frameZeroed_claimed, frameZeroed_other⟩
  · intro busy
    have none : (p.fills.filter fun x => (p.fillClaimed x).isEmpty) = [] := by
      rw [List.filter_eq_nil_iff]
      exact fun x hx empty => busy x hx (List.isEmpty_iff.1 empty)
    rw [Part.completeFills, none]
    rfl
  · intro old x new order done busy
    have without : ∀ l : List Fill, (∀ y ∈ l, p.fillClaimed y ≠ []) →
        (l.filter fun x => (p.fillClaimed x).isEmpty) = [] := fun l hl => by
      rw [List.filter_eq_nil_iff]
      exact fun y hy empty => hl y hy (List.isEmpty_iff.1 empty)
    have single : (p.fills.filter fun x => (p.fillClaimed x).isEmpty) = [x] := by
      rw [order, List.filter_append, without old fun y hy => busy y (List.mem_append_left _ hy),
        List.filter_cons_of_pos (by rw [done]; rfl), without new fun y hy => busy y (List.mem_append_right _ hy)]
      rfl
    rw [Part.completeFills, single]
    rfl
  · intro x r stands q answered
    obtain ⟨fills, pool, clients, generation, plain, grown⟩ := filled_spec p x stands
    have complete : q = (p.filled x).resolveWait (if x.extension then .extension x.slot else .fill x.slot) .done :=
      completeFill_eq p x
    obtain ⟨⟨c', tx'⟩, told⟩ := reach_resolveWait (p.filled x)
      (if x.extension then .extension x.slot else .fill x.slot) .done
    have region : q.region = (p.filled x).region := by rw [complete, told]; rfl
    have retire : q.retire = (p.filled x).retire := by rw [complete, told]
    have answers : ∀ c tag w, (if x.extension then Wait.extension x.slot else .fill x.slot) = w →
        (p.client c).executing = some ⟨tag, .waiting w⟩ →
        answered c (Work.waiting w).code tag ((p.filled x).waitBody w) := by
      rintro c tag w rfl executing
      have waits : ((p.filled x).client c).executing =
          some ⟨tag, .waiting (if x.extension then .extension x.slot else .fill x.slot)⟩ := by
        rw [Part.client, clients]
        exact executing
      have ended := resolveWait_answers (p.filled x) _ .done c tag waits
      rw [← complete] at ended
      exact ended
    refine ⟨by rw [complete, told]; exact fills, ?_, ?_, ?_, ?_, by rw [complete, told]; exact pool⟩
    · intro fresh
      obtain ⟨live, -⟩ := plain fresh
      refine ⟨by rw [region, live], fun c tag executing => ?_⟩
      have body := answers c tag (.fill x.slot) (by rw [fresh]; rfl) executing
      rwa [waitBody_fill live, generation] at body
    · intro extended
      have appended := grown extended
      refine ⟨by rw [region, appended], fun c tag executing => ?_⟩
      have body := answers c tag (.extension x.slot) (by rw [extended]; rfl) executing
      rwa [waitBody_extension appended] at body
    · exact fun fresh => retire.trans (plain fresh).2
    · exact fun ext extended extension kept once held =>
        retire.trans (retire_filled stands extended extension kept once held)

end Sys2Proof.Machine
end

section
/-! PROOFS. The expiry of the lease, the scrub timer and the refresh slot, and the thermal sample (R41, R127, R130 to R132,
R144, R145). -/

namespace Sys2Proof.Machine

set_option Elab.async false

/-! ### The lease (R41) -/

theorem leaseRuns_of {r : Region} {l : Lease} (lease : r.lease = some l)
    (state : r.state = .live ∨ r.state = .locked ∨ r.state = .faulted ∨ r.state = .lost) : r.leaseRuns = true := by
  rw [Region.leaseRuns, lease]
  rcases state with state | state | state | state <;> rw [state] <;> rfl

theorem leaseDue_eq {p : Part} {s : SlotId} {r : Region} {l : Lease} (running : p.running = true)
    (stands : p.region s = some r) (lease : r.lease = some l)
    (state : r.state = .live ∨ r.state = .locked ∨ r.state = .faulted ∨ r.state = .lost) :
    p.leaseDue s = decide (l.remaining = 0) := by
  have ended : r.leaseOver = decide (l.remaining = 0) := by
    rw [Region.leaseOver, leaseRuns_of lease state, lease, Bool.true_and]
    exact Bool.eq_iff_iff.2 (by simp)
  simp only [Part.leaseDue, running, stands, ended, Bool.true_and]

/-- R41: the release at the expiry of a lease. -/
theorem releaseRegion_expired {p : Part} {s : SlotId} {r : Region} (stands : p.region s = some r)
    (state : r.state ≠ .releasing) :
    p.releaseRegion s true = ((p.enterReleasing s r).notify .leaseExpired r.owner).endRelease s := by
  rw [Part.releaseRegion, stands]
  exact if_neg (mt beq_iff_eq.1 state)

/-- Settles O18, by what `leaseDue` is for a lease whose timer runs. -/
theorem leaseExpiryReleases : Obligations.LeaseExpiryReleases := by
  intro s slot r l hold power stands lease state
  have due := leaseDue_eq ((running_iff s.part).2 ⟨hold, power⟩) stands lease state
  have stays : r.state ≠ .releasing := by
    rcases state with state | state | state | state <;> rw [state] <;> decide
  constructor
  · intro ended
    show Host.Outcome.next (if s.part.leaseDue slot then _ else s) = _
    rw [due, decide_eq_true ended, if_pos rfl, releaseRegion_expired stands stays]
  · intro left
    show Host.Outcome.next (if s.part.leaseDue slot then _ else s) = _
    rw [due, decide_eq_false left]
    rfl

/-! ### The refresh slot (R127) -/

/-- Settles O20: the expiry is one write of the bank, and a REFRESH that ends only frees its bank. -/
theorem slotExpiryOwesRefresh : Obligations.SlotExpiryOwesRefresh := by
  refine ⟨fun s b hold => ⟨fun zero => ?_, fun left => ?_⟩, fun g => ?_, rfl, fun s b g live running => ?_⟩
  · show Host.Outcome.next (if s.part.hold.isNone && (s.part.bank b).slotTimer == some 0 then _ else s) = _
    rw [hold, zero]
    rfl
  · show Host.Outcome.next (if s.part.hold.isNone && (s.part.bank b).slotTimer == some 0 then _ else s) = _
    rw [beq_eq_false_iff_ne.2 left, Bool.and_false]
    rfl
  · have bound := g.isLt
    simp only [nextSegment, Fin.ofNat]
    split <;> omega
  · show execRefreshComplete b s = _
    rw [execRefreshComplete, running]

/-! ### The thermal sample (R130 to R132) -/

theorem clampTemperature_low {t : Int} (h : t < -40) : clampTemperature t = -40 := if_pos h

theorem clampTemperature_high {t : Int} (h : 125 < t) : clampTemperature t = 125 := by
  rw [clampTemperature, if_neg (by omega), if_pos h]

theorem clampTemperature_within {t : Int} (low : -40 ≤ t) (high : t ≤ 125) : clampTemperature t = t := by
  rw [clampTemperature, if_neg (by omega), if_neg (by omega)]

/-- R130: a sample that leaves the class as it is. -/
theorem sample_same {p : Part} {t : Int} (same : p.thermal.cls.update (clampTemperature t) = p.thermal.cls) :
    p.sample t = { p with thermal :=
      ⟨some (clampTemperature t), p.thermal.cls.update (clampTemperature t), p.thermal.updated, 250⟩ } := by
  have unchanged : (p.thermal.cls.update (clampTemperature t) != p.thermal.cls) = false := by
    rw [same, bne_self_eq_false]
  simp only [Part.sample, unchanged, Bool.or_false]
  rfl

/-- R132: a sample that changes the class. -/
theorem sample_changed {p : Part} {t : Int} (change : p.thermal.cls.update (clampTemperature t) ≠ p.thermal.cls) :
    p.sample t = ({ p with thermal :=
      ⟨some (clampTemperature t), p.thermal.cls.update (clampTemperature t), true, 250⟩ } : Part).notifyAll .thermal
      (allClients.filter fun c => (p.client c).attached) := by
  have differs : (p.thermal.cls.update (clampTemperature t) != p.thermal.cls) = true := bne_iff_ne.2 change
  simp only [Part.sample, differs, Bool.or_true]
  rfl

/-- The thresholds of R131, and the points at or below which a class is left downward. -/
def thresholds : List (ThermalClass × Int) := [(.cool, -25), (.normal, 45), (.warm, 85), (.hot, 95), (.overheat, 105)]
def leavingPoints : List (ThermalClass × Int) := [(.cool, -26), (.normal, 42), (.warm, 82), (.hot, 92), (.overheat, 102)]

theorem mem_leavingPoints (k : ThermalClass) (e : Int) : (k, e) ∈ leavingPoints ↔ k.leftAt = some e := by
  cases k <;> simp [leavingPoints, ThermalClass.leftAt, eq_comm]

/-- R131, step 2: the class entered is FREEZE, or its threshold is reached. -/
theorem classEntered_reached (t : Int) :
    classEntered t = .freeze ∨ ∃ e, (classEntered t, e) ∈ thresholds ∧ e ≤ t := by
  unfold classEntered thresholds
  split_ifs <;> simp <;> omega

/-- R131, step 2: the class entered is the highest whose threshold is reached. -/
theorem classEntered_eq {t e : Int} {j : ThermalClass} (mem : (j, e) ∈ thresholds) (reached : e ≤ t)
    (highest : ∀ j' e', (j', e') ∈ thresholds → j.rank < j'.rank → t < e') : classEntered t = j := by
  have normal : j.rank < 2 → t < 45 := highest .normal 45 (by simp [thresholds])
  have warm : j.rank < 3 → t < 85 := highest .warm 85 (by simp [thresholds])
  have hot : j.rank < 4 → t < 95 := highest .hot 95 (by simp [thresholds])
  have overheat : j.rank < 5 → t < 105 := highest .overheat 105 (by simp [thresholds])
  simp only [thresholds, List.mem_cons, Prod.mk.injEq, List.not_mem_nil, or_false] at mem
  rcases mem with ⟨rfl, rfl⟩ | ⟨rfl, rfl⟩ | ⟨rfl, rfl⟩ | ⟨rfl, rfl⟩ | ⟨rfl, rfl⟩
  · rw [classEntered, if_neg (not_le.2 (overheat (by decide))), if_neg (not_le.2 (hot (by decide))),
      if_neg (not_le.2 (warm (by decide))), if_neg (not_le.2 (normal (by decide))), if_pos reached]
  · rw [classEntered, if_neg (not_le.2 (overheat (by decide))), if_neg (not_le.2 (hot (by decide))),
      if_neg (not_le.2 (warm (by decide))), if_pos reached]
  · rw [classEntered, if_neg (not_le.2 (overheat (by decide))), if_neg (not_le.2 (hot (by decide))), if_pos reached]
  · rw [classEntered, if_neg (not_le.2 (overheat (by decide))), if_pos reached]
  · exact if_pos reached

theorem rank_below {k : ThermalClass} {e : Int} (h : k.leftAt = some e) : k.below.rank + 1 = k.rank := by
  cases k with
  | freeze => cases h
  | _ => rfl

theorem getElem?_rank (k : ThermalClass) :
    [ThermalClass.freeze, .cool, .normal, .warm, .hot, .overheat][k.rank]? = some k := by
  cases k <;> rfl

theorem rank_injective {i k : ThermalClass} (h : i.rank = k.rank) : i = k :=
  Option.some.inj (by rw [← getElem?_rank i, h, getElem?_rank])

/-- R131, step 3: a class at or below k that is not left downward at T, while every class above it, up to k, is. -/
def FallsTo (t : Int) (k j : ThermalClass) : Prop :=
  j.rank ≤ k.rank ∧ (∀ e, j.leftAt = some e → e < t) ∧
    ∀ (i : ThermalClass) e, i.leftAt = some e → j.rank < i.rank → i.rank ≤ k.rank → t ≤ e

theorem FallsTo.stays {t : Int} {k : ThermalClass} (last : ∀ e, k.leftAt = some e → e < t) : FallsTo t k k :=
  ⟨le_rfl, last, fun _ _ _ above below => absurd above (Nat.not_lt.2 below)⟩

/-- R131, step 3: one class of the fall. -/
theorem FallsTo.below {t e : Int} {k j : ThermalClass} (point : k.leftAt = some e) (falls : t ≤ e)
    (h : FallsTo t k.below j) : FallsTo t k j := by
  have below := rank_below point
  obtain ⟨lower, last, left⟩ := h
  refine ⟨by omega, last, fun i e' point' above under => ?_⟩
  rcases Nat.lt_or_eq_of_le under with less | same
  · exact left i e' point' above (by omega)
  · obtain rfl := rank_injective same
    obtain rfl := Option.some.inj (point.symm.trans point')
    exact falls

theorem fallsTo_fallFrom {t : Int} (n : Nat) (k : ThermalClass) (enough : k.rank ≤ n) :
    FallsTo t k (fallFrom n k t) := by
  induction n generalizing k with
  | zero =>
    have freeze : k = .freeze := rank_injective (Nat.le_zero.1 enough)
    exact .stays (by rw [freeze]; exact fun e h => nomatch h)
  | succ n ih =>
    rw [fallFrom]
    cases point : k.leftAt with
    | none => exact .stays (by rw [point]; exact fun e h => nomatch h)
    | some e =>
      by_cases falls : t ≤ e
      · have below := rank_below point
        simp only [falls, if_true]
        exact (ih k.below (by omega)).below point falls
      · simp only [falls, if_false]
        exact .stays fun e' point' => Option.some.inj (point.symm.trans point') ▸ not_le.1 falls

/-- Settles O21: the clamp, the two outcomes of a sample, and R131 step by step. -/
theorem sampleUpdatesThermalMonitor : Obligations.SampleUpdatesThermalMonitor := by
  refine ⟨fun s t hold => ?_, fun k t => ⟨fun cold => if_pos cold, fun warm => ?_⟩⟩
  · have taken : exec (.thermalSample t) s = .next (s.withPart (s.part.sample t).closeAct) := by
      show Host.Outcome.next (if s.part.hold.isNone then _ else s) = _
      rw [hold]
      rfl
    rw [taken]
    exact ⟨clampTemperature_low, clampTemperature_high, clampTemperature_within,
      fun same => by rw [sample_same same], fun change => by rw [sample_changed change]⟩
  · have update : k.update t = if k.rank < (classEntered t).rank then classEntered t else fallFrom 5 k t := if_neg warm
    rw [update]
    constructor
    · intro j e mem higher reached highest
      rw [classEntered_eq mem reached highest, if_pos higher]
    · intro unreached
      have falls : ¬ k.rank < (classEntered t).rank := fun higher => by
        rcases classEntered_reached t with freeze | ⟨e, mem, reached⟩
        · rw [freeze] at higher
          exact absurd higher (Nat.not_lt_zero _)
        · exact absurd reached (not_le.2 (unreached _ e mem higher))
      rw [if_neg falls]
      obtain ⟨lower, last, left⟩ := fallsTo_fallFrom (t := t) 5 k (by cases k <;> decide)
      exact ⟨lower, fun e mem => last e ((mem_leavingPoints _ e).1 mem),
        fun j e mem => left j e ((mem_leavingPoints j e).1 mem)⟩

/-! ### The scrub timer and the scrub step (R143 to R145) -/

/-- The first entry of an ascending list that meets a condition is the least that does. -/
theorem find?_ascending {l : List FrameId} (ascends : l.Pairwise (· < ·)) {P : FrameId → Bool} {f : FrameId}
    (mem : f ∈ l) (meets : P f = true) (least : ∀ g ∈ l, P g = true → f ≤ g) : l.find? P = some f := by
  induction l with
  | nil => cases mem
  | cons g l ih =>
    obtain ⟨first, ascends⟩ := List.pairwise_cons.1 ascends
    rw [List.find?_cons]
    by_cases here : P g = true
    · rcases List.mem_cons.1 mem with rfl | later
      · rw [here]
      · exact absurd (first f later) (not_lt.2 (least g List.mem_cons_self here))
    · have later : f ∈ l := (List.mem_cons.1 mem).resolve_left fun same => here (same ▸ meets)
      rw [Bool.eq_false_iff.2 here]
      exact ih ascends later fun g hg => least g (List.mem_cons_of_mem _ hg)

theorem head?_ascending {l : List FrameId} (ascends : l.Pairwise (· < ·)) {f : FrameId} (mem : f ∈ l)
    (least : ∀ g ∈ l, f ≤ g) : l.head? = some f := by
  cases l with
  | nil => cases mem
  | cons g l =>
    rcases List.mem_cons.1 mem with rfl | later
    · rfl
    · exact absurd ((List.pairwise_cons.1 ascends).1 f later) (not_lt.2 (least g List.mem_cons_self))

theorem lostAt_iff (p : Part) (s : Option SlotId) :
    p.lostAt s = true ↔ ∃ slot r, s = some slot ∧ p.region slot = some r ∧ r.state = .lost := by
  unfold Part.lostAt
  split
  · next r stands =>
    obtain ⟨slot, rfl, stands⟩ := Option.bind_eq_some_iff.1 stands
    rw [beq_iff_eq]
    refine ⟨fun lost => ⟨slot, r, rfl, stands, lost⟩, fun ⟨slot', r', at_, stands', lost⟩ => ?_⟩
    obtain rfl := Option.some.inj at_
    obtain rfl := Option.some.inj (stands.symm.trans stands')
    exact lost
  · next none =>
    refine ⟨fun h => (Bool.false_ne_true h).elim, fun ⟨slot, r, at_, stands, _⟩ => ?_⟩
    rw [at_, Option.bind_some, stands] at none
    cases none

/-- R144: a frame the engine may scrub. -/
theorem scrubbable_iff (p : Part) (f : FrameId) : p.scrubbable f = true ↔ (p.frame f).state = .held ∧
    (∀ slot r m, p.region slot = some r → r.migration = some m → m.source ≠ f) ∧
    (∀ slot r, (p.frame f).region = some slot → p.region slot = some r → r.state ≠ .lost) := by
  have source : p.isSource f = false ↔ ∀ slot r m, p.region slot = some r → r.migration = some m → m.source ≠ f := by
    rw [← Bool.not_eq_true, isSource_iff]
    push Not
    rfl
  have lost : p.lostAt (p.frame f).region = false ↔
      ∀ slot r, (p.frame f).region = some slot → p.region slot = some r → r.state ≠ .lost := by
    rw [← Bool.not_eq_true, lostAt_iff]
    push Not
    rfl
  simp only [Part.scrubbable, Bool.and_eq_true, beq_iff_eq, Bool.not_eq_true', source, lost, and_assoc]

/-- R144: the frames that may be scrubbed. -/
def Part.scrubbables (p : Part) : List FrameId := (p.pool.framesIn .held).filter p.scrubbable

theorem mem_scrubbables (p : Part) (f : FrameId) : f ∈ p.scrubbables ↔ p.scrubbable f = true := by
  rw [Part.scrubbables, List.mem_filter, Pool.framesIn, mem_indices]
  exact ⟨fun h => h.2, fun h => ⟨beq_iff_eq.2 ((scrubbable_iff p f).1 h).1, h⟩⟩

/-- R144: the search for the next frame, over the frames that may be scrubbed. -/
theorem nextScrub_eq (p : Part) : p.nextScrub =
    match p.scrubbables.find? fun f => decide (p.scrub.cursor ≤ f) with
    | some f => some f
    | none => p.scrubbables.head? := rfl

theorem scrubbables_ascend (p : Part) : p.scrubbables.Pairwise (· < ·) := (indices_ascend _ _).filter _

/-- R144: the next frame is the least from the cursor upward, or else the least. -/
theorem nextScrub_least {p : Part} {f : FrameId} (fits : p.scrubbable f = true)
    (least : (p.scrub.cursor ≤ f ∧ ∀ g, p.scrubbable g = true → p.scrub.cursor ≤ g → f ≤ g) ∨
      ((∀ g, p.scrubbable g = true → g < p.scrub.cursor) ∧ ∀ g, p.scrubbable g = true → f ≤ g)) :
    p.nextScrub = some f := by
  have mem := (mem_scrubbables p f).2 fits
  rw [nextScrub_eq]
  rcases least with ⟨above, least⟩ | ⟨behind, least⟩
  · rw [find?_ascending (scrubbables_ascend p) mem (decide_eq_true above) fun g hg from_ =>
      least g ((mem_scrubbables p g).1 hg) (of_decide_eq_true from_)]
  · have passed : (p.scrubbables.find? fun f => decide (p.scrub.cursor ≤ f)) = none :=
      List.find?_eq_none.2 fun g hg from_ =>
        absurd (of_decide_eq_true from_) (not_le.2 (behind g ((mem_scrubbables p g).1 hg)))
    rw [passed]
    exact head?_ascending (scrubbables_ascend p) mem fun g hg => least g ((mem_scrubbables p g).1 hg)

theorem nextScrub_none {p : Part} (no : ∀ f, ¬ p.scrubbable f = true) : p.nextScrub = none := by
  have empty : p.scrubbables = [] := List.eq_nil_iff_forall_not_mem.2 fun f hf => no f ((mem_scrubbables p f).1 hf)
  rw [nextScrub_eq, empty]
  rfl

/-- R144: the engine takes a frame. -/
theorem scrubExpiry_takes {p : Part} {f : FrameId} (next : p.nextScrub = some f) :
    p.scrubExpiry = ({ p with scrub := { p.scrub with
      cursor := Fin.ofNat 4096 (f.val + 1)
      passes := min 4294967295
        (p.scrub.passes + ((if f < p.scrub.cursor then 1 else 0) + (if f.val = 4095 then 1 else 0)))
      current := some (f, 0)
      timer := none } }).modBank (bankOf f) fun k => { k with scrub := some (f, 0) } := by
  rw [Part.scrubExpiry, next]
  simp only [saturate_eq, scrubLaps]
  rfl

/-- R133: the unit of the scrub interval. -/
theorem scrubUnit_eq (k : ThermalClass) :
    k.scrubUnit = if k = .warm ∨ k = .hot ∨ k = .overheat then 50 else 100 := by
  cases k <;> rfl

/-- R143: the interval timer starts. -/
theorem startScrubTimer_eq (p : Part) : p.startScrubTimer = { p with scrub := { p.scrub with
    timer := if p.scrub.interval = 0 then none else some (p.scrub.interval *
      (if p.thermal.cls = .warm ∨ p.thermal.cls = .hot ∨ p.thermal.cls = .overheat then 50 else 100)) } } := by
  simp only [Part.startScrubTimer, scrubUnit_eq, beq_iff_eq]

/-- R145: a step before the sixteenth is followed by the next one, which is issued while the engines run. -/
theorem scrubStepped_next (p : Part) (f : FrameId) {n : Nat} (few : n < 15) :
    p.scrubStepped f n =
      if p.running then ({ p with scrub := { p.scrub with current := some (f, n + 1) } } : Part).issueScrub f (n + 1)
      else { p with scrub := { p.scrub with current := some (f, n + 1) } } :=
  if_pos (by simp only [Config.stepsPerFrame]; omega)

theorem scrubStepped_last (p : Part) (f : FrameId) {n : Nat} (all : 15 ≤ n) :
    p.scrubStepped f n = ({ p with scrub := { p.scrub with current := none } } : Part).startScrubTimer :=
  if_neg (by simp only [Config.stepsPerFrame]; omega)

/-- Settles O19: the search by `nextScrub_least`, the bytes of a step by `read_forgotten` and `read_not_forgotten`. -/
theorem scrubExpiryTakesNextFrame : Obligations.ScrubExpiryTakesNextFrame := by
  refine ⟨fun s hold power => ?_, startScrubTimer_eq, fun s b f n live cs running => ?_, fun p f n => ⟨?_, ?_, ?_⟩⟩
  · have exec_due (due : s.part.scrub.timer = some 0) :
        exec .scrubIntervalExpiry s = .next (s.withPart s.part.scrubExpiry.closeAct) := by
      show execScrubIntervalExpiry s = _
      rw [execScrubIntervalExpiry, (running_iff s.part).2 ⟨hold, power⟩, due]
      rfl
    refine ⟨fun left => ?_, fun due => ⟨fun f fits least => ?_, fun no => ?_⟩⟩
    · show execScrubIntervalExpiry s = _
      rw [execScrubIntervalExpiry, beq_eq_false_iff_ne.2 left, Bool.and_false]
      rfl
    · have next : s.part.nextScrub = some f := nextScrub_least ((scrubbable_iff s.part f).2 fits) <| by
        simpa only [scrubbable_iff] using least
      rw [exec_due due, scrubExpiry_takes next]
    · have next : s.part.nextScrub = none := nextScrub_none fun f => by
        simpa only [scrubbable_iff] using no f
      rw [exec_due due, Part.scrubExpiry, next]
  · refine ⟨{ s with
      store := s.store.forgetLines f (64 * n) (linesFound .uncorrectable cs 64)
      part := (if live then ((s.part.freeBank b).reportLines f (64 * n) 64 cs).scrubStepped f n
        else (s.part.freeBank b).reportLines f (64 * n) 64 cs).closeAct }, ?_, rfl, rfl, ?_, ?_⟩
    · show execScrubStepComplete b cs s = _
      rw [execScrubStepComplete, running]
    · exact fun k j within bad byte => read_forgotten s.store f (64 * n) 64 cs within bad byte
    · exact fun a outside => read_not_forgotten s.store f (64 * n) 64 cs a outside
  · intro few hold power
    rw [scrubStepped_next p f few, if_pos ((running_iff p).2 ⟨hold, power⟩)]
    rfl
  · intro few paused
    rw [scrubStepped_next p f few, (not_running_iff p).2 paused]
    rfl
  · exact scrubStepped_last p f

end Sys2Proof.Machine
end

section
/-! PROOFS. The retire queue, the choice of a target, the switch, and a migration that is aborted (R141, R148 to R154). -/

namespace Sys2Proof.Machine

set_option Elab.async false

/-! ### The retire queue (R141, R142) -/

theorem mem_waitingDoomed (p : Part) (f : FrameId) : f ∈ p.waitingDoomed ↔ p.qualifies f = true := by
  rw [Part.waitingDoomed, List.mem_filter, mem_indices]
  refine ⟨fun h => h.2, fun h => ⟨?_, h⟩⟩
  obtain ⟨doomed, held, -⟩ := (qualifies_iff p f).1 h
  exact Bool.and_eq_true_iff.2 ⟨doomed, beq_iff_eq.2 held⟩

theorem waitingDoomed_ascends (p : Part) : p.waitingDoomed.Pairwise (· < ·) := (indices_ascend _ _).filter _

/-- R141: the queue is refilled, up to 16, by the waiting doomed frames in ascending order. -/
theorem refillQueue_eq {p : Part} {l : List FrameId} (ascends : l.Pairwise (· < ·))
    (members : ∀ f, f ∈ l ↔ p.qualifies f = true) :
    p.refillQueue = p.setQueue (p.retire.queue ++ l.take (16 - p.retire.queue.length)) := by
  have same : p.waitingDoomed = l :=
    (waitingDoomed_ascends p).eq_of_mem_iff ascends fun f => (mem_waitingDoomed p f).trans (members f).symm
  rw [Part.refillQueue, same]
  rfl

/-- R142: frames leave the queue. -/
theorem leaveQueue_single (p : Part) (f : FrameId) : p.leaveQueue [f] = p.setQueue (p.retire.queue.filter (· != f)) := by
  rw [Part.leaveQueue]
  congr 1
  exact List.filter_congr fun g _ => by simp [bne, beq_eq_decide]

/-! ### Top-up -/

/-- R8: top-up moves FREE frames alone. -/
theorem frame_topUp_of_ne {p : Pool} {f : FrameId} (h : (tget p.frames f).state ≠ .free) :
    tget p.topUp.frames f = tget p.frames f := by
  rw [frames_topUp, if_neg]
  intro mem
  have free := List.mem_of_mem_take mem
  rw [Pool.framesIn, mem_indices] at free
  exact h (beq_iff_eq.1 free)

/-- R8: top-up leaves a FREE frame FREE or makes it SPARE. -/
theorem frame_topUp_free {p : Pool} {f : FrameId} (h : (tget p.frames f).state = .free) :
    (tget p.topUp.frames f).state = .free ∨ (tget p.topUp.frames f).state = .spare := by
  rw [frames_topUp]
  split
  · exact .inr rfl
  · exact .inl h

theorem pool_settleSpare (p : Part) (before : Pool) : (p.settleSpare before).pool = p.pool.topUp := by
  unfold Part.settleSpare
  dsimp only
  split <;> rfl

/-! ### The target (R149) -/

/-- R149: a frame in a state that fits a region of a class. -/
def Part.suits (p : Part) (k : RegionClass) (st : FrameState) (t : FrameId) : Prop :=
  (p.frame t).state = st ∧ ((tget p.pool.segments (segmentOf t)).cls = segmentClass k ∨
    (tget p.pool.segments (segmentOf t)).cls = .unclaimed)

theorem suits_iff (p : Part) (k : RegionClass) (st : FrameState) (t : FrameId) :
    (((tget p.pool.frames t).state == st && p.pool.fits t k) = true) ↔ p.suits k st t := by
  simp [Part.suits, Pool.fits, Part.frame]

theorem lowestFitting_eq {p : Part} {k : RegionClass} {st : FrameState} {t : FrameId} (fits : p.suits k st t)
    (lowest : ∀ g, g < t → ¬ p.suits k st g) : p.pool.lowestFitting st k = some t := by
  refine (indices_head _ _ t).2 ⟨(suits_iff p k st t).2 fits, fun g lower => Bool.eq_false_iff.2 fun also => ?_⟩
  exact lowest g lower ((suits_iff p k st g).1 also)

theorem lowestFitting_none {p : Part} {k : RegionClass} {st : FrameState} (no : ∀ g, ¬ p.suits k st g) :
    p.pool.lowestFitting st k = none := by
  rw [Pool.lowestFitting, List.head?_eq_none_iff, List.eq_nil_iff_forall_not_mem]
  exact fun g mem => no g ((suits_iff p k st g).1 ((mem_indices _ _ g).1 mem))

theorem target_none {p : Part} {k : RegionClass} (no : ∀ t, ¬ p.suits k .spare t ∧ ¬ p.suits k .free t) :
    p.pool.target k = none := by
  rw [Pool.target, lowestFitting_none fun g => (no g).1, lowestFitting_none fun g => (no g).2]

/-- R149: the lowest fitting SPARE frame, or else the lowest fitting FREE frame. -/
theorem target_some {p : Part} {k : RegionClass} {t : FrameId}
    (lowest : (p.suits k .spare t ∧ ∀ g, g < t → ¬ p.suits k .spare g) ∨
      ((∀ g, ¬ p.suits k .spare g) ∧ p.suits k .free t ∧ ∀ g, g < t → ¬ p.suits k .free g)) :
    p.pool.target k = some t := by
  rw [Pool.target]
  rcases lowest with ⟨fits, lowest⟩ | ⟨no, fits, lowest⟩
  · rw [lowestFitting_eq fits lowest]
  · rw [lowestFitting_none no, lowestFitting_eq fits lowest]

/-! ### The switch (R151) -/

section Switch
variable {p : Part} {s : SlotId} {r : Region} (m : Migration) (stands : p.region s = some r)
include stands

theorem switch_eq : p.switch s m =
    { p with
      slots := (p.modRegion s fun r => { r with frames := r.frames.set m.index m.target, migration := none }).slots
      pool := (p.pool.enter m.target .held s r.cls).leave m.source .retired
      retire := { p.retire with
        queue := p.retire.queue.filter (· != m.source)
        engine := if p.retire.engine = .copying then .idle else p.retire.engine } } := by
  rw [Part.switch, stands]
  dsimp only
  rw [reach_stopCopying, leaveQueue_single]
  rfl

theorem region_switch (u : SlotId) : (p.switch s m).region u =
    if s = u then some { r with frames := r.frames.set m.index m.target, migration := none } else p.region u := by
  have slots : (p.switch s m).region u =
      (p.modRegion s fun r => { r with frames := r.frames.set m.index m.target, migration := none }).region u := by
    rw [switch_eq m stands]
    rfl
  rw [slots, region_modRegion, stands]
  rfl

theorem frame_switch (f : FrameId) : (p.switch s m).frame f =
    if m.source = f then
      { tget (p.pool.enter m.target .held s r.cls).frames f with state := .retired, region := none, doomed := false }
    else tget (p.pool.enter m.target .held s r.cls).frames f := by
  rw [switch_eq m stands]
  refine (frame_leave _ _ _ _).trans ?_
  split
  · next same => rw [same]
  · rfl

theorem frame_switch_source (distinct : m.source ≠ m.target) :
    (p.switch s m).frame m.source = { p.frame m.source with state := .retired, region := none, doomed := false } := by
  rw [frame_switch m stands, if_pos rfl, frame_enter, if_neg distinct.symm]
  rfl

theorem frame_switch_target (distinct : m.source ≠ m.target) :
    ((p.switch s m).frame m.target).state = .held ∧ ((p.switch s m).frame m.target).region = some s := by
  rw [frame_switch m stands, if_neg distinct, frame_enter, if_pos rfl]
  exact ⟨rfl, rfl⟩

theorem frame_switch_other {f : FrameId} (source : f ≠ m.source) (target : f ≠ m.target) :
    (p.switch s m).frame f = p.frame f := by
  rw [frame_switch m stands, if_neg source.symm, frame_enter, if_neg target.symm]
  rfl

theorem retire_switch : (p.switch s m).retire = { p.retire with
    queue := p.retire.queue.filter (· != m.source)
    engine := if p.retire.engine = .copying then .idle else p.retire.engine } := by
  rw [switch_eq m stands]

end Switch

/-! ### The head of the queue (R148, R149) -/

theorem evaluateHead_empty {p : Part} (empty : p.retire.queue = []) : p.evaluateHead = p.setEngine .idle := by
  rw [Part.evaluateHead, empty]

section Head
variable {p : Part} {f : FrameId} {rest : List FrameId} {x : Place} (head : p.retire.queue = f :: rest)
  (place : p.placeOf f = some x)
include head place

theorem evaluateHead_head : p.evaluateHead =
    if x.region.wipe.isSome then p.setEngine .blocked
    else match p.pool.target x.region.cls with
      | none => p.lackTarget
      | some t => p.selectTarget x f t := by
  rw [Part.evaluateHead, head]
  dsimp only
  rw [place] <;> rfl

theorem evaluateHead_blocked (wipe : x.region.wipe ≠ none) : p.evaluateHead = p.setEngine .blocked := by
  rw [evaluateHead_head head place, if_pos (Option.isSome_iff_ne_none.2 wipe)]

theorem evaluateHead_lacks (wipe : x.region.wipe = none) (target : p.pool.target x.region.cls = none) :
    p.evaluateHead = p.lackTarget := by
  rw [evaluateHead_head head place, wipe, target]
  rfl

theorem evaluateHead_selects {t : FrameId} (wipe : x.region.wipe = none) (target : p.pool.target x.region.cls = some t) :
    p.evaluateHead = p.selectTarget x f t := by
  rw [evaluateHead_head head place, wipe, target]
  rfl

end Head

/-- R149: the target is selected: what stands before the first COPY STEP or the switch at once. -/
def Part.selected (p : Part) (x : Place) (f t : FrameId) : Part :=
  ((((({ p with pool := p.pool.enter t .target x.slot x.region.cls } : Part).modRegion x.slot fun r =>
    { r with migration := some ⟨x.entry, f, t, 0⟩ }).setEngine .copying).withdrawOffers).checkScrub).settleSpare p.pool

theorem selectTarget_eq (p : Part) (x : Place) (f t : FrameId) : p.selectTarget x f t =
    if x.region.state = .lost then (p.selected x f t).switch x.slot ⟨x.entry, f, t, 0⟩
    else (p.selected x f t).issueCopy f t 0 := by
  rw [Part.selectTarget]
  simp only [beq_iff_eq]
  rfl

/-- R149: what the selection leaves: the migration field, the engine, the target and the source. -/
theorem selected_spec {p : Part} {x : Place} (stands : p.region x.slot = some x.region) (f t : FrameId) :
    (p.selected x f t).region x.slot = some { x.region with migration := some ⟨x.entry, f, t, 0⟩ } ∧
      (p.selected x f t).retire = { p.retire with engine := .copying } ∧
      ((p.selected x f t).frame t).state = .target ∧ ((p.selected x f t).frame t).region = some x.slot := by
  let chosen : Part := (({ p with pool := p.pool.enter t .target x.slot x.region.cls } : Part).modRegion x.slot fun r =>
    { r with migration := some ⟨x.entry, f, t, 0⟩ }).setEngine .copying
  have target : tget chosen.pool.frames t = { tget p.pool.frames t with
      state := .target, region := some x.slot, doomed := (tget p.pool.frames t).doomed && FrameState.target != .target } :=
    (frame_enter p.pool t t .target x.slot x.region.cls).trans (if_pos rfl)
  obtain ⟨banks, withdrawn⟩ := reach_withdrawOffers chosen
  obtain ⟨banks', scrub, checked⟩ := reach_checkScrub chosen.withdrawOffers
  obtain ⟨pool, clients, settled⟩ := reach_settleSpare chosen.withdrawOffers.checkScrub p.pool
  have selected : p.selected x f t = (chosen.withdrawOffers.checkScrub).settleSpare p.pool := rfl
  have topped : (p.selected x f t).pool = chosen.pool.topUp := by
    rw [selected, pool_settleSpare, checked, withdrawn]
  have region : (p.selected x f t).region x.slot = chosen.region x.slot := by
    rw [selected, settled, checked, withdrawn]
    rfl
  have moved : (p.selected x f t).frame t = tget chosen.pool.frames t := by
    rw [Part.frame, topped]
    exact frame_topUp_of_ne (by rw [target]; exact fun h => nomatch h)
  refine ⟨?_, by rw [selected, settled, checked, withdrawn]; rfl, by rw [moved, target], by rw [moved, target]⟩
  rw [region]
  show (Part.modRegion _ _ _).region x.slot = _
  rw [region_modRegion, if_pos rfl]
  show (p.region x.slot).map _ = _
  rw [stands]
  rfl

/-! ### The migration in flight (R150, R153) -/

/-- The migration in flight, by the lowest slot whose region has one. -/
theorem migration_eq {p : Part} {slot : SlotId} {r : Region} {m : Migration} (stands : p.region slot = some r)
    (moves : r.migration = some m) (lowest : ∀ u x, u < slot → p.region u = some x → x.migration = none) :
    p.migration = some (slot, m) := by
  have first : (p.slotsWhere fun r => r.migration.isSome).head? = some slot := by
    refine (indices_head _ _ slot).2 ⟨?_, fun u lower => ?_⟩
    · show (match p.region slot with | some r => r.migration.isSome | none => false) = true
      rw [stands]
      exact congrArg Option.isSome moves
    · show (match p.region u with | some r => r.migration.isSome | none => false) = false
      cases at_ : p.region u with
      | none => rfl
      | some x => exact congrArg Option.isSome (lowest u x lower at_)
  obtain ⟨rest, slots⟩ := List.head?_eq_some_iff.1 first
  rw [Part.migration, slots]
  show (p.region slot).bind _ = _
  rw [stands, Option.bind_some, moves]
  rfl

theorem migration_none {p : Part} (no : ∀ slot r, p.region slot = some r → r.migration = none) : p.migration = none := by
  have empty : (p.slotsWhere fun r => r.migration.isSome) = [] := by
    rw [List.eq_nil_iff_forall_not_mem]
    intro slot mem
    obtain ⟨r, stands, moves⟩ := (mem_slotsWhere p _ slot).1 mem
    rw [no slot r stands] at moves
    cases moves
  rw [Part.migration, empty]

/-- R150: a COPY STEP of the migration in flight. -/
theorem copyStepped_eq {p : Part} {slot : SlotId} {m : Migration} (flight : p.migration = some (slot, m)) :
    p.copyStepped =
      if m.cursor + 64 < 1024 then
        if p.running then (p.modRegion slot fun r => { r with migration := some { m with cursor := m.cursor + 64 } }).issueCopy
          m.source m.target ((m.cursor + 64) / 64)
        else p.modRegion slot fun r => { r with migration := some { m with cursor := m.cursor + 64 } }
      else (p.modRegion slot fun r => { r with migration := some { m with cursor := m.cursor + 64 } }).switch slot
        { m with cursor := m.cursor + 64 } := by
  rw [Part.copyStepped, flight]
  rfl

/-- R126: the first operation of a COPY STEP, as the engine issues it. -/
theorem issueCopy_eq (p : Part) (f t : FrameId) (n : Nat) : p.issueCopy f t n = p.modBank (bankOf f) fun k =>
    { k with copy := some (if bankOf f = bankOf t then .whole f t n else .readHalf f t n) } := by
  simp only [Part.issueCopy, beq_iff_eq]

section Abort
variable {p : Part} {slot : SlotId} {r : Region} {m : Migration} (stands : p.region slot = some r)
  (moves : r.migration = some m) (st : FrameState)
include stands moves

theorem abortMigration_eq : p.abortMigration slot st =
    ({ (p.modRegion slot fun r => { r with migration := none }).endCopy with
      pool := p.pool.leave m.target st } : Part).stopCopying := by
  rw [Part.abortMigration, stands, Option.bind_some, moves]

theorem bank_abortMigration (b : BankId) : (p.abortMigration slot st).bank b = p.endCopy.bank b := by
  rw [abortMigration_eq stands moves, reach_stopCopying]
  exact (bank_endCopy _ b).trans (bank_endCopy p b).symm

theorem retire_abortMigration : (p.abortMigration slot st).retire =
    { p.retire with engine := if p.retire.engine = .copying then .idle else p.retire.engine } := by
  rw [abortMigration_eq stands moves, reach_stopCopying]
  rfl

end Abort

/-- R153: no copy of an ended migration waits or counts at a bank. -/
theorem bank_endCopy_spec (p : Part) (b : BankId) : (p.endCopy.bank b).copy = none ∧ (p.endCopy.bank b).copyWait = 0 ∧
    ∀ y live, (p.endCopy.bank b).running ≠ some ⟨.copy y, live⟩ ∨ live = false := by
  rw [bank_endCopy]
  refine ⟨rfl, rfl, fun y live => ?_⟩
  cases live with
  | false => exact .inr rfl
  | true =>
    refine .inl fun h => ?_
    obtain ⟨r, -, given⟩ := Option.map_eq_some_iff.1 h
    obtain ⟨op, counts⟩ := Running.mk.inj given
    rw [op] at counts
    exact absurd counts (by simp [BankOp.isCopy])

/-! ### What an act's changes set going (R18, R148) -/

theorem checkZero_stays {p : Part} {f : FrameId} (current : p.zero.current = some f) (serves : (p.frame f).state ≠ .retired) :
    p.checkZero = p := by
  rw [Part.checkZero, current]
  exact if_neg (mt beq_iff_eq.1 serves)

theorem checkZero_abandons {p : Part} {f : FrameId} (current : p.zero.current = some f)
    (retired : (p.frame f).state = .retired) : p.checkZero.zero.current = none := by
  rw [Part.checkZero, current]
  dsimp only
  rw [if_pos (beq_iff_eq.2 retired)]
  rfl

theorem evaluate_refills {p : Part} (idle : p.hold ≠ none ∨ p.power.state ≠ .active ∨ p.retire.engine = .copying) :
    p.evaluate = p.refillQueue := by
  rw [Part.evaluate]
  rw [← or_assoc, ← not_running_iff] at idle
  rcases idle with paused | copying
  · rw [paused]
    rfl
  · split
    · exact if_pos (beq_iff_eq.2 copying)
    · rfl

/-- R148: one evaluation, when it leaves the head of the queue. -/
theorem evaluate_once {p : Part} (running : p.running = true) (free : p.retire.engine ≠ .copying)
    (same : p.refillQueue.evaluateHead.retire.queue = p.refillQueue.retire.queue) :
    p.evaluate = p.refillQueue.evaluateHead := by
  rw [Part.evaluate, if_pos running, evaluateRounds,
    if_neg (show ¬ (p.refillQueue.retire.engine == .copying) = true from mt beq_iff_eq.1 free)]
  dsimp only
  rw [same, if_pos (beq_self_eq_true _)]

/-- What the switch leaves, as the statement has it. -/
theorem switch_stands {p : Part} {s : SlotId} {r : Region} (m : Migration) (stands : p.region s = some r)
    (distinct : m.source ≠ m.target) (copying : p.retire.engine = .copying) :
    (p.switch s m).region s = some { r with frames := r.frames.set m.index m.target, migration := none } ∧
      ((p.switch s m).frame m.target).state = .held ∧ ((p.switch s m).frame m.target).region = some s ∧
      ((p.switch s m).frame m.source).state = .retired ∧ ((p.switch s m).frame m.source).region = none ∧
      ((p.switch s m).frame m.source).doomed = false ∧
      (p.switch s m).retire = { p.retire with queue := p.retire.queue.filter (· != m.source), engine := .idle } := by
  obtain ⟨held, inside⟩ := frame_switch_target m stands distinct
  refine ⟨(region_switch m stands s).trans (if_pos rfl), held, inside, ?_, ?_, ?_, ?_⟩
  · rw [frame_switch_source m stands distinct]
  · rw [frame_switch_source m stands distinct]
  · rw [frame_switch_source m stands distinct]
  · rw [retire_switch m stands, copying]
    rfl

/-- Settles O17, piece by piece: refill, head, selection, step, abort and evaluation. -/
theorem migrationReplacesDoomedFrames : Obligations.MigrationReplacesDoomedFrames := by
  intro p issued waits switched
  refine ⟨fun l ascends members => ?_, evaluateHead_empty, fun f rest x head place => ?_, fun slot r m stands moves lowest => ?_,
    fun slot r m st stands moves => ?_, rfl, fun f current serves => checkZero_stays current serves,
    fun f current retired => checkZero_abandons current retired, evaluate_refills,
    fun hold power free same => evaluate_once ((running_iff p).2 ⟨hold, power⟩) free same⟩
  · exact refillQueue_eq ascends fun f => (members f).trans (qualifies_iff p f).symm
  · obtain ⟨inside, stands, entry⟩ := (placeOf_iff p f x).1 place
    refine ⟨evaluateHead_blocked head place, fun wipe no => ?_, fun t wipe held lowest => ?_⟩
    · have lacks := evaluateHead_lacks head place wipe (target_none no)
      rw [lacks]
      refine ⟨fun already => ?_, fun other => ?_⟩
      · rw [Part.lackTarget, if_pos (beq_iff_eq.2 already), Part.setEngine, ← already]
      · rw [Part.lackTarget, if_neg (mt beq_iff_eq.1 other)]
        rfl
    · have target : p.pool.target x.region.cls = some t := target_some <| lowest.imp_right fun h => ⟨h.1, h.2.1, h.2.2⟩
      have distinct : f ≠ t := by
        rintro rfl
        rcases lowest with ⟨⟨spare, -⟩, -⟩ | ⟨-, ⟨free, -⟩, -⟩
        · exact FrameState.noConfusion (held.symm.trans spare)
        · exact FrameState.noConfusion (held.symm.trans free)
      obtain ⟨region, retire, state, owner⟩ := selected_spec stands f t
      have selects := evaluateHead_selects head place wipe target
      rw [selectTarget_eq] at selects
      refine ⟨fun present => ?_, fun lost => ?_⟩
      · rw [selects, if_neg present]
        refine ⟨region, retire, state, owner, ?_⟩
        rw [issueCopy_eq, bank_modBank_same]
      · rw [selects, if_pos lost]
        have ends := switch_stands ⟨x.entry, f, t, 0⟩ region distinct (congrArg (·.engine) retire)
        rw [retire] at ends
        exact ends
  · have flight := migration_eq stands moves lowest
    refine ⟨fun few => ⟨fun hold power => ?_, fun paused => ?_⟩, fun all copying distinct => ?_⟩
    · rw [copyStepped_eq flight, if_pos few, if_pos ((running_iff p).2 ⟨hold, power⟩), issueCopy_eq]
    · rw [copyStepped_eq flight, if_pos few, (not_running_iff p).2 paused]
      rfl
    · rw [copyStepped_eq flight, if_neg (Nat.not_lt.2 all)]
      have moved : (p.modRegion slot fun r => { r with migration := some { m with cursor := m.cursor + 64 } }).region slot =
          some { r with migration := some { m with cursor := m.cursor + 64 } } := by
        rw [region_modRegion, if_pos rfl, stands]
        rfl
      have ends := switch_stands { m with cursor := m.cursor + 64 } moved distinct copying
      exact ends
  · refine ⟨(slot_abortMigration p slot st r stands).1, ?_, fun f other => ?_, fun b => ?_, retire_abortMigration stands moves st⟩
    · rw [frame_abortMigration p slot st r stands, moves]
      exact if_pos rfl
    · rw [frame_abortMigration p slot st r stands, moves]
      exact if_neg other.symm
    · rw [bank_abortMigration stands moves st b]
      exact bank_endCopy_spec p b

end Sys2Proof.Machine
end

section
/-! PROOFS. The part becomes ACTIVE: from STANDBY, from DOWN, after training (R170, R171, R174, R179). -/

namespace Sys2Proof.Machine

set_option Elab.async false

/-! ### Flags (R114) -/

theorem or_and_of_and {n : Nat} {x b : BitVec n} (y : BitVec n) (h : x &&& b = b) : (x ||| y) &&& b = b := by
  ext i within
  have bit : (x &&& b)[i] = b[i] := by rw [h]
  simp only [BitVec.getElem_or, BitVec.getElem_and] at bit ⊢
  rw [Bool.and_or_distrib_right, bit, Bool.or_eq_left_iff_imp]
  exact fun also => (Bool.and_eq_true_iff.1 also).2

theorem or_and_self {n : Nat} (x b : BitVec n) : (x ||| b) &&& b = b := by
  rw [BitVec.or_comm]
  exact or_and_of_and x (BitVec.and_self)

/-- R114: the flags of a client once set stay set. -/
def Part.KeepsFlags (p q : Part) : Prop :=
  ∀ c b, (p.client c).flags &&& b = b → (q.client c).flags &&& b = b

theorem keepsFlags_notify (p : Part) (n : Notice) (c : ClientId) : p.KeepsFlags (p.notify n c) := by
  intro d b h
  rw [flags_notify]
  split
  · next same => exact or_and_of_and _ (same ▸ h)
  · exact h

theorem keepsFlags_of_clients {p q : Part} (clients : q.clients = p.clients) : p.KeepsFlags q := by
  intro c b h
  rwa [Part.client, clients]

theorem keepsFlags_settleSpare (p : Part) (before : Pool) : p.KeepsFlags (p.settleSpare before) := by
  unfold Part.settleSpare
  dsimp only
  split
  · exact keepsFlags_notify _ _ _
  · exact keepsFlags_of_clients rfl

/-! ### The operations in progress -/

theorem anyBank_iff (p : Part) (P : Bank → Bool) : p.banks.toList.any P = true ↔ ∃ b, P (p.bank b) = true := by
  rw [toList_eq, List.any_map, List.any_eq_true]
  exact ⟨fun ⟨b, _, h⟩ => ⟨b, h⟩, fun ⟨b, h⟩ => ⟨b, List.mem_finRange b, h⟩⟩

/-- R120: an operation that its issuer has given up counts no more. -/
theorem disown_counts_not (p : Part) {P : BankOp → Bool} (b : BankId) {op : BankOp} (given : P op = true) :
    ((p.disown P).bank b).running ≠ some ⟨op, true⟩ := by
  rw [bank_disown]
  intro h
  obtain ⟨r, -, same⟩ := Option.map_eq_some_iff.1 h
  obtain ⟨rfl, counts⟩ := Running.mk.inj same
  rw [given, Bool.not_true, Bool.and_false] at counts
  exact Bool.false_ne_true counts

/-! ### A region lost at a wake (R33, R154, R170) -/

/-- R154, R170: the record of a LIVE VOLATILE region after a wake. -/
def Region.afterWake (r : Region) : Region :=
  match r.migration with
  | none => { r with state := .lost }
  | some m => { r with state := .lost, frames := r.frames.set m.index m.target, migration := none }

theorem afterWake_still {r : Region} (moves : r.migration = none) : r.afterWake = { r with state := .lost } := by
  rw [Region.afterWake, moves]

theorem afterWake_moving {r : Region} {m : Migration} (moves : r.migration = some m) : r.afterWake =
    { r with state := .lost, frames := r.frames.set m.index m.target, migration := none } := by
  rw [Region.afterWake, moves]

/-- R33: a region is LOST and its owner told. -/
def Part.toldLost (p : Part) (s : SlotId) (r : Region) : Part :=
  (p.modRegion s fun x => { x with state := .lost }).notify .lost r.owner

section Lose
variable {p : Part} {s : SlotId} {r : Region} (stands : p.region s = some r)
include stands

theorem region_toldLost : (p.toldLost s r).region s = some { r with state := .lost } := by
  show (p.modRegion s fun x => { x with state := .lost }).region s = _
  rw [region_modRegion, if_pos rfl, stands]
  rfl

theorem loseRegion_eq : p.loseRegion s = (p.toldLost s r).abortAtWake s := by
  rw [Part.loseRegion, stands]
  rfl

theorem loseRegion_still (moves : r.migration = none) : p.loseRegion s = p.toldLost s r := by
  rw [loseRegion_eq stands, Part.abortAtWake, region_toldLost stands, Option.bind_some]
  dsimp only
  rw [moves]

theorem loseRegion_moving {m : Migration} (moves : r.migration = some m) :
    p.loseRegion s = (p.toldLost s r).endCopy.switch s m := by
  rw [loseRegion_eq stands, Part.abortAtWake, region_toldLost stands, Option.bind_some]
  dsimp only
  rw [moves]

theorem region_loseRegion (u : SlotId) :
    (p.loseRegion s).region u = if s = u then some r.afterWake else p.region u := by
  have told : (p.toldLost s r).region u = if s = u then some { r with state := .lost } else p.region u := by
    refine (region_modRegion _ _ _ _).trans ?_
    rw [stands]
    rfl
  cases moves : r.migration with
  | none => rw [loseRegion_still stands moves, told, afterWake_still moves]
  | some m =>
    have ended : (p.toldLost s r).endCopy.region s = some { r with state := .lost } := region_toldLost stands
    rw [loseRegion_moving stands moves, region_switch m ended]
    show (if s = u then _ else (p.toldLost s r).region u) = _
    rw [told, afterWake_moving moves]
    split <;> rfl

theorem clients_loseRegion : (p.loseRegion s).clients = (p.toldLost s r).clients := by
  cases moves : r.migration with
  | none => rw [loseRegion_still stands moves]
  | some m =>
    have ended : (p.toldLost s r).endCopy.region s = some { r with state := .lost } := region_toldLost stands
    rw [loseRegion_moving stands moves, switch_eq m ended]
    rfl

/-- A frame that no migration of the region names is left as it was. -/
theorem frame_loseRegion {f : FrameId} (apart : ∀ m, r.migration = some m → f ≠ m.source ∧ f ≠ m.target) :
    (p.loseRegion s).frame f = p.frame f := by
  cases moves : r.migration with
  | none =>
    rw [loseRegion_still stands moves]
    rfl
  | some m =>
    have ended : (p.toldLost s r).endCopy.region s = some { r with state := .lost } := region_toldLost stands
    obtain ⟨source, target⟩ := apart m moves
    rw [loseRegion_moving stands moves, frame_switch_other m ended source target]
    rfl

end Lose

theorem loseRegion_unused {p : Part} {s : SlotId} (unused : p.region s = none) : p.loseRegion s = p := by
  rw [Part.loseRegion, unused]

theorem keepsFlags_loseRegion (p : Part) (s : SlotId) : p.KeepsFlags (p.loseRegion s) := by
  cases stands : p.region s with
  | none =>
    rw [loseRegion_unused stands]
    exact keepsFlags_of_clients rfl
  | some r =>
    intro c b h
    rw [Part.client, clients_loseRegion stands]
    exact keepsFlags_notify (p.modRegion s fun x => { x with state := .lost }) .lost r.owner c b h

/-! ### All regions lost at a wake (R170, step 1) -/

theorem region_loseRegion_map (p : Part) (s u : SlotId) :
    (p.loseRegion s).region u = if s = u then (p.region s).map Region.afterWake else p.region u := by
  cases stands : p.region s with
  | none =>
    rw [loseRegion_unused stands]
    split
    · next same => exact same ▸ stands
    · rfl
  | some r => exact region_loseRegion stands u

theorem region_loseAll {l : List SlotId} (once : l.Nodup) (p : Part) (u : SlotId) :
    (l.foldl Part.loseRegion p).region u = if u ∈ l then (p.region u).map Region.afterWake else p.region u := by
  induction l generalizing p with
  | nil => rfl
  | cons s l ih =>
    obtain ⟨fresh, once⟩ := List.nodup_cons.1 once
    rw [List.foldl_cons, ih once, region_loseRegion_map]
    by_cases same : s = u
    · subst same
      rw [if_neg fresh, if_pos rfl, if_pos List.mem_cons_self]
    · rw [if_neg same]
      simp only [List.mem_cons, Ne.symm same, false_or]

theorem keepsFlags_loseAll (l : List SlotId) (p : Part) : p.KeepsFlags (l.foldl Part.loseRegion p) := by
  induction l generalizing p with
  | nil => exact keepsFlags_of_clients rfl
  | cons s l ih => exact fun c b h => ih _ c b (keepsFlags_loseRegion p s c b h)

/-- R33: the owner of each region lost is told. -/
theorem flags_loseAll {l : List SlotId} (once : l.Nodup) {p : Part} {u : SlotId} {r : Region} (mem : u ∈ l)
    (stands : p.region u = some r) : ((l.foldl Part.loseRegion p).client r.owner).flags &&& 4 = 4 := by
  induction l generalizing p with
  | nil => cases mem
  | cons s l ih =>
    obtain ⟨fresh, once⟩ := List.nodup_cons.1 once
    rw [List.foldl_cons]
    by_cases same : s = u
    · subst same
      refine keepsFlags_loseAll l _ _ _ ?_
      rw [Part.client, clients_loseRegion stands]
      show (((p.modRegion s _).notify .lost r.owner).client r.owner).flags &&& 4 = 4
      rw [flags_notify, if_pos rfl]
      exact or_and_self _ _
    · refine ih once ((List.mem_cons.1 mem).resolve_left (Ne.symm same)) ?_
      rw [region_loseRegion_map, if_neg same, stands]

theorem migration_afterWake (r : Region) : r.afterWake.migration = none := by
  unfold Region.afterWake
  split
  · assumption
  · rfl

/-- A frame that no migration names is left as it was. -/
theorem frame_loseAll (l : List SlotId) {p : Part} {f : FrameId}
    (apart : ∀ slot r m, p.region slot = some r → r.migration = some m → f ≠ m.source ∧ f ≠ m.target) :
    (l.foldl Part.loseRegion p).frame f = p.frame f := by
  induction l generalizing p with
  | nil => rfl
  | cons s l ih =>
    have one : (p.loseRegion s).frame f = p.frame f := by
      cases stands : p.region s with
      | none => rw [loseRegion_unused stands]
      | some r => exact frame_loseRegion stands fun m moves => apart s r m stands moves
    rw [List.foldl_cons, ih ?_, one]
    intro slot r m at_ moves
    rw [region_loseRegion_map] at at_
    split at at_
    · obtain ⟨x, -, rfl⟩ := Option.map_eq_some_iff.1 at_
      rw [migration_afterWake] at moves
      cases moves
    · exact apart slot r m at_ moves

theorem works_loseAll (l : List SlotId) (p : Part) : p.Works (l.foldl Part.loseRegion p) :=
  works_foldl _ works_loseRegion l p

theorem mem_slotsLost (p : Part) (slot : SlotId) :
    slot ∈ p.slotsLost ↔ ∃ r, p.region slot = some r ∧ r.cls = .volatile ∧ r.state = .live := by
  simp only [Part.slotsLost, mem_slotsWhere, Bool.and_eq_true, beq_iff_eq]

theorem slotsLost_nodup (p : Part) : p.slotsLost.Nodup := (indices_ascend _ _).imp fun h => h.ne

/-! ### The engines go on (R20, R147, R155, R171) -/

theorem zeroAtBank_iff (p : Part) : p.zeroAtBank = true ↔
    ∃ b, (p.bank b).zero ≠ none ∨ ∃ g n, (p.bank b).running = some ⟨.zeroStep g n, true⟩ := by
  rw [Part.zeroAtBank, anyBank_iff]
  refine exists_congr fun b => ?_
  rw [Bool.or_eq_true, Option.isSome_iff_ne_none]
  refine or_congr_right ⟨fun h => ?_, fun ⟨g, n, h⟩ => by rw [h]⟩
  split at h
  · next g n running => exact ⟨g, n, running⟩
  · cases h

theorem copyAtBank_iff (p : Part) : p.copyAtBank = true ↔
    ∃ b, (p.bank b).copy ≠ none ∨ ∃ y, (p.bank b).running = some ⟨.copy y, true⟩ := by
  rw [Part.copyAtBank, anyBank_iff]
  refine exists_congr fun b => ?_
  rw [Bool.or_eq_true, Option.isSome_iff_ne_none]
  refine or_congr_right ⟨fun h => ?_, fun ⟨y, h⟩ => by rw [h]⟩
  split at h
  · next y running => exact ⟨y, running⟩
  · cases h

/-- Whether a SCRUB STEP that counts is in progress at a bank. -/
def Bank.scrubs (k : Bank) : Bool :=
  match k.running with
  | some ⟨.scrubStep _ _, true⟩ => true
  | _ => false

theorem scrubs_iff (k : Bank) : k.scrubs = true ↔ ∃ f n, k.running = some ⟨.scrubStep f n, true⟩ := by
  refine ⟨fun h => ?_, fun ⟨f, n, h⟩ => by rw [Bank.scrubs, h]⟩
  unfold Bank.scrubs at h
  split at h
  · next f n running => exact ⟨f, n, running⟩
  · cases h

theorem resumeScrub_eq {p : Part} {f : FrameId} {n : Nat} (current : p.scrub.current = some (f, n)) :
    p.resumeScrub = if p.scrubbable f = true then if p.banks.toList.any Bank.scrubs = true then p else p.issueScrub f n
      else p.abandonScrub := by
  rw [Part.resumeScrub, current]
  show (if (!p.scrubbable f) = true then _ else if p.banks.toList.any Bank.scrubs = true then p else _) = _
  cases p.scrubbable f <;> rfl

theorem reach_resumeZero (p : Part) (masked : List SegId) :
    ∃ z b, p.resumeZero masked = { p with zero := z, banks := b } := by
  unfold Part.resumeZero
  split
  · exact ⟨p.zero, p.banks, rfl⟩
  · split
    · exact ⟨_, _, rfl⟩
    · split
      · exact ⟨p.zero, p.banks, rfl⟩
      · exact ⟨_, _, rfl⟩

theorem reach_resumeScrub (p : Part) : ∃ b s, p.resumeScrub = { p with banks := b, scrub := s } := by
  unfold Part.resumeScrub
  split
  · exact ⟨p.banks, p.scrub, rfl⟩
  · split
    · exact ⟨_, _, rfl⟩
    · split
      · exact ⟨p.banks, p.scrub, rfl⟩
      · exact ⟨_, p.scrub, rfl⟩

theorem reach_resumeCopy (p : Part) : ∃ b, p.resumeCopy = { p with banks := b } := by
  unfold Part.resumeCopy
  split
  · split
    · exact ⟨p.banks, rfl⟩
    · exact ⟨_, rfl⟩
  · exact ⟨p.banks, rfl⟩

end Sys2Proof.Machine
end

section
/-! PROOFS. The part becomes ACTIVE, assembled: the frames, the timers and the store at a wake (R170, R171, R174, R179). -/

namespace Sys2Proof.Machine

set_option Elab.async false

/-! ### From STANDBY (R170) -/

/-- R170, step 3: a frame of the pool after the masked set has become DIRTY. -/
theorem frame_dirtyMasked (p : Pool) (masked : List SegId) (f : FrameId) :
    tget (p.dirtyMasked masked).frames f =
      if masked.contains (segmentOf f) = true ∧ ((tget p.frames f).state = .free ∨ (tget p.frames f).state = .spare) then
        { tget p.frames f with state := .dirty }
      else tget p.frames f := by
  rw [Pool.dirtyMasked, tget_tmapIdx]
  have same : Fin.ofNat 4096 f.val = f := Fin.ext (Nat.mod_eq_of_lt f.isLt)
  simp only [same, Bool.and_eq_true, Bool.or_eq_true, beq_iff_eq]

/-- R170: the part after step 4 of a wake: the regions lost, the masked set DIRTY, the spare pool settled. -/
def Part.afterLosses (p : Part) : Part :=
  ({ p.slotsLost.foldl Part.loseRegion p with
    pool := (p.slotsLost.foldl Part.loseRegion p).pool.dirtyMasked p.power.masked } : Part).settleSpare
      (p.slotsLost.foldl Part.loseRegion p).pool

theorem works_afterLosses (p : Part) : p.Works p.afterLosses :=
  (works_settleSpare _ _).after <|
    (works_pool (p.slotsLost.foldl Part.loseRegion p) (moves_dirtyMasked _ _)).after (works_loseAll _ p)

theorem wakeFromStandby_eq (p : Part) : p.wakeFromStandby =
    ((({ p.afterLosses with power := { p.afterLosses.power with state := .active, masked := [] } } : Part).resumeZero
      p.power.masked).resumeScrub.resumeCopy).startIdle := rfl

/-- R171: beside the losses a wake sets the power record, and the engines go on. -/
theorem reach_wakeFromStandby (p : Part) : ∃ zero banks scrub, p.wakeFromStandby =
    { p.afterLosses with
      zero := zero
      banks := banks
      scrub := scrub
      power := { p.power with
        state := .active
        masked := []
        idleTimer := if p.power.idleTimeout = 0 then none else some (10 * p.power.idleTimeout) } } := by
  have power : p.afterLosses.power = p.power := congrArg (·.power) (works_afterLosses p).ambient
  obtain ⟨zero, banks, e⟩ := reach_resumeZero
    ({ p.afterLosses with power := { p.afterLosses.power with state := .active, masked := [] } } : Part) p.power.masked
  obtain ⟨banks', scrub, e'⟩ := reach_resumeScrub
    { p.afterLosses with power := { p.afterLosses.power with state := .active, masked := [] }, zero := zero, banks := banks }
  obtain ⟨banks'', e''⟩ := reach_resumeCopy
    { p.afterLosses with
      power := { p.afterLosses.power with state := .active, masked := [] }, zero := zero, banks := banks', scrub := scrub }
  refine ⟨zero, banks'', scrub, ?_⟩
  rw [wakeFromStandby_eq, e, e', e'', Part.startIdle]
  simp only [power, beq_iff_eq]

theorem region_afterLosses (p : Part) (slot : SlotId) : p.afterLosses.region slot =
    if slot ∈ p.slotsLost then (p.region slot).map Region.afterWake else p.region slot := by
  obtain ⟨pool, clients, settled⟩ := reach_settleSpare ({ p.slotsLost.foldl Part.loseRegion p with
    pool := (p.slotsLost.foldl Part.loseRegion p).pool.dirtyMasked p.power.masked } : Part)
      (p.slotsLost.foldl Part.loseRegion p).pool
  rw [Part.afterLosses, settled]
  exact region_loseAll (slotsLost_nodup p) p slot

theorem keepsFlags_settlePool (p : Part) (g before : Pool) :
    p.KeepsFlags (({ p with pool := g } : Part).settleSpare before) := fun c b h =>
  keepsFlags_settleSpare { p with pool := g } before c b h

theorem keepsFlags_afterLosses (p : Part) : (p.slotsLost.foldl Part.loseRegion p).KeepsFlags p.afterLosses :=
  keepsFlags_settlePool (p.slotsLost.foldl Part.loseRegion p) _ _

/-- R170: a frame that no migration names, after the losses. -/
theorem frame_afterLosses {p : Part} {f : FrameId}
    (apart : ∀ slot r m, p.region slot = some r → r.migration = some m → f ≠ m.source ∧ f ≠ m.target) :
    ((p.frame f).state = .free → p.power.masked.contains (segmentOf f) = true → (p.afterLosses.frame f).state = .dirty) ∧
    ((p.frame f).state = .spare → p.power.masked.contains (segmentOf f) = true → (p.afterLosses.frame f).state = .dirty) ∧
    ((p.frame f).state = .spare → ¬ p.power.masked.contains (segmentOf f) = true →
      (p.afterLosses.frame f).state = .spare) ∧
    ((p.frame f).state = .free → ¬ p.power.masked.contains (segmentOf f) = true →
      (p.afterLosses.frame f).state = .free ∨ (p.afterLosses.frame f).state = .spare) ∧
    ((p.frame f).state ≠ .free → (p.frame f).state ≠ .spare → p.afterLosses.frame f = p.frame f) := by
  have lost : tget (p.slotsLost.foldl Part.loseRegion p).pool.frames f = p.frame f := frame_loseAll _ apart
  have masks := frame_dirtyMasked (p.slotsLost.foldl Part.loseRegion p).pool p.power.masked f
  have topped : p.afterLosses.frame f =
      tget ((p.slotsLost.foldl Part.loseRegion p).pool.dirtyMasked p.power.masked).topUp.frames f := by
    rw [Part.frame, Part.afterLosses, pool_settleSpare]
  have dirties (idle : (p.frame f).state = .free ∨ (p.frame f).state = .spare)
      (masked : p.power.masked.contains (segmentOf f) = true) : (p.afterLosses.frame f).state = .dirty := by
    rw [lost, if_pos ⟨masked, idle⟩] at masks
    rw [topped, frame_topUp_of_ne (by rw [masks]; exact fun h => nomatch h), masks]
  have stays (not : ¬ (p.power.masked.contains (segmentOf f) = true ∧
        ((p.frame f).state = .free ∨ (p.frame f).state = .spare))) :
      tget ((p.slotsLost.foldl Part.loseRegion p).pool.dirtyMasked p.power.masked).frames f = p.frame f := by
    rw [lost, if_neg not] at masks
    exact masks
  refine ⟨fun free => dirties (.inl free), fun spare => dirties (.inr spare), fun spare clear => ?_, fun free clear => ?_,
    fun notFree notSpare => ?_⟩
  · have same := stays fun h => clear h.1
    rw [topped, frame_topUp_of_ne (by rw [same, spare]; exact fun h => nomatch h), same, spare]
  · have same := stays fun h => clear h.1
    rw [topped]
    exact frame_topUp_free (by rw [same, free])
  · have same := stays fun h => h.2.elim notFree notSpare
    rw [topped, frame_topUp_of_ne (by rw [same]; exact notFree), same]

/-! ### From DOWN (R174) -/

theorem frame_dirtyAll (p : Pool) (f : FrameId) : tget p.dirtyAll.frames f =
    { tget p.frames f with state := if (tget p.frames f).state = .retired then .retired else .dirty } := by
  rw [Pool.dirtyAll, tget_tmap]
  by_cases retired : (tget p.frames f).state = .retired
  · rw [if_pos (beq_iff_eq.2 retired), if_pos retired, ← retired]
  · rw [if_neg (mt beq_iff_eq.1 retired), if_neg retired]

theorem tcount_eq_zero {α : Type} {n : Nat} {P : α → Bool} {v : Vector α n} (no : ∀ i, P (tget v i) = false) :
    tcount P v = 0 := by
  rw [tcount, toList_eq, List.countP_map, List.countP_eq_zero]
  exact fun i _ => by rw [Function.comp_apply, no i]; exact Bool.false_ne_true

/-- R174: without a FREE frame top-up changes nothing. -/
theorem topUp_dirtyAll (p : Pool) : p.dirtyAll.topUp = p.dirtyAll := by
  have empty : p.dirtyAll.framesIn .free = [] := by
    rw [List.eq_nil_iff_forall_not_mem]
    intro f mem
    have free := (mem_indices _ _ f).1 mem
    rw [frame_dirtyAll] at free
    split at free <;> cases free
  rw [Pool.topUp, empty, List.take_nil, List.foldl_nil]

theorem count_dirtyAll (p : Pool) : p.dirtyAll.count .spare = 0 := by
  refine tcount_eq_zero fun f => ?_
  rw [frame_dirtyAll]
  dsimp only
  split <;> rfl

/-- R11, R174: a shortfall begins at a wake from DOWN. -/
theorem flags_settleSpare_dirtyAll {p : Part} (target : 0 < p.pool.spareTarget)
    (enough : p.pool.spareTarget ≤ p.pool.count .spare) :
    ((({ p with pool := p.pool.dirtyAll } : Part).settleSpare p.pool).client 0).flags &&& 128 = 128 := by
  have before : p.pool.shortfall = false := decide_eq_false (Nat.not_lt.2 enough)
  have short : p.pool.dirtyAll.shortfall = true := decide_eq_true (by rw [count_dirtyAll]; exact target)
  rw [Part.settleSpare]
  simp only [topUp_dirtyAll, before, short, Bool.not_false, Bool.true_and, if_true, flags_notify]
  exact or_and_self _ _

/-- R20, R174: the frame dropped leaves a bank's refresh alone. -/
theorem reach_dropZero (p : Part) : ∃ banks, p.dropZero = { p with zero := p.dropZero.zero, banks := banks } ∧
    p.dropZero.zero.current = none ∧ ∀ b, (p.dropZero.bank b).cursor = (p.bank b).cursor := by
  unfold Part.dropZero
  split
  · next f current =>
    refine ⟨_, rfl, rfl, fun b => ?_⟩
    rw [Part.endZero, bank_disown, bank_modBank]
    split
    · next same =>
      rw [same]
      rfl
    · rfl
  · next current => exact ⟨p.banks, rfl, current, fun b => rfl⟩

/-- The idle timer and the scrub timer as an ACTIVE part starts them (R143, R163). -/
def Part.idleStart (p : Part) : Option Nat := if p.power.idleTimeout = 0 then none else some (10 * p.power.idleTimeout)
def Part.scrubStart (p : Part) : Option Nat := if p.scrub.interval = 0 then none else some (p.scrub.interval *
  (if p.thermal.cls = .warm ∨ p.thermal.cls = .hot ∨ p.thermal.cls = .overheat then 50 else 100))

/-- R174, R179: the banks' slots, the scrub timer and the idle timer start. -/
theorem startTimers_eq (p : Part) : p.startSlots.startScrubTimer.startIdle =
    { p with
      banks := p.startSlots.banks
      scrub := { p.scrub with timer := p.scrubStart }
      power := { p.power with idleTimer := p.idleStart } } := by
  rw [startScrubTimer_eq, Part.startIdle, Part.idleStart, Part.scrubStart]
  simp only [beq_iff_eq]
  rfl

theorem bank_startSlots (p : Part) (b : BankId) :
    p.startSlots.bank b = { p.bank b with slotTimer := some p.thermal.cls.slot } := bank_modBanks p _ b

/-- R174: what a wake from DOWN leaves, over the settled pool. -/
theorem wakeFromDown_spec (p : Part) :
    (∀ f, p.wakeFromDown.frame f =
      { p.frame f with state := if (p.frame f).state = .retired then .retired else .dirty }) ∧
    p.wakeFromDown.clients = (({ p with pool := p.pool.dirtyAll } : Part).settleSpare p.pool).clients ∧
    p.wakeFromDown.power = { p.power with state := .active, idleTimer := p.idleStart } ∧
    p.wakeFromDown.scrub = { p.scrub with timer := p.scrubStart } ∧
    p.wakeFromDown.zero.current = none ∧
    ∀ b, (p.wakeFromDown.bank b).slotTimer = some p.thermal.cls.slot ∧
      (p.wakeFromDown.bank b).cursor = (p.bank b).cursor := by
  have topped := pool_settleSpare ({ p with pool := p.pool.dirtyAll } : Part) p.pool
  obtain ⟨pool, clients, settled⟩ := reach_settleSpare ({ p with pool := p.pool.dirtyAll } : Part) p.pool
  rw [Part.wakeFromDown, settled, startTimers_eq]
  rw [settled] at topped
  obtain ⟨banks, dropped, none, cursors⟩ := reach_dropZero
    (({ { p with pool := p.pool.dirtyAll } with pool := pool, clients := clients } : Part).setPower .active)
  refine ⟨fun f => ?_, ?_, ?_, ?_, none, fun b => ?_⟩
  · rw [dropped]
    show tget pool.frames f = _
    rw [show pool = p.pool.dirtyAll.topUp from topped, topUp_dirtyAll]
    exact frame_dirtyAll p.pool f
  · rw [dropped]
    rfl
  · rw [dropped]
    rfl
  · rw [dropped]
    rfl
  · show ((Part.startSlots _).bank b).slotTimer = _ ∧ ((Part.startSlots _).bank b).cursor = _
    rw [bank_startSlots]
    exact ⟨by rw [dropped]; rfl, cursors b⟩

/-! ### Training (R179) -/

theorem bank_homeCursors (p : Part) (b : BankId) :
    p.homeCursors.bank b = { p.bank b with cursor := Fin.ofNat 128 (32 * b.val) } := by
  rw [Part.homeCursors, allBanks]
  simp only [List.foldl_cons, List.foldl_nil, bank_modBank]
  fin_cases b <;> rfl

theorem reach_homeCursors (p : Part) : p.homeCursors = { p with banks := p.homeCursors.banks } := rfl

theorem endTraining_eq (p : Part) : p.endTraining =
    { p with
      banks := (p.setPower .active).homeCursors.startSlots.banks
      scrub := { p.scrub with timer := p.scrubStart }
      power := { p.power with state := .active, idleTimer := p.idleStart } } := by
  rw [Part.endTraining, startTimers_eq, reach_homeCursors]
  rfl

/-! ### The store (R170, R174) -/

theorem read_forgetFrames (w : Store) (gone : FrameId → Bool) (a : Nat) : Memory.read (w.forgetFrames gone).cells a =
    if gone (Fin.ofNat 4096 (a / 65536)) = true then none else Memory.read w.cells a := by
  refine (read_filter w.cells (fun a => !gone (Fin.ofNat 4096 (a / 65536))) a).trans ?_
  cases gone (Fin.ofNat 4096 (a / 65536)) <;> rfl

/-! ### Assembled -/

/-- Settles O22, piece by piece: the commands, the store, the wake from STANDBY with what its engines do, the wake from DOWN,
and the end of training. -/
theorem partBecomesActive : Obligations.PartBecomesActive := by
  refine ⟨fun s hold => ⟨fun power => ?_, fun power => ?_, fun power => ?_⟩, read_forgetFrames, fun p => ?_⟩
  · show execWakingEnd s = _
    rw [execWakingEnd, hold, power]
    rfl
  · show execWakingEnd s = _
    rw [execWakingEnd, hold, power]
    rfl
  · show execTrainingEnd s = _
    rw [execTrainingEnd, hold, power]
    rfl
  intro idle scrub masked
  refine ⟨?_, mem_slotsLost p, fun slot r stands => ?_, fun segments => ?_, ?_, ?_, fun f => ?_, ?_, ?_⟩
  · intro q
    obtain ⟨zero, banks, engine, woken⟩ := reach_wakeFromStandby p
    have region (slot : SlotId) : q.region slot = p.afterLosses.region slot := by
      show p.wakeFromStandby.region slot = _
      rw [woken]
      rfl
    have frame (f : FrameId) : q.frame f = p.afterLosses.frame f := by
      show p.wakeFromStandby.frame f = _
      rw [woken]
      rfl
    have client (c : ClientId) : q.client c = p.afterLosses.client c := by
      show p.wakeFromStandby.client c = _
      rw [woken]
      rfl
    refine ⟨congrArg (·.power) woken, fun slot r stands => ⟨fun stays => ?_, fun volatile live => ?_⟩, fun f apart => ?_, ?_⟩
    · have kept : slot ∉ p.slotsLost := fun mem => by
        obtain ⟨r', stands', lost⟩ := (mem_slotsLost p slot).1 mem
        obtain rfl := Option.some.inj (stands.symm.trans stands')
        exact stays lost
      rw [region, region_afterLosses, if_neg kept, stands]
    · have mem : slot ∈ p.slotsLost := (mem_slotsLost p slot).2 ⟨r, stands, volatile, live⟩
      have lost : q.region slot = some r.afterWake := by
        rw [region, region_afterLosses, if_pos mem, stands]
        rfl
      refine ⟨?_, fun still => ?_, fun m moving => ?_⟩
      · rw [client]
        exact keepsFlags_afterLosses p _ _ (flags_loseAll (slotsLost_nodup p) mem stands)
      · rw [lost, afterWake_still still]
      · rw [lost, afterWake_moving moving]
    · rw [frame]
      exact frame_afterLosses apart
    · exact ⟨{ p.slotsLost.foldl Part.loseRegion p with
        pool := (p.slotsLost.foldl Part.loseRegion p).pool.dirtyMasked p.power.masked }, rfl, frame_dirtyMasked _ _, rfl⟩
  · intro told
    refine ⟨loseRegion_still stands, fun g moves distinct => ?_⟩
    have ended : (p.toldLost slot r).endCopy.region slot = some { r with state := .lost } := region_toldLost stands
    intro q
    have lost : q = (p.toldLost slot r).endCopy.switch slot g := loseRegion_moving stands moves
    obtain ⟨held, inside⟩ := frame_switch_target g ended distinct
    rw [lost]
    refine ⟨?_, (region_switch g ended slot).trans (if_pos rfl), held, inside, frame_switch_source g ended distinct,
      fun f source target => frame_switch_other g ended source target, retire_switch g ended, fun b => ?_⟩
    · rw [switch_eq g ended]
      rfl
    · have bank : ((p.toldLost slot r).endCopy.switch slot g).bank b = (p.toldLost slot r).endCopy.bank b := by
        rw [switch_eq g ended]
        rfl
      rw [bank]
      exact bank_endCopy_spec _ b
  · intro begun under
    refine ⟨fun none => ?_, fun f current => ⟨fun inside => ?_, fun outside busy => ?_, fun outside quiet => ?_⟩⟩
    · rw [Part.resumeZero, none]
    · rw [Part.resumeZero, current]
      dsimp only
      rw [if_pos inside]
      rfl
    · rw [Part.resumeZero, current]
      dsimp only
      rw [outside, (zeroAtBank_iff p).2 busy]
      rfl
    · rw [Part.resumeZero, current]
      dsimp only
      rw [outside, Bool.eq_false_iff.2 (mt (zeroAtBank_iff p).1 quiet)]
      rfl
  · intro under fits dropped
    have busy_iff : p.banks.toList.any Bank.scrubs = true ↔ under := by
      rw [anyBank_iff]
      exact exists_congr fun b => scrubs_iff _
    refine ⟨fun none => ?_, fun f n current => ⟨fun unfit => ?_, fun fit busy => ?_, fun fit quiet => ?_⟩, ?_, fun b => ⟨?_, ?_⟩⟩
    · rw [Part.resumeScrub, none]
    · rw [resumeScrub_eq current, if_neg (mt (scrubbable_iff p f).1 unfit)]
    · rw [resumeScrub_eq current, if_pos ((scrubbable_iff p f).2 fit), if_pos (busy_iff.2 busy)]
    · rw [resumeScrub_eq current, if_pos ((scrubbable_iff p f).2 fit), if_neg (mt busy_iff.1 quiet)]
      rfl
    · show p.abandonScrub.scrub = _
      rw [Part.abandonScrub, startScrubTimer_eq]
      rfl
    · show ((p.withdrawScrub.disown (·.isScrub)).bank b).scrub = none
      rw [bank_disown, Part.withdrawScrub, bank_modBanks]
    · exact fun f n => disown_counts_not p.withdrawScrub b rfl
  · intro under
    refine ⟨fun no => ?_, fun slot r g stands moves lowest => ⟨fun busy => ?_, fun quiet => ?_⟩⟩
    · rw [Part.resumeCopy, migration_none no]
    · rw [Part.resumeCopy, migration_eq stands moves lowest]
      exact if_pos ((copyAtBank_iff p).2 busy)
    · rw [Part.resumeCopy, migration_eq stands moves lowest]
      dsimp only
      rw [if_neg (mt (copyAtBank_iff p).1 quiet), issueCopy_eq]
      rfl
  · refine ⟨rfl, rfl, ?_, fun b n => disown_counts_not _ b (beq_self_eq_true f)⟩
    rw [Part.endZero, bank_disown, bank_modBank_same]
  · intro q
    obtain ⟨frames, clients, power, scrubbed, dropped, banks⟩ := wakeFromDown_spec p
    refine ⟨power, frames, fun target enough => ?_, banks, dropped, scrubbed⟩
    show (tget p.wakeFromDown.clients 0).flags &&& 128 = 128
    rw [clients]
    exact flags_settleSpare_dirtyAll target enough
  · intro q
    have ended := endTraining_eq p
    have bank (b : BankId) : p.endTraining.bank b = (p.setPower .active).homeCursors.startSlots.bank b :=
      congrArg (tget · b) (congrArg (·.banks) ended)
    refine ⟨congrArg (·.power) ended, fun b => ?_, congrArg (·.scrub) ended, congrArg (·.pool) ended,
      congrArg (·.zero) ended, congrArg (·.retire) ended⟩
    show (p.endTraining.bank b).cursor = _ ∧ (p.endTraining.bank b).slotTimer = _
    rw [bank, bank_startSlots, bank_homeCursors]
    exact ⟨rfl, rfl⟩

end Sys2Proof.Machine
end

section
/-! PROOFS. Entering reset and leaving it (R3, R176, R177, R181). -/

namespace Sys2Proof.Machine

set_option Elab.async false

/-- R176: a client in the act of entering reset; its line is low. -/
theorem client_enterReset (p : Part) (h : Hold) (c : ClientId) : (p.enterReset h).client c =
    { p.client c with queue := [], executing := none, evictionPending := false, line := false } := by
  rw [Part.enterReset, client_driveLines]
  have entered : Part.client { p with
      hold := some (joinHold p.hold h)
      clients := tmap Client.entersReset p.clients
      banks := tmap Bank.entersReset p.banks
      slots := tmap (fun x => { x with region := x.region.map Region.entersReset }) p.slots
      fills := []
      posting := []
      wipeHold := []
      scrub := { p.scrub with timer := none }
      power := { p.power with idleTimer := none }
      tx := [] } c = (p.client c).entersReset := tget_tmap _ _ c
  rw [entered]
  rfl

theorem bank_enterReset (p : Part) (h : Hold) (b : BankId) : (p.enterReset h).bank b = { p.bank b with
    running := none, reads := [], fresh := [], turns := [], copy := none, zero := none, scrub := none
    owed := none, slotTimer := none } := tget_tmap _ p.banks b

/-- R176: a slot keeps its record, but for a WIPE, and its generation. -/
theorem slot_enterReset (p : Part) (h : Hold) (slot : SlotId) :
    (p.enterReset h).region slot = (p.region slot).map (fun r => { r with wipe := none }) ∧
      (p.enterReset h).generation slot = p.generation slot := by
  have slots : tget (p.enterReset h).slots slot =
      { tget p.slots slot with region := (tget p.slots slot).region.map Region.entersReset } := tget_tmap _ p.slots slot
  rw [Part.region, Part.generation, slots]
  exact ⟨rfl, rfl⟩

/-- R181: a power-on reset wins over a pin reset. -/
theorem joinHold_powerOn (now : Option Hold) : joinHold now .powerOn = .powerOn := by
  unfold joinHold
  split <;> rfl

theorem joinHold_pin (now : Option Hold) : joinHold now .pin = if now = some .powerOn then .powerOn else .pin := by
  unfold joinHold
  split
  · rfl
  · next other => exact (if_neg other).symm

/-- Settles O23: one description of entering reset for both kinds. -/
theorem enteringResetEndsEverything : Obligations.EnteringResetEndsEverything := by
  intro s
  refine ⟨s.withPart (s.part.enterReset .powerOn), s.withPart (s.part.enterReset .pin), rfl, rfl,
    congrArg some (joinHold_powerOn _), congrArg some (joinHold_pin _), fun v either => ?_⟩
  obtain ⟨h, rfl⟩ : ∃ h, v = s.withPart (s.part.enterReset h) := by
    rcases either with rfl | rfl
    · exact ⟨.powerOn, rfl⟩
    · exact ⟨.pin, rfl⟩
  exact ⟨rfl, rfl, rfl, rfl, rfl, rfl, client_enterReset s.part h, bank_enterReset s.part h,
    fun slot => (slot_enterReset s.part h slot).1, fun slot => (slot_enterReset s.part h slot).2, rfl, rfl, rfl, rfl⟩

/-! ### Leaving reset (R3, R177) -/

theorem slot_reset (frames : Vector Frame 4096) (cause : ResetCause) (slot : SlotId) :
    (Part.reset frames cause).region slot = none ∧ (Part.reset frames cause).generation slot = 0 := by
  have slots : tget (Part.reset frames cause).slots slot = ⟨0, none⟩ := tget_replicate _ slot
  rw [Part.region, Part.generation, slots]
  exact ⟨rfl, rfl⟩

theorem bank_reset (frames : Vector Frame 4096) (cause : ResetCause) (b : BankId) :
    (Part.reset frames cause).bank b = ⟨none, [], [], [], none, none, none, none, 0, Fin.ofNat 128 (32 * b.val), none⟩ := by
  fin_cases b <;> rfl

/-- R3: the frame table when the part leaves reset. -/
theorem frame_powerOn (frames : Vector Frame 4096) (f : FrameId) :
    tget (Hold.powerOn.frames frames) f = ⟨.dirty, none, false, 0, none, 0⟩ := tget_replicate _ f

theorem frame_pin (frames : Vector Frame 4096) (f : FrameId) : tget (Hold.pin.frames frames) f =
    ⟨if (tget frames f).state = .retired then .retired else .dirty, none, false,
      (tget frames f).corrected, (tget frames f).lastCorrected, (tget frames f).uncorrectable⟩ := by
  refine (tget_tmap _ frames f).trans ?_
  simp only [Frame.pinReset, beq_iff_eq]

/-- R3: every byte of the array is unknown. -/
theorem read_forgetAll (w : Store) (a : Nat) : Memory.read (w.forgetFrames fun _ => true).cells a = none := by
  rw [read_forgetFrames, if_pos rfl]

/-- Settles O24: the reset values, field by field, with the frames by kind of reset. -/
theorem leavingResetGivesResetValues : Obligations.LeavingResetGivesResetValues := by
  intro s h held
  refine ⟨_, exec_resetRelease_held held, ?_, read_forgetAll s.store, rfl⟩
  refine ⟨by cases h <;> rfl, rfl, rfl, rfl, rfl, rfl, rfl, rfl, rfl, rfl, rfl, rfl, rfl, rfl, slot_reset _ _,
    bank_reset _ _, fun f => ?_⟩
  cases h with
  | powerOn => exact frame_powerOn s.part.pool.frames f
  | pin => exact frame_pin _ f

end Sys2Proof.Machine
end

section
/-! PROOFS. The form check of a packet (R187, R188): which fields are read, which bodies, and what the link port answers. -/

namespace Sys2Proof

set_option Elab.async false

/-! ### Fields -/

/-- The i-th byte of a body as a number. -/
def nth (body : List Byte) (i : Nat) : Nat := (body.getD i 0).toNat

/-- The handle table of 11.2: a region handle, or a batch reference with its second byte zero. -/
def handleForm (body : List Byte) : Prop := nth body 0 < 64 ∨ (64 ≤ nth body 0 ∧ nth body 0 < 72 ∧ nth body 1 = 0)

theorem byte_eq_iff (b c : Byte) : b = c ↔ b.toNat = c.toNat := BitVec.toNat_inj.symm

theorem eightOfByte_isSome (b : Byte) : (eightOfByte b).isSome = true ↔ b.toNat < 8 := by
  unfold eightOfByte
  split <;> simp_all

theorem decodeHandle_isSome (b0 b1 : Byte) : (decodeHandle b0 b1).isSome = true ↔
    b0.toNat < 64 ∨ (64 ≤ b0.toNat ∧ b0.toNat < 72 ∧ b1.toNat = 0) := by
  have bound := b0.isLt
  unfold decodeHandle
  split
  · next kind => simp only [Option.isSome_some, true_iff]; omega
  · next kind =>
    have low : 64 ≤ b0.toNat ∧ b0.toNat < 128 := by omega
    have eight : (b0 - 64).toNat = b0.toNat - 64 := by bv_omega
    split
    · next zero =>
      have zero : b1.toNat = 0 := (byte_eq_iff b1 0).1 zero
      rw [Option.isSome_map, eightOfByte_isSome, eight]
      omega
    · next other =>
      have other : b1.toNat ≠ 0 := fun h => other ((byte_eq_iff b1 0).2 h)
      simp only [Option.isSome_none, Bool.false_eq_true, false_iff]
      omega
  · next region batch =>
    have region : b0.toNat / 64 ≠ 0 := region
    have batch : b0.toNat / 64 ≠ 1 := batch
    simp only [Option.isSome_none, Bool.false_eq_true, false_iff]
    omega

theorem decodeFlushSelector_isSome (b0 b1 : Byte) : (decodeFlushSelector b0 b1).isSome = true ↔
    (b0.toNat < 64 ∨ (64 ≤ b0.toNat ∧ b0.toNat < 72 ∧ b1.toNat = 0)) ∨ (b0.toNat = 128 ∧ b1.toNat = 0) := by
  unfold decodeFlushSelector
  simp only [byte_eq_iff]
  split
  · next all => exact iff_of_true rfl (.inr all)
  · next other =>
    rw [Option.isSome_map, decodeHandle_isSome]
    exact (or_iff_left other).symm

theorem half_toNat (lo hi : Byte) : (half lo hi).toNat = hi.toNat * 256 + lo.toNat := by
  rw [half, BitVec.toNat_append, Nat.shiftLeft_eq, Nat.mul_comm, ← Nat.two_pow_add_eq_or_of_lt lo.isLt]

theorem decodeNoticeSet_isSome (lo hi : Byte) : (decodeNoticeSet lo hi).isSome = true ↔ hi.toNat < 2 := by
  have bound := lo.isLt
  unfold decodeNoticeSet
  rw [half_toNat]
  split
  · simp only [Option.isSome_some, true_iff]; omega
  · simp only [Option.isSome_none, Bool.false_eq_true, false_iff]; omega

theorem decodeClass_isSome (b : Byte) : (decodeClass b).isSome = true ↔ b.toNat < 2 := by
  unfold decodeClass
  simp only [byte_eq_iff]
  split_ifs <;> simp_all
  omega

theorem decodeRight_isSome (b : Byte) : (decodeRight b).isSome = true ↔ b.toNat < 2 := by
  unfold decodeRight
  simp only [byte_eq_iff]
  split_ifs <;> simp_all
  omega

theorem decodePage_isSome (b : Byte) : (decodePage b).isSome = true ↔ b.toNat < 5 := by
  unfold decodePage
  split <;> simp_all
  omega

theorem decodeOptional_isSome {α : Type} (given : Byte) (field : Option α) :
    (decodeOptional given field).isSome = true ↔ given.toNat = 0 ∨ (given.toNat = 1 ∧ field.isSome = true) := by
  unfold decodeOptional
  simp only [byte_eq_iff]
  split_ifs <;> simp_all

/-! ### Bodies -/

/-- What a reader makes of a body: a well-formed request of the code exactly when the body has the form. -/
def Carries (read : Option Request) (code : Byte) (form : Prop) : Prop :=
  (read.isSome = true ↔ form) ∧ ∀ r, read = some r → r.code = code ∧ r.wf = true

theorem Carries.missing {read : Option Request} {code : Byte} {form : Prop} (h : Carries read code form) (no : ¬ form) :
    read = none := Option.not_isSome_iff_eq_none.1 (mt h.1.1 no)

theorem Carries.found {read : Option Request} {code : Byte} {form : Prop} (h : Carries read code form) (yes : form) :
    ∃ r, read = some r ∧ r.code = code ∧ r.wf = true := by
  obtain ⟨r, e⟩ := Option.isSome_iff_exists.1 (h.1.2 yes)
  exact ⟨r, e, h.2 r e⟩

theorem Carries.fits {read : Option Request} {code : Byte} {length form : Prop} (h : Carries read code form)
    (right : length) : Carries read code (length ∧ form) := ⟨h.1.trans (and_iff_right right).symm, h.2⟩

/-- A body of another shape than the reader's. -/
theorem carries_none {code : Byte} {form : Prop} (no : ¬ form) : Carries none code form :=
  ⟨iff_of_false Bool.false_ne_true no, fun _ h => nomatch h⟩

/-- A reader that reads fields and builds its request from them. -/
theorem carries_map {α : Type} {field : Option α} {make : α → Request} {code : Byte} {form : Prop}
    (given : field.isSome = true ↔ form) (makes : ∀ x, (make x).code = code ∧ (make x).wf = true) :
    Carries (field.map make) code form := by
  refine ⟨by rw [Option.isSome_map]; exact given, fun r h => ?_⟩
  obtain ⟨x, -, rfl⟩ := Option.map_eq_some_iff.1 h
  exact makes x

/-- A reader that reads a field and goes on. -/
theorem carries_bind {α : Type} {field : Option α} {rest : α → Option Request} {code : Byte} {form more : Prop}
    (given : field.isSome = true ↔ form) (goes : ∀ x, Carries (rest x) code more) :
    Carries (field.bind rest) code (form ∧ more) := by
  refine ⟨?_, fun r h => ?_⟩
  · rw [← given, Option.isSome_bind]
    cases field with
    | none => simp
    | some x => simpa using (goes x).1
  · obtain ⟨x, -, h⟩ := Option.bind_eq_some_iff.1 h
    exact (goes x).2 r h

theorem carries_bodyNone {code : Byte} {r : Request} (own : r.code = code) (formed : r.wf = true) (body : List Byte) :
    Carries (bodyNone r body) code (body = []) := by
  cases body with
  | nil => exact ⟨iff_of_true rfl rfl, fun x h => Option.some.inj h ▸ ⟨own, formed⟩⟩
  | cons b body => exact carries_none fun h => nomatch h

theorem carries_bodyHandle {code : Byte} {f : Handle → Request} (makes : ∀ h, (f h).code = code ∧ (f h).wf = true)
    (body : List Byte) : Carries (bodyHandle f body) code (body.length = 2 ∧ handleForm body) := by
  unfold bodyHandle
  split
  · next h0 h1 => exact carries_map ((decodeHandle_isSome h0 h1).trans (and_iff_right rfl).symm) makes
  · next other => exact carries_none fun form => match body, form with | [a, b], _ => other a b rfl

theorem carries_bodyNotices (body : List Byte) : Carries (bodyNotices body) 3
    (body.length = 5 ∧ (nth body 1 < 2 ∧ (nth body 2 = 0 ∨ (nth body 2 = 1 ∧ nth body 4 < 2)))) := by
  unfold bodyNotices
  split
  · next c0 c1 given e0 e1 =>
    refine Carries.fits ?_ rfl
    exact carries_bind (decodeNoticeSet_isSome c0 c1) fun clear =>
      carries_map (by rw [decodeOptional_isSome, decodeNoticeSet_isSome]; rfl) fun _ => ⟨rfl, rfl⟩
  · next other => exact carries_none fun form => match body, form with | [a, b, c, d, e], _ => other a b c d e rfl

theorem carries_bodyHealth (body : List Byte) : Carries (bodyHealth body) 9 (body.length = 3 ∧ nth body 0 < 5) := by
  unfold bodyHealth
  split
  · next page a0 a1 => exact carries_map ((decodePage_isSome page).trans (and_iff_right rfl).symm) fun _ => ⟨rfl, rfl⟩
  · next other => exact carries_none fun form => match body, form with | [a, b, c], _ => other a b c rfl

theorem carries_bodyGrant (body : List Byte) :
    Carries (bodyGrant body) 16 (body.length = 5 ∧ (nth body 1 < 2 ∧ nth body 2 < 2)) := by
  unfold bodyGrant
  split
  · next size cls requested p0 p1 =>
    refine Carries.fits ?_ rfl
    refine carries_bind (decodeClass_isSome cls) fun k => carries_map ?_ fun _ => ⟨rfl, rfl⟩
    rw [decodeOptional_isSome, Option.isSome_some, and_iff_left rfl]
    show _ ↔ requested.toNat < 2
    omega
  · next other => exact carries_none fun form => match body, form with | [a, b, c, d, e], _ => other a b c d e rfl

theorem carries_bodyResize (body : List Byte) : Carries (bodyResize body) 18 (body.length = 3 ∧ handleForm body) := by
  unfold bodyResize
  split
  · next h0 h1 size => exact carries_map ((decodeHandle_isSome h0 h1).trans (and_iff_right rfl).symm) fun _ => ⟨rfl, rfl⟩
  · next other => exact carries_none fun form => match body, form with | [a, b, c], _ => other a b c rfl

theorem carries_bodyDescribe (body : List Byte) :
    Carries (bodyDescribe body) 26 (body.length = 3 ∧ handleForm body) := by
  unfold bodyDescribe
  split
  · next h0 h1 page => exact carries_map ((decodeHandle_isSome h0 h1).trans (and_iff_right rfl).symm) fun _ => ⟨rfl, rfl⟩
  · next other => exact carries_none fun form => match body, form with | [a, b, c], _ => other a b c rfl

theorem carries_bodyHandover (body : List Byte) :
    Carries (bodyHandover body) 19 (body.length = 3 ∧ (handleForm body ∧ nth body 2 < 8)) := by
  unfold bodyHandover
  split
  · next h0 h1 d =>
    refine Carries.fits ?_ rfl
    exact carries_bind (decodeHandle_isSome h0 h1) fun h => carries_map (eightOfByte_isSome d) fun _ => ⟨rfl, rfl⟩
  · next other => exact carries_none fun form => match body, form with | [a, b, c], _ => other a b c rfl

theorem carries_bodyShare (body : List Byte) : Carries (bodyShare body) 20
    (body.length = 5 ∧ (handleForm body ∧ nth body 2 < 8 ∧ nth body 3 < 8 ∧ nth body 4 < 2)) := by
  unfold bodyShare
  split
  · next h0 h1 base mask right =>
    refine Carries.fits ?_ rfl
    exact carries_bind (decodeHandle_isSome h0 h1) fun h => carries_bind (eightOfByte_isSome base) fun b =>
      carries_bind (eightOfByte_isSome mask) fun m => carries_map (decodeRight_isSome right) fun _ => ⟨rfl, rfl⟩
  · next other => exact carries_none fun form => match body, form with | [a, b, c, d, e], _ => other a b c d e rfl

theorem carries_bodyUnshare (body : List Byte) : Carries (bodyUnshare body) 21
    (body.length = 4 ∧ (handleForm body ∧ nth body 2 < 8 ∧ nth body 3 < 8)) := by
  unfold bodyUnshare
  split
  · next h0 h1 base mask =>
    refine Carries.fits ?_ rfl
    exact carries_bind (decodeHandle_isSome h0 h1) fun h => carries_bind (eightOfByte_isSome base) fun b =>
      carries_map (eightOfByte_isSome mask) fun _ => ⟨rfl, rfl⟩
  · next other => exact carries_none fun form => match body, form with | [a, b, c, d], _ => other a b c d rfl

theorem carries_bodyAccess {code : Byte} {f : Handle → Long → Byte → Request}
    (makes : ∀ h o n, (f h o n).code = code ∧ (f h o n).wf = true) (body : List Byte) :
    Carries (bodyAccess f body) code (body.length = 7 ∧ handleForm body) := by
  unfold bodyAccess
  split
  · next h0 h1 o0 o1 o2 o3 n =>
    exact carries_map ((decodeHandle_isSome h0 h1).trans (and_iff_right rfl).symm) fun h => makes h _ n
  · next other =>
    exact carries_none fun form => match body, form with | [a, b, c, d, e, f, g], _ => other a b c d e f g rfl

/-- R82: a WRITE carries its payload behind the seven bytes of its fields. -/
theorem carries_bodyWrite (body : List Byte) : Carries (bodyWrite body) 33
    (7 ≤ body.length ∧ (body.length = 7 + 64 * nth body 6 ∧ handleForm body)) := by
  unfold bodyWrite
  split
  · next h0 h1 o0 o1 o2 o3 n payload =>
    have fields : 7 ≤ (h0 :: h1 :: o0 :: o1 :: o2 :: o3 :: n :: payload).length := by simp
    have length : (h0 :: h1 :: o0 :: o1 :: o2 :: o3 :: n :: payload).length =
        7 + 64 * nth (h0 :: h1 :: o0 :: o1 :: o2 :: o3 :: n :: payload) 6 ↔
          payload.length = n.toNat * Config.bytesPerLine := by
      show payload.length + 7 = 7 + 64 * n.toNat ↔ payload.length = n.toNat * 64
      omega
    rw [and_iff_right fields, length]
    split
    · next carried =>
      rw [and_iff_right carried]
      exact carries_map (decodeHandle_isSome h0 h1) fun h => ⟨rfl, beq_iff_eq.2 carried⟩
    · next short => exact carries_none fun form => short form.1
  · next other =>
    refine carries_none fun form => ?_
    match body, form.1 with
    | a :: b :: c :: d :: e :: f :: g :: payload, _ => exact other a b c d e f g payload rfl

theorem carries_bodyFlush (body : List Byte) : Carries (bodyFlush body) 35
    (body.length = 2 ∧ (handleForm body ∨ (nth body 0 = 128 ∧ nth body 1 = 0))) := by
  unfold bodyFlush
  split
  · next h0 h1 =>
    exact carries_map ((decodeFlushSelector_isSome h0 h1).trans (and_iff_right rfl).symm) fun _ => ⟨rfl, rfl⟩
  · next other => exact carries_none fun form => match body, form with | [a, b], _ => other a b rfl

theorem carries_bodyConfigure (body : List Byte) : Carries (bodyConfigure body) 48 (body.length = 4 ∧ True) := by
  unfold bodyConfigure
  split
  · exact ⟨iff_of_true rfl ⟨rfl, trivial⟩, fun r h => Option.some.inj h ▸ ⟨rfl, rfl⟩⟩
  · next other => exact carries_none fun form => match body, form with | [a, b, c, d], _ => other a b c d rfl

theorem carries_bodyEvict (body : List Byte) : Carries (bodyEvict body) 49 (body.length = 1 ∧ True) := by
  unfold bodyEvict
  split
  · exact ⟨iff_of_true rfl ⟨rfl, trivial⟩, fun r h => Option.some.inj h ▸ ⟨rfl, rfl⟩⟩
  · next other => exact carries_none fun form => match body, form with | [a], _ => other a rfl

theorem carries_bodyRetire (body : List Byte) : Carries (bodyRetire body) 50 (body.length = 2 ∧ True) := by
  unfold bodyRetire
  split
  · exact ⟨iff_of_true rfl ⟨rfl, trivial⟩, fun r h => Option.some.inj h ▸ ⟨rfl, rfl⟩⟩
  · next other => exact carries_none fun form => match body, form with | [a, b], _ => other a b rfl

/-- R188: the answer of the form check, from its reading of the body. -/
theorem decodePacket_of_carries {stamp code tag : Byte} {body : List Byte} {form : Prop}
    (h : Carries (decodeBody code body) code form) :
    (¬ form → decodePacket stamp (code :: tag :: body) = .malformed (Fin.ofNat 8 stamp.toNat) code tag) ∧
    (form → ∃ r, decodePacket stamp (code :: tag :: body) = .request (Fin.ofNat 8 stamp.toNat) tag r ∧
      r.code = code ∧ r.wf = true) := by
  refine ⟨fun no => ?_, fun yes => ?_⟩
  · simp only [decodePacket, h.missing no]
    rfl
  · obtain ⟨r, read, own, formed⟩ := h.found yes
    refine ⟨r, ?_, own, formed⟩
    simp only [decodePacket, read]
    rfl

open Machine in
/-- Settles O27: the arrival by its cases, and the command table of 11.3 row by row. -/
theorem packetArrivalIsJudged : Obligations.PacketArrivalIsJudged := by
  intro s stamp rest c
  refine ⟨fun held => ?_, fun released => ⟨fun code tag read => ?_, fun tag r read formed full => ?_, fun tag r read => ?_⟩,
    fun empty => by rw [empty]; rfl, fun code one => by rw [one]; rfl, fun code tag body split => ?_⟩
  · show Host.Outcome.next (s.withPart (s.part.arrivePacket stamp rest)) = _
    rw [Part.arrivePacket, if_pos (Option.isSome_iff_ne_none.2 held)]
    rfl
  · show Host.Outcome.next (s.withPart (s.part.arrivePacket stamp rest)) = _
    rw [Part.arrivePacket, released, read]
    rfl
  · show Host.Outcome.next (s.withPart (s.part.arrivePacket stamp rest)) = _
    have full' : Config.maxQueue ≤ (s.part.client c).queue.length := full
    simp only [Part.arrivePacket, released, read, Part.arrive, formed, full', Option.isSome_none, Bool.not_true,
      Bool.false_eq_true, if_true, if_false]
  · show Host.Outcome.next (s.withPart (s.part.arrivePacket stamp rest)) = _
    rw [Part.arrivePacket, released, read]
    rfl
  · intro nth handle fits form
    rw [split]
    refine decodePacket_of_carries ?_
    simp only [form, decodeBody]
    have own : code = BitVec.ofNat 8 code.toNat := BitVec.eq_of_toNat_eq (by simp)
    generalize code.toNat = n at own ⊢
    rw [own]
    split
    · exact carries_bodyNone rfl rfl body
    · exact carries_bodyNone rfl rfl body
    · exact carries_bodyNotices body
    · exact carries_bodyNone rfl rfl body
    · exact carries_bodyHealth body
    · exact carries_bodyGrant body
    · exact carries_bodyHandle (f := fun h => .command (.release h)) (fun _ => ⟨rfl, rfl⟩) body
    · exact carries_bodyResize body
    · exact carries_bodyHandover body
    · exact carries_bodyShare body
    · exact carries_bodyUnshare body
    · exact carries_bodyHandle (f := fun h => .command (.lock h)) (fun _ => ⟨rfl, rfl⟩) body
    · exact carries_bodyHandle (f := fun h => .command (.unlock h)) (fun _ => ⟨rfl, rfl⟩) body
    · exact carries_bodyHandle (f := fun h => .command (.wipe h)) (fun _ => ⟨rfl, rfl⟩) body
    · exact carries_bodyHandle (f := .renew) (fun _ => ⟨rfl, rfl⟩) body
    · exact carries_bodyDescribe body
    · exact carries_bodyNone rfl rfl body
    · exact carries_bodyAccess (f := .read) (fun _ _ _ => ⟨rfl, rfl⟩) body
    · exact carries_bodyWrite body
    · exact carries_bodyAccess (f := .verify) (fun _ _ _ => ⟨rfl, rfl⟩) body
    · exact carries_bodyFlush body
    · exact carries_bodyNone rfl rfl body
    · exact carries_bodyNone rfl rfl body
    · exact carries_bodyNone rfl rfl body
    · exact carries_bodyConfigure body
    · exact carries_bodyEvict body
    · exact carries_bodyRetire body
    · exact carries_bodyNone rfl rfl body
    · exact carries_bodyNone rfl rfl body
    · exact carries_bodyNone rfl rfl body
    · refine carries_none ?_
      simp_all only [not_false_eq_true]

end Sys2Proof
end

section
/-! PROOFS. ATTACH, DETACH and NOTICES, and the refusals common to all requests (R25, R45, R103, R106, R107, R113, R116). -/

namespace Sys2Proof.Machine

set_option Elab.async false

/-! ### The judgement of a list of checks -/

@[simp] theorem firstFail_nil : firstFail [] = none := rfl

@[simp] theorem firstFail_cons (b : Bool) (st : Status) (rest : List (Bool × Status)) :
    firstFail ((b, st) :: rest) = if b = true then some st else firstFail rest := by
  cases b <;> rfl

/-! ### ATTACH, DETACH, NOTICES -/

theorem exec_attach_ready {s : State} {c : ClientId} (tag : Byte) (ready : s.part.ready c) :
    exec (.attach c tag) s = .next (s.withPart (s.part.taken.serveAttach c tag).closeAct) :=
  next_taken ready rfl (take_passed ready.active (by simp [openToDetached, supervisorRequest]))

theorem serveAttach_detached {p : Part} {c : ClientId} (tag : Byte) (detached : (p.client c).attached = false) :
    p.serveAttach c tag = (p.modClient c fun k => { k with attached := true, flags := 0, enable := 511 }).answer c 1 tag
      .done [] := if_neg (by rw [detached]; exact Bool.false_ne_true)

theorem serveAttach_attached {p : Part} {c : ClientId} (tag : Byte) (attached : (p.client c).attached = true) :
    p.serveAttach c tag = p.answer c 1 tag .alreadyAttached [] := if_pos attached

theorem ownedSlots_eq (p : Part) (c : ClientId) : p.ownedSlots c = (List.finRange 64).filter fun x =>
    match p.region x with
    | some r => r.owner == c && r.state != .releasing
    | none => false := indices_eq _ _

/-- R30: the beginning of a release. -/
theorem beginRelease_unused {p : Part} {slot : SlotId} (unused : p.region slot = none) : p.beginRelease slot = p := by
  rw [Part.beginRelease, unused]

theorem beginRelease_releasing {p : Part} {slot : SlotId} {r : Region} (stands : p.region slot = some r)
    (state : r.state = .releasing) : p.beginRelease slot = p := by
  rw [Part.beginRelease, stands]
  exact if_pos (beq_iff_eq.2 state)

theorem beginRelease_begins {p : Part} {slot : SlotId} {r : Region} (stands : p.region slot = some r)
    (state : r.state ≠ .releasing) : p.beginRelease slot = (p.enterReleasing slot r).abortWaits slot := by
  rw [Part.beginRelease, stands]
  exact if_neg (mt beq_iff_eq.1 state)

/-- Settles O28: the two requests by cases, and the releases of an act by their definitions. -/
theorem attachAndDetach : Obligations.AttachAndDetach := by
  refine ⟨fun s c tag ready => ⟨fun detached => ?_, fun attached => ⟨?_, ?_⟩⟩, ownedSlots_eq, fun p slots => ⟨rfl, ?_⟩,
    fun p slot => ⟨beginRelease_unused, fun r stands => ⟨beginRelease_releasing stands, fun state =>
      ⟨beginRelease_begins stands state, releaseRegions_one p slot r stands state⟩⟩⟩⟩
  · rw [exec_attach_ready tag ready, serveAttach_detached tag ((client_taken s.part c).symm ▸ detached)]
  · rw [exec_attach_ready tag ready, serveAttach_attached tag ((client_taken s.part c).symm ▸ attached)]
  · exact next_served ⟨ready, attached⟩ rfl (.inl rfl) rfl
  · have same : p.accesses slots = fun c => match p.work c with
        | some (.read _ a _) => slots.contains a.handle.slot
        | some (.write a _ _) => slots.contains a.handle.slot
        | _ => false := by
      funext c
      unfold Part.accesses Part.accessSlot
      cases p.work c with
      | none => rfl
      | some w => cases w <;> rfl
    rw [Part.endHolds, same] <;> rfl

/-- Settles O29. -/
theorem noticesReturnsAndClears : Obligations.NoticesReturnsAndClears := by
  intro s c tag clear enable free
  exact next_served free rfl (.inl rfl) rfl

/-! ### Refusals -/

/-- R25: what a live handle names. -/
theorem named_iff (p : Part) (h : RegionHandle) (r : Region) : p.named h = some r ↔
    p.region h.slot = some r ∧ r.state ≠ .releasing ∧ h.generation = p.generation h.slot := by
  unfold Part.named
  cases p.region h.slot with
  | none => simp
  | some x =>
    simp only [Option.ite_none_right_eq_some, Option.some.injEq, Bool.and_eq_true, bne_iff_ne, beq_iff_eq]
    constructor
    · rintro ⟨live, rfl⟩
      exact ⟨rfl, live⟩
    · rintro ⟨rfl, live⟩
      exact ⟨live, rfl⟩

/-- R45: the common checks, in their order. -/
theorem judgeCommon_batchRef (p : Part) (c : ClientId) (k : Fin 8) : p.judgeCommon c (.batchRef k) = .error .notFound := rfl

theorem judgeCommon_dead {p : Part} (c : ClientId) {h : RegionHandle} (dead : p.named h = none) :
    p.judgeCommon c (.region h) = .error .notFound := by
  simp only [Part.judgeCommon, Part.resolve, dead, Option.map_none]

theorem judgeCommon_filling {p : Part} (c : ClientId) {h : RegionHandle} {r : Region} (named : p.named h = some r)
    (filling : r.state = .filling) : p.judgeCommon c (.region h) = .error .busy := by
  simp only [Part.judgeCommon, Part.resolve, named, Option.map_some, filling, beq_self_eq_true, if_true]

theorem judgeCommon_other {p : Part} {c : ClientId} {h : RegionHandle} {r : Region} (named : p.named h = some r)
    (filled : r.state ≠ .filling) (other : r.owner ≠ c) : p.judgeCommon c (.region h) = .error .denied := by
  simp only [Part.judgeCommon, Part.resolve, named, Option.map_some, beq_iff_eq, filled, bne_iff_ne, ne_eq, other,
    not_false_eq_true, if_true, if_false]

/-- R45: what the common checks refuse is refused, whatever the command does. -/
theorem apply_refused {p : Part} {c : ClientId} {cmd : RegionCommand} {x : Handle} {st : Status}
    (names : commandHandle cmd = some x) (judged : p.judgeCommon c x = .error st) : p.apply c cmd = .error st := by
  cases cmd with
  | grant => cases names
  | release h | resize h | handover h | share h | unshare h | lock h | unlock h | wipe h =>
    cases names
    simp only [Part.apply, Part.applyRelease, Part.applyResize, Part.applyHandover, Part.applyShare, Part.applyUnshare,
      Part.applyLock, Part.applyUnlock, Part.applyWipe, judged]

theorem serveCommand_refused {p : Part} {c : ClientId} (tag : Byte) {cmd : RegionCommand} {st : Status}
    (refused : p.apply c cmd = .error st) : p.serveCommand c tag cmd = p.answer c cmd.code tag st [] := by
  rw [Part.serveCommand, refused]

/-- R45, R66: a command on a region, or RENEW, that the common checks refuse. -/
theorem serve_refused {p : Part} {c : ClientId} (tag : Byte) {q : Request} {x : Handle} {st : Status}
    (batch : (p.client c).batch = none) (names : (∃ cmd, q = .command cmd ∧ commandHandle cmd = some x) ∨ q = .renew x)
    (judged : p.judgeCommon c x = .error st) : p.serve c tag q = p.answer c q.code tag st [] := by
  rcases names with ⟨cmd, rfl, names⟩ | rfl
  · simp only [Part.serve, Part.serveRegion, batch]
    exact serveCommand_refused tag (apply_refused names judged)
  · simp only [Part.serve, Part.serveRenew, judged]
    rfl

/-- Settles O30: the refusals in the order of R105, then those of R45. -/
theorem commonRefusals : Obligations.CommonRefusals := by
  intro s c tag ready refused
  refine ⟨fun r formed notAttach notIdentify detached => ?_, fun r supervisor attached other => ?_, named_iff s.part,
    fun attached noBatch q x names => ?_⟩
  · have closed : openToDetached r = false := by
      cases r with
      | attach => exact absurd rfl notAttach
      | identify => exact absurd rfl notIdentify
      | _ => rfl
    refine (exec_requestRow c tag r s).trans (next_taken ready formed (take_refused ready.active ?_))
    simp [detached, closed]
  · have formed : r.wf = true ∧ supervisorRequest r = true ∧ openToDetached r = false := by
      rcases supervisor with ⟨_, _, _, rfl⟩ | ⟨_, rfl⟩ | ⟨_, rfl⟩ | rfl | rfl | rfl <;> exact ⟨rfl, rfl, rfl⟩
    obtain ⟨formed, sup, closed⟩ := formed
    refine (exec_requestRow c tag r s).trans (next_taken ready formed (take_refused ready.active ?_))
    simp [attached, sup, other]
  · have unsupervised : q.wf = true ∧ supervisorRequest q = false := by
      rcases names with ⟨cmd, rfl, -⟩ | rfl <;> exact ⟨rfl, rfl⟩
    have judged (st : Status) (h : s.part.taken.judgeCommon c x = .error st) : refused q st :=
      (exec_requestRow c tag q s).trans <| next_served ⟨ready, attached⟩ unsupervised.1 (.inl unsupervised.2)
        (serve_refused tag (by rw [client_taken]; exact noBatch) names h)
    refine ⟨fun k batchRef => judged _ ?_, fun h region => ⟨fun dead => judged _ ?_, fun r named =>
      ⟨fun filling => judged _ ?_, fun filled other => judged _ ?_⟩⟩⟩
    · rw [batchRef, judgeCommon_batchRef]
    · rw [region]
      exact judgeCommon_dead (p := s.part.taken) c dead
    · rw [region]
      exact judgeCommon_filling (p := s.part.taken) c named filling
    · rw [region]
      exact judgeCommon_other (p := s.part.taken) named filled other

end Sys2Proof.Machine
end

section
/-! PROOFS. Evictions (R79, R102, R107 to R110): the requests of the evicted client, and what completes an eviction. -/

namespace Sys2Proof.Machine

set_option Elab.async false

/-! ### The engines tell clients, and answer none -/

/-- A change that sets flags of clients and makes no response. -/
structure Part.Tells (p q : Part) : Prop where
  clients : ∀ c, ∃ f, q.client c = { p.client c with flags := f }
  tx : q.tx = p.tx

theorem Part.Tells.refl (p : Part) : p.Tells p := ⟨fun _ => ⟨_, rfl⟩, rfl⟩

theorem Part.Tells.after {p q r : Part} (k : q.Tells r) (h : p.Tells q) : p.Tells r := by
  refine ⟨fun c => ?_, k.tx.trans h.tx⟩
  obtain ⟨f, e⟩ := h.clients c
  obtain ⟨g, e'⟩ := k.clients c
  exact ⟨g, by rw [e', e]⟩

theorem tells_of_same {p q : Part} (clients : q.clients = p.clients) (tx : q.tx = p.tx) : p.Tells q :=
  ⟨fun c => ⟨_, congrArg (tget · c) clients⟩, tx⟩

/-- Behind it, a change that reaches neither the clients nor the responses. -/
theorem Part.Tells.silent {p q r : Part} (h : p.Tells q) (clients : r.clients = q.clients) (tx : r.tx = q.tx) :
    p.Tells r := (tells_of_same clients tx).after h

theorem tells_notify (p : Part) (n : Notice) (c : ClientId) : p.Tells (p.notify n c) := by
  refine ⟨fun d => ?_, rfl⟩
  rw [Part.notify, client_modClient]
  split
  · next same => exact ⟨_, by rw [same]⟩
  · exact ⟨_, rfl⟩

theorem tells_foldl {α : Type} (op : Part → α → Part) (once : ∀ (p : Part) (a : α), p.Tells (op p a)) (l : List α)
    (p : Part) : p.Tells (l.foldl op p) := by
  induction l generalizing p with
  | nil => exact .refl p
  | cons a l ih => exact (ih _).after (once p a)

theorem tells_settleSpare (p : Part) (before : Pool) : p.Tells (p.settleSpare before) := by
  have topped : p.Tells { p with pool := p.pool.topUp } := tells_of_same rfl rfl
  unfold Part.settleSpare
  dsimp only
  split
  · exact (tells_notify _ _ _).after topped
  · exact topped

theorem tells_withdrawOffers (p : Part) : p.Tells p.withdrawOffers := by
  obtain ⟨b, e⟩ := reach_withdrawOffers p
  rw [e]
  exact tells_of_same rfl rfl

theorem tells_checkScrub (p : Part) : p.Tells p.checkScrub := by
  obtain ⟨b, x, e⟩ := reach_checkScrub p
  rw [e]
  exact tells_of_same rfl rfl

theorem tells_abortMigration (p : Part) (s : SlotId) (st : FrameState) : p.Tells (p.abortMigration s st) := by
  obtain ⟨t, b, g, x, e⟩ := reach_abortMigration p s st
  rw [e]
  exact tells_of_same rfl rfl

theorem tells_switch (p : Part) (s : SlotId) (m : Migration) : p.Tells (p.switch s m) := by
  cases stands : p.region s with
  | none =>
    rw [Part.switch, stands]
    exact .refl p
  | some r =>
    rw [switch_eq m stands]
    exact tells_of_same rfl rfl

theorem tells_selectTarget (p : Part) (x : Place) (f t : FrameId) : p.Tells (p.selectTarget x f t) := by
  have chosen : p.Tells ((({ p with pool := p.pool.enter t .target x.slot x.region.cls } : Part).modRegion x.slot fun r =>
    { r with migration := some ⟨x.entry, f, t, 0⟩ }).setEngine .copying) := tells_of_same rfl rfl
  have selected : p.Tells (p.selected x f t) :=
    (tells_settleSpare _ _).after <| (tells_checkScrub _).after <| (tells_withdrawOffers _).after chosen
  rw [selectTarget_eq]
  split
  · exact (tells_switch _ _ _).after selected
  · exact selected.silent rfl rfl

theorem tells_lackTarget (p : Part) : p.Tells p.lackTarget := by
  unfold Part.lackTarget
  split
  · exact tells_of_same rfl rfl
  · exact (tells_notify p .reserve 0).silent rfl rfl

theorem tells_evaluateHead (p : Part) : p.Tells p.evaluateHead := by
  unfold Part.evaluateHead
  split
  · exact tells_of_same rfl rfl
  · split
    · exact .refl p
    · split
      · exact tells_of_same rfl rfl
      · split
        · exact tells_lackTarget p
        · exact tells_selectTarget p _ _ _

theorem tells_evaluateRounds (n : Nat) (p : Part) : p.Tells (evaluateRounds n p) := by
  induction n generalizing p with
  | zero => exact .refl p
  | succ n ih =>
    unfold evaluateRounds
    dsimp only
    split
    · exact .refl p
    · split
      · exact tells_evaluateHead p
      · exact (ih _).after <| (tells_evaluateHead p).silent rfl rfl

theorem tells_evaluate (p : Part) : p.Tells p.evaluate := by
  have refilled : p.Tells p.refillQueue := tells_of_same rfl rfl
  unfold Part.evaluate
  split
  · exact (tells_evaluateRounds _ _).after refilled
  · exact refilled

theorem tells_settleForWipe (p : Part) (s : SlotId) : p.Tells (p.settleForWipe s) := by
  unfold Part.settleForWipe
  split
  · exact .refl p
  · split
    · exact .refl p
    · dsimp only
      split
      · exact (tells_settleSpare _ _).after ((tells_abortMigration p s .dirty).silent rfl rfl)
      · exact (tells_abortMigration p s .dirty).silent rfl rfl

theorem tells_wipeEntry (p : Part) (s : SlotId) (entry step : Nat) : p.Tells (p.wipeEntry s entry step) := by
  unfold Part.wipeEntry
  split
  · exact tells_of_same rfl rfl
  · exact .refl p

theorem tells_startWipe (p : Part) (s : SlotId) : p.Tells (p.startWipe s) := by
  unfold Part.startWipe
  split
  · split
    · exact (tells_wipeEntry _ _ _ _).after (tells_settleForWipe p s)
    · exact .refl p
  · exact .refl p

theorem tells_checkZero (p : Part) : p.Tells p.checkZero := by
  unfold Part.checkZero
  split
  · split
    · exact tells_of_same rfl rfl
    · exact .refl p
  · exact .refl p

/-- R64, R18, R148: the engines' reaction tells clients, and ends no request. -/
theorem tells_react (p : Part) : p.Tells p.react :=
  (tells_evaluate _).after <| (tells_checkZero _).after (tells_foldl _ tells_startWipe _ p)

/-! ### The requests of the evicted client -/

/-- R108: the answers to a queue, oldest first. -/
theorem abortAnswers_eq (c : ClientId) (l : List Queued) (p : Part) :
    l.foldl (fun q x => q.answer c x.request.code x.tag .aborted []) p =
      { p with tx := p.tx ++ l.map fun x => ⟨c, x.request.code, x.tag, .aborted, (p.client c).flags != 0, []⟩ } := by
  induction l generalizing p with
  | nil => simp
  | cons x l ih =>
    rw [List.foldl_cons, ih, Part.answer]
    simp only [List.map_cons, List.append_assoc, List.cons_append, List.nil_append]
    rfl

theorem abortQueue_eq (p : Part) (d : ClientId) : p.abortQueue d =
    { (p.modClient d fun k => { k with queue := [] }) with
      tx := p.tx ++ (p.client d).queue.map fun x => ⟨d, x.request.code, x.tag, .aborted, (p.client d).flags != 0, []⟩ } := by
  rw [Part.abortQueue, abortAnswers_eq]
  rfl

theorem abortClose_closing {p : Part} {d : ClientId} {tag : Byte} {results : List BatchResult}
    (executing : (p.client d).executing = some ⟨tag, .batchClose results⟩) :
    p.abortClose d = (p.modClient d fun k => { k with executing := none }).answer d 41 tag .aborted [] := by
  rw [Part.abortClose, work_executing executing]
  exact finish_executing .aborted [] executing

theorem abortClose_other {p : Part} {d : ClientId} (other : ∀ results, p.work d ≠ some (.batchClose results)) :
    p.abortClose d = p := by
  unfold Part.abortClose
  split
  · next results work => exact absurd work (other results)
  · rfl

/-- R102: the part without the client's place in the lists of waiting accesses. -/
def Part.unlisted (p : Part) (d : ClientId) : Part :=
  { p with wipeHold := p.wipeHold.filter (· != d), posting := p.posting.filter (· != d) }

/-- R102: the executing request of a client no longer listed ends ABORTED. -/
theorem finish_unlisted {p : Part} {d : ClientId} {tag : Byte} {w : Work}
    (executing : (p.client d).executing = some ⟨tag, w⟩) : (p.unlisted d).finish d .aborted [] =
      ((p.unlisted d).modClient d fun k => { k with executing := none }).answer d w.code tag .aborted [] :=
  finish_executing (p := p.unlisted d) .aborted [] executing

theorem dropAccess_write {p : Part} {d : ClientId} {tag : Byte} {a : Access} {l : List Byte} {ph : WritePhase}
    (executing : (p.client d).executing = some ⟨tag, .write a l ph⟩) : p.dropAccess d =
      ((((p.unlisted d).modClient d fun k => { k with executing := none }).answer d 33 tag .aborted []).endUse
        a.handle.slot).postWrites := by
  rw [Part.dropAccess, work_executing executing]
  show (((p.unlisted d).finish d .aborted []).endUse _).postWrites = _
  rw [finish_unlisted executing]
  rfl

theorem dropAccess_read {p : Part} {d : ClientId} {tag : Byte} {v : Bool} {a : Access} {ph : ReadPhase}
    (executing : (p.client d).executing = some ⟨tag, .read v a ph⟩) (waits : ph ≠ .issued) : p.dropAccess d =
      (((p.unlisted d).modClient d fun k => { k with executing := none }).answer d (if v then 34 else 32) tag .aborted
        []).endUse a.handle.slot := by
  have code : (Work.read v a ph).code = if v then 34 else 32 := by cases v <;> rfl
  have dropped : p.dropAccess d = ((p.unlisted d).finish d .aborted []).endUse a.handle.slot := by
    rw [Part.dropAccess, work_executing executing]
    cases ph with
    | issued => exact absurd rfl waits
    | wipeHold => rfl
    | ordering => rfl
  rw [dropped, finish_unlisted executing, code]

theorem dropAccess_issued {p : Part} {d : ClientId} {tag : Byte} {v : Bool} {a : Access}
    (executing : (p.client d).executing = some ⟨tag, .read v a .issued⟩) : p.dropAccess d = p := by
  rw [Part.dropAccess, work_executing executing]

theorem dropAccess_flush {p : Part} {d : ClientId} {tag : Byte} {slot : Option SlotId}
    (executing : (p.client d).executing = some ⟨tag, .flush slot⟩) : p.dropAccess d =
      ((p.unlisted d).modClient d fun k => { k with executing := none }).answer d 35 tag .aborted [] := by
  rw [Part.dropAccess, work_executing executing]
  exact finish_unlisted executing

/-! ### The departure (R107) -/

theorem region_departs {p : Part} {d : ClientId} {slot : SlotId} {r : Region} (stands : (p.departs d).region slot = some r)
    (owner : r.owner = d) : r.state = .releasing := by
  obtain ⟨x, at_, same, other, own⟩ := region_releaseRegions (p.ownedSlots d) p slot r stands
  by_cases mem : slot ∈ p.ownedSlots d
  · exact own mem
  · by_contra live
    rw [other mem] at live
    exact mem ((mem_ownedSlots p d slot).2 ⟨x, at_, same ▸ owner, live⟩)

theorem departs_answers {p : Part} {d : ClientId} {tag : Byte} {x : Wait} {slot : SlotId} (of : x.isOf slot)
    (mem : slot ∈ p.ownedSlots d) (executing : (p.client d).executing = some ⟨tag, .waiting x⟩) :
    ((p.departs d).client d).executing = none ∧
      ∃ attention, ⟨d, (Work.waiting x).code, tag, .aborted, attention, []⟩ ∈ (p.departs d).tx := by
  obtain ⟨r, stands, -, live⟩ := (mem_ownedSlots p d slot).1 mem
  obtain ⟨idle, answered⟩ := releaseRegions_answers (p.ownedSlots d) p slot r d tag x of mem stands live executing
  refine ⟨?_, answered⟩
  rw [Part.departs, client_modClient_same]
  exact idle

/-- R107: an EVICT, which neither uses a region nor waits for one, goes on through a departure. -/
theorem executing_departs {p : Part} {c d e : ClientId} {tag : Byte} (executing : (p.client c).executing = some ⟨tag, .evict e⟩) :
    ((p.departs d).client c).executing = some ⟨tag, .evict e⟩ := by
  have begun : (((p.ownedSlots d).foldl Part.beginRelease p).client c).executing = some ⟨tag, .evict e⟩ := by
    rw [executing_begun _ p c ?_, executing]
    intro w work
    obtain rfl := Option.some.inj ((work_executing executing).symm.trans work)
    exact ⟨nofun, fun _ _ _ _ => nofun⟩
  have released : ((p.releaseRegions (p.ownedSlots d)).client c).executing = some ⟨tag, .evict e⟩ := by
    rw [(releaseRegions_begun (p.ownedSlots d) p).requests c ?_, begun]
    intro w work
    obtain rfl := Option.some.inj ((work_executing begun).symm.trans work)
    rfl
  rw [Part.departs, client_modClient]
  split
  · next same => exact same ▸ released
  · exact released

/-! ### The eviction completes (R108, R110) -/

/-- R110: the evicted client once its requests are answered and its regions released. -/
def Part.gone (p : Part) (d : ClientId) : Part := ((p.abortQueue d).abortClose d).departs d

theorem client_gone (p : Part) (d : ClientId) :
    ((p.gone d).client d).attached = false ∧ ((p.gone d).client d).batch = none ∧ ((p.gone d).client d).queue = [] := by
  rw [Part.gone, Part.departs, client_modClient_same]
  obtain ⟨e, f, l, released⟩ := (works_releaseRegions ((p.abortQueue d).abortClose d)
    (((p.abortQueue d).abortClose d).ownedSlots d)).clients d
  obtain ⟨e', f', l', closed⟩ := (works_abortClose (p.abortQueue d) d).clients d
  refine ⟨rfl, rfl, ?_⟩
  show Client.queue (Part.client _ d) = []
  rw [released, closed, abortQueue_eq]
  exact congrArg Client.queue (client_modClient_same p d fun k => { k with queue := [] })

theorem executing_gone {p : Part} {c d e : ClientId} (other : d ≠ c) {tag : Byte}
    (executing : (p.client c).executing = some ⟨tag, .evict e⟩) :
    ((p.gone d).client c).executing = some ⟨tag, .evict e⟩ := by
  refine executing_departs ?_
  have queue : ((p.abortQueue d).client c).executing = some ⟨tag, .evict e⟩ := by
    rw [abortQueue_eq]
    show ((p.modClient d _).client c).executing = _
    rw [client_modClient, if_neg other, executing]
  unfold Part.abortClose
  split
  · unfold Part.finish
    split
    · rw [client_answer, client_modClient, if_neg other, queue]
    · exact queue
  · exact queue

/-- R110: what a completed eviction leaves, but for the EVICT's own end. -/
def Part.evicted (p : Part) (d : ClientId) : Part :=
  ((p.gone d).react.modClient d fun k => { k with evictionPending := false }).notify .evicted d

theorem completeEviction_eq {p : Part} {d : ClientId} {tag : Byte} (other : d ≠ 0)
    (executing : (p.client 0).executing = some ⟨tag, .evict d⟩) : p.completeEviction 0 d =
      ((p.evicted d).modClient 0 fun k => { k with executing := none }).answer 0 49 tag .done [] := by
  show (p.evicted d).finish 0 .done [] = _
  refine finish_executing (w := .evict d) .done [] ?_
  obtain ⟨f, reacted⟩ := (tells_react (p.gone d)).clients 0
  rw [Part.evicted, Part.notify, client_modClient, if_neg other, client_modClient, if_neg other, reacted]
  exact executing_gone other executing

/-- R109: only an issued READ or VERIFY holds an eviction back. -/
theorem evictionWaits_iff (p : Part) (d : ClientId) :
    p.evictionWaits d = true ↔ ∃ v a, p.work d = some (.read v a .issued) := by
  refine ⟨fun h => ?_, fun ⟨v, a, work⟩ => by rw [Part.evictionWaits, work]⟩
  unfold Part.evictionWaits at h
  split at h
  · next v a work => exact ⟨v, a, work⟩
  · cases h

theorem testEviction_eq {p : Part} {d : ClientId} {tag : Byte}
    (executing : (p.client 0).executing = some ⟨tag, .evict d⟩) :
    p.testEviction = if p.evictionWaits d then p else p.completeEviction 0 d := by
  rw [Part.testEviction, work_executing executing]

/-- R110: the evicted client's record. -/
theorem client_evicted (p : Part) (d : ClientId) :
    ((p.evicted d).client d).attached = false ∧ ((p.evicted d).client d).evictionPending = false ∧
      ((p.evicted d).client d).batch = none ∧ ((p.evicted d).client d).queue = [] ∧
      ((p.evicted d).client d).flags &&& 256 = 256 := by
  obtain ⟨detached, dropped, empty⟩ := client_gone p d
  obtain ⟨f, reacted⟩ := (tells_react (p.gone d)).clients d
  rw [Part.evicted, Part.notify, client_modClient_same, client_modClient_same, reacted]
  exact ⟨detached, rfl, dropped, empty, or_and_self _ _⟩

/-! ### EVICT (R108, R113) -/

theorem serveEvict_badValue {p : Part} (c : ClientId) (tag : Byte) {client : Byte} (bad : client.toNat = 0 ∨ 7 < client.toNat) :
    p.serveEvict c tag client = p.answer c 49 tag .badValue [] := by
  have no : (if client = 0 then none else eightOfByte client) = none := by
    rcases bad with zero | high
    · exact if_pos (BitVec.eq_of_toNat_eq zero)
    · split
      · rfl
      · exact dif_neg (by omega)
  rw [Part.serveEvict, no]

theorem serveEvict_client {p : Part} (c : ClientId) (tag : Byte) {d : ClientId} (other : d ≠ 0) :
    p.serveEvict c tag (BitVec.ofNat 8 d.val) = if !(p.client d).attached then p.answer c 49 tag .notAttached []
      else (((p.modClient d fun k => { k with evictionPending := true }).abortQueue d).dropAccess d).execute c tag
        (.evict d) := by
  have number : (BitVec.ofNat 8 d.val).toNat = d.val := by
    rw [BitVec.toNat_ofNat]
    omega
  have nonzero : ¬ BitVec.ofNat 8 d.val = (0 : Byte) := fun h => other <| Fin.ext <| by
    rw [← number, h]
    rfl
  have yes : (if BitVec.ofNat 8 d.val = (0 : Byte) then none else eightOfByte (BitVec.ofNat 8 d.val)) = some d := by
    rw [if_neg nonzero, eightOfByte_ofNat]
  rw [Part.serveEvict, yes]

/-- Settles O31, piece by piece. -/
theorem evictActsOnRequests : Obligations.EvictActsOnRequests := by
  refine ⟨fun s tag client free => ⟨fun bad => ?_, fun d number other => ⟨fun attached => ?_, fun detached => ?_⟩⟩,
    abortQueue_eq, fun p d tag => ⟨fun a l ph => dropAccess_write, fun v a ph => dropAccess_read, fun v a => dropAccess_issued,
      fun slot => dropAccess_flush⟩, fun p d tag other executing => ⟨fun waits => ?_, fun ends => ?_⟩,
    fun p d => ⟨fun tag results => abortClose_closing, abortClose_other⟩, fun p d => ?_,
    fun p slot r stands => ⟨fun state => releaseRegion_self p slot fun r' at_ => ?_, releaseRegion_of p slot r stands⟩⟩
  · exact next_served free rfl (.inr rfl) (serveEvict_badValue 0 tag bad)
  · subst number
    refine next_served free rfl (.inr rfl) ((serveEvict_client 0 tag other).trans (if_neg ?_))
    rw [client_taken, attached]
    exact Bool.false_ne_true
  · subst number
    refine next_served free rfl (.inr rfl) ((serveEvict_client 0 tag other).trans (if_pos ?_))
    rw [client_taken, detached]
    rfl
  · exact (testEviction_eq executing).trans (if_pos ((evictionWaits_iff p d).2 waits))
  · have no : ¬ p.evictionWaits d = true := fun h => by
      obtain ⟨v, a, work⟩ := (evictionWaits_iff p d).1 h
      exact ends v a work
    have done : p.testEviction = ((p.evicted d).modClient 0 fun k => { k with executing := none }).answer 0 49 tag .done [] :=
      (testEviction_eq executing).trans <| (if_neg no).trans (completeEviction_eq other executing)
    have client : p.testEviction.client d = (p.evicted d).client d := by
      rw [done, client_answer, client_modClient, if_neg other.symm]
    obtain ⟨detached, settled, dropped, empty, told⟩ := client_evicted p d
    refine ⟨done, by rw [client, detached], by rw [client, settled], by rw [client, dropped], by rw [client, empty],
      by rw [client, told], ?_, ?_⟩
    · rw [done, client_answer, client_modClient_same]
    · rw [done]
      exact ⟨_, List.getLast?_concat⟩
  · intro own q
    have owns : own = p.ownedSlots d := (ownedSlots_eq p d).symm
    refine ⟨?_, fun slot r => region_departs, fun tag x slot of mem executing => ?_⟩
    · rw [owns]
      rfl
    · have answered := departs_answers of (owns ▸ mem) executing
      rcases of with rfl | rfl | rfl <;> exact answered
  · rwa [← Option.some.inj (stands.symm.trans at_)]

end Sys2Proof.Machine
end

section
/-! PROOFS. IDENTIFY and the health pages (R22, R134, R159, R160, R180). -/

namespace Sys2Proof.Machine

set_option Elab.async false

/-- Settles O32. -/
theorem identifyReportsThePart : Obligations.IdentifyReportsThePart := by
  intro s c tag ready
  refine next_taken ready rfl ((take_passed ready.active (by simp [openToDetached, supervisorRequest])).trans ?_)
  show s.part.taken.answer c 8 tag .done s.part.taken.identity = _
  have active : s.part.taken.power.state = .active := ready.active
  rw [Part.identity, active]
  rfl

/-! ### SUMMARY (R160) -/

theorem count_eq (p : Part) (st : FrameState) :
    p.pool.count st = ((List.finRange 4096).filter fun f => (p.frame f).state == st).length := tcount_eq _ _

theorem waitingDoomed_length {p : Part} {l : List FrameId} (once : l.Nodup) (members : ∀ f, f ∈ l ↔ p.qualifies f = true) :
    p.waitingDoomed.length = l.length := by
  refine ((List.perm_ext_iff_of_nodup ?_ once).2 fun f => (mem_waitingDoomed p f).trans (members f).symm).length_eq
  exact (waitingDoomed_ascends p).imp fun h => h.ne

/-- R43: the migration in flight is the one that the lowest slot with one has. -/
theorem migration_of {p : Part} {flight : Option (SlotId × Migration)}
    (some_ : ∀ slot m, flight = some (slot, m) → ∃ r, p.region slot = some r ∧ r.migration = some m ∧
      ∀ u x, u < slot → p.region u = some x → x.migration = none)
    (none_ : flight = none → ∀ slot r, p.region slot = some r → r.migration = none) : p.migration = flight := by
  cases flight with
  | none => exact migration_none (none_ rfl)
  | some x =>
    obtain ⟨r, stands, moves, lowest⟩ := some_ x.1 x.2 rfl
    exact migration_eq stands moves lowest

/-- R160: what the search for the highest corrected count has found, from a place in the table on: the best so far, or the
first frame in service with a higher count than all before it and no lower than all behind it. -/
theorem highestFrom_spec (l : List Frame) (i : Nat) (best : Nat × Option Nat) :
    best.1 ≤ (highestFrom l i best).1 ∧
    (∀ g ∈ l, g.state ≠ .retired → g.corrected ≤ (highestFrom l i best).1) ∧
    (highestFrom l i best = best ∨ best.1 < (highestFrom l i best).1 ∧ ∃ k, ∃ h : k < l.length,
      l[k].state ≠ .retired ∧ highestFrom l i best = (l[k].corrected, some (i + k)) ∧
      ∀ j, ∀ h : j < k, l[j].state ≠ .retired → l[j].corrected < (highestFrom l i best).1) := by
  induction l generalizing i best with
  | nil => exact ⟨le_rfl, nofun, .inl rfl⟩
  | cons g l ih =>
    rw [highestFrom]
    by_cases higher : (g.state != .retired && decide (best.1 < g.corrected)) = true
    · obtain ⟨serves, above⟩ := Bool.and_eq_true_iff.1 higher
      have serves := bne_iff_ne.1 serves
      have above := of_decide_eq_true above
      rw [if_pos higher]
      obtain ⟨least, most, found⟩ := ih (i + 1) (g.corrected, some i)
      refine ⟨above.le.trans least, fun x mem inService => ?_, .inr ⟨above.trans_le least, ?_⟩⟩
      · rcases List.mem_cons.1 mem with rfl | mem
        · exact least
        · exact most x mem inService
      · rcases found with same | ⟨beyond, k, within, inService, is, before⟩
        · exact ⟨0, Nat.succ_pos _, serves, by rw [same]; rfl, fun j h => absurd h (Nat.not_lt_zero j)⟩
        · refine ⟨k + 1, Nat.succ_lt_succ within, inService, ?_, fun j h active => ?_⟩
          · rw [is, Nat.add_assoc, Nat.add_comm 1 k]
            rfl
          · cases j with
            | zero => exact beyond
            | succ j => exact before j (Nat.lt_of_succ_lt_succ h) active
    · rw [if_neg higher]
      have passed (serves : g.state ≠ .retired) : g.corrected ≤ best.1 := by
        by_contra above
        exact higher (Bool.and_eq_true_iff.2 ⟨bne_iff_ne.2 serves, decide_eq_true (not_le.1 above)⟩)
      obtain ⟨least, most, found⟩ := ih (i + 1) best
      refine ⟨least, fun x mem inService => ?_, found.imp_right fun ⟨beyond, k, within, inService, is, before⟩ =>
        ⟨beyond, k + 1, Nat.succ_lt_succ within, inService, ?_, fun j h active => ?_⟩⟩
      · rcases List.mem_cons.1 mem with rfl | mem
        · exact (passed inService).trans least
        · exact most x mem inService
      · rw [is, Nat.add_assoc, Nat.add_comm 1 k]
        rfl
      · cases j with
        | zero => exact (passed active).trans_lt beyond
        | succ j => exact before j (Nat.lt_of_succ_lt_succ h) active

/-- R160: the frames in service. -/
def Part.serving (p : Part) : List FrameId := (List.finRange 4096).filter fun f => (p.frame f).state != .retired

theorem mem_serving (p : Part) (f : FrameId) : f ∈ p.serving ↔ (p.frame f).state ≠ .retired := by
  simp [Part.serving]

theorem getElem_frames (p : Part) (k : Nat) (h : k < p.pool.frames.toList.length) :
    p.pool.frames.toList[k] = p.frame ⟨k, by simpa using h⟩ := by
  simp [Part.frame, tget]

/-- R160: the highest corrected count in service and the lowest-numbered frame that holds it. -/
theorem highest_eq {p : Part} {most : Nat} {holder : Option Nat}
    (bound : ∀ f ∈ p.serving, (p.frame f).corrected ≤ most) (zero : holder = none → most = 0)
    (held : ∀ n, holder = some n → 0 < most ∧ ∃ f ∈ p.serving, f.val = n ∧ (p.frame f).corrected = most ∧
      ∀ g ∈ p.serving, g < f → (p.frame g).corrected < most) :
    highestFrom p.pool.frames.toList 0 (0, none) = (most, holder) := by
  obtain ⟨-, above, found⟩ := highestFrom_spec p.pool.frames.toList 0 (0, none)
  have reaches (f : FrameId) (mem : f ∈ p.serving) :
      (p.frame f).corrected ≤ (highestFrom p.pool.frames.toList 0 (0, none)).1 := by
    have within : f.val < p.pool.frames.toList.length := by simp
    have entry := getElem_frames p f.val within
    exact entry ▸ above _ (List.getElem_mem within) (entry ▸ (mem_serving p f).1 mem)
  rcases found with none_ | ⟨positive, k, within, inService, is, before⟩
  · cases holder with
    | none => rw [none_, zero rfl]
    | some n =>
      obtain ⟨positive, f, mem, -, most, -⟩ := held n rfl
      have := reaches f mem
      rw [none_] at this
      omega
  · have bounded : k < 4096 := by simpa using within
    have entry : p.pool.frames.toList[k] = p.frame ⟨k, bounded⟩ := getElem_frames p k within
    rw [entry] at inService is
    have mem := (mem_serving p ⟨k, bounded⟩).2 inService
    have low := bound _ mem
    cases holder with
    | none =>
      rw [is] at positive
      rw [zero rfl] at low
      exact absurd positive (Nat.not_lt.2 low)
    | some n =>
      obtain ⟨-, f, mem', rfl, holds, first⟩ := held n rfl
      have high := reaches f mem'
      rw [is] at high before ⊢
      have same : (p.frame ⟨k, bounded⟩).corrected = most := by
        dsimp only at high
        omega
      have place : k = f.val := by
        rcases Nat.lt_trichotomy k f.val with less | same' | more
        · have := first ⟨k, bounded⟩ mem less
          omega
        · exact same'
        · have early := before f.val more
          rw [getElem_frames p f.val (more.trans within)] at early
          have lower : (p.frame f).corrected < (p.frame ⟨k, bounded⟩).corrected := early ((mem_serving p f).1 mem')
          omega
      rw [same, Nat.zero_add, place]

/-! ### FRAME (R159) -/

theorem retirementPlace_eq {p : Part} {f : FrameId} {place : Option Nat}
    (queued : ∀ i, p.retire.queue.findIdx? (· == f) = some i → place = some i)
    (waits : f ∉ p.retire.queue → p.qualifies f = true → place = some 16)
    (idle : f ∉ p.retire.queue → ¬ p.qualifies f = true → place = none) : p.retirementPlace f = place := by
  unfold Part.retirementPlace
  split
  · next i at_ => exact (queued i at_).symm
  · next absent =>
    have out : f ∉ p.retire.queue := fun mem => by
      have := List.findIdx?_eq_none_iff.1 absent f mem
      simp at this
    split
    · next yes => exact (waits out yes).symm
    · next no => exact (idle out no).symm

/-! ### SEGMENTS (R22) -/

/-- A run of a table's indices. -/
theorem take_drop_finRange (n a k : Nat) : ((List.finRange n).drop a).take k =
    (List.finRange n).filter fun f => decide (a ≤ f.val ∧ f.val < a + k) := by
  have ascends := List.pairwise_lt_finRange n
  refine List.Pairwise.eq_of_mem_iff (ascends.sublist ((List.take_sublist _ _).trans (List.drop_sublist _ _)))
    (ascends.filter _) fun f => ?_
  simp only [List.mem_filter, List.mem_finRange, true_and, decide_eq_true_eq, List.mem_take_iff_getElem, List.getElem_drop,
    List.getElem_finRange, List.length_drop, List.length_finRange]
  constructor
  · rintro ⟨i, within, rfl⟩
    simp only [Fin.val_cast]
    omega
  · rintro ⟨low, high⟩
    have := f.isLt
    exact ⟨f.val - a, by omega, Fin.ext (by simp; omega)⟩

theorem countIn_eq (p : Pool) (g : SegId) (st : FrameState) : p.countIn g st =
    ((List.finRange 4096).filter fun f => segmentOf f == g && (tget p.frames f).state == st).length := by
  have inside : ((List.finRange 4096).filter fun f : FrameId => decide (32 * g.val ≤ f.val ∧ f.val < 32 * g.val + 32)) =
      (List.finRange 4096).filter fun f => segmentOf f == g := by
    refine List.filter_congr fun f _ => ?_
    rw [Bool.eq_iff_iff, decide_eq_true_eq, beq_iff_eq, Fin.ext_iff]
    show _ ↔ f.val / 32 = g.val
    omega
  rw [Pool.countIn, toList_eq, ← List.map_drop, ← List.map_take, take_drop_finRange, inside, List.countP_map,
    List.countP_eq_length_filter, List.filter_filter]
  simp only [Function.comp_apply, Bool.and_comm]

/-- R22: one record of SEGMENTS. -/
theorem segmentRecord_eq (p : Pool) (g : SegId) : p.segmentRecord g =
    [byte g.val, (tget p.segments g).cls.code, byte (tget p.segments g).claims] ++
      [FrameState.free, .spare, .dirty, .retired].map fun st =>
        byte ((List.finRange 4096).filter fun f => segmentOf f == g && (tget p.frames f).state == st).length := by
  simp only [Pool.segmentRecord, countIn_eq]
  rfl

theorem segmentReport_eq (p : Pool) (start : Nat) : p.segmentReport start =
    byte (((List.finRange 128).filter fun g => decide (start ≤ g.val ∧ g.val < start + 32)).length) ::
      ((List.finRange 128).filter fun g => decide (start ≤ g.val ∧ g.val < start + 32)).flatMap p.segmentRecord := by
  have slots : ((List.range 128).drop start).take 32 = (((List.finRange 128).drop start).take 32).map (·.val) := by
    rw [List.map_take, List.map_drop, List.map_coe_finRange_eq_range]
  rw [Pool.segmentReport, slots, List.length_map, List.flatMap_map, take_drop_finRange]
  have same : ∀ g : SegId, Fin.ofNat 128 g.val = g := fun g => Fin.ext (Nat.mod_eq_of_lt g.isLt)
  simp only [same]

/-! ### TEMPERATURE (R134) -/

theorem flagByte_isSome (x : Option Int) : flagByte x.isSome = if x = none then 0 else 1 := by
  cases x <;> rfl

theorem code_thermalClass (k : ThermalClass) : k.code = match k with
    | .freeze => 0 | .cool => 1 | .normal => 2 | .warm => 3 | .hot => 4 | .overheat => 5 := by
  cases k <;> rfl

/-! ### The pages -/

theorem served_health {s : State} {c : ClientId} {tag : Byte} {page : HealthPage} {arg : Half} {q : Part}
    (free : s.part.free c) (served : s.part.taken.serveHealth c tag page arg = q) :
    (Host.Outcome.next (s.withPart (s.part.arrive c tag (.health page arg))) : Host.Outcome State Fault Refusal) =
      .next (s.withPart q.closeAct) := next_served free rfl (.inl rfl) served

theorem serveHealth_frame (p : Part) (c : ClientId) (tag : Byte) {arg : Half} {f : FrameId} (number : arg.toNat = f.val) :
    p.serveHealth c tag .frame arg = p.answer c 9 tag .done (p.frameReport f) := by
  have valid : arg.toNat < 4096 := number ▸ f.isLt
  have same : (⟨arg.toNat, valid⟩ : FrameId) = f := Fin.ext number
  exact (dif_pos valid).trans (by rw [same])

/-- Settles O33, page by page. -/
theorem healthPagesAnswer : Obligations.HealthPagesAnswer := by
  intro s c tag arg free p done refused count serving waits or2 or1 flight some_ none_
  have flight_eq : p.migration = flight := migration_of some_ none_
  refine ⟨fun waiting most holder once members bound zero held => ?_, fun f number place queued waits_ idle => ?_,
    fun beyond => ?_, fun valid => ?_, fun beyond => ?_, ?_⟩
  · refine served_health free ?_
    show s.part.taken.answer c 9 tag .done p.summary = _
    have highest : highestFrom p.pool.frames.toList 0 (0, none) = (most, holder) := highest_eq bound zero held
    rw [Part.summary, highest, flight_eq, floorMean_eq,
      waitingDoomed_length once fun f => (members f).trans (qualifies_iff p f).symm]
    simp only [frameStates, count_eq]
    rfl
  · refine served_health free ((serveHealth_frame s.part.taken c tag number).trans ?_)
    show s.part.taken.answer c 9 tag .done (p.frameReport f) = _
    have at_ : p.retirementPlace f = place := retirementPlace_eq queued
      (fun out yes => waits_ out ((qualifies_iff p f).1 yes)) (fun out no => idle out (mt (qualifies_iff p f).2 no))
    rw [Part.frameReport, at_, Part.migrationRole, flight_eq]
    simp only [beq_iff_eq, flagByte]
    cases flight with
    | none => rfl
    | some x =>
      dsimp only
      split_ifs <;> rfl
  · exact served_health free (dif_neg (Nat.not_lt.2 beyond))
  · intro segments inside
    refine served_health free ((if_pos valid).trans ?_)
    show s.part.taken.answer c 9 tag .done (p.pool.segmentReport arg.toNat) = _
    rw [segmentReport_eq, List.flatMap_congr fun g _ => segmentRecord_eq p.pool g]
    rfl
  · exact served_health free (if_neg (Nat.not_lt.2 beyond))
  · refine served_health free ?_
    show ({ s.part.taken with thermal := { p.thermal with updated := false } } : Part).answer c 9 tag .done
      p.thermal.report = _
    rw [Thermal.report, flagByte_isSome, code_thermalClass]
    rfl

end Sys2Proof.Machine
end

section
/-! PROOFS. The allocator, and GRANT (R5, R13, R14, R46, R47). -/

namespace Sys2Proof.Machine

set_option Elab.async false

/-! ### The allocator (1.4) -/

theorem framesOf_eq (p : Pool) (st : FrameState) (k : SegmentClass) : p.framesOf st k =
    (List.finRange 4096).filter fun f => (tget p.frames f).state == st && (tget p.segments (segmentOf f)).cls == k :=
  indices_eq _ _

theorem mem_framesOf (p : Pool) (st : FrameState) (k : SegmentClass) (f : FrameId) :
    f ∈ p.framesOf st k ↔ (tget p.frames f).state = st ∧ (tget p.segments (segmentOf f)).cls = k := by
  rw [framesOf_eq, List.mem_filter, Bool.and_eq_true, beq_iff_eq, beq_iff_eq]
  exact and_iff_right (List.mem_finRange f)

theorem state_of_candidate {p : Pool} {st : FrameState} {k : RegionClass} {f : FrameId} (h : f ∈ p.candidates st k) :
    (tget p.frames f).state = st := by
  rcases List.mem_append.1 h with h | h
  · exact ((mem_framesOf p st _ f).1 h).1
  · exact ((mem_framesOf p st _ f).1 h).1

theorem segmentClass_ne (k : RegionClass) : segmentClass k ≠ .unclaimed := by
  cases k <;> exact nofun

/-- R13: no frame is a candidate twice. -/
theorem candidates_nodup (p : Pool) (st : FrameState) (k : RegionClass) : (p.candidates st k).Nodup := by
  have nodup (c : SegmentClass) : (p.framesOf st c).Nodup := (indices_ascend _ _).imp fun h => h.ne
  refine List.nodup_append'.2 ⟨nodup _, nodup _, fun f own free => segmentClass_ne k ?_⟩
  rw [← ((mem_framesOf p st _ f).1 own).2, ((mem_framesOf p st _ f).1 free).2]

theorem allocate_eq_none (p : Pool) (n : Nat) (k : RegionClass) (slot : SlotId) :
    p.allocate n k slot = none ↔ (p.candidates .free k).length + (p.candidates .dirty k).length < n := by
  unfold Pool.allocate
  dsimp only
  split
  · next few => exact iff_of_true rfl few
  · next enough => exact iff_of_false nofun enough

/-- R14: the frames of a run of moves into a region. -/
theorem frames_enters (l : List FrameId) (p : Pool) (st : FrameState) (slot : SlotId) (k : RegionClass) (other : st ≠ .target)
    (f : FrameId) : tget (l.foldl (fun q x => q.enter x st slot k) p).frames f =
      if f ∈ l then { tget p.frames f with state := st, region := some slot } else tget p.frames f := by
  have stays : ∀ b : Bool, (b && st != .target) = b := fun b => by rw [bne_iff_ne.2 other, Bool.and_true]
  induction l generalizing p with
  | nil => rfl
  | cons x l ih =>
    rw [List.foldl_cons, ih, frame_enter, stays]
    by_cases same : x = f
    · subst same
      rw [if_pos rfl, if_pos List.mem_cons_self]
      split <;> rfl
    · rw [if_neg same]
      simp only [List.mem_cons, Ne.symm same, false_or]

/-- R4, R5: a segment whose frames have entered a region, n of them. -/
def Segment.raised (g : Segment) (k : RegionClass) (n : Nat) : Segment :=
  if n = 0 then g else ⟨if g.claims = 0 then segmentClass k else g.cls, g.claims + n⟩

theorem raised_gain (g : Segment) (k : RegionClass) (n : Nat) : (g.gain k).raised k n = g.raised k (n + 1) := by
  unfold Segment.raised Segment.gain
  by_cases zero : g.claims = 0 <;> by_cases none : n = 0 <;> simp [zero, none, Nat.add_assoc, Nat.add_comm 1 n]

theorem raised_raised (g : Segment) (k : RegionClass) (m n : Nat) :
    (g.raised k m).raised k n = g.raised k (m + n) := by
  unfold Segment.raised
  by_cases first : m = 0
  · simp [first]
  · by_cases second : n = 0
    · simp [first, second]
    · simp [first, second, Nat.add_assoc]

/-- R4, R5: the segments of a run of moves into a region, of frames that were not counted. -/
theorem segments_enters (l : List FrameId) (p : Pool) (st : FrameState) (slot : SlotId) (k : RegionClass) (once : l.Nodup)
    (uncounted : ∀ f ∈ l, (tget p.frames f).state.counted = false) (g : SegId) :
    tget (l.foldl (fun q x => q.enter x st slot k) p).segments g =
      (tget p.segments g).raised k (l.filter fun f => segmentOf f == g).length := by
  induction l generalizing p with
  | nil => rfl
  | cons x l ih =>
    obtain ⟨fresh, once⟩ := List.nodup_cons.1 once
    have entered : tget (p.enter x st slot k).segments g =
        if segmentOf x = g then (tget p.segments g).gain k else tget p.segments g := by
      rw [Pool.enter, uncounted x List.mem_cons_self]
      dsimp only
      rw [if_neg Bool.false_ne_true, tget_tmod]
      split
      · next same => rw [same]
      · rfl
    have later : ∀ f ∈ l, (tget (p.enter x st slot k).frames f).state.counted = false := fun f mem => by
      have other : x ≠ f := fun same => fresh (same ▸ mem)
      rw [frame_enter, if_neg other]
      exact uncounted f (List.mem_cons_of_mem x mem)
    rw [List.foldl_cons, ih _ once later, entered]
    by_cases here : segmentOf x = g
    · rw [if_pos here, raised_gain, List.filter_cons_of_pos (p := fun f => segmentOf f == g) (beq_iff_eq.2 here), List.length_cons]
    · rw [if_neg here, List.filter_cons_of_neg (p := fun f => segmentOf f == g) (mt beq_iff_eq.1 here)]

/-- R14: the frames an allocation takes, FREE ones and DIRTY ones. -/
structure Pool.Takes (p : Pool) (n : Nat) (k : RegionClass) (slot : SlotId) (a : Allocation) (free dirty : List FrameId) :
    Prop where
  frees : ∀ f ∈ free, (tget p.frames f).state = .free
  dirties : ∀ f ∈ dirty, (tget p.frames f).state = .dirty
  once : (free ++ dirty).Nodup
  frames : a.frames = free ++ dirty
  inOrder : a.frames = (p.candidates .free k ++ p.candidates .dirty k).take n
  fill : a.fill = decide ((p.candidates .free k).length < n)
  pool : a.pool = dirty.foldl (fun q f => q.enter f .claimed slot k) (free.foldl (fun q f => q.enter f .held slot k) p)

theorem allocate_takes {p : Pool} {n : Nat} {k : RegionClass} {slot : SlotId} {a : Allocation}
    (h : p.allocate n k slot = some a) : ∃ free dirty, p.Takes n k slot a free dirty := by
  have enough : ¬ (p.candidates .free k).length + (p.candidates .dirty k).length < n := fun few => by
    rw [(allocate_eq_none p n k slot).2 few] at h
    cases h
  unfold Pool.allocate at h
  dsimp only at h
  rw [if_neg enough] at h
  cases h
  have frees : ∀ f ∈ (p.candidates .free k).take n, (tget p.frames f).state = .free :=
    fun f mem => state_of_candidate (List.mem_of_mem_take mem)
  have dirties : ∀ f ∈ (p.candidates .dirty k).take (n - ((p.candidates .free k).take n).length),
      (tget p.frames f).state = .dirty := fun f mem => state_of_candidate (List.mem_of_mem_take mem)
  refine ⟨_, _, frees, dirties, ?_, rfl, ?_, ?_, rfl⟩
  · refine List.nodup_append'.2 ⟨(candidates_nodup p _ k).sublist (List.take_sublist _ _),
      (candidates_nodup p _ k).sublist (List.take_sublist _ _), fun f free dirty => ?_⟩
    exact nomatch (frees f free).symm.trans (dirties f dirty)
  · have rest : n - min n (p.candidates .free k).length = n - (p.candidates .free k).length := by omega
    rw [List.take_append, List.length_take, rest]
  · rw [Bool.eq_iff_iff, decide_eq_true_eq, Bool.not_eq_true', List.isEmpty_eq_false_iff_exists_mem,
      ← List.length_pos_iff_exists_mem, List.length_take, List.length_take]
    omega

/-- R14: the frames after an allocation. -/
theorem Pool.Takes.frame {p : Pool} {n : Nat} {k : RegionClass} {slot : SlotId} {a : Allocation} {free dirty : List FrameId}
    (h : p.Takes n k slot a free dirty) (f : FrameId) : tget a.pool.frames f =
      if f ∈ a.frames then
        { tget p.frames f with
          state := if (tget p.frames f).state = .free then .held else .claimed
          region := some slot }
      else tget p.frames f := by
  rw [h.pool, frames_enters _ _ .claimed slot k nofun, frames_enters _ _ .held slot k nofun, h.frames]
  by_cases inFree : f ∈ free
  · have state := h.frees f inFree
    have notDirty : f ∉ dirty := fun mem => nomatch state.symm.trans (h.dirties f mem)
    rw [if_neg notDirty, if_pos inFree, if_pos (List.mem_append_left _ inFree), if_pos state]
  · by_cases inDirty : f ∈ dirty
    · have notFree : (tget p.frames f).state ≠ .free := fun state => nomatch state.symm.trans (h.dirties f inDirty)
      rw [if_pos inDirty, if_neg inFree, if_pos (List.mem_append_right _ inDirty), if_neg notFree]
    · rw [if_neg inDirty, if_neg inFree, if_neg fun mem => (List.mem_append.1 mem).elim inFree inDirty]

/-- R4, R5: the segments after an allocation. -/
theorem Pool.Takes.segment {p : Pool} {n : Nat} {k : RegionClass} {slot : SlotId} {a : Allocation}
    {free dirty : List FrameId} (h : p.Takes n k slot a free dirty) (g : SegId) : tget a.pool.segments g =
      (tget p.segments g).raised k (a.frames.filter fun f => segmentOf f == g).length := by
  obtain ⟨onceFree, onceDirty, apart⟩ := List.nodup_append'.1 h.once
  have firsts : ∀ f ∈ free, (tget p.frames f).state.counted = false := fun f mem => by rw [h.frees f mem]; rfl
  have seconds : ∀ f ∈ dirty, (tget (free.foldl (fun q f => q.enter f .held slot k) p).frames f).state.counted = false :=
    fun f mem => by
      rw [frames_enters _ _ .held slot k nofun, if_neg fun also => apart also mem, h.dirties f mem]
      rfl
  rw [h.pool, segments_enters dirty _ _ slot k onceDirty seconds, segments_enters free _ _ slot k onceFree firsts, h.frames,
    List.filter_append, List.length_append]
  exact raised_raised _ _ _ _

/-- Settles O37. -/
theorem allocatorTakesEligibleFrames : Obligations.AllocatorTakesEligibleFrames := by
  intro p n k slot
  refine ⟨fun st => ?_, allocate_eq_none p n k slot, fun a h => ?_⟩
  · rw [Pool.candidates, framesOf_eq, framesOf_eq]
  · obtain ⟨free, dirty, takes⟩ := allocate_takes h
    refine ⟨takes.inOrder, takes.fill, takes.frame, fun g => ⟨fun none => ?_, fun some => ?_⟩⟩
    · exact (takes.segment g).trans (if_pos none)
    · exact (takes.segment g).trans (if_neg some)

/-! ### GRANT (R46, R47) -/

/-- R23, R46: the lowest slot that is UNUSED. -/
theorem lowestUnused_eq {p : Part} {slot : SlotId} (unused : p.region slot = none)
    (lowest : ∀ t, t < slot → p.region t ≠ none) : p.lowestUnused = some slot := by
  refine (indices_head _ _ slot).2 ⟨Option.isNone_iff_eq_none.2 unused, fun t lower => Bool.eq_false_iff.2 fun none => ?_⟩
  exact lowest t lower (Option.isNone_iff_eq_none.1 none)

theorem lowestUnused_none (p : Part) : p.lowestUnused.isNone = p.slots.toList.all fun x => x.region.isSome := by
  rw [Bool.eq_iff_iff, Option.isNone_iff_eq_none, Part.lowestUnused, List.head?_eq_none_iff, List.eq_nil_iff_forall_not_mem,
    toList_eq, List.all_map, List.all_eq_true]
  simp [mem_indices, ← Option.ne_none_iff_isSome]

/-- R45: a command that ends at once. -/
theorem serveCommand_done {p : Part} {c : ClientId} (tag : Byte) {cmd : RegionCommand} {a : Applied}
    (applied : p.apply c cmd = .ok a) (ended : a.wait = none) :
    p.serveCommand c tag cmd = a.part.answer c cmd.code tag .done a.body := by
  rw [Part.serveCommand, applied]
  dsimp only
  rw [ended]

/-- R47, R51, R62: a command that waits. -/
theorem serveCommand_waits {p : Part} {c : ClientId} (tag : Byte) {cmd : RegionCommand} {a : Applied} {w : Wait}
    (applied : p.apply c cmd = .ok a) (waits : a.wait = some w) :
    p.serveCommand c tag cmd = a.part.execute c tag (.waiting w) := by
  rw [Part.serveCommand, applied]
  dsimp only
  rw [waits]

theorem byte_toNat (b : Byte) : byte b.toNat = b := by
  simp [byte]

theorem applyGrant_refused {p : Part} {c : ClientId} {size : Byte} (k : RegionClass) {lease : Option Half} {st : Status}
    (judged : p.judgeGrant c size.toNat lease = some st) : p.applyGrant c size k lease = .error st := by
  rw [Part.applyGrant, judged]

theorem applyGrant_noFrames {p : Part} {c : ClientId} {size : Byte} {k : RegionClass} {lease : Option Half} {slot : SlotId}
    (judged : p.judgeGrant c size.toNat lease = none) (lowest : p.lowestUnused = some slot)
    (few : p.pool.allocate size.toNat k slot = none) : p.applyGrant c size k lease = .error .noFrames := by
  rw [Part.applyGrant, judged]
  dsimp only
  rw [lowest]
  dsimp only
  rw [few]

theorem applyGrant_placed {p : Part} {c : ClientId} {size : Byte} {k : RegionClass} {lease : Option Half} {slot : SlotId}
    {a : Allocation} (judged : p.judgeGrant c size.toNat lease = none) (lowest : p.lowestUnused = some slot)
    (allocated : p.pool.allocate size.toNat k slot = some a) :
    p.applyGrant c size k lease = .ok (p.placeGrant c size.toNat k lease slot a) := by
  rw [Part.applyGrant, judged]
  dsimp only
  rw [lowest]
  dsimp only
  rw [allocated]

theorem judgeGrant_eq (p : Part) (c : ClientId) (n : Nat) (lease : Option Half) : p.judgeGrant c n lease = firstFail
    [(p.thermalLimit, .thermalLimit), (n == 0 || decide (128 < n), .tooLarge), (leaseOutOfRange lease, .badValue),
      (decide ((p.client c).quota < p.heldFrames c + n), .quota),
      (p.slots.toList.all fun x => x.region.isSome, .noSlot),
      (decide (p.pool.count .spare < p.pool.spareTarget), .reserveShort)] := by
  rw [Part.judgeGrant, lowestUnused_none]
  rfl

/-- Settles O35. -/
theorem grantRefusalsInOrder : Obligations.GrantRefusalsInOrder := by
  intro s c tag size k lease free batch checks
  have judged : s.part.taken.judgeGrant c size.toNat lease = checks := judgeGrant_eq s.part.taken c size.toNat lease
  refine ⟨fun st refused => ?_, fun passed few => ?_⟩
  · exact next_command free batch (serveCommand_refused tag (applyGrant_refused k (judged.trans refused)))
  · have slots : ¬ s.part.taken.lowestUnused.isNone = true := by
      rw [judgeGrant_eq, passed, firstFail_none] at judged
      have standing : (s.part.taken.slots.toList.all fun x => x.region.isSome) = false :=
        judged (s.part.taken.slots.toList.all fun x => x.region.isSome, .noSlot) (by simp)
      rw [lowestUnused_none, standing]
      exact Bool.false_ne_true
    obtain ⟨slot, lowest⟩ := Option.ne_none_iff_exists'.1 (mt Option.isNone_iff_eq_none.2 slots)
    exact next_command free batch (serveCommand_refused tag (applyGrant_noFrames (judged.trans passed) lowest
      ((allocate_eq_none _ _ _ _).2 few)))

/-- Settles O36. -/
theorem grantCreatesARegion : Obligations.GrantCreatesARegion := by
  intro s c tag size k lease slot a free batch judged unused lowest allocated record written
  have applied : s.part.taken.apply c (.grant size k lease) =
      .ok (s.part.taken.placeGrant c size.toNat k lease slot a) :=
    applyGrant_placed (p := s.part.taken) judged (lowestUnused_eq (p := s.part.taken) unused lowest) allocated
  refine ⟨fun live => ?_, fun filling => ?_⟩
  · refine next_command free batch ((serveCommand_done tag applied (if_neg (by rw [live]; exact Bool.false_ne_true))).trans ?_)
    simp only [Part.placeGrant, live, byte_toNat]
    rfl
  · refine next_command free batch ((serveCommand_waits tag applied (if_pos filling)).trans ?_)
    simp only [Part.placeGrant, filling]
    rfl

end Sys2Proof.Machine
end

section
/-! PROOFS. HANDOVER, SHARE, UNSHARE, LOCK and UNLOCK (R55 to R61, R111). -/

namespace Sys2Proof.Machine

set_option Elab.async false

theorem modRegion_congr {p : Part} {s : SlotId} {r : Region} {f g : Region → Region} (stands : p.region s = some r)
    (same : f r = g r) : p.modRegion s f = p.modRegion s g := by
  have at_ : (tget p.slots s).region = some r := stands
  simp only [Part.modRegion, tmod, at_, Option.map_some, same]

/-- R45: the next state of an owner's command that is refused. -/
theorem next_refused {s : State} {c : ClientId} {tag : Byte} {cmd : RegionCommand} {st : Status} (free : s.part.free c)
    (batch : (s.part.client c).batch = none) (refused : s.part.taken.apply c cmd = .error st) :
    (Host.Outcome.next (s.withPart (s.part.arrive c tag (.command cmd))) : Host.Outcome State Fault Refusal) =
      .next (s.withPart (s.part.taken.answer c cmd.code tag st []).closeAct) :=
  next_command free batch (serveCommand_refused tag refused)

/-- R45: the next state of a command that ends at once. -/
theorem next_done {s : State} {c : ClientId} {tag : Byte} {cmd : RegionCommand} {a : Applied} (free : s.part.free c)
    (batch : (s.part.client c).batch = none) (applied : s.part.taken.apply c cmd = .ok a) (ended : a.wait = none) :
    (Host.Outcome.next (s.withPart (s.part.arrive c tag (.command cmd))) : Host.Outcome State Fault Refusal) =
      .next (s.withPart (a.part.answer c cmd.code tag .done a.body).closeAct) :=
  next_command free batch (serveCommand_done tag applied ended)

/-- R47, R51, R62: the next state of a command that waits. -/
theorem next_waits {s : State} {c : ClientId} {tag : Byte} {cmd : RegionCommand} {a : Applied} {w : Wait}
    (free : s.part.free c) (batch : (s.part.client c).batch = none) (applied : s.part.taken.apply c cmd = .ok a)
    (waits : a.wait = some w) :
    (Host.Outcome.next (s.withPart (s.part.arrive c tag (.command cmd))) : Host.Outcome State Fault Refusal) =
      .next (s.withPart (a.part.execute c tag (.waiting w)).closeAct) :=
  next_command free batch (serveCommand_waits tag applied waits)

/-! ### HANDOVER (R55, R56, R111) -/

theorem heldFrames_eq (p : Part) (c : ClientId) : p.heldFrames c = ((List.finRange 64).map fun slot =>
    match p.region slot with
    | some r => if r.owner = c ∧ r.state ≠ .releasing then r.frames.length + (r.extension.getD []).length else 0
    | none => 0).sum := by
  rw [Part.heldFrames, toList_eq, List.map_map]
  congr 1
  refine List.map_congr_left fun slot _ => ?_
  show (match p.region slot with | some r => _ | none => 0) = _
  cases p.region slot with
  | none => rfl
  | some r =>
    simp only [Bool.and_eq_true, beq_iff_eq, bne_iff_ne]
    rfl

theorem applyHandover_eq {p : Part} {c d : ClientId} {h : RegionHandle} {r : Region} (owns : p.owns c h r) :
    p.taken.applyHandover c (.region h) d =
      match firstFail [(!(p.client d).attached, .notAttached), (d == c, .badValue),
        (decide ((p.client d).quota < p.heldFrames d + (r.frames.length + (r.extension.getD []).length)), .quota)] with
      | some st => .error st
      | none => .ok (.plain ((p.taken.modRegion h.slot fun x =>
          { x with owner := d, lease := x.lease.map fun l => (⟨l.period, 1000 * l.period⟩ : Lease) }).notify
            .handedOver d)) := by
  rw [Part.applyHandover, judgeCommon_owns owns]
  dsimp only
  rw [owns.owner] <;> rfl

/-- Settles O41. -/
theorem handoverChangesTheOwner : Obligations.HandoverChangesTheOwner := by
  refine ⟨fun s c d tag h r free owns => ?_, heldFrames_eq⟩
  intro brought refused
  have applied : s.part.taken.apply c (.handover (.region h) d) = _ := applyHandover_eq (d := d) owns
  rw [firstFail_cons, firstFail_cons, firstFail_cons, firstFail_nil] at applied
  refine ⟨fun detached => ?_, fun attached self => ?_, fun attached other beyond => ?_, fun attached other within => ?_⟩
  · rw [detached] at applied
    exact next_refused free owns.unstaged applied
  · rw [attached, beq_iff_eq.2 self] at applied
    exact next_refused free owns.unstaged applied
  · rw [attached, beq_eq_false_iff_ne.2 other, decide_eq_true beyond] at applied
    exact next_refused free owns.unstaged applied
  · rw [attached, beq_eq_false_iff_ne.2 other, decide_eq_false (not_lt.2 within)] at applied
    exact next_done free owns.unstaged applied rfl

/-! ### SHARE and UNSHARE (R35 to R37, R57, R58) -/

theorem isAt_iff (base mask : Fin 8) (e : AccessEntry) : e.isAt base mask = true ↔ e.base = base ∧ e.mask = mask := by
  simp [AccessEntry.isAt]

theorem any_isAt_iff (l : List AccessEntry) (base mask : Fin 8) :
    (l.any (·.isAt base mask)) = true ↔ ∃ e ∈ l, e.base = base ∧ e.mask = mask := by
  simp [isAt_iff]

theorem any_isAt_eq_false {l : List AccessEntry} {base mask : Fin 8} (no : ∀ e ∈ l, ¬ (e.base = base ∧ e.mask = mask)) :
    (l.any (·.isAt base mask)) = false :=
  Bool.eq_false_iff.2 fun yes => by
    obtain ⟨e, mem, same⟩ := (any_isAt_iff l base mask).1 yes
    exact no e mem same

/-- R57: an entry with the base and the mask is replaced in its place. -/
theorem shareEntry_replaces {l : List AccessEntry} {e : AccessEntry} (found : ∃ x ∈ l, x.base = e.base ∧ x.mask = e.mask) :
    shareEntry l e = l.map fun x => if x.base = e.base ∧ x.mask = e.mask then e else x := by
  rw [shareEntry, if_pos ((any_isAt_iff l e.base e.mask).2 found)]
  simp only [isAt_iff]

theorem shareEntry_appends {l : List AccessEntry} {e : AccessEntry}
    (no : ∀ x ∈ l, ¬ (x.base = e.base ∧ x.mask = e.mask)) : shareEntry l e = l ++ [e] := by
  rw [shareEntry, any_isAt_eq_false no]
  exact if_neg Bool.false_ne_true

/-- R36: a client and an entry agree in the bits clear in the mask. -/
theorem covers_iff (e : AccessEntry) (d : ClientId) : e.covers d = true ↔
    ∀ i : Fin 3, e.mask.val.testBit i.val = false → d.val.testBit i.val = e.base.val.testBit i.val := by
  have all : ∀ d base mask : Fin 8, (((d.val ^^^ base.val) &&& (7 ^^^ mask.val)) == 0) = true ↔
      ∀ i : Fin 3, mask.val.testBit i.val = false → d.val.testBit i.val = base.val.testBit i.val := by decide +kernel
  exact all d e.base e.mask

theorem applyShare_eq {p : Part} {c : ClientId} {h : RegionHandle} {r : Region} (owns : p.owns c h r) (base mask : Fin 8)
    (right : Right) : p.taken.applyShare c (.region h) base mask right =
      match firstFail [(r.state == .locked && right == .readWrite, .locked),
        (!(r.access.any (·.isAt base mask)) && decide (4 ≤ r.access.length), .listFull)] with
      | some st => .error st
      | none => .ok (.plain (p.taken.modRegion h.slot fun x =>
          { x with access := shareEntry x.access ⟨base, mask, right⟩ })) := by
  rw [Part.applyShare, judgeCommon_owns owns] <;> rfl

/-- Settles O42. -/
theorem shareWritesAnEntry : Obligations.ShareWritesAnEntry := by
  refine ⟨fun s c tag h r base mask right free owns => ?_, covers_iff⟩
  intro answered entry
  have stands : s.part.taken.region h.slot = some r := region_named (p := s.part.taken) owns.named
  have applied : s.part.taken.apply c (.share (.region h) base mask right) = _ := applyShare_eq owns base mask right
  rw [firstFail_cons, firstFail_cons, firstFail_nil] at applied
  refine ⟨fun locked writes => ?_, fun allowed => ?_⟩
  · have both : (r.state == .locked && right == .readWrite) = true := by rw [locked, writes]; rfl
    rw [both] at applied
    exact next_refused free owns.unstaged applied
  have allowed : (r.state == .locked && right == .readWrite) = false := by
    rw [← Bool.not_eq_true, Bool.and_eq_true, beq_iff_eq, beq_iff_eq]
    exact allowed
  rw [allowed] at applied
  refine ⟨fun found => ?_, fun no room => ?_, fun no full => ?_⟩
  · rw [(any_isAt_iff r.access base mask).2 found] at applied
    have same : s.part.taken.modRegion h.slot (fun x => { x with access := shareEntry x.access entry }) =
        s.part.taken.modRegion h.slot fun x =>
          { x with access := x.access.map fun e => if e.base = base ∧ e.mask = mask then entry else e } :=
      modRegion_congr stands (by rw [shareEntry_replaces found])
    exact (next_done free owns.unstaged applied rfl).trans (by rw [← same]; rfl)
  · rw [any_isAt_eq_false no, decide_eq_false (not_le.2 room)] at applied
    have same : s.part.taken.modRegion h.slot (fun x => { x with access := shareEntry x.access entry }) =
        s.part.taken.modRegion h.slot fun x => { x with access := x.access ++ [entry] } :=
      modRegion_congr stands (by rw [shareEntry_appends no])
    exact (next_done free owns.unstaged applied rfl).trans (by rw [← same]; rfl)
  · rw [any_isAt_eq_false no, decide_eq_true full] at applied
    exact next_refused free owns.unstaged applied

/-- R58: the clients that leave the match set. -/
theorem leavers_eq (r : Region) (rest : List AccessEntry) :
    (r.matchSet.filter fun d => !({ r with access := rest } : Region).inMatchSet d) =
      allClients.filter fun d => d != r.owner && r.access.any (·.covers d) && !rest.any (·.covers d) := by
  rw [Region.matchSet, List.filter_filter]
  refine List.filter_congr fun d _ => ?_
  simp only [Region.inMatchSet]
  cases d != r.owner <;> simp [Bool.and_comm]

theorem applyUnshare_eq {p : Part} {c : ClientId} {h : RegionHandle} {r : Region} (owns : p.owns c h r)
    (base mask : Fin 8) : p.taken.applyUnshare c (.region h) base mask =
      if r.access.any (·.isAt base mask) then
        .ok (.plain ((p.taken.modRegion h.slot fun x =>
          { x with access := r.access.filter fun e => !(e.base == base && e.mask == mask) }).notifyAll .revoked
            (allClients.filter fun d => d != r.owner && r.access.any (·.covers d) &&
              !(r.access.filter fun e => !(e.base == base && e.mask == mask)).any (·.covers d))))
      else .error .notFound := by
  rw [Part.applyUnshare, judgeCommon_owns owns, ← leavers_eq]
  dsimp only
  cases r.access.any (·.isAt base mask) <;> rfl

/-- Settles O43. -/
theorem unshareRemovesAnEntry : Obligations.UnshareRemovesAnEntry := by
  intro s c tag h r base mask free owns
  have applied : s.part.taken.apply c (.unshare (.region h) base mask) = _ := applyUnshare_eq owns base mask
  refine ⟨fun found => ?_, fun no => ?_⟩
  · rw [if_pos ((any_isAt_iff r.access base mask).2 found)] at applied
    exact next_done free owns.unstaged applied rfl
  · rw [any_isAt_eq_false no] at applied
    exact next_refused free owns.unstaged applied

/-! ### LOCK and UNLOCK (R59, R61) -/

theorem any_readWrite_iff (l : List AccessEntry) :
    (l.any (·.right == .readWrite)) = true ↔ ∃ e ∈ l, e.right = .readWrite := by
  simp

theorem any_readWrite_eq_false {l : List AccessEntry} (reads : ∀ e ∈ l, e.right = .read) :
    (l.any (·.right == .readWrite)) = false :=
  Bool.eq_false_iff.2 fun yes => by
    obtain ⟨e, mem, writes⟩ := (any_readWrite_iff l).1 yes
    exact nomatch (reads e mem).symm.trans writes

/-- Settles O44, state by state. -/
theorem lockAndUnlockChangeTheState : Obligations.LockAndUnlockChangeTheState := by
  intro s c tag h r free owns locked unlocked
  have judged := judgeCommon_owns owns
  have lock : s.part.taken.apply c (.lock (.region h)) = s.part.taken.applyLock c (.region h) := rfl
  have unlock : s.part.taken.apply c (.unlock (.region h)) = s.part.taken.applyUnlock c (.region h) := rfl
  rw [Part.applyLock, judged] at lock
  rw [Part.applyUnlock, judged] at unlock
  dsimp only at lock unlock
  refine ⟨fun live => ?_, fun standing => ?_, fun faulted => ?_, fun lost => ?_⟩
  · rw [live] at lock unlock
    dsimp only at lock unlock
    rw [firstFail_cons, firstFail_cons, firstFail_cons, firstFail_nil] at lock
    refine ⟨next_done free owns.unstaged unlock rfl, fun volatile => ?_, fun keep writes => ?_, fun keep reads grows => ?_,
      fun keep reads whole => ?_⟩
    · rw [volatile] at lock
      exact next_refused free owns.unstaged lock
    · rw [keep, (any_readWrite_iff r.access).2 writes] at lock
      exact next_refused free owns.unstaged lock
    · rw [keep, any_readWrite_eq_false reads, Option.isSome_iff_ne_none.2 grows] at lock
      exact next_refused free owns.unstaged lock
    · rw [keep, any_readWrite_eq_false reads, whole] at lock
      exact next_done free owns.unstaged lock rfl
  · rw [standing] at lock unlock
    refine ⟨next_done free owns.unstaged lock rfl, fun shared => ?_, fun alone => ?_⟩
    · dsimp only at unlock
      rw [List.isEmpty_eq_false_iff.2 shared] at unlock
      exact next_refused free owns.unstaged unlock
    · rw [alone] at unlock
      exact next_done free owns.unstaged unlock rfl
  · rw [faulted] at lock unlock
    exact ⟨next_refused free owns.unstaged lock, next_refused free owns.unstaged unlock⟩
  · rw [lost] at lock unlock
    exact ⟨next_refused free owns.unstaged lock, next_refused free owns.unstaged unlock⟩

end Sys2Proof.Machine
end

section
/-! PROOFS. RELEASE (R30 to R32, R49). -/

namespace Sys2Proof.Machine

set_option Elab.async false

theorem notifyAll_rest (p : Part) (n : Notice) (cs : List ClientId) :
    (p.notifyAll n cs).fills = p.fills ∧ (p.notifyAll n cs).retire = p.retire := by
  obtain ⟨k, told⟩ := reach_notifyAll p n cs
  rw [told]
  exact ⟨rfl, rfl⟩

/-- R30, points 1 to 8, but for the slot and the pool. -/
theorem enterReleasing_rest (p : Part) (s : SlotId) (r : Region) :
    (∀ d, ((p.enterReleasing s r).client d).flags =
      if r.inMatchSet d = true then (p.client d).flags ||| 32 else (p.client d).flags) ∧
    (p.enterReleasing s r).fills = p.fills.filter (fun x => x.slot != s) ∧
    (p.enterReleasing s r).retire.queue = p.retire.queue.filter fun f => !r.frames.contains f := by
  obtain ⟨t, b, g, e, aborted⟩ := reach_abortMigration
    ({ p with slots := tmod p.slots s fun x => { x with generation := x.generation + 1 } } : Part) s .dirty
  unfold Part.enterReleasing
  simp only [aborted]
  refine ⟨fun d => (flags_notifyAll _ _ _ d).trans (if_congr ?_ rfl rfl), ?_, ?_⟩
  · simp [Region.matchSet, mem_allClients]
  · exact (notifyAll_rest _ _ _).1
  · exact congrArg (·.queue) (notifyAll_rest _ _ _).2

/-- R30: the frames that a release moves. -/
theorem frame_enterReleasing {p : Part} {s : SlotId} {r : Region} (stands : p.region s = some r) :
    (∀ m, r.migration = some m → m.target ∉ r.extension.getD [] →
      ((p.enterReleasing s r).frame m.target).state = .dirty) ∧
    (∀ ext f, r.extension = some ext → (∀ m, r.migration = some m → f ≠ m.target) → ext.Nodup → f ∈ ext →
      ((p.enterReleasing s r).frame f).state = if (p.frame f).doomed then .retired else .dirty) := by
  obtain ⟨g, pool, frames⟩ := pool_enterReleasing p s r stands
  refine ⟨fun m running out => ?_, fun ext f pending other once mem => ?_⟩
  · rw [Part.frame, pool, frame_vacateAll_ne _ _ _ out, frames, running]
    simp only [if_true]
  · have old : tget g.frames f = p.frame f := by
      rw [frames]
      cases running : r.migration with
      | none => rfl
      | some m => exact if_neg (Ne.symm (other m running))
    rw [pending] at pool
    rw [Part.frame, pool, Option.getD_some, frames_vacateAll ext g f once, if_pos mem, old]

theorem generation_abortWaits (p : Part) (s u : SlotId) : (p.abortWaits s).generation u = p.generation u := by
  have once : ∀ (q : Part) (w : Wait), (q.resolveWait w .aborted).generation u = q.generation u := by
    intro q w
    obtain ⟨x, h⟩ := reach_resolveWait q w .aborted
    rw [h] <;> rfl
  rw [Part.abortWaits, once, once, once]

/-! ### Freeing (R32) -/

theorem freeRegion_stays {p : Part} {s : SlotId} {r : Region} (stands : p.region s = some r)
    (used : ¬ (r.state = .releasing ∧ r.inUse = 0)) : p.freeRegion s = p := by
  unfold Part.freeRegion
  rw [stands]
  exact if_neg fun h => used (by simpa using h)

theorem freeRegion_frees {p : Part} {s : SlotId} {r : Region} (stands : p.region s = some r)
    (state : r.state = .releasing) (unused : r.inUse = 0) : p.freeRegion s = { p with
      pool := p.pool.vacateAll r.frames
      slots := tmod p.slots s fun x => { x with region := none } } := by
  unfold Part.freeRegion
  rw [stands]
  exact if_pos (by rw [state, unused]; rfl)

theorem slot_freed {p : Part} {s : SlotId} {r : Region} (stands : p.region s = some r) (state : r.state = .releasing)
    (unused : r.inUse = 0) :
    (p.freeRegion s).region s = none ∧ (p.freeRegion s).generation s = p.generation s := by
  rw [freeRegion_frees stands state unused]
  constructor
  · simp only [Part.region, tget_tmod_same]
  · simp only [Part.generation, tget_tmod_same]

/-- R45: the next state of a command that ends at once without a body. -/
theorem next_plain {s : State} {c : ClientId} {tag : Byte} {cmd : RegionCommand} {q : Part} (free : s.part.free c)
    (batch : (s.part.client c).batch = none) (applied : s.part.taken.apply c cmd = .ok (.plain q)) :
    (Host.Outcome.next (s.withPart (s.part.arrive c tag (.command cmd))) : Host.Outcome State Fault Refusal) =
      .next (s.withPart (q.answer c cmd.code tag .done []).closeAct) :=
  next_done free batch applied rfl

/-- R49: the release of a region that an owner names. -/
theorem applyRelease_eq {p : Part} {c : ClientId} {h : RegionHandle} {r : Region} (owns : p.owns c h r) :
    p.taken.applyRelease c (.region h) = .ok (.plain ((p.taken.enterReleasing h.slot r).endRelease h.slot)) := by
  obtain ⟨stands, state, -⟩ := (named_iff p h r).1 owns.named
  rw [Part.applyRelease, judgeCommon_owns owns]
  exact congrArg (fun q => Except.ok (Applied.plain q)) (releaseRegion_of p.taken h.slot r stands state)

/-- R32: a release that nothing uses frees its slot. -/
theorem slot_endRelease {p : Part} {s : SlotId} {r : Region} (stands : p.region s = some r) (state : r.state = .releasing)
    (unused : r.inUse = 0) (free : ∀ d ∈ p.wipeHold, p.accessSlot d ≠ some s) :
    (p.endRelease s).region s = none ∧ (p.endRelease s).generation s = p.generation s := by
  have held : (p.abortWaits s).endHold s = p.abortWaits s := by
    refine endHolds_self _ _ fun d mem => ?_
    have other := free d (wipeHold_abortWaits p s ▸ mem)
    rw [Part.accesses, accessSlot_abortWaits]
    cases at_ : p.accessSlot d with
    | none => rfl
    | some u => simpa [at_] using other
  rw [Part.endRelease, held, ← generation_abortWaits p s s]
  exact slot_freed (by rw [region_abortWaits, stands]) state unused

/-- Settles O39. -/
theorem releaseReleases : Obligations.ReleaseReleases := by
  refine ⟨fun s c tag h r free owns => ?_, fun p slot => ⟨rfl, rfl, rfl⟩, fun s c tag h r free owns unused held => ?_,
    fun p slot c tag x waits executes => ?_, fun p slot r stands => ⟨freeRegion_stays stands, fun state unused => ?_⟩⟩
  · have applied : s.part.taken.apply c (.release (.region h)) = _ := applyRelease_eq owns
    have stands : s.part.taken.region h.slot = some r := region_named (p := s.part.taken) owns.named
    obtain ⟨region, generation⟩ := slot_enterReleasing s.part.taken h.slot r stands
    obtain ⟨flags, fills, queue⟩ := enterReleasing_rest s.part.taken h.slot r
    obtain ⟨target, extension⟩ := frame_enterReleasing stands
    exact ⟨next_plain free owns.unstaged applied, generation, region, flags,
      fills, queue, target, extension⟩
  · have applied : s.part.taken.apply c (.release (.region h)) = _ := applyRelease_eq owns
    have stands : s.part.taken.region h.slot = some r := region_named (p := s.part.taken) owns.named
    obtain ⟨region, generation⟩ := slot_enterReleasing s.part.taken h.slot r stands
    have wipe : (s.part.taken.enterReleasing h.slot r).wipeHold = s.part.wipeHold := (told_enterReleasing _ _ _ 0).2.2
    have access : ∀ d, (s.part.taken.enterReleasing h.slot r).accessSlot d = s.part.accessSlot d := by
      intro d
      have same : (s.part.taken.enterReleasing h.slot r).work d = s.part.work d :=
        congrArg (Option.map Executing.work) (told_enterReleasing s.part.taken h.slot r d).1
      simp only [Part.accessSlot, same]
    obtain ⟨freed, same⟩ := slot_endRelease region rfl unused fun d mem => by
      rw [access]
      exact held d (wipe ▸ mem)
    exact ⟨next_plain free owns.unstaged applied, freed,
      same.trans generation⟩
  · obtain ⟨done, attention, mem⟩ := abortWaits_answers p slot c tag x waits executes
    have rest := endRelease_waits p slot
    refine ⟨(rest.requests c fun w work => ?_).trans done, attention, rest.responses.subset ?_⟩
    · rw [Part.work, done] at work
      cases work
    · cases x <;> exact mem
  · intro q
    obtain ⟨freed, same⟩ := slot_freed stands state unused
    have e : q = _ := freeRegion_frees stands state unused
    refine ⟨freed, same, fun u other => region_freeRegion_ne p slot u other, fun once f => ?_, ?_⟩
    · rw [e]
      exact frames_vacateAll r.frames p.pool f once
    · rw [e]
      exact ⟨rfl, rfl, rfl⟩

end Sys2Proof.Machine

end

section
/-! PROOFS. RESIZE (R50, R51, R53, R54): the shrink, its cut reads and its discards, and the grow. -/

namespace Sys2Proof.Machine

set_option Elab.async false

/-! ### What the end of accesses and entries leaves of a record -/

/-- Records that are not RELEASING change in their in-use counts alone, and no entry joins the write queue. -/
structure Part.Recounts (p q : Part) : Prop where
  regions : ∀ u r, p.region u = some r → r.state ≠ .releasing → ∃ n, q.region u = some { r with inUse := n }
  queue : q.writeQueue.Sublist p.writeQueue

theorem recounts_of_same {p q : Part} (slots : q.slots = p.slots) (queue : q.writeQueue = p.writeQueue) : p.Recounts q where
  regions u r stands _ := ⟨r.inUse, by rw [Part.region, slots]; exact stands⟩
  queue := by rw [queue]

theorem Part.Recounts.refl (p : Part) : p.Recounts p := recounts_of_same rfl rfl

theorem Part.Recounts.trans {p q t : Part} (h : p.Recounts q) (k : q.Recounts t) : p.Recounts t where
  regions u r stands sound := by
    obtain ⟨n, stands⟩ := h.regions u r stands sound
    exact k.regions u { r with inUse := n } stands sound
  queue := k.queue.trans h.queue

theorem Part.Recounts.after {p q t : Part} (k : q.Recounts t) (h : p.Recounts q) : p.Recounts t := h.trans k

theorem recounts_foldl {α : Type} (op : Part → α → Part) (once : ∀ (p : Part) (a : α), p.Recounts (op p a)) (l : List α)
    (p : Part) : p.Recounts (l.foldl op p) := by
  induction l generalizing p with
  | nil => exact .refl p
  | cons a l ih => exact (once p a).trans (ih _)

theorem recounts_endUse (p : Part) (s : SlotId) : p.Recounts (p.endUse s) where
  regions u r stands sound := by
    by_cases same : u = s
    · subst same
      exact ⟨_, (region_endUse stands).2 fun releasing => sound releasing.1⟩
    · exact ⟨r.inUse, by rw [region_endUse_ne p same, stands]⟩
  queue := by rw [endUse_writeQueue]

theorem recounts_finish (p : Part) (c : ClientId) (st : Status) (body : List Byte) : p.Recounts (p.finish c st body) := by
  obtain ⟨x, h⟩ := reach_finish p c st body
  rw [h]
  exact recounts_of_same rfl rfl

theorem recounts_proceedRead (p : Part) (c : ClientId) : p.Recounts (p.proceedRead c) := by
  unfold Part.proceedRead
  split
  · split
    · exact recounts_finish _ _ _ _
    · split
      · exact (recounts_endUse _ _).after (recounts_finish _ _ _ _)
      · split
        · exact (recounts_endUse _ _).after (recounts_finish _ _ _ _)
        · exact recounts_of_same rfl rfl
  · exact .refl p

theorem recounts_leaveSet (e : Entry) (p : Part) (c : ClientId) : p.Recounts (p.leaveSet e c) := by
  unfold Part.leaveSet
  split
  · split
    · split
      · exact recounts_proceedRead p c
      · exact recounts_of_same rfl rfl
    · exact .refl p
  · exact .refl p

theorem recounts_testFlush (p : Part) (c : ClientId) : p.Recounts (p.testFlush c) := by
  obtain ⟨x, h⟩ := reach_testFlush p c
  rw [h]
  exact recounts_of_same rfl rfl

theorem recounts_withoutEntry (p : Part) (e : Entry) : p.Recounts (p.withoutEntry e) := by
  refine (recounts_endUse _ _).after ?_
  obtain ⟨b, h⟩ := reach_withdrawOffers ({ p with writeQueue := p.writeQueue.filter fun d => !d.same e } : Part)
  rw [h]
  exact ⟨fun u r stands _ => ⟨r.inUse, stands⟩, List.filter_sublist⟩

theorem recounts_told (p : Part) (e : Entry) : (p.withoutEntry e).Recounts (p.entryLeaves e) :=
  (recounts_foldl _ recounts_testFlush _ _).after (recounts_foldl _ (recounts_leaveSet e) _ _)

theorem recounts_discard (p : Part) (e : Entry) : p.Recounts (p.discard e) :=
  (recounts_told _ e).after <| (recounts_withoutEntry _ e).after (recounts_of_same rfl rfl)

theorem recounts_cutRead (s : SlotId) (p : Part) (c : ClientId) : p.Recounts (p.cutRead s c) := by
  unfold Part.cutRead
  split
  · split
    · split
      · exact (recounts_endUse _ _).after <| (recounts_finish _ _ _ _).after (recounts_of_same rfl rfl)
      · exact .refl p
    · exact .refl p
  · exact .refl p

/-- R96: a discarded entry has left the queue. -/
theorem mem_discard {p : Part} {d e : Entry} (mem : d ∈ (p.discard e).writeQueue) :
    d ∈ p.writeQueue ∧ ¬ (d.handle.slot = e.handle.slot ∧ d.offset = e.offset) := by
  have left := (recounts_told (p.disown (·.isDrainOf e)) e).queue.subset mem
  exact ((withoutEntry_spec (p.disown (·.isDrainOf e)) e).1 d).1 left

theorem mem_discards (l : List Entry) {p : Part} {d : Entry} (mem : d ∈ (l.foldl Part.discard p).writeQueue) :
    d ∈ p.writeQueue ∧ d ∉ l := by
  induction l generalizing p with
  | nil => exact ⟨mem, by simp⟩
  | cons e l ih =>
    rw [List.foldl_cons] at mem
    obtain ⟨old, rest⟩ := ih mem
    obtain ⟨old, other⟩ := mem_discard old
    refine ⟨old, fun found => ?_⟩
    rcases List.mem_cons.1 found with rfl | found
    · exact other ⟨rfl, rfl⟩
    · exact rest found

/-- R96: an entry has no current frame. -/
theorem homeless_iff (p : Part) (e : Entry) : (p.currentFrame e).isNone = true ↔
    ∀ r, p.region e.handle.slot = some r → r.frames.length ≤ e.offset / 1024 := by
  unfold Part.currentFrame
  cases p.region e.handle.slot <;> simp

/-! ### The entries of a region that stands -/

/-- The record R stands but for its in-use count, and every entry of the slot lies within its frame list. -/
structure Part.Housed (p : Part) (slot : SlotId) (R : Region) : Prop where
  region : ∃ n, p.region slot = some { R with inUse := n }
  entries : ∀ e ∈ p.writeQueue, e.handle.slot = slot → e.offset / 1024 < R.frames.length

section Housed
variable {p : Part} {slot : SlotId} {R : Region} (sound : R.state ≠ .releasing)
include sound

theorem stands_recounted {q : Part} (region : ∃ n, p.region slot = some { R with inUse := n }) (h : p.Recounts q) :
    ∃ n, q.region slot = some { R with inUse := n } := by
  obtain ⟨n, stands⟩ := region
  exact h.regions slot { R with inUse := n } stands sound

/-- R92: a posting adds an entry with a frame, or one that is discarded at once. -/
theorem housed_post (h : p.Housed slot R) (c : ClientId) : (p.post c).Housed slot R := by
  unfold Part.post
  split
  · rename_i a payload ph work
    dsimp only
    generalize joined : ({ p with
      posting := p.posting.filter (· != c)
      writeQueue := p.writeQueue ++ [⟨c, a.handle, a.offset, a.length, payload⟩] } : Part).finish c .done [] = q
    obtain ⟨x, told⟩ := reach_finish ({ p with
      posting := p.posting.filter (· != c)
      writeQueue := p.writeQueue ++ [⟨c, a.handle, a.offset, a.length, payload⟩] } : Part) c .done []
    have records : ∀ u, q.region u = p.region u := fun u => by
      rw [← joined, told]
      rfl
    have queue : q.writeQueue = p.writeQueue ++ [⟨c, a.handle, a.offset, a.length, payload⟩] := by
      rw [← joined, told]
    have region : ∃ n, q.region slot = some { R with inUse := n } := by
      rw [records]
      exact h.region
    split
    · refine ⟨stands_recounted sound region (recounts_discard q _), fun e mem same => ?_⟩
      obtain ⟨old, other⟩ := mem_discard mem
      rw [queue, List.mem_append, List.mem_singleton] at old
      rcases old with old | rfl
      · exact h.entries e old same
      · exact absurd (And.intro rfl rfl) other
    · rename_i housed
      rw [homeless_iff] at housed
      refine ⟨region, fun e mem same => ?_⟩
      rw [queue, List.mem_append, List.mem_singleton] at mem
      rcases mem with old | rfl
      · exact h.entries e old same
      · obtain ⟨n, stands⟩ := region
        refine Nat.lt_of_not_le fun beyond => housed fun r at_ => ?_
        rw [show a.handle.slot = slot from same, stands] at at_
        cases at_
        exact beyond
  · exact h

theorem housed_postWrites (h : p.Housed slot R) : p.postWrites.Housed slot R := by
  unfold Part.postWrites
  generalize p.posting.length = n
  induction n generalizing p with
  | zero => exact h
  | succ n ih =>
    unfold postRounds
    split
    · exact h
    · exact ih (housed_post sound h _)

/-- R96: once the entries without a frame are discarded, the others lie within the frame list. -/
theorem housed_discardHomeless (region : ∃ n, p.region slot = some { R with inUse := n }) :
    p.discardHomeless.Housed slot R := by
  refine housed_postWrites sound ⟨stands_recounted sound region (recounts_foldl _ recounts_discard _ _), fun e mem same => ?_⟩
  obtain ⟨old, housed⟩ := mem_discards _ mem
  obtain ⟨n, stands⟩ := region
  refine Nat.lt_of_not_le fun beyond => housed (List.mem_filter.2 ⟨old, (homeless_iff p e).2 fun r at_ => ?_⟩)
  rw [same, stands] at at_
  cases at_
  exact beyond

end Housed

end Sys2Proof.Machine

end

section
/-! PROOFS. RESIZE (R50, R51, R53, R54), continued: the shrink step by step, and the command. -/

namespace Sys2Proof.Machine

set_option Elab.async false

/-! ### The retire queue and the requests under a shrink's tail -/

theorem accessed_cutRead (s : SlotId) (p : Part) (c : ClientId) : ∃ z, p.cutRead s c = p.accessed z := by
  unfold Part.cutRead
  split
  · split
    · split
      · obtain ⟨z, h⟩ : ∃ z, p.withdrawRead c = p.accessed z := accessed_silent p _ _ _ _ _ _
        exact accessed_of_eq h _ (accessed_finish_endUse _ c _ _ s)
      · exact accessed_self p
    · exact accessed_self p
  · exact accessed_self p

theorem accessed_discardHomeless (p : Part) : ∃ z, p.discardHomeless = p.accessed z := by
  obtain ⟨z, h⟩ := reach_foldl Part.accessed _ accessed_self accessed_discard accessed_accessed
    (p.writeQueue.filter fun e => (p.currentFrame e).isNone) p
  exact accessed_of_eq h _ (accessed_postWrites _)

/-! ### READs that a shrink cuts off -/

/-- R54: the READ or VERIFY that a shrink has left without an entry. -/
theorem cutRead_cuts {s : SlotId} {p : Part} {c : ClientId} {r : Region} {tag : Byte} {v : Bool} {a : Access}
    (stands : p.region s = some r) (executes : (p.client c).executing = some ⟨tag, .read v a .issued⟩)
    (names : a.handle.slot = s) (beyond : 1024 * r.frames.length < a.offset + a.length) (waits : p.readWaits c = true) :
    Part.cutRead s p c = (((p.withdrawRead c).modClient c fun k => { k with executing := none }).answer c
      (if v then 34 else 32) tag .badRange []).endUse s := by
  have test : (a.handle.slot == s && decide (r.lines < a.offset + a.length) && p.readWaits c) = true := by
    rw [names, waits, Region.lines, decide_eq_true beyond, beq_self_eq_true] <;> rfl
  unfold Part.cutRead
  rw [work_executing executes, stands]
  dsimp only
  rw [if_pos test]
  exact congrArg (Part.endUse · s) (finish_read (p := p.withdrawRead c) .badRange [] executes)

theorem cutRead_stays {s : SlotId} {p : Part} {c : ClientId} {r : Region} (stands : p.region s = some r)
    (other : ∀ v a, p.work c = some (.read v a .issued) →
      ¬ (a.handle.slot = s ∧ 1024 * r.frames.length < a.offset + a.length ∧ p.readWaits c = true)) :
    Part.cutRead s p c = p := by
  unfold Part.cutRead
  split
  · rename_i v a work
    rw [stands]
    refine if_neg fun test => other v a work ?_
    rw [Bool.and_eq_true, Bool.and_eq_true, beq_iff_eq, decide_eq_true_eq, Region.lines] at test
    obtain ⟨⟨names, beyond⟩, waits⟩ := test
    exact ⟨names, beyond, waits⟩
  · rfl

theorem holdsRead_withdrawRead (p : Part) {c d : ClientId} (other : d ≠ c) (b : BankId) :
    ((p.withdrawRead d).bank b).holdsRead c = (p.bank b).holdsRead c := by
  have kept : ∀ l : List LineRead, (l.filter (·.client != d)).any (·.client == c) = l.any (·.client == c) := by
    intro l
    rw [List.any_filter]
    refine congrArg l.any (funext fun x => ?_)
    by_cases same : x.client = c
    · simp [same, Ne.symm other]
    · simp [same]
  rw [Part.withdrawRead, bank_modBanks, Bank.holdsRead, Bank.holdsRead, List.any_append, List.any_append, kept, kept]

/-- R54: the cut of one client's READ leaves the other clients' requests and LINE READs. -/
theorem cutRead_leaves (s : SlotId) (p : Part) {c d : ClientId} (other : d ≠ c) :
    (p.cutRead s d).client c = p.client c ∧ (p.cutRead s d).readWaits c = p.readWaits c := by
  unfold Part.cutRead
  split
  · split
    · split
      · obtain ⟨x, told⟩ := reach_finish (p.withdrawRead d) d .badRange []
        obtain ⟨t, g, used⟩ := reach_endUse ((p.withdrawRead d).finish d .badRange []) s
        constructor
        · exact (congrArg (tget · c) (endUse_clients _ s)).trans (client_finish_ne _ d c _ _ other.symm)
        · rw [used, told]
          refine readWaits_congr p _ c fun b => ?_
          exact holdsRead_withdrawRead p other b
      · exact ⟨rfl, rfl⟩
    · exact ⟨rfl, rfl⟩
  · exact ⟨rfl, rfl⟩

/-- R54: each READ that is cut off is answered, whatever the cuts before it and behind it. -/
theorem cutReads_answer {s : SlotId} {c : ClientId} {tag : Byte} {v : Bool} {a : Access} (l : List ClientId) (mem : c ∈ l)
    {p : Part} {r : Region} (stands : p.region s = some r) (sound : r.state ≠ .releasing)
    (executes : (p.client c).executing = some ⟨tag, .read v a .issued⟩) (names : a.handle.slot = s)
    (beyond : 1024 * r.frames.length < a.offset + a.length) (waits : p.readWaits c = true) :
    ((l.foldl (Part.cutRead s) p).client c).executing = none ∧ ∃ attention,
      ⟨c, if v then 34 else 32, tag, .badRange, attention, []⟩ ∈ (l.foldl (Part.cutRead s) p).tx := by
  induction l generalizing p r with
  | nil => cases mem
  | cons d l ih =>
    rw [List.foldl_cons]
    by_cases same : d = c
    · subst same
      have cut := cutRead_cuts stands executes names beyond waits
      have rest := accessesOnly_foldl _ (accessesOnly_cutRead s) l (Part.cutRead s p d)
      have ended : ((Part.cutRead s p d).client d).executing = none := by
        rw [cut, Part.client, endUse_clients]
        simp [Part.withdrawRead, Part.answer, Part.modClient, Part.modBanks]
      refine ⟨(rest.requests d fun w work => ?_).trans ended, ?_⟩
      · rw [Part.work, ended] at work
        cases work
      · refine ⟨((((p.withdrawRead d).modClient d fun k => { k with executing := none }).client d).attention),
          rest.responses.subset ?_⟩
        rw [cut, endUse_tx]
        exact List.mem_append_right _ (List.mem_singleton.2 rfl)
    · obtain ⟨client, kept⟩ := cutRead_leaves s p same
      obtain ⟨n, stands⟩ := (recounts_cutRead s p d).regions s r stands sound
      exact ih ((List.mem_cons.1 mem).resolve_left (Ne.symm same)) stands sound (client ▸ executes) beyond (kept ▸ waits)

/-! ### The shrink (R53) -/

/-- R53: a migration of an entry that is cut off is aborted. -/
def Part.cutMigration (p : Part) (s : SlotId) (r : Region) (m : Nat) : Part :=
  match r.migration with
  | some g => if m ≤ g.index then p.abortMigration s .dirty else p
  | none => p

/-- R53: the shrink before its accesses and entries meet it. -/
def Part.cutEntries (p : Part) (s : SlotId) (r : Region) (m : Nat) : Part :=
  let q := p.cutMigration s r m
  ((({ q with pool := q.pool.vacateAll (r.frames.drop m) } : Part).leaveQueue (r.frames.drop m)).modRegion s fun x =>
    { x with frames := x.frames.take m, poison := x.poison.filter fun o => decide (o < 1024 * m) }).withdrawOffers

/-- R53: the record that a shrink leaves, but for the in-use count. -/
def Region.cutTo (r : Region) (m : Nat) : Region := { r with
  frames := r.frames.take m
  poison := r.poison.filter fun o => decide (o < 1024 * m)
  migration := r.migration.filter fun g => decide (g.index < m) }

/-- R53: the frames once a migration of an entry that is cut off is aborted. -/
def Part.frameCut (p : Part) (r : Region) (m : Nat) (f : FrameId) : Frame :=
  match r.migration with
  | some g =>
    if m ≤ g.index ∧ g.target = f then { p.frame f with state := .dirty, region := none, doomed := false }
    else p.frame f
  | none => p.frame f

/-- R53, R153: what the end of a migration of an entry that is cut off leaves. -/
structure Part.MigrationCut (p : Part) (s : SlotId) (r : Region) (m : Nat) (q : Part) : Prop where
  record : q.region s = some { r with migration := r.migration.filter fun g => decide (g.index < m) }
  others : ∀ u, u ≠ s → q.region u = p.region u
  frames : ∀ f, q.frame f = p.frameCut r m f
  reads : ∀ c, q.readWaits c = p.readWaits c
  rest : ∃ t b g e, q = { p with slots := t, banks := b, pool := g, retire := { p.retire with engine := e } }

section Shrink
variable {p : Part} {s : SlotId} {r : Region} {m : Nat} (stands : p.region s = some r)
include stands

theorem shrink_eq : p.shrink s m = (allClients.foldl (Part.cutRead s) (p.cutEntries s r m)).discardHomeless := by
  rw [Part.shrink, stands] <;> rfl

theorem cutMigration_spec : p.MigrationCut s r m (p.cutMigration s r m) := by
  have stays : r.migration.filter (fun g => decide (g.index < m)) = r.migration → p.cutMigration s r m = p →
      (∀ f, p.frameCut r m f = p.frame f) → p.MigrationCut s r m (p.cutMigration s r m) := by
    intro whole same frames
    rw [same]
    exact ⟨by rw [whole, stands], fun _ _ => rfl, fun f => (frames f).symm, fun _ => rfl, p.slots, p.banks, p.pool,
      p.retire.engine, rfl⟩
  cases moves : r.migration with
  | none =>
    refine stays (by rw [moves]; rfl) (by rw [Part.cutMigration, moves]) fun f => ?_
    rw [Part.frameCut, moves]
  | some g =>
    by_cases below : m ≤ g.index
    · have same : p.cutMigration s r m = p.abortMigration s .dirty := by
        rw [Part.cutMigration, moves]
        exact if_pos below
      rw [same]
      refine ⟨?_, fun u other => ?_, fun f => ?_, fun c => ?_, reach_abortMigration p s .dirty⟩
      · rw [(slot_abortMigration p s .dirty r stands).1, moves, Option.filter, decide_eq_false (by omega)]
        rfl
      · rw [abortMigration_eq stands moves, reach_stopCopying]
        exact (region_modRegion _ _ _ _).trans (if_neg other.symm)
      · rw [frame_abortMigration p s .dirty r stands, Part.frameCut, moves]
        simp only [below, true_and]
      · refine readWaits_congr p _ c fun b => ?_
        rw [bank_abortMigration stands moves, bank_endCopy]
        rfl
    · refine stays (by rw [moves, Option.filter, decide_eq_true (by omega)] <;> rfl) ?_ fun f => ?_
      · rw [Part.cutMigration, moves]
        exact if_neg below
      · rw [Part.frameCut, moves]
        exact if_neg fun h => below h.1

/-- R53: the entries from m on have left. -/
theorem cutEntries_spec :
    (p.cutEntries s r m).region s = some (r.cutTo m) ∧
    (∀ u, u ≠ s → (p.cutEntries s r m).region u = p.region u) ∧
    (∀ f, (r.frames.drop m).Nodup → (p.cutEntries s r m).frame f =
      if f ∈ r.frames.drop m then
        { p.frameCut r m f with
          state := if (p.frameCut r m f).doomed then .retired else .dirty, region := none, doomed := false }
      else p.frameCut r m f) ∧
    (∀ c, (p.cutEntries s r m).readWaits c = p.readWaits c) ∧
    (p.cutEntries s r m).retire.queue = p.retire.queue.filter (fun f => !(r.frames.drop m).contains f) ∧
    (p.cutEntries s r m).clients = p.clients ∧ (p.cutEntries s r m).writeQueue = p.writeQueue ∧
    (p.cutEntries s r m).posting = p.posting ∧ (p.cutEntries s r m).tx = p.tx := by
  have cut : p.MigrationCut s r m (p.cutMigration s r m) := cutMigration_spec stands
  obtain ⟨q, hq⟩ : ∃ q, q = ((({ p.cutMigration s r m with
      pool := (p.cutMigration s r m).pool.vacateAll (r.frames.drop m) } : Part).leaveQueue (r.frames.drop m)).modRegion s
        fun x => { x with frames := x.frames.take m, poison := x.poison.filter fun o => decide (o < 1024 * m) }) := ⟨_, rfl⟩
  obtain ⟨banks, offered⟩ := reach_withdrawOffers q
  obtain ⟨t, b, g, e, rest⟩ := cut.rest
  have same : p.cutEntries s r m = q.withdrawOffers := by rw [hq] <;> rfl
  have region : ∀ u, (p.cutEntries s r m).region u = if s = u then
      ((p.cutMigration s r m).region s).map fun x =>
        { x with frames := x.frames.take m, poison := x.poison.filter fun o => decide (o < 1024 * m) }
      else (p.cutMigration s r m).region u := by
    intro u
    rw [same, offered, hq]
    exact region_modRegion _ s u _
  refine ⟨?_, fun u other => ?_, fun f once => ?_, fun c => ?_, ?_, ?_, ?_, ?_, ?_⟩
  · rw [region, if_pos rfl, cut.record]
    rfl
  · rw [region, if_neg other.symm, cut.others u other]
  · rw [← cut.frames, same, offered, hq]
    exact frames_vacateAll (r.frames.drop m) (p.cutMigration s r m).pool f once
  · rw [← cut.reads, same]
    exact readWaits_congr _ _ c fun b => (holdsRead_withdrawOffers q c b).trans (by rw [hq] <;> rfl)
  all_goals
    rw [same, offered, hq, rest]
    rfl

end Shrink

end Sys2Proof.Machine

end

section
/-! PROOFS. RESIZE (R50 to R54): the obligation. -/

namespace Sys2Proof.Machine

set_option Elab.async false

/-! ### A shrink as a whole -/

/-- R53, R54: the accesses and entries that a shrink meets leave the retirement unit. -/
theorem retire_cutReads (p : Part) (s : SlotId) :
    ((allClients.foldl (Part.cutRead s) p).discardHomeless).retire = p.retire := by
  obtain ⟨z, cuts⟩ := reach_foldl Part.accessed _ accessed_self (accessed_cutRead s) accessed_accessed allClients p
  obtain ⟨y, discards⟩ := accessed_discardHomeless (allClients.foldl (Part.cutRead s) p)
  rw [discards, cuts] <;> rfl

section Shrink
variable {p : Part} {s : SlotId} {r : Region} {m : Nat} (stands : p.region s = some r)
include stands

theorem housed_shrink (live : r.state = .live) : (p.shrink s m).Housed s (r.cutTo m) := by
  have sound : (r.cutTo m).state ≠ .releasing := fun e => by cases live.symm.trans e
  obtain ⟨record, -⟩ := cutEntries_spec (m := m) stands
  rw [shrink_eq stands]
  exact housed_discardHomeless sound
    (stands_recounted sound ⟨r.inUse, record⟩ (recounts_foldl _ (recounts_cutRead s) _ _))

/-- R54: the record keeps its in-use count when nothing of the region lies beyond the cut. -/
theorem region_shrink_unused (below : m < r.frames.length)
    (entries : ∀ e ∈ p.writeQueue, e.handle.slot = s → e.offset / 1024 < m)
    (writes : ∀ c a payload ph, p.work c = some (.write a payload ph) → a.handle.slot = s → a.offset / 1024 < m)
    (reads : ∀ c v a, p.work c = some (.read v a .issued) → a.handle.slot = s → p.readWaits c = true →
      a.offset + a.length ≤ 1024 * m) : (p.shrink s m).region s = some (r.cutTo m) := by
  obtain ⟨record, -, -, waits, -, clients, queue, -, -⟩ := cutEntries_spec (m := m) stands
  have work : ∀ c, (p.cutEntries s r m).work c = p.work c := fun c => by rw [Part.work, Part.client, clients] <;> rfl
  have length : (r.cutTo m).frames.length = m := (List.length_take).trans (Nat.min_eq_left below.le)
  have once : ∀ c, Part.cutRead s (p.cutEntries s r m) c = p.cutEntries s r m := fun c =>
    cutRead_stays record fun v a executes ⟨names, beyond, issued⟩ => by
      have within := reads c v a ((work c).symm.trans executes) names ((waits c).symm.trans issued)
      rw [length] at beyond
      omega
  have none : allClients.foldl (Part.cutRead s) (p.cutEntries s r m) = p.cutEntries s r m := List.foldl_fixed' once _
  have within : (p.cutEntries s r m).Within s (r.cutTo m) :=
    ⟨record, fun e mem same => by
      rw [queue] at mem
      exact length.symm ▸ entries e mem same,
    fun c a payload ph executes same => by
      rw [length]
      exact writes c a payload ph ((work c).symm.trans executes) same⟩
  rw [shrink_eq stands, none]
  exact (within_discardHomeless within).region

theorem queue_shrink : (p.shrink s m).retire.queue =
    p.retire.queue.filter fun f => !(r.frames.drop m).contains f := by
  obtain ⟨-, -, -, -, queue, -⟩ := cutEntries_spec (m := m) stands
  rw [shrink_eq stands, retire_cutReads]
  exact queue

theorem accessesOnly_shrink : (p.cutEntries s r m).AccessesOnly (p.shrink s m) := by
  rw [shrink_eq stands]
  exact (accessesOnly_foldl _ (accessesOnly_cutRead s) _ _).trans (accessesOnly_discardHomeless _)

end Shrink

/-! ### The command -/

section Command
variable {p : Part} {c : ClientId} {h : RegionHandle} {r : Region} (owns : p.owns c h r) (size : Byte)
include owns

theorem applyResize_eq : p.taken.applyResize c (.region h) size =
    match r.state.refusesResize with
    | some st => .error st
    | none =>
      if r.extension.isSome then .error .busy
      else if size.toNat == 0 then .error .badValue
      else if size.toNat == r.frames.length then .ok ⟨p.taken, [size], none, none⟩
      else if size.toNat < r.frames.length then .ok ⟨p.taken.shrink h.slot size.toNat, [size], none, none⟩
      else match p.taken.judgeGrow r size.toNat with
        | some st => .error st
        | none =>
          match p.taken.pool.allocate (size.toNat - r.frames.length) r.cls h.slot with
          | none => .error .noFrames
          | some a => .ok (p.taken.placeGrow h.slot size.toNat a) := by
  rw [Part.applyResize, judgeCommon_owns owns] <;> rfl

theorem applyResize_refused {st : Status} (refuses : r.state.refusesResize = some st) :
    p.taken.applyResize c (.region h) size = .error st := by
  rw [applyResize_eq owns, refuses]

section Live
variable (live : r.state = .live)
include live

theorem applyResize_busy (pending : r.extension ≠ none) : p.taken.applyResize c (.region h) size = .error .busy := by
  rw [applyResize_eq owns, live]
  exact if_pos (Option.isSome_iff_ne_none.2 pending)

variable (settled : r.extension = none)
include settled

theorem applyResize_zero (zero : size = 0) : p.taken.applyResize c (.region h) size = .error .badValue := by
  rw [applyResize_eq owns, live, settled, zero] <;> rfl

variable {size}

theorem applyResize_same (some_ : size ≠ 0) (same : size.toNat = r.frames.length) :
    p.taken.applyResize c (.region h) size = .ok ⟨p.taken, [size], none, none⟩ := by
  have nonzero : size.toNat ≠ 0 := fun e => some_ (BitVec.eq_of_toNat_eq e)
  rw [applyResize_eq owns, live, settled]
  dsimp only [RegionState.refusesResize]
  rw [if_neg (by simp), if_neg (by simpa using nonzero), if_pos (by simpa using same)]

theorem applyResize_less (some_ : size ≠ 0) (less : size.toNat < r.frames.length) :
    p.taken.applyResize c (.region h) size = .ok ⟨p.taken.shrink h.slot size.toNat, [size], none, none⟩ := by
  have nonzero : size.toNat ≠ 0 := fun e => some_ (BitVec.eq_of_toNat_eq e)
  rw [applyResize_eq owns, live, settled]
  dsimp only [RegionState.refusesResize]
  rw [if_neg (by simp), if_neg (by simpa using nonzero), if_neg (by simpa using less.ne), if_pos less]

theorem applyResize_more (more : r.frames.length < size.toNat) : p.taken.applyResize c (.region h) size =
    match p.taken.judgeGrow r size.toNat with
    | some st => .error st
    | none =>
      match p.taken.pool.allocate (size.toNat - r.frames.length) r.cls h.slot with
      | none => .error .noFrames
      | some a => .ok (p.taken.placeGrow h.slot size.toNat a) := by
  rw [applyResize_eq owns, live, settled]
  dsimp only [RegionState.refusesResize]
  rw [if_neg (by simp), if_neg (by simp; omega), if_neg (by simpa using more.ne'), if_neg (by omega)]

end Live

/-- R50 point 6: the checks of a grow. -/
theorem judgeGrow_eq (m : Nat) : p.taken.judgeGrow r m = firstFail
    [(p.thermal.cls == .freeze || p.thermal.cls == .overheat, .thermalLimit),
     (decide (128 < m), .tooLarge),
     (decide ((p.client c).quota < p.heldFrames c + (m - r.frames.length)), .quota),
     (decide (p.pool.count .spare < p.pool.spareTarget), .reserveShort)] := by
  rw [Part.judgeGrow, owns.owner, client_taken] <;> rfl

end Command

/-- R51: a grow without a fill appends, one with a fill waits behind it. -/
theorem placeGrow_eq (p : Part) (s : SlotId) (size : Byte) (a : Allocation) :
    (a.fill = false → p.placeGrow s size.toNat a = ⟨({ p with pool := a.pool } : Part).modRegion s fun x =>
      { x with frames := x.frames ++ a.frames }, [size], none, none⟩) ∧
    (a.fill = true → p.placeGrow s size.toNat a =
      ⟨({ p with pool := a.pool, fills := p.fills ++ [⟨s, true⟩] } : Part).modRegion s fun x =>
        { x with extension := some a.frames }, [], none, some (.extension s)⟩) := by
  constructor
  · intro at_once
    rw [Part.placeGrow, at_once, byte_toNat]
    rfl
  · intro behind
    rw [Part.placeGrow, behind]
    rfl

/-- R45: the next state of a command that ends at once with a body. -/
theorem next_body {s : State} {c : ClientId} {tag : Byte} {cmd : RegionCommand} {q : Part} {body : List Byte}
    (free : s.part.free c) (batch : (s.part.client c).batch = none)
    (applied : s.part.taken.apply c cmd = .ok ⟨q, body, none, none⟩) :
    (Host.Outcome.next (s.withPart (s.part.arrive c tag (.command cmd))) : Host.Outcome State Fault Refusal) =
      .next (s.withPart (q.answer c cmd.code tag .done body).closeAct) :=
  next_done free batch applied rfl

/-- R50, R51: the grow of a LIVE region. -/
theorem exec_resize_grow {s : State} {c : ClientId} {tag size : Byte} {h : RegionHandle} {r : Region}
    (free : s.part.free c) (owns : s.part.owns c h r) (live : r.state = .live) (settled : r.extension = none)
    (more : r.frames.length < size.toNat) :
    let grown := size.toNat - r.frames.length
    let checks := firstFail
      [(s.part.thermal.cls == .freeze || s.part.thermal.cls == .overheat, .thermalLimit),
       (decide (128 < size.toNat), .tooLarge),
       (decide ((s.part.client c).quota < s.part.heldFrames c + grown), .quota),
       (decide (s.part.pool.count .spare < s.part.pool.spareTarget), .reserveShort)]
    let refused : Status → Prop := fun st =>
      exec (.resize c tag (.region h) size) s = .next (s.withPart (s.part.taken.answer c 18 tag st []).closeAct)
    (∀ st, checks = some st → refused st) ∧
    (checks = none → s.part.pool.allocate grown r.cls h.slot = none → refused .noFrames) ∧
    (∀ a, checks = none → s.part.pool.allocate grown r.cls h.slot = some a →
      (a.fill = false → exec (.resize c tag (.region h) size) s = .next (s.withPart
        ((({ s.part.taken with pool := a.pool } : Part).modRegion h.slot fun x =>
          { x with frames := x.frames ++ a.frames }).answer c 18 tag .done [size]).closeAct)) ∧
      (a.fill = true → exec (.resize c tag (.region h) size) s = .next (s.withPart
        ((({ s.part.taken with pool := a.pool, fills := s.part.fills ++ [⟨h.slot, true⟩] } : Part).modRegion
          h.slot fun x => { x with extension := some a.frames }).execute c tag
            (.waiting (.extension h.slot))).closeAct))) := by
  intro grown checks refused
  have applied : s.part.taken.apply c (.resize (.region h) size) = _ := applyResize_more owns live settled more
  have judged : s.part.taken.judgeGrow r size.toNat = checks := judgeGrow_eq owns size.toNat
  have pool : s.part.taken.pool = s.part.pool := rfl
  rw [judged, pool] at applied
  refine ⟨fun st fails => ?_, fun passes short => ?_, fun a passes takes => ?_⟩
  · rw [fails] at applied
    exact next_refused free owns.unstaged applied
  · rw [passes, show s.part.pool.allocate (size.toNat - r.frames.length) r.cls h.slot = none from short] at applied
    exact next_refused free owns.unstaged applied
  · rw [passes, show s.part.pool.allocate (size.toNat - r.frames.length) r.cls h.slot = some a from takes] at applied
    dsimp only at applied
    obtain ⟨atOnce, behind⟩ := placeGrow_eq s.part.taken h.slot size a
    refine ⟨fun none => ?_, fun fill => ?_⟩
    · rw [atOnce none] at applied
      exact next_done free owns.unstaged applied rfl
    · rw [behind fill] at applied
      exact next_waits free owns.unstaged applied rfl

/-- Settles O40. -/
theorem resizeShrinksAndGrows : Obligations.ResizeShrinksAndGrows := by
  refine ⟨fun s c tag size h r free owns => ?_, fun p slot r m stands live below => ?_, fun p slot c r stands => ?_,
    fun p => ?_⟩
  · intro grown refused
    have refuses : ∀ st, r.state.refusesResize = some st → refused st := fun st refuses =>
      next_refused (cmd := .resize (.region h) size) free owns.unstaged (applyResize_refused owns size refuses)
    refine ⟨fun e => refuses _ (by rw [e]; rfl), fun e => refuses _ (by rw [e]; rfl), fun e => refuses _ (by rw [e]; rfl),
      fun live => ⟨fun pending => ?_, fun settled => ⟨fun zero => ?_, fun some_ same => ?_, fun some_ less => ?_,
        exec_resize_grow free owns live settled⟩⟩⟩
    · exact next_refused (cmd := .resize (.region h) size) free owns.unstaged (applyResize_busy owns size live pending)
    · exact next_refused (cmd := .resize (.region h) size) free owns.unstaged (applyResize_zero owns size live settled zero)
    · have applied : s.part.taken.apply c (.resize (.region h) size) = _ := applyResize_same owns live settled some_ same
      exact next_done free owns.unstaged applied rfl
    · have applied : s.part.taken.apply c (.resize (.region h) size) = _ := applyResize_less owns live settled some_ less
      exact next_body free owns.unstaged applied
  · intro q cut left
    obtain ⟨record, others, frames, waits, -, clients, queue, posting, tx⟩ := cutEntries_spec (m := m) stands
    have length : (r.cutTo m).frames.length = m := (List.length_take).trans (Nat.min_eq_left below.le)
    have housed : q.Housed slot (r.cutTo m) := housed_shrink stands live
    have only : (p.cutEntries slot r m).AccessesOnly q := accessesOnly_shrink stands
    refine ⟨housed.region, region_shrink_unused stands below, ⟨p.cutEntries slot r m, shrink_eq stands, record, others,
      clients, queue, posting, tx, waits⟩, queue_shrink stands, fun e mem same => ?_, fun once f out => ?_,
      fun c tag v a executes names beyond issued => ?_⟩
    · exact length ▸ housed.entries e mem same
    · intro old
      rw [only.frames f fun u x at_ releasing => ?_]
      · exact frames f once
      · by_cases same : u = slot
        · subst same
          rw [record] at at_
          cases at_
          cases live.symm.trans releasing
        · exact out u x (others u same ▸ at_) releasing
    · have executes : ((p.cutEntries slot r m).client c).executing = some ⟨tag, .read v a .issued⟩ := by
        rw [Part.client, clients]
        exact executes
      have sound : (r.cutTo m).state ≠ .releasing := fun e => by cases live.symm.trans e
      obtain ⟨ended, attention, mem⟩ := cutReads_answer allClients (mem_allClients c) record sound executes names
        (by rw [length]; exact beyond) (by rw [waits, issued])
      have rest := accessesOnly_discardHomeless (allClients.foldl (Part.cutRead slot) (p.cutEntries slot r m))
      rw [← shrink_eq stands] at rest
      refine ⟨(rest.requests c fun w work => ?_).trans ended, attention, rest.responses.subset mem⟩
      rw [Part.work, ended] at work
      cases work
  · intro cut
    exact ⟨fun tag v a executes ⟨names, beyond, waits⟩ => cutRead_cuts stands executes names beyond waits,
      fun other => cutRead_stays stands other⟩
  · have same : ∀ e, (p.currentFrame e).isNone = match p.region e.handle.slot with
        | some r => decide (r.frames.length ≤ e.offset / 1024)
        | none => true := by
      intro e
      rw [Bool.eq_iff_iff, homeless_iff]
      cases p.region e.handle.slot <;> simp
    rw [Part.discardHomeless, List.filter_congr fun e _ => same e] <;> rfl

end Sys2Proof.Machine

end

section
/-! PROOFS. READ, VERIFY, WRITE and FLUSH as they are taken (R83 to R87, R90, R91, R94). -/

namespace Sys2Proof.Machine

set_option Elab.async false

/-! ### The checks (R36, R83) -/

theorem grade_eq (r : Region) (c : ClientId) : r.grade c = if c = r.owner then .full
    else if ∃ e ∈ r.access, e.covers c = true ∧ e.right = .readWrite then .readWrite
    else if ∃ e ∈ r.access, e.covers c = true then .read else .none := by
  simp only [Region.grade, List.any_eq_true, Bool.and_eq_true, beq_iff_eq]

/-- R36, R83: the right that an access needs. -/
def Region.lets (r : Region) (c : ClientId) (isWrite : Bool) : Bool :=
  if isWrite then (r.grade c).mayWrite else (r.grade c).mayRead

/-- R83, R84, checks 4 to 6. -/
def rangeChecks (r : Region) (offset length : Nat) : Option Status :=
  firstFail
    [(decide (r.lines < offset + length), .badRange),
     (decide (length < 1) || decide (Config.maxAccessLines < length), .badRange),
     (offset / 1024 != (offset + length - 1) / 1024, .boundary)]

section
variable {p : Part} {c : ClientId} {h : RegionHandle} {isWrite : Bool} {offset length : Nat}

theorem judgeAccess_dead (dead : p.named h = none) :
    p.judgeAccess c (.region h) isWrite offset length = .error .notFound := by
  simp [Part.judgeAccess, Part.resolve, dead]

variable {r : Region} (names : p.named h = some r)
include names

theorem judgeAccess_named : p.judgeAccess c (.region h) isWrite offset length =
    if r.lets c isWrite = false then .error .denied
    else match r.refusesAccess isWrite with
      | some st => .error st
      | none =>
        match rangeChecks r offset length with
        | some st => .error st
        | none => .ok (h, r) := by
  simp only [Part.judgeAccess, Part.resolve, names, Option.map_some, Region.lets, Bool.not_eq_true']
  rfl

theorem judgeAccess_denied (may : r.lets c isWrite = false) :
    p.judgeAccess c (.region h) isWrite offset length = .error .denied := by
  rw [judgeAccess_named names, if_pos may]

variable (may : r.lets c isWrite = true)
include may

theorem judgeAccess_refused {st : Status} (refuses : r.refusesAccess isWrite = some st) :
    p.judgeAccess c (.region h) isWrite offset length = .error st := by
  rw [judgeAccess_named names, if_neg (by rw [may]; exact Bool.noConfusion), refuses]

theorem judgeAccess_ranged (passes : r.refusesAccess isWrite = none) :
    p.judgeAccess c (.region h) isWrite offset length =
      match rangeChecks r offset length with
      | some st => .error st
      | none => .ok (h, r) := by
  rw [judgeAccess_named names, if_neg (by rw [may]; exact Bool.noConfusion), passes]

end

/-- R83, R84: the range of an access against the frame list. -/
theorem rangeChecks_beyond {r : Region} {offset length : Nat} (beyond : 1024 * r.frames.length < offset + length) :
    rangeChecks r offset length = some .badRange := by
  rw [rangeChecks, firstFail_cons, if_pos (decide_eq_true (p := r.lines < offset + length) beyond)]

theorem rangeChecks_length {r : Region} {offset length : Nat} (within : offset + length ≤ 1024 * r.frames.length)
    (bad : length < 1 ∨ 64 < length) : rangeChecks r offset length = some .badRange := by
  have fits : ¬ decide (r.lines < offset + length) = true := fun e => Nat.not_lt.2 within (of_decide_eq_true e)
  rw [rangeChecks, firstFail_cons, if_neg fits, firstFail_cons, if_pos]
  rw [Bool.or_eq_true, decide_eq_true_eq, decide_eq_true_eq]
  exact bad

theorem rangeChecks_boundary {r : Region} {offset length : Nat} (within : offset + length ≤ 1024 * r.frames.length)
    (some_ : 1 ≤ length) (few : length ≤ 64) : rangeChecks r offset length =
      if offset / 1024 = (offset + length - 1) / 1024 then none else some .boundary := by
  have fits : ¬ decide (r.lines < offset + length) = true := fun e => Nat.not_lt.2 within (of_decide_eq_true e)
  have good : ¬ (decide (length < 1) || decide (Config.maxAccessLines < length)) = true := by
    rw [Bool.or_eq_true, decide_eq_true_eq, decide_eq_true_eq]
    show ¬ (length < 1 ∨ 64 < length)
    omega
  rw [rangeChecks, firstFail_cons, if_neg fits, firstFail_cons, if_neg good, firstFail_cons, firstFail_nil]
  by_cases same : offset / 1024 = (offset + length - 1) / 1024
  · rw [if_pos same, same, bne_self_eq_false]
    rfl
  · rw [if_neg same, if_pos (bne_iff_ne.2 same)]

/-- R83: an access that is refused is answered with its status. -/
theorem takeRead_refused {p : Part} {c : ClientId} {code tag : Byte} {verify : Bool} {x : Handle} {offset length : Nat}
    {st : Status} (refused : p.judgeAccess c x false offset length = .error st) :
    p.takeRead c code tag verify x offset length = p.answer c code tag st [] := by
  rw [Part.takeRead, refused]

theorem takeWrite_refused {p : Part} {c : ClientId} {code tag : Byte} {x : Handle} {offset length : Nat}
    {payload : List Byte} {st : Status} (refused : p.judgeAccess c x true offset length = .error st) :
    p.takeWrite c code tag x offset length payload = p.answer c code tag st [] := by
  rw [Part.takeWrite, refused]

/-- R83: the form of a WRITE's request: its payload fills its lines. -/
theorem write_wf {x : Handle} {offset : Long} {length : Byte} {payload : List Byte}
    (sized : payload.length = 64 * length.toNat) : (Request.write x offset length payload).wf = true := by
  simp [Request.wf, sized, Nat.mul_comm, Config.bytesPerLine]

/-- Settles O50. -/
theorem accessChecksInOrder : Obligations.AccessChecksInOrder := by
  refine ⟨fun p c h offset length isWrite => ?_, ⟨rfl, rfl⟩, fun s c tag length x offset payload st free sized => ?_⟩
  · refine ⟨judgeAccess_dead, fun r names => ⟨judgeAccess_denied names, fun may => ?_, grade_eq r c⟩, fun k => ?_⟩
    · refine ⟨fun e => ?_, fun e => ?_, fun e => ?_, fun e write => ?_, fun passes => ?_⟩
      · exact judgeAccess_refused names may (by rw [Region.refusesAccess, e])
      · exact judgeAccess_refused names may (by rw [Region.refusesAccess, e])
      · exact judgeAccess_refused names may (by rw [Region.refusesAccess, e])
      · exact judgeAccess_refused names may (by rw [Region.refusesAccess, e, write]; rfl)
      · have passes : r.refusesAccess isWrite = none := by
          rcases passes with e | ⟨e, read⟩
          · rw [Region.refusesAccess, e]
          · rw [Region.refusesAccess, e, read]
            rfl
        have ranged := judgeAccess_ranged (offset := offset) (length := length) names may passes
        refine ⟨fun beyond => ?_, fun within bad => ?_, fun within some_ few => ?_⟩
        · exact ranged.trans (by rw [rangeChecks_beyond beyond])
        · exact ranged.trans (by rw [rangeChecks_length within bad])
        · refine ranged.trans ?_
          rw [rangeChecks_boundary within some_ few]
          by_cases same : offset / 1024 = (offset + length - 1) / 1024
          · rw [if_pos same, if_pos same]
          · rw [if_neg same, if_neg same]
    · simp [Part.judgeAccess, Part.resolve]
  · intro refused
    refine ⟨fun judged => ⟨?_, ?_⟩, fun judged => ?_⟩
    · exact next_served (r := .read x offset length) free rfl (.inl rfl) (takeRead_refused (p := s.part.taken) judged)
    · exact next_served (r := .verify x offset length) free rfl (.inl rfl) (takeRead_refused (p := s.part.taken) judged)
    · exact next_served (r := .write x offset length payload) free (write_wf sized) (.inl rfl)
        (takeWrite_refused (p := s.part.taken) judged)

/-! ### READ and VERIFY -/

/-- R83: an access that passes names a region. -/
theorem named_of_judged {p : Part} {c : ClientId} {h g : RegionHandle} {isWrite : Bool} {offset length : Nat} {r : Region}
    (judged : p.judgeAccess c (.region h) isWrite offset length = .ok (g, r)) :
    p.named h = some r ∧ rangeChecks r offset length = none := by
  cases names : p.named h with
  | none => cases (judgeAccess_dead names).symm.trans judged
  | some x =>
    rw [judgeAccess_named names] at judged
    split at judged
    · cases judged
    · split at judged
      · cases judged
      · split at judged
        · cases judged
        · rename_i passes
          cases judged
          exact ⟨rfl, passes⟩

/-- The executing request put in place of another. -/
theorem execute_execute (p : Part) (c : ClientId) (tag : Byte) (w w' : Work) :
    (p.execute c tag w).execute c tag w' = p.execute c tag w' := by
  simp [Part.execute, Part.modClient, tmod]

theorem executing_execute (p : Part) (c : ClientId) (tag : Byte) (w : Work) :
    ((p.execute c tag w).client c).executing = some ⟨tag, w⟩ := by
  simp [Part.execute]

theorem takeRead_eq {p : Part} {c : ClientId} {h : RegionHandle} {offset length : Nat} {r : Region} (code tag : Byte)
    (verify : Bool) (judged : p.judgeAccess c (.region h) false offset length = .ok (h, r)) :
    p.takeRead c code tag verify (.region h) offset length =
      if r.wipe.isSome then { (p.countUse h.slot).execute c tag (.read verify ⟨h, offset, length⟩ .wipeHold) with
        wipeHold := p.wipeHold ++ [c] }
      else ((p.countUse h.slot).execute c tag (.read verify ⟨h, offset, length⟩ .wipeHold)).enterOrdering c := by
  rw [Part.takeRead, judged] <;> rfl

/-- R86: an access that enters ordering wait. -/
theorem enterOrdering_execute (p : Part) (c : ClientId) (tag : Byte) (verify : Bool) (a : Access) (phase : ReadPhase) :
    (p.execute c tag (.read verify a phase)).enterOrdering c =
      if p.waitSet a = [] then (p.execute c tag (.read verify a phase)).proceedRead c
      else p.execute c tag (.read verify a (.ordering (p.waitSet a))) := by
  unfold Part.enterOrdering
  rw [work_execute]
  dsimp only
  rw [setWork_execute]
  exact if_congr List.isEmpty_iff rfl rfl

/-- Settles O47. -/
theorem readAndVerifyIssueALineRead : Obligations.ReadAndVerifyIssueALineRead := by
  intro s c tag length h r offset verify free judged a counted row executing
  obtain ⟨names, -⟩ := named_of_judged judged
  have idle : (counted.client c).executing = none := by
    rw [client_modRegion, client_taken]
    exact free.idle
  have stands : ∀ w, (counted.execute c tag w).region h.slot = some { r with inUse := r.inUse + 1 } := by
    intro w
    refine (region_modRegion_same s.part.taken h.slot _).trans ?_
    rw [show s.part.taken.region h.slot = some r from region_named names]
    rfl
  have taken : ∀ q, s.part.taken.takeRead c (if verify then 34 else 32) tag verify (.region h) offset.toNat length.toNat = q →
      exec row s = .next (s.withPart q.closeAct) := by
    intro q served
    cases verify with
    | false => exact next_served (r := .read (.region h) offset length) free rfl (.inl rfl) served
    | true => exact next_served (r := .verify (.region h) offset length) free rfl (.inl rfl) served
  rw [takeRead_eq (p := s.part.taken) _ tag verify judged] at taken
  refine ⟨fun wiping => ?_, fun quiet => ?_⟩
  · exact taken _ (if_pos (Option.isSome_iff_ne_none.2 wiping))
  rw [quiet, if_neg (by simp)] at taken
  have ordered := enterOrdering_execute counted c tag verify a .wipeHold
  refine ⟨fun waits => ?_, fun clear => ⟨fun x read poisoned => ?_, fun f clean entry => ?_⟩⟩
  · exact taken _ (ordered.trans (if_neg waits))
  · have proceeds := proceedRead_poisoned (p := counted.execute c tag (.read false a .wipeHold)) (executing_execute _ _ _ _)
      (stands _) poisoned
    subst read
    rw [finish_execute _ _ _ _ _ _ idle] at proceeds
    exact taken _ ((ordered.trans (if_pos clear)).trans proceeds)
  · have proceeds := (proceedRead_clean (p := counted.execute c tag (.read verify a .wipeHold)) (executing_execute _ _ _ _)
      (stands _) clean).2 f entry
    rw [execute_execute] at proceeds
    exact taken _ ((ordered.trans (if_pos clear)).trans proceeds)

end Sys2Proof.Machine

end

section
/-! PROOFS. WRITE and FLUSH (R91, R92, R94). -/

namespace Sys2Proof.Machine

set_option Elab.async false

/-! ### WRITE -/

/-- R91: what is postable behind more entries is postable. -/
theorem postable_of_more {p q : Part} {d : ClientId} (work : q.work d = p.work d)
    (more : p.writeQueue.Sublist q.writeQueue) (free : q.postable d = true) : p.postable d = true := by
  obtain ⟨a, payload, executes, room, clear⟩ := (postable_iff q d).1 free
  refine (postable_iff p d).2 ⟨a, payload, work ▸ executes, more.length_le.trans_lt room, ?_⟩
  exact (waitSet_isEmpty p a).2 fun e mem => (waitSet_isEmpty q a).1 clear e (more.subset mem)

/-- R92: no posting is made while none is postable. -/
theorem postRounds_stuck {p : Part} (stuck : ∀ d ∈ p.posting, p.postable d = false) (n : Nat) : postRounds n p = p := by
  cases n with
  | zero => rfl
  | succ n => exact (postRounds_succ n p).1 stuck

theorem postWrites_stuck {p : Part} (stuck : ∀ d ∈ p.posting, p.postable d = false) : p.postWrites = p :=
  postRounds_stuck stuck _

theorem post_eq {p q : Part} {c : ClientId} {a : Access} {payload : List Byte} {phase : WritePhase}
    (work : p.work c = some (.write a payload phase))
    (answered : ({ p with
      posting := p.posting.filter (· != c)
      writeQueue := p.writeQueue ++ [⟨c, a.handle, a.offset, a.length, payload⟩] } : Part).finish c .done [] = q) :
    p.post c = if (q.currentFrame ⟨c, a.handle, a.offset, a.length, payload⟩).isNone then
      q.discard ⟨c, a.handle, a.offset, a.length, payload⟩ else q := by
  unfold Part.post
  rw [work]
  dsimp only
  rw [answered]

theorem takeWrite_eq {p : Part} {c : ClientId} {h : RegionHandle} {offset length : Nat} {r : Region} (code tag : Byte)
    (payload : List Byte) (judged : p.judgeAccess c (.region h) true offset length = .ok (h, r)) :
    p.takeWrite c code tag (.region h) offset length payload =
      if r.wipe.isSome then { (p.countUse h.slot).execute c tag (.write ⟨h, offset, length⟩ payload .wipeHold) with
        wipeHold := p.wipeHold ++ [c] }
      else ((p.countUse h.slot).execute c tag (.write ⟨h, offset, length⟩ payload .wipeHold)).joinPosting c := by
  rw [Part.takeWrite, judged] <;> rfl

theorem work_execute_ne (p : Part) {c d : ClientId} (tag : Byte) (w : Work) (other : d ≠ c) :
    (p.execute c tag w).work d = p.work d := by
  rw [Part.work, Part.execute, client_modClient, if_neg other.symm] <;> rfl

section Posting
variable {p : Part} {c : ClientId} {tag : Byte} {a : Access} {payload : List Byte} (new : c ∉ p.posting)
  (stuck : ∀ d ∈ p.posting, p.postable d = false)

/-- R91: the part with a WRITE that has just joined the posting list. -/
def Part.joined (p : Part) (c : ClientId) (tag : Byte) (a : Access) (payload : List Byte) : Part :=
  { p.execute c tag (.write a payload .posting) with posting := p.posting ++ [c] }

theorem joinPosting_execute (phase : WritePhase) :
    (p.execute c tag (.write a payload phase)).joinPosting c = (p.joined c tag a payload).postWrites := by
  unfold Part.joinPosting
  rw [work_execute]
  dsimp only
  rw [setWork_execute] <;> rfl

theorem postable_joined : (p.joined c tag a payload).postable c = true ↔ p.writeQueue.length < 32 ∧ p.waitSet a = [] := by
  rw [postable_iff]
  have work : (p.joined c tag a payload).work c = some (.write a payload .posting) := work_execute p c tag _
  constructor
  · rintro ⟨b, x, executes, room, clear⟩
    cases work.symm.trans executes
    exact ⟨room, List.isEmpty_iff.1 clear⟩
  · exact fun ⟨room, clear⟩ => ⟨a, payload, work, room, List.isEmpty_iff.2 clear⟩

include new stuck

theorem stuck_joined : ∀ d ∈ p.posting, (p.joined c tag a payload).postable d = false := by
  intro d mem
  have other : d ≠ c := fun e => new (e ▸ mem)
  refine Bool.eq_false_iff.2 fun free => ?_
  have was := postable_of_more (p := p) (work_execute_ne p tag _ other) (List.Sublist.refl p.writeQueue) free
  rw [stuck d mem] at was
  cases was

/-- R91: a WRITE that finds no room, or an entry in its range, waits. -/
theorem postWrites_waits (waits : 32 ≤ p.writeQueue.length ∨ p.waitSet a ≠ []) :
    (p.joined c tag a payload).postWrites = p.joined c tag a payload := by
  refine postWrites_stuck fun d mem => ?_
  rcases List.mem_append.1 mem with old | last
  · exact stuck_joined new stuck d old
  · rw [List.mem_singleton.1 last]
    refine Bool.eq_false_iff.2 fun free => ?_
    obtain ⟨room, clear⟩ := postable_joined.1 free
    rcases waits with full | covered
    · omega
    · exact covered clear

/-- R92: a WRITE that finds room is posted, and no other. -/
theorem postWrites_posts {r : Region} (stands : p.region a.handle.slot = some r)
    (housed : a.offset / 1024 < r.frames.length) (idle : (p.client c).executing = none)
    (room : p.writeQueue.length < 32) (clear : p.waitSet a = []) :
    (p.joined c tag a payload).postWrites =
      ({ p with writeQueue := p.writeQueue ++ [⟨c, a.handle, a.offset, a.length, payload⟩] } : Part).answer c 33 tag
        .done [] := by
  have first := (postRounds_succ p.posting.length (p.joined c tag a payload)).2 p.posting c [] rfl
    (stuck_joined new stuck) (postable_joined.2 ⟨room, clear⟩)
  have posting : (p.posting ++ [c]).filter (· != c) = p.posting := by
    rw [List.filter_append, List.filter_eq_self.2 fun d mem => bne_iff_ne.2 (ne_of_mem_of_not_mem mem new)]
    simp
  have posted : (p.joined c tag a payload).post c =
      ({ p with writeQueue := p.writeQueue ++ [⟨c, a.handle, a.offset, a.length, payload⟩] } : Part).answer c 33 tag
        .done [] := by
    have answered : ({ p.joined c tag a payload with
        posting := (p.posting ++ [c]).filter (· != c)
        writeQueue := p.writeQueue ++ [⟨c, a.handle, a.offset, a.length, payload⟩] } : Part).finish c .done [] =
        ({ p with writeQueue := p.writeQueue ++ [⟨c, a.handle, a.offset, a.length, payload⟩] } : Part).answer c 33 tag
          .done [] := by
      rw [posting]
      exact finish_execute { p with
        writeQueue := p.writeQueue ++ [⟨c, a.handle, a.offset, a.length, payload⟩] } c tag (.write a payload .posting) .done
          [] idle
    have work : (p.joined c tag a payload).work c = some (.write a payload .posting) := work_execute p c tag _
    rw [post_eq work answered, if_neg]
    rw [homeless_iff]
    exact fun gone => absurd (gone r stands) (Nat.not_le.2 housed)
  have rounds : (p.joined c tag a payload).postWrites = postRounds (p.posting.length + 1) (p.joined c tag a payload) :=
    congrArg (postRounds · _) List.length_append
  rw [rounds, first, posted]
  refine postRounds_stuck (fun d mem => Bool.eq_false_iff.2 fun free => ?_) _
  have was : p.postable d = true := by
    refine postable_of_more ?_ ?_ free
    · rfl
    · exact List.sublist_append_left _ _
  rw [stuck d mem] at was
  cases was

end Posting

/-- R83: the range of an access that passes lies in one entry of the frame list. -/
theorem entry_of_ranged {r : Region} {offset length : Nat} (passes : rangeChecks r offset length = none) :
    offset / 1024 < r.frames.length := by
  by_cases beyond : 1024 * r.frames.length < offset + length
  · cases (rangeChecks_beyond beyond).symm.trans passes
  by_cases bad : length < 1 ∨ 64 < length
  · cases (rangeChecks_length (Nat.not_lt.1 beyond) bad).symm.trans passes
  omega

/-- Settles O48. -/
theorem writeIsPosted : Obligations.WriteIsPosted := by
  intro s c tag length h r offset payload free sized judged new stuck a counted after
  obtain ⟨names, passes⟩ := named_of_judged judged
  have idle : (counted.client c).executing = none := by
    rw [client_modRegion, client_taken]
    exact free.idle
  have stands : counted.region h.slot = some { r with inUse := r.inUse + 1 } := by
    refine (region_modRegion_same s.part.taken h.slot _).trans ?_
    rw [show s.part.taken.region h.slot = some r from region_named names]
    rfl
  have unposted : ∀ d ∈ counted.posting, counted.postable d = false := stuck
  have taken : ∀ q, s.part.taken.takeWrite c 33 tag (.region h) offset.toNat length.toNat payload = q → after q :=
    fun q served => next_served (r := .write (.region h) offset length payload) free (write_wf sized) (.inl rfl) served
  rw [takeWrite_eq (p := s.part.taken) _ tag payload judged] at taken
  refine ⟨fun wiping => taken _ (if_pos (Option.isSome_iff_ne_none.2 wiping)), fun quiet => ?_⟩
  rw [quiet, if_neg (by simp)] at taken
  have joins : (counted.execute c tag (.write a payload .wipeHold)).joinPosting c = _ := joinPosting_execute .wipeHold
  refine ⟨fun waits => ?_, fun room clear => ?_⟩
  · exact taken _ (joins.trans (postWrites_waits (p := counted) new unposted waits))
  · exact taken _ (joins.trans (postWrites_posts (p := counted) new unposted stands (entry_of_ranged passes) idle room clear))

/-! ### FLUSH -/

theorem testFlush_executing {p : Part} {c : ClientId} {tag : Byte} {slot : Option SlotId}
    (executes : (p.client c).executing = some ⟨tag, .flush slot⟩) :
    p.testFlush c = if ∃ e ∈ p.writeQueue, e.client = c ∧ (slot = none ∨ slot = some e.handle.slot) then p
      else (p.modClient c fun k => { k with executing := none }).answer c 35 tag .done [] := by
  have flushed : p.flushed c slot = true ↔ ¬ ∃ e ∈ p.writeQueue, e.client = c ∧ (slot = none ∨ slot = some e.handle.slot) := by
    rw [Part.flushed, Bool.not_eq_true', ← Bool.not_eq_true, List.any_eq_true]
    simp
  unfold Part.testFlush
  rw [work_executing executes]
  dsimp only
  rw [finish_executing _ _ executes]
  by_cases left : ∃ e ∈ p.writeQueue, e.client = c ∧ (slot = none ∨ slot = some e.handle.slot)
  · rw [if_pos left, if_neg fun done => flushed.1 done left]
  · rw [if_neg left, if_pos (flushed.2 left)]
    rfl

theorem testFlush_other {p : Part} {c : ClientId} (other : ∀ slot, p.work c ≠ some (.flush slot)) : p.testFlush c = p := by
  unfold Part.testFlush
  split
  · rename_i slot executes
    exact absurd executes (other slot)
  · rfl

/-- R94: a FLUSH as it is taken. -/
theorem testFlush_execute {p : Part} {c : ClientId} (tag : Byte) (slot : Option SlotId)
    (idle : (p.client c).executing = none) :
    (p.execute c tag (.flush slot)).testFlush c =
      if ∃ e ∈ p.writeQueue, e.client = c ∧ (slot = none ∨ slot = some e.handle.slot) then p.execute c tag (.flush slot)
      else p.answer c 35 tag .done [] := by
  have answered := finish_execute p c tag (.flush slot) .done [] idle
  rw [finish_executing _ _ (executing_execute p c tag (.flush slot))] at answered
  rw [testFlush_executing (executing_execute p c tag (.flush slot))]
  exact if_congr Iff.rfl rfl answered

theorem judgeFlush_named {p : Part} {h : RegionHandle} {r : Region} (c : ClientId) (names : p.named h = some r) :
    p.judgeFlush c (.region h) =
      if r.grade c = .none then .error .denied else if r.state = .filling then .error .busy else .ok h := by
  have may : (!(r.grade c).mayRead) = true ↔ r.grade c = .none := by cases r.grade c <;> simp [Grade.mayRead]
  simp only [Part.judgeFlush, Part.resolve, names, Option.map_some, may, beq_iff_eq]

/-- Settles O49. -/
theorem flushAnswersWhenDrained : Obligations.FlushAnswersWhenDrained := by
  refine ⟨fun s c tag free => ?_, fun p c => ⟨fun tag slot executes => ?_, testFlush_other⟩⟩
  · intro done refused
    have idle : (s.part.taken.client c).executing = none := free.idle
    have flush : ∀ sel q, s.part.taken.takeFlush c 35 tag sel = q → exec (.flush c tag sel) s =
        .next (s.withPart q.closeAct) := fun sel q served => next_served (r := .flush sel) free rfl (.inl rfl) served
    have named : ∀ h r, s.part.named h = some r → s.part.taken.judgeFlush c (.region h) = _ := fun h r names =>
      judgeFlush_named (p := s.part.taken) c names
    have handle : ∀ h r, s.part.named h = some r → r.grade c ≠ .none → r.state ≠ .filling →
        s.part.taken.takeFlush c 35 tag (.handle (.region h)) =
          (s.part.taken.execute c tag (.flush (some h.slot))).testFlush c := fun h r names may filled => by
      rw [Part.takeFlush, named h r names, if_neg may, if_neg filled]
    refine ⟨fun empty => flush _ _ ?_, fun ⟨e, mem, own⟩ => flush _ _ ?_, fun k => flush _ _ rfl,
      fun h dead => flush _ _ ?_, fun h r names denied => flush _ _ ?_, fun h r names may => ⟨fun filling => flush _ _ ?_,
        fun filled empty => flush _ _ ?_, fun filled ⟨e, mem, own, slot⟩ => flush _ _ ?_⟩⟩
    · exact (testFlush_execute tag _ idle).trans (if_neg fun ⟨e, mem, own, _⟩ => empty e mem own)
    · exact (testFlush_execute tag _ idle).trans (if_pos ⟨e, mem, own, .inl rfl⟩)
    · simp [Part.takeFlush, Part.judgeFlush, Part.resolve, show s.part.taken.named h = none from dead]
    · rw [Part.takeFlush, named h r names, if_pos denied]
    · rw [Part.takeFlush, named h r names, if_neg may, if_pos filling]
    · rw [handle h r names may filled]
      refine (testFlush_execute tag _ idle).trans (if_neg ?_)
      rintro ⟨e, mem, own, none | slot⟩
      · cases none
      · exact empty e mem ⟨own, (Option.some.inj slot).symm⟩
    · rw [handle h r names may filled]
      exact (testFlush_execute tag _ idle).trans (if_pos ⟨e, mem, own, .inr (congrArg some slot.symm)⟩)
  · intro left
    rw [testFlush_executing executes]
    exact ⟨fun some_ => if_pos some_, fun none => if_neg none⟩

end Sys2Proof.Machine

end

section
/-! PROOFS. Batches (R70 to R80): staging, and the close position by position. -/

namespace Sys2Proof.Machine

set_option Elab.async false

/-! ### Staging (R71) -/

theorem exec_commandRow (c : ClientId) (tag : Byte) (cmd : RegionCommand) (s : State) :
    exec (commandRow c tag cmd) s = .next (s.withPart (s.part.arrive c tag (.command cmd))) :=
  exec_requestRow c tag (.command cmd) s

theorem isGrant_iff (cmd : RegionCommand) : isGrant cmd = true ↔ ∃ size cls lease, cmd = .grant size cls lease := by
  cases cmd with
  | grant size cls lease => exact iff_of_true rfl ⟨size, cls, lease, rfl⟩
  | _ => exact iff_of_false Bool.false_ne_true nofun

/-- R26, R71: a batch reference is valid behind the GRANT it names. -/
theorem referenceValid_batchRef {staged : List RegionCommand} {cmd : RegionCommand} {k : Fin 8}
    (names : commandHandle cmd = some (.batchRef k)) : referenceValid staged cmd = true ↔
      k.val < staged.length ∧ ∃ size cls lease, staged[k.val]? = some (.grant size cls lease) := by
  rw [referenceValid, names]
  show (staged[k.val]?.map isGrant).getD false = true ↔ _
  cases at_ : staged[k.val]? with
  | none => simp
  | some x =>
    obtain ⟨below, -⟩ := List.getElem?_eq_some_iff.1 at_
    simp only [Option.map_some, Option.getD_some, isGrant_iff, below, true_and, Option.some.injEq]

theorem referenceValid_none {staged : List RegionCommand} {cmd : RegionCommand} (names : commandHandle cmd = none) :
    referenceValid staged cmd = true := by rw [referenceValid, names]

theorem referenceValid_region {staged : List RegionCommand} {cmd : RegionCommand} {h : RegionHandle}
    (names : commandHandle cmd = some (.region h)) : referenceValid staged cmd = true := by rw [referenceValid, names]

/-- R71: a region command of a client with an open batch is staged. -/
theorem serve_staged {p : Part} {c : ClientId} {tag : Byte} {cmd : RegionCommand} {staged : List RegionCommand}
    (opened : (p.client c).batch = some staged) : p.serve c tag (.command cmd) = p.stage c tag staged cmd := by
  simp only [Part.serve, Part.serveRegion, opened]

/-- Settles O55. -/
theorem regionCommandsAreStaged : Obligations.RegionCommandsAreStaged := by
  refine ⟨fun s c tag cmd staged free opened => ?_, fun staged cmd => ⟨referenceValid_none, fun h => referenceValid_region,
    fun k => referenceValid_batchRef⟩, fun x size cls lease d base mask right => ⟨rfl, fun cmd mem => ?_⟩⟩
  · have staging : ∀ q, s.part.taken.stage c tag staged cmd = q →
        exec (commandRow c tag cmd) s = .next (s.withPart q.closeAct) := fun q result =>
      (exec_commandRow c tag cmd s).trans (next_served free rfl (.inl rfl)
        ((serve_staged (p := s.part.taken) opened).trans result))
    refine ⟨fun full => staging _ (if_pos full), fun room bad => staging _ ?_, fun room good => staging _ ?_⟩
    · exact (if_neg (Nat.not_le.2 room)).trans (if_pos (by rw [bad]; rfl))
    · exact (if_neg (Nat.not_le.2 room)).trans (if_neg (by rw [good]; exact Bool.false_ne_true))
  · fin_cases mem <;> rfl

/-! ### Closing, position by position (R73 to R77) -/

theorem namedSlot_iff (cmd : RegionCommand) (slot : SlotId) :
    namedSlot cmd = some slot ↔ ∃ h, commandHandle cmd = some (.region h) ∧ h.slot = slot := by
  unfold namedSlot
  split
  · rename_i h names
    simp [names]
  · rename_i other
    simp only [reduceCtorEq, false_iff, not_exists, not_and]
    exact fun h names => absurd names (other h)

theorem namesWiped_iff (k : Closing) (cmd : RegionCommand) :
    k.namesWiped cmd = true ↔ ∃ slot ∈ k.wiped, namedSlot cmd = some slot := by
  unfold Closing.namesWiped
  split
  · next names => simp [names]
  · next names => simp [names]

theorem resolve_eq (w : Wait) (st : Status) :
    BatchResult.resolve w st = fun r => if r.wait = some w then { r with status := st, wait := none } else r := by
  funext r
  simp only [BatchResult.resolve, beq_iff_eq]

section Rounds
variable {c : ClientId} {k : Closing} {cmd : RegionCommand} (rest : List RegionCommand)

theorem closeRounds_refused {st : Status} (refused : k.part.apply c (mapHandle k.resolve cmd) = .error st) :
    closeRounds c (cmd :: rest) k = .error (k.results.length, st) := by
  rw [closeRounds, refused]

variable {a : Applied} (applied : k.part.apply c (mapHandle k.resolve cmd) = .ok a)
include applied

theorem closeRounds_wiped {slot : SlotId} (names : namedSlot (mapHandle k.resolve cmd) = some slot)
    (wiped : slot ∈ k.wiped) : closeRounds c (cmd :: rest) k = .error (k.results.length, .busy) := by
  rw [closeRounds, applied]
  exact if_pos ((namesWiped_iff _ _).2 ⟨slot, wiped, names⟩)

theorem closeRounds_goesOn (clear : ∀ slot, namedSlot (mapHandle k.resolve cmd) = some slot → slot ∉ k.wiped) :
    closeRounds c (cmd :: rest) k = closeRounds c rest (k.advance (mapHandle k.resolve cmd) a) := by
  rw [closeRounds, applied]
  refine if_neg fun wiped => ?_
  obtain ⟨slot, mem, names⟩ := (namesWiped_iff _ _).1 wiped
  exact clear slot names mem

end Rounds

/-- R75, R77: a RELEASE ends an earlier RESIZE of its region that waits. -/
theorem advance_release (k : Closing) (h : RegionHandle) (a : Applied) : k.advance (.release (.region h)) a =
    ⟨a.part, (k.results.map fun r =>
      if r.wait = some (.extension h.slot) then { r with status := .aborted, wait := none } else r) ++
        [⟨.done, a.handle, a.wait⟩], k.wiped⟩ := by
  rw [← resolve_eq]
  rfl

theorem advance_wipe (k : Closing) (h : RegionHandle) (a : Applied) : k.advance (.wipe (.region h)) a =
    ⟨a.part, k.results ++ [⟨.done, a.handle, a.wait⟩], k.wiped ++ [h.slot]⟩ := rfl

theorem advance_other (k : Closing) {cmd : RegionCommand} (a : Applied) (release : ∀ h, cmd ≠ .release h)
    (wipe : ∀ h, cmd ≠ .wipe h) : k.advance cmd a = ⟨a.part, k.results ++ [⟨.done, a.handle, a.wait⟩], k.wiped⟩ := by
  cases cmd with
  | release h => exact absurd rfl (release h)
  | wipe h => exact absurd rfl (wipe h)
  | _ => rfl

/-- R73: what a batch reference stands for. -/
theorem resolve_batchRef {k : Closing} {n : Fin 8} {r : BatchResult} {h : RegionHandle} (at_ : k.results[n.val]? = some r)
    (gives : r.handle = some h) : k.resolve (.batchRef n) = .region h := by
  rw [Closing.resolve, at_, Option.bind_some, gives]

theorem resolve_batchRef_none {k : Closing} {n : Fin 8} (none : ∀ r h, k.results[n.val]? = some r → r.handle ≠ some h) :
    k.resolve (.batchRef n) = .batchRef n := by
  have gone : k.results[n.val]?.bind (·.handle) = Option.none :=
    Option.bind_eq_none_iff.2 fun r at_ => Option.eq_none_iff_forall_ne_some.2 fun h => none r h at_
  rw [Closing.resolve, gone]

end Sys2Proof.Machine

end

section
/-! PROOFS. BATCH_CLOSE and BATCH_DROP (R73 to R80, R190): the handles of the results, the waits, the obligation. -/

namespace Sys2Proof.Machine

set_option Elab.async false

/-! ### The handle that a command produces (R47, R77) -/

theorem lowestUnused_some {p : Part} {slot : SlotId} (lowest : p.lowestUnused = some slot) :
    p.region slot = none ∧ ∀ u, u < slot → p.region u ≠ none := by
  obtain ⟨unused, below⟩ := (indices_head _ _ slot).1 lowest
  refine ⟨Option.isNone_iff_eq_none.1 unused, fun u lower none => ?_⟩
  have free : (tget p.slots u).region.isNone = true := Option.isNone_iff_eq_none.2 none
  rw [below u lower] at free
  cases free

/-- R47: GRANT takes the lowest unused slot, with the generation that stands in it. -/
theorem handle_applyGrant {p : Part} {c : ClientId} {size : Byte} {k : RegionClass} {lease : Option Half} {a : Applied}
    (applied : p.applyGrant c size k lease = .ok a) : ∃ slot, a.handle = some ⟨slot, p.generation slot⟩ ∧
      p.region slot = none ∧ ∀ u, u < slot → p.region u ≠ none := by
  unfold Part.applyGrant at applied
  split at applied
  · cases applied
  · split at applied
    · cases applied
    · rename_i slot lowest
      split at applied
      · cases applied
      · cases applied
        obtain ⟨unused, below⟩ := lowestUnused_some lowest
        exact ⟨slot, rfl, unused, below⟩

/-- A command's outcome produces no handle. -/
def Nameless (outcome : Except Status Applied) : Prop := ∀ a, outcome = .ok a → a.handle = none

@[simp] theorem nameless_error (st : Status) : Nameless (.error st) := fun _ e => by cases e

@[simp] theorem nameless_ok (p : Part) (body : List Byte) (w : Option Wait) : Nameless (.ok ⟨p, body, none, w⟩) :=
  fun _ e => by
    cases e
    rfl

@[simp] theorem nameless_plain (p : Part) : Nameless (.ok (.plain p)) := nameless_ok p [] none

theorem nameless_placeGrow (p : Part) (s : SlotId) (m : Nat) (a : Allocation) : Nameless (.ok (p.placeGrow s m a)) := by
  unfold Part.placeGrow
  dsimp only
  split
  · exact nameless_ok _ _ _
  · exact nameless_ok _ _ _

theorem nameless_applyResize (p : Part) (c : ClientId) (x : Handle) (size : Byte) : Nameless (p.applyResize c x size) := by
  unfold Part.applyResize
  dsimp only
  repeat' split
  all_goals simp [nameless_placeGrow]

/-- R77: only a GRANT produces a handle: each branch of the other commands refuses or gives none. -/
theorem nameless_apply (p : Part) (c : ClientId) {cmd : RegionCommand} (other : ∀ size cls lease, cmd ≠ .grant size cls lease) :
    Nameless (p.apply c cmd) := by
  cases cmd with
  | grant size cls lease => exact absurd rfl (other size cls lease)
  | resize x size => exact nameless_applyResize p c x size
  | release x =>
    show Nameless (p.applyRelease c x)
    unfold Part.applyRelease
    split
    all_goals simp
  | handover x d =>
    show Nameless (p.applyHandover c x d)
    unfold Part.applyHandover
    repeat' split
    all_goals simp
  | share x base mask right =>
    show Nameless (p.applyShare c x base mask right)
    unfold Part.applyShare
    repeat' split
    all_goals simp
  | unshare x base mask =>
    show Nameless (p.applyUnshare c x base mask)
    unfold Part.applyUnshare
    repeat' split
    all_goals simp
  | lock x =>
    show Nameless (p.applyLock c x)
    unfold Part.applyLock
    repeat' split
    all_goals simp
  | unlock x =>
    show Nameless (p.applyUnlock c x)
    unfold Part.applyUnlock
    repeat' split
    all_goals simp
  | wipe x =>
    show Nameless (p.applyWipe c x)
    unfold Part.applyWipe
    repeat' split
    all_goals simp

/-! ### The waits (R77, R78) -/

theorem all_wait_iff (rs : List BatchResult) : (rs.all fun r => r.wait.isNone) = true ↔ ∀ r ∈ rs, r.wait = none := by
  simp

theorem endWait_batchClose {w : Wait} {st : Status} {p : Part} {c : ClientId} {tag : Byte} {rs : List BatchResult}
    (executes : (p.client c).executing = some ⟨tag, .batchClose rs⟩) :
    let rs' := rs.map fun r => if r.wait = some w then { r with status := st, wait := none } else r
    ((∀ r ∈ rs', r.wait = none) → Part.endWait w st p c =
      (p.modClient c fun k => { k with executing := none }).answer c 41 tag .done (p.batchBody rs')) ∧
    ((∃ r ∈ rs', r.wait ≠ none) → Part.endWait w st p c = p.execute c tag (.batchClose rs')) := by
  intro rs'
  have told : Part.endWait w st p c = if (rs'.all fun r => r.wait.isNone) = true then p.finish c .done (p.batchBody rs')
      else p.setWork c (.batchClose rs') := by
    rw [Part.endWait, work_executing executes]
    simp only [resolve_eq]
    rfl
  refine ⟨fun ended => ?_, fun ⟨r, mem, waits⟩ => ?_⟩
  · rw [told, if_pos ((all_wait_iff rs').2 ended), finish_executing _ _ executes]
    rfl
  · rw [told, if_neg fun ended => waits ((all_wait_iff rs').1 ended r mem), setWork_executing _ executes]

theorem endWait_same {w : Wait} {st : Status} {p : Part} {c : ClientId} {tag : Byte}
    (executes : (p.client c).executing = some ⟨tag, .waiting w⟩) : Part.endWait w st p c =
      (p.modClient c fun k => { k with executing := none }).answer c (Work.waiting w).code tag st
        (if st = .done then p.waitBody w else []) := by
  rw [Part.endWait, work_executing executes]
  dsimp only
  rw [if_pos (beq_self_eq_true w), finish_executing _ _ executes]
  simp only [beq_iff_eq]

theorem endWait_other {w x : Wait} {st : Status} {p : Part} {c : ClientId} {tag : Byte}
    (executes : (p.client c).executing = some ⟨tag, .waiting x⟩) (other : x ≠ w) : Part.endWait w st p c = p := by
  rw [Part.endWait, work_executing executes]
  exact if_neg (mt beq_iff_eq.1 other)

theorem endWait_none {w : Wait} {st : Status} {p : Part} {c : ClientId} (waiting : ∀ x, p.work c ≠ some (.waiting x))
    (closing : ∀ rs, p.work c ≠ some (.batchClose rs)) : Part.endWait w st p c = p := by
  unfold Part.endWait
  split
  · next x executes => exact absurd executes (waiting x)
  · next rs executes => exact absurd executes (closing rs)
  · rfl

/-! ### The close -/

section Close
variable {p : Part} {c : ClientId} {tag : Byte} {cmds : List RegionCommand}

theorem serveBatchClose_none (none : (p.client c).batch = none) : p.serveBatchClose c tag = p.answer c 41 tag .noBatch [] := by
  rw [Part.serveBatchClose, none]

theorem serveBatchDrop_none (none : (p.client c).batch = none) : p.serveBatchDrop c tag = p.answer c 42 tag .noBatch [] := by
  rw [Part.serveBatchDrop, none]
  rfl

variable (opened : (p.client c).batch = some cmds)
include opened

theorem serveBatchDrop_some : p.serveBatchDrop c tag =
    (p.modClient c fun k => { k with batch := none }).answer c 42 tag .done [] := by
  rw [Part.serveBatchDrop, opened]
  rfl

theorem serveBatchClose_failed {i : Nat} {st : Status}
    (failed : closeRounds c cmds ⟨p.modClient c fun k => { k with batch := none }, [], []⟩ = .error (i, st)) :
    p.serveBatchClose c tag = (p.modClient c fun k => { k with batch := none }).answer c 41 tag .batchFailed
      [byte i, st.code] := by
  rw [Part.serveBatchClose, opened]
  dsimp only [Part.setBatch]
  rw [failed]

theorem serveBatchClose_passed {k : Closing}
    (passed : closeRounds c cmds ⟨p.modClient c fun k => { k with batch := none }, [], []⟩ = .ok k) :
    p.serveBatchClose c tag = if (k.results.all fun r => r.wait.isNone) = true then
        k.part.answer c 41 tag .done (k.part.batchBody k.results)
      else k.part.execute c tag (.batchClose k.results) := by
  rw [Part.serveBatchClose, opened]
  dsimp only [Part.setBatch]
  rw [passed]

end Close

/-- Settles O56. -/
theorem batchCloseIsAllOrNothing : Obligations.BatchCloseIsAllOrNothing := by
  refine ⟨fun s c tag free => ⟨fun none => ⟨?_, ?_⟩, fun cmds opened => ?_⟩, fun c k => ⟨rfl, fun cmd rest => ?_⟩,
    fun k x size cls lease d base mask right f => ⟨fun h => rfl, fun n r h => resolve_batchRef, fun n =>
      resolve_batchRef_none, rfl⟩, fun s c tag cmd free unstaged => ?_, fun p c cmd a applied => ⟨?_, ?_⟩, fun p rs => ?_,
    fun p h => ⟨?_, fun same => ?_, generation_returnedHandle p h⟩, fun p w st => ⟨rfl, fun c tag => ⟨fun rs =>
      endWait_batchClose, fun executes => (endWait_same executes).trans ?_, fun x => endWait_other, endWait_none⟩⟩⟩
  · exact next_served free rfl (.inl rfl) (serveBatchClose_none (p := s.part.taken) none)
  · exact next_served free rfl (.inl rfl) (serveBatchDrop_none (p := s.part.taken) none)
  · intro p0
    refine ⟨fun i st failed => ?_, fun k passed => ⟨fun ended => ?_, fun ⟨r, mem, waits⟩ => ?_⟩, ?_⟩
    · exact next_served free rfl (.inl rfl) (serveBatchClose_failed (p := s.part.taken) opened failed)
    · exact next_served free rfl (.inl rfl) ((serveBatchClose_passed (p := s.part.taken) opened passed).trans
        (if_pos ((all_wait_iff _).2 ended)))
    · exact next_served free rfl (.inl rfl) ((serveBatchClose_passed (p := s.part.taken) opened passed).trans
        (if_neg fun ended => waits ((all_wait_iff _).1 ended r mem)))
    · exact next_served free rfl (.inl rfl) (serveBatchDrop_some (p := s.part.taken) opened)
  · intro x names goesOn stopped
    refine ⟨fun st refused => closeRounds_refused rest refused, fun a applied => ⟨fun slot named wiped => ?_, fun clear => ?_⟩⟩
    · exact closeRounds_wiped rest applied ((namedSlot_iff _ _).2 named) wiped
    · have goes := closeRounds_goesOn rest applied fun slot named => clear slot ((namedSlot_iff _ _).1 named)
      refine ⟨fun h release => ?_, fun h wipe => ?_, fun release wipe => ?_⟩
      · exact goes.trans (congrArg (closeRounds c rest) ((congrArg (k.advance · a) release).trans (advance_release k h a)))
      · exact goes.trans (congrArg (closeRounds c rest) ((congrArg (k.advance · a) wipe).trans (advance_wipe k h a)))
      · exact goes.trans (congrArg (closeRounds c rest) (advance_other k a release wipe))
  · intro after
    have row : ∀ q, (Host.Outcome.next (s.withPart (s.part.arrive c tag (.command cmd))) : Host.Outcome State Fault Refusal) =
        .next (s.withPart q.closeAct) → after q := fun q next => (exec_commandRow c tag cmd s).trans next
    exact ⟨fun st refused => row _ (next_refused free unstaged refused), fun a applied => ⟨fun ended =>
      row _ (next_done free unstaged applied ended), fun w waits => row _ (next_waits free unstaged applied waits)⟩⟩
  · rintro size cls lease rfl
    exact handle_applyGrant applied
  · exact fun other => nameless_apply p c other a applied
  · refine congrArg (byte rs.length :: ·) ?_
    refine List.flatMap_congr fun r _ => ?_
    rw [BatchResult.bytes]
    cases r.handle with
    | none => rfl
    | some h => exact congrArg (r.status.code :: [·, (p.returnedHandle h).generation]) (by rw [slot_returnedHandle]; rfl)
  · exact slot_returnedHandle p h
  · rw [returnedHandle_of_same p h same]
  · cases w with
    | fill slot => rfl
    | extension slot => rfl
    | wipe slot => rfl

end Sys2Proof.Machine

end

section
/-! PROOFS. RENEW, DESCRIBE and LIST (R66 to R68, 11.5). -/

namespace Sys2Proof.Machine

set_option Elab.async false

/-! ### RENEW -/

section Renew
variable {p : Part} {c : ClientId} (tag : Byte)

theorem serveRenew_refused {x : Handle} {st : Status} (refused : p.judgeCommon c x = .error st) :
    p.serveRenew c tag x = p.answer c 25 tag st [] := by
  rw [Part.serveRenew, refused]

/-- R66: RENEW of a region that passes the checks common to the region commands. -/
theorem serveRenew_passed {x : Handle} {h : RegionHandle} {r : Region} (passed : p.judgeCommon c x = .ok (h, r)) :
    p.serveRenew c tag x =
      if r.lease = none then p.answer c 25 tag .notLeased []
      else (p.modRegion h.slot fun y =>
        { y with lease := y.lease.map fun l => (⟨l.period, 1000 * l.period⟩ : Lease) }).answer c 25 tag .done [] := by
  rw [Part.serveRenew, passed]
  exact if_congr Option.isNone_iff_eq_none rfl rfl

theorem judgeCommon_own {h : RegionHandle} {r : Region} (names : p.named h = some r) (filled : r.state ≠ .filling)
    (own : r.owner = c) : p.judgeCommon c (.region h) = .ok (h, r) := by
  simp [Part.judgeCommon, Part.resolve, names, filled, own]

end Renew

/-! ### DESCRIBE -/

theorem serveDescribe_dead {p : Part} {c : ClientId} {tag page : Byte} {x : Handle} (dead : p.resolve x = none) :
    p.serveDescribe c tag x page = p.answer c 26 tag .notFound [] := by
  rw [Part.serveDescribe, dead]

section Describe
variable {p : Part} {c : ClientId} {tag page : Byte} {h : RegionHandle} {r : Region} (names : p.named h = some r)
include names

theorem serveDescribe_named : p.serveDescribe c tag (.region h) page =
    match firstFail
      [(!(c == r.owner || r.inMatchSet c || c == 0), .denied),
       (decide (1 < page.toNat), .badValue),
       (page == 1 && c != 0, .notPermitted)] with
    | some st => p.answer c 26 tag st []
    | none => p.answer c 26 tag .done (if page == 0 then p.describe0 h r else r.describe1) := by
  have resolved : p.resolve (.region h) = some (h, r) := by simp [Part.resolve, names]
  rw [Part.serveDescribe, resolved] <;> rfl

theorem serveDescribe_denied (other : ¬ (c = r.owner ∨ r.inMatchSet c = true ∨ c = 0)) :
    p.serveDescribe c tag (.region h) page = p.answer c 26 tag .denied [] := by
  have fails : (!(c == r.owner || r.inMatchSet c || c == 0)) = true := by simpa [and_assoc] using other
  rw [serveDescribe_named names, firstFail_cons, if_pos fails]

variable (asks : c = r.owner ∨ r.inMatchSet c = true ∨ c = 0)
include asks

theorem serveDescribe_asked : p.serveDescribe c tag (.region h) page =
    match firstFail [(decide (1 < page.toNat), .badValue), (page == 1 && c != 0, .notPermitted)] with
    | some st => p.answer c 26 tag st []
    | none => p.answer c 26 tag .done (if page == 0 then p.describe0 h r else r.describe1) := by
  have passes : (!(c == r.owner || r.inMatchSet c || c == 0)) ≠ true := by
    rcases asks with owner | shared | supervisor
    · simp [owner]
    · simp [shared]
    · simp [supervisor]
  rw [serveDescribe_named names, firstFail_cons, if_neg passes] <;> rfl

theorem serveDescribe_badValue (beyond : 1 < page.toNat) :
    p.serveDescribe c tag (.region h) page = p.answer c 26 tag .badValue [] := by
  rw [serveDescribe_asked names asks, firstFail_cons, if_pos (decide_eq_true beyond)]

theorem serveDescribe_notPermitted (one : page = 1) (other : c ≠ 0) :
    p.serveDescribe c tag (.region h) page = p.answer c 26 tag .notPermitted [] := by
  have fails : ((1 : Byte) == 1 && c != 0) = true := by simpa using other
  subst one
  rw [serveDescribe_asked names asks, firstFail_cons, if_neg (by decide), firstFail_cons, if_pos fails]

theorem serveDescribe_page1 (one : page = 1) (supervisor : c = 0) :
    p.serveDescribe c tag (.region h) page = p.answer c 26 tag .done r.describe1 := by
  subst one supervisor
  rw [serveDescribe_asked names asks, firstFail_cons, if_neg (by decide), firstFail_cons, if_neg (by decide), firstFail_nil]
  rfl

theorem serveDescribe_page0 (zero : page = 0) :
    p.serveDescribe c tag (.region h) page = p.answer c 26 tag .done (p.describe0 h r) := by
  have passes : ((0 : Byte) == 1 && c != 0) ≠ true := by simp
  subst zero
  rw [serveDescribe_asked names asks, firstFail_cons, if_neg (by decide), firstFail_cons, if_neg passes, firstFail_nil]
  rfl

end Describe

/-- 11.5: page 0, field by field. -/
theorem describe0_eq (p : Part) (h : RegionHandle) (r : Region) : p.describe0 h r =
    [byte h.slot.val, h.generation,
      match r.state with
      | .filling => 1 | .live => 2 | .locked => 3 | .faulted => 4 | .lost => 5 | .releasing => 6,
      byte r.owner.val, match r.cls with | .keep => 0 | .volatile => 1, byte r.frames.length,
      byte (r.frames.filter fun f => (p.frame f).state == .claimed).length, byte (r.extension.getD []).length,
      byte r.access.length, if r.lease = none then 0 else 1] ++
      bytes2 (match r.lease with | some l => l.period | none => 0) ++
      bytes4 (match r.lease with | some l => l.remaining | none => 0) ++
      [byte r.poison.length, byte r.inUse,
        (if r.wipe = none then 0 else 1) ||| (if r.migration = none then 0 else 2)] ++
      (r.access.flatMap fun e =>
        [byte e.base.val, byte e.mask.val, match e.right with | .read => 0 | .readWrite => 1]) ++
      r.poison.flatMap bytes4 := by
  have state : r.state.code = match r.state with
      | .filling => 1 | .live => 2 | .locked => 3 | .faulted => 4 | .lost => 5 | .releasing => 6 := by
    cases r.state <;> rfl
  have cls : r.cls.code = match r.cls with | .keep => 0 | .volatile => 1 := by cases r.cls <;> rfl
  have leased : flagByte r.lease.isSome = if r.lease = none then 0 else 1 := by cases r.lease <;> rfl
  have period : (r.lease.map (·.period)).getD 0 = match r.lease with | some l => l.period | none => 0 := by
    cases r.lease <;> rfl
  have remaining : (r.lease.map (·.remaining)).getD 0 = match r.lease with | some l => l.remaining | none => 0 := by
    cases r.lease <;> rfl
  have engines : flagByte r.wipe.isSome ||| (flagByte r.migration.isSome <<< 1) =
      (if r.wipe = none then 0 else 1) ||| (if r.migration = none then 0 else 2) := by
    cases r.wipe <;> cases r.migration <;> rfl
  have entry : AccessEntry.bytes = fun e : AccessEntry =>
      [byte e.base.val, byte e.mask.val, match e.right with | .read => 0 | .readWrite => 1] := by
    funext e
    rw [AccessEntry.bytes]
    cases e.right <;> rfl
  rw [Part.describe0, state, cls, leased, period, remaining, engines, entry, Part.claimedIn, List.countP_eq_length_filter]
  rfl

/-- 11.5: page 1. -/
theorem describe1_eq (r : Region) : r.describe1 =
    [byte r.frames.length, byte (r.extension.getD []).length] ++
      (match r.migration with
        | some m => [1, byte m.index] ++ bytes2 m.source.val ++ bytes2 m.target.val ++ bytes2 m.cursor
        | none => [0, 0, 0, 0, 0, 0, 0, 0]) ++
      (r.frames ++ r.extension.getD []).flatMap fun f => bytes2 f.val := by
  rw [Region.describe1, List.flatMap_append]
  cases r.migration with
  | none => simp [flagByte]
  | some m => simp [flagByte]

/-! ### LIST -/

theorem sharedSlots_eq (p : Part) (c : ClientId) : p.sharedSlots c = (List.finRange 64).filter fun x =>
    match p.region x with
    | some r => r.state != .releasing && r.inMatchSet c
    | none => false := indices_eq _ _

theorem byte_eq_one {page : Byte} (one : page.toNat = 1) : page = 1 := BitVec.eq_of_toNat_eq one

theorem byte_eq_zero {page : Byte} (zero : page.toNat = 0) : page = 0 := BitVec.eq_of_toNat_eq zero

/-- Settles O46. -/
theorem renewDescribeListAnswer : Obligations.RenewDescribeListAnswer := by
  intro s c tag free
  refine ⟨?_, fun k page => ?_, fun h page => ?_, ?_⟩
  · intro refused
    have renew : ∀ x q, s.part.taken.serveRenew c tag x = q → exec (.renew c tag x) s = .next (s.withPart q.closeAct) :=
      fun x q served => next_served (r := .renew x) free rfl (.inl rfl) served
    refine ⟨fun k => renew _ _ rfl, fun h dead => renew _ _ ?_, fun h r names => ⟨fun filling => renew _ _ ?_,
      fun filled other => renew _ _ ?_, fun filled own => ⟨fun none => renew _ _ ?_, fun leased => renew _ _ ?_⟩⟩⟩
    · exact serveRenew_refused tag (judgeCommon_dead (p := s.part.taken) c dead)
    · exact serveRenew_refused tag (judgeCommon_filling (p := s.part.taken) c names filling)
    · exact serveRenew_refused tag (judgeCommon_other (p := s.part.taken) names filled other)
    · exact (serveRenew_passed tag (judgeCommon_own (p := s.part.taken) names filled own)).trans (if_pos none)
    · exact (serveRenew_passed tag (judgeCommon_own (p := s.part.taken) names filled own)).trans (if_neg leased)
  · exact next_served (r := .describe (.batchRef k) page) free rfl (.inl rfl) rfl
  · intro answered
    have describe : ∀ q, s.part.taken.serveDescribe c tag (.region h) page = q →
        exec (.describe c tag (.region h) page) s = .next (s.withPart q.closeAct) :=
      fun q served => next_served (r := .describe (.region h) page) free rfl (.inl rfl) served
    refine ⟨fun dead => describe _ ?_, fun r names => ?_⟩
    · exact serveDescribe_dead (p := s.part.taken) (by simp [Part.resolve, show s.part.taken.named h = none from dead])
    · intro extension
      refine ⟨fun other => describe _ ?_, fun asks => ⟨fun beyond => describe _ ?_, fun one other => describe _ ?_,
        fun one supervisor => describe _ ?_, fun zero => describe _ ?_⟩⟩
      · exact serveDescribe_denied (p := s.part.taken) names other
      · exact serveDescribe_badValue (p := s.part.taken) names asks beyond
      · exact serveDescribe_notPermitted (p := s.part.taken) names asks (byte_eq_one one) other
      · exact (serveDescribe_page1 (p := s.part.taken) names asks (byte_eq_one one) supervisor).trans
          (congrArg (s.part.taken.answer c 26 tag .done) (describe1_eq r))
      · exact (serveDescribe_page0 (p := s.part.taken) names asks (byte_eq_zero zero)).trans
          (congrArg (s.part.taken.answer c 26 tag .done) (describe0_eq s.part.taken h r))
  · intro own shared
    refine next_served (r := .list) free rfl (.inl rfl) ?_
    show s.part.taken.serveList c tag = _
    rw [Part.serveList, ownedSlots_eq, sharedSlots_eq]
    rfl

end Sys2Proof.Machine

end

section
/-! PROOFS. WIPE (R62 to R65, R86, R91). -/

namespace Sys2Proof.Machine

set_option Elab.async false

/-! ### The command (R62) -/

theorem applyWipe_eq {p : Part} {c : ClientId} {h : RegionHandle} {r : Region} (owns : p.owns c h r) :
    p.taken.applyWipe c (.region h) =
      match firstFail [(r.state == .locked, .locked), (r.extension.isSome, .busy)] with
      | some st => .error st
      | none => .ok ⟨p.taken.modRegion h.slot fun x => { x with wipe := some .waiting }, [], none, some (.wipe h.slot)⟩ := by
  rw [Part.applyWipe, judgeCommon_owns owns] <;> rfl

/-! ### The wait (R63) -/

theorem usesBefore_iff (p : Part) (slot : SlotId) (c : ClientId) : p.usesBefore slot c = true ↔
    (∃ verify a phase, p.work c = some (.read verify a phase) ∧ a.handle.slot = slot ∧ phase ≠ .wipeHold) ∨
    ∃ a payload phase, p.work c = some (.write a payload phase) ∧ a.handle.slot = slot ∧ phase ≠ .wipeHold := by
  unfold Part.usesBefore
  cases work : p.work c with
  | none => simp
  | some w => cases w <;> simp

theorem wipeReady_iff (p : Part) (slot : SlotId) : p.wipeReady slot = true ↔
    (∀ c verify a phase, p.work c = some (.read verify a phase) → a.handle.slot = slot → phase = .wipeHold) ∧
    (∀ c a payload phase, p.work c = some (.write a payload phase) → a.handle.slot = slot → phase = .wipeHold) ∧
    (∀ e ∈ p.writeQueue, e.handle.slot ≠ slot) := by
  have accesses : (!(allClients.any (p.usesBefore slot))) = true ↔ ∀ c, ¬ p.usesBefore slot c = true := by
    simp [mem_allClients]
  have entries : (!(p.writeQueue.any fun e => e.handle.slot == slot)) = true ↔ ∀ e ∈ p.writeQueue, e.handle.slot ≠ slot := by
    simp
  rw [Part.wipeReady, Bool.and_eq_true, accesses, entries]
  simp only [usesBefore_iff, not_or, not_exists, not_and, not_not]
  exact ⟨fun ⟨uses, queue⟩ => ⟨fun c => (uses c).1, fun c => (uses c).2, queue⟩,
    fun ⟨reads, writes, queue⟩ => ⟨fun c => ⟨reads c, writes c⟩, queue⟩⟩

theorem startWipe_stands {p : Part} {slot : SlotId} {r : Region} (stands : p.region slot = some r) :
    p.startWipe slot = if r.wipe = some .waiting ∧ p.wipeReady slot = true then
      (p.settleForWipe slot).wipeEntry slot 0 0 else p := by
  rw [Part.startWipe, stands]
  exact if_congr (by rw [Bool.and_eq_true, beq_iff_eq]) rfl rfl

/-! ### The migration of a region that is wiped (R64, R154) -/

/-- R154: the part with the source replaced, before the spare pool is topped up. -/
def Part.replaced (x : Part) (slot : SlotId) (r : Region) (m : Migration) (t : FrameId) : Part :=
  ({ x.modRegion slot fun r => { r with frames := r.frames.set m.index t } with
    pool := (x.pool.enter t .held slot r.cls).leave m.source .retired } : Part).leaveQueue [m.source]

section Settle
variable {p : Part} {slot : SlotId} {r : Region} (stands : p.region slot = some r)
include stands

theorem settleForWipe_none (quiet : r.migration = none) : p.settleForWipe slot = p := by
  rw [Part.settleForWipe, stands]
  dsimp only
  rw [quiet]

variable {m : Migration} (moves : r.migration = some m)
include moves

theorem queue_abortMigration (st : FrameState) : (p.abortMigration slot st).retire.queue = p.retire.queue := by
  rw [retire_abortMigration stands moves]

/-- R154: without a fitting SPARE frame the source goes to the tail of the queue. -/
theorem settleForWipe_lacks (none : ∀ t, ¬ (p.abortMigration slot .dirty).suits r.cls .spare t) : p.settleForWipe slot =
    { p.abortMigration slot .dirty with retire := { (p.abortMigration slot .dirty).retire with
      queue := p.retire.queue.filter (· != m.source) ++ [m.source] } } := by
  rw [Part.settleForWipe, stands]
  dsimp only
  rw [moves]
  dsimp only
  rw [lowestFitting_none none]
  dsimp only
  rw [Part.setQueue, queue_abortMigration stands moves]

theorem settleForWipe_replaces {t : FrameId} (fits : (p.abortMigration slot .dirty).suits r.cls .spare t)
    (lowest : ∀ u, u < t → ¬ (p.abortMigration slot .dirty).suits r.cls .spare u) :
    p.settleForWipe slot = ((p.abortMigration slot .dirty).replaced slot r m t).settleSpare (p.abortMigration slot .dirty).pool := by
  rw [Part.settleForWipe, stands]
  dsimp only
  rw [moves]
  dsimp only
  rw [lowestFitting_eq fits lowest] <;> rfl

end Settle

/-- R154: what the replacement of the source leaves. -/
theorem replaced_spec {x : Part} {slot : SlotId} {r : Region} {m : Migration} {t : FrameId}
    (stands : x.region slot = some { r with migration := none }) (other : t ≠ m.source) :
    let q := x.replaced slot r m t
    q.region slot = some { r with frames := r.frames.set m.index t, migration := none } ∧
    (q.frame t).state = .held ∧ (q.frame t).region = some slot ∧
    (q.frame m.source).state = .retired ∧ (q.frame m.source).region = none ∧ (q.frame m.source).doomed = false ∧
    (∀ f, f ≠ t → f ≠ m.source → q.frame f = x.frame f) ∧
    q.retire = { x.retire with queue := x.retire.queue.filter (· != m.source) } ∧
    q.banks = x.banks ∧ q.clients = x.clients ∧ q.tx = x.tx := by
  intro q
  have frame : ∀ f, q.frame f = if m.source = f then
      { tget (x.pool.enter t .held slot r.cls).frames m.source with state := .retired, region := none, doomed := false }
      else tget (x.pool.enter t .held slot r.cls).frames f := fun f => frame_leave _ _ _ _
  have queue : q.retire = { x.retire with queue := x.retire.queue.filter (· != m.source) } :=
    congrArg (·.retire) (leaveQueue_single _ m.source)
  refine ⟨?_, ?_, ?_, ?_, ?_, ?_, fun f target source => ?_, queue, rfl, rfl, rfl⟩
  · refine (region_modRegion_same x slot _).trans ?_
    rw [stands]
    rfl
  · rw [frame, if_neg other.symm, frame_enter, if_pos rfl]
  · rw [frame, if_neg other.symm, frame_enter, if_pos rfl]
  · rw [frame, if_pos rfl]
  · rw [frame, if_pos rfl]
  · rw [frame, if_pos rfl]
  · rw [frame, if_neg source.symm, frame_enter, if_neg target.symm]
    rfl

/-! ### The steps (R64, R65) -/

section Steps
variable {p : Part} {slot : SlotId} {r : Region} {entry step : Nat} (stands : p.region slot = some r)
include stands

theorem wipeEntry_some {f : FrameId} (at_ : r.frames[entry]? = some f) : p.wipeEntry slot entry step =
    (p.modRegion slot fun x => { x with wipe := some (.zeroing entry step) }).modBank (bankOf f) fun k =>
      { k with turns := k.turns ++ [.wipeStep slot f step] } := by
  rw [Part.wipeEntry, stands, Option.bind_some, at_] <;> rfl

theorem wipeEntry_none (beyond : r.frames[entry]? = none) : p.wipeEntry slot entry step = p := by
  rw [Part.wipeEntry, stands, Option.bind_some, beyond]

theorem wipeStepped_eq (zeroing : r.wipe = some (.zeroing entry step)) : p.wipeStepped slot =
    if step + 1 < 16 then p.wipeEntry slot entry (step + 1)
    else if entry + 1 < r.frames.length then p.wipeEntry slot (entry + 1) 0
    else p.completeWipe slot := by
  rw [Part.wipeStepped, stands]
  dsimp only
  rw [zeroing] <;> rfl

end Steps

/-! ### The accesses that waited (R86, R91) -/

theorem accesses_single (p : Part) (slot : SlotId) : p.accesses [slot] = fun c => match p.work c with
    | some (.read _ a _) => a.handle.slot == slot
    | some (.write a _ _) => a.handle.slot == slot
    | _ => false := by
  have single : ∀ u : SlotId, [slot].contains u = (u == slot) := fun u => by
    rw [List.contains_cons, List.contains_nil, Bool.or_false]
  funext c
  unfold Part.accesses Part.accessSlot
  cases p.work c with
  | none => rfl
  | some w =>
    cases w with
    | read verify a phase => exact single a.handle.slot
    | write a payload phase => exact single a.handle.slot
    | _ => rfl

section Hold
variable {p : Part} {c : ClientId} {tag : Byte} {a : Access}

theorem leaveHold_read {verify : Bool} {phase : ReadPhase}
    (executes : (p.client c).executing = some ⟨tag, .read verify a phase⟩) : p.leaveHold c =
      if p.waitSet a = [] then p.proceedRead c else p.execute c tag (.read verify a (.ordering (p.waitSet a))) := by
  rw [Part.leaveHold, work_executing executes]
  dsimp only
  rw [Part.enterOrdering, work_executing executes]
  dsimp only
  rw [setWork_executing _ executes]
  exact if_congr List.isEmpty_iff rfl rfl

theorem leaveHold_write {payload : List Byte} {phase : WritePhase}
    (executes : (p.client c).executing = some ⟨tag, .write a payload phase⟩) :
    p.leaveHold c = (p.joined c tag a payload).postWrites := by
  rw [Part.leaveHold, work_executing executes]
  dsimp only
  rw [Part.joinPosting, work_executing executes]
  dsimp only
  rw [setWork_executing _ executes] <;> rfl

theorem mem_waitSet (p : Part) (a : Access) (o : Nat) : o ∈ p.waitSet a ↔ ∃ e ∈ p.writeQueue, e.offset = o ∧
    e.handle.slot = a.handle.slot ∧ e.offset < a.offset + a.length ∧ a.offset < e.offset + e.length := by
  simp only [Part.waitSet, List.mem_map, List.mem_filter, Bool.and_eq_true, beq_iff_eq, overlaps_iff]
  constructor
  · rintro ⟨e, ⟨mem, slot, overlap⟩, rfl⟩
    exact ⟨e, mem, rfl, slot, overlap⟩
  · rintro ⟨e, mem, rfl, slot, overlap⟩
    exact ⟨e, ⟨mem, slot, overlap⟩, rfl⟩

end Hold

/-- Settles O45. -/
theorem wipeWaitsAndCompletes : Obligations.WipeWaitsAndCompletes := by
  refine ⟨fun s c tag h r free owns => ?_, wipeReady_iff, fun p => ?_, fun p slot r stands => ?_,
    fun p slot r stands => ⟨settleForWipe_none stands, fun m moves => ?_⟩, fun p slot r entry step stands =>
      ⟨fun f => wipeEntry_some stands, wipeEntry_none stands, fun zeroing => ?_⟩, fun p slot => ?_,
    fun p c tag a => ⟨fun verify phase executes => ⟨fun clear => ?_, fun waits => ?_⟩,
      fun payload phase => leaveHold_write, mem_waitSet p a⟩⟩
  · have applied : s.part.taken.apply c (.wipe (.region h)) = _ := applyWipe_eq owns
    rw [firstFail_cons, firstFail_cons, firstFail_nil] at applied
    refine ⟨fun locked => ?_, fun unlocked pending => ?_, fun unlocked settled => ?_⟩
    · rw [if_pos (beq_iff_eq.2 locked)] at applied
      exact next_refused free owns.unstaged applied
    · rw [if_neg (mt beq_iff_eq.1 unlocked), if_pos (Option.isSome_iff_ne_none.2 pending)] at applied
      exact next_refused free owns.unstaged applied
    · rw [if_neg (mt beq_iff_eq.1 unlocked), settled] at applied
      exact next_waits free owns.unstaged applied rfl
  · rw [Part.testWipes]
    refine congrArg (List.foldl Part.startWipe p) ?_
    exact indices_eq _ _
  · exact ⟨fun waiting ready => (startWipe_stands stands).trans (if_pos ⟨waiting, ready⟩),
      fun other => (startWipe_stands stands).trans (if_neg other)⟩
  · intro x fits
    refine ⟨settleForWipe_lacks stands moves, fun t fit lowest other => ?_⟩
    have aborted : x.region slot = some { r with migration := none } := (slot_abortMigration p slot .dirty r stands).1
    obtain ⟨region, held, named, retired, unnamed, sound, others, retire, banks, clients, tx⟩ := replaced_spec aborted other
    obtain ⟨_, _, _, _, reach⟩ := reach_abortMigration p slot .dirty
    refine ⟨x.replaced slot r m t, settleForWipe_replaces stands moves fit lowest, region, held, named, retired, unnamed,
      sound, others, ?_, banks, clients.trans (congrArg (·.clients) reach), tx.trans (congrArg (·.tx) reach)⟩
    rw [retire, queue_abortMigration stands moves]
  · have stepped := wipeStepped_eq stands zeroing
    refine ⟨fun early => ?_, fun last more => ?_, fun last whole => ?_⟩
    · exact stepped.trans (if_pos (by omega))
    · exact stepped.trans ((if_neg (by omega)).trans (if_pos more))
    · exact stepped.trans ((if_neg (by omega)).trans (if_neg (by omega)))
  · intro holds
    rw [Part.endHold, Part.endHolds, accesses_single] <;> rfl
  · exact (leaveHold_read executes).trans (if_pos clear)
  · exact (leaveHold_read executes).trans (if_neg waits)

end Sys2Proof.Machine

end

section
/-! PROOFS. CONFIGURE and RETIRE (R8 to R11, R112, R140, R143, R157, R158, R163, R182). -/

namespace Sys2Proof.Machine

set_option Elab.async false

/-! ### Top-up (R8, R11) -/

/-- R8: the frames that top-up moves. -/
def Pool.toppedUp (p : Pool) : List FrameId := (p.framesIn .free).take (p.spareTarget - p.count .spare)

theorem toppedUp_nodup (p : Pool) : p.toppedUp.Nodup :=
  (((indices_ascend _ _).imp fun h => h.ne).sublist (List.take_sublist _ _))

theorem free_of_toppedUp {p : Pool} {f : FrameId} (mem : f ∈ p.toppedUp) : (tget p.frames f).state = .free :=
  beq_iff_eq.1 ((mem_indices _ _ f).1 (List.mem_of_mem_take mem))

/-- R8: top-up raises the SPARE count by the frames that it moves. -/
theorem count_topUp (p : Pool) : p.topUp.count .spare = p.count .spare + p.toppedUp.length := by
  have spare : ∀ f, (tget p.topUp.frames f).state = .spare ↔ (tget p.frames f).state = .spare ∨ f ∈ p.toppedUp := by
    intro f
    have moved : tget p.topUp.frames f = if f ∈ p.toppedUp then _ else _ := frames_topUp p f
    rw [moved]
    by_cases mem : f ∈ p.toppedUp
    · simp [mem]
    · simp [mem]
  have parts : ((List.finRange 4096).filter fun f => (tget p.topUp.frames f).state == .spare).Perm
      (((List.finRange 4096).filter fun f => (tget p.frames f).state == .spare) ++ p.toppedUp) := by
    refine (List.perm_ext_iff_of_nodup ((List.nodup_finRange _).filter _) ?_).2 fun f => ?_
    · refine List.nodup_append'.2 ⟨(List.nodup_finRange _).filter _, toppedUp_nodup p, fun f old new => ?_⟩
      have free := free_of_toppedUp new
      rw [beq_iff_eq.1 (List.mem_filter.1 old).2] at free
      cases free
    · simp [spare]
  rw [Pool.count, Pool.count, tcount_eq, tcount_eq, ← List.length_append]
  exact parts.length_eq

/-- R8, R11: top-up behind a change of the pool. -/
theorem settleSpare_spec (p : Part) (before : Pool) :
    let q := p.settleSpare before
    let spare := ((List.finRange 4096).filter fun f => (p.frame f).state == .spare).length
    let moved := ((List.finRange 4096).filter fun f => (p.frame f).state == .free).take (p.pool.spareTarget - spare)
    let began : Prop := before.spareTarget ≤ before.count .spare ∧ spare + moved.length < p.pool.spareTarget
    (∀ f, q.frame f = if f ∈ moved then
      { p.frame f with state := .spare, region := none, doomed := false } else p.frame f) ∧
    (began → q.clients = (p.notify .reserve 0).clients) ∧ (¬ began → q.clients = p.clients) := by
  intro q spare moved began
  have count : p.pool.count .spare = spare := count_eq p .spare
  have same : p.pool.toppedUp = moved := by rw [Pool.toppedUp, framesIn_eq, count]
  have test : (!before.shortfall && p.pool.topUp.shortfall) = true ↔ began := by
    have target : p.pool.topUp.spareTarget = p.pool.spareTarget := (moves_topUp p.pool).target
    simp [Pool.shortfall, count_topUp, target, count, same, began]
  refine ⟨fun f => ?_, fun yes => ?_, fun no => ?_⟩
  · rw [Part.frame, pool_settleSpare, frames_topUp, ← same]
    rfl
  · show (p.settleSpare before).clients = _
    rw [Part.settleSpare]
    dsimp only
    rw [if_pos (test.2 yes)]
    rfl
  · show (p.settleSpare before).clients = _
    rw [Part.settleSpare]
    dsimp only
    rw [if_neg (mt test.1 no)]

/-! ### RETIRE (R157, R158) -/

/-- R157: a frame that no segment counts leaves without a change of the claim counts. -/
theorem leave_uncounted {p : Pool} {f : FrameId} (st : FrameState) (uncounted : (tget p.frames f).state.counted = false) :
    p.leave f st =
      { p with frames := tset p.frames f { tget p.frames f with state := st, region := none, doomed := false } } := by
  rw [Pool.leave, uncounted]
  rfl

theorem serveRetire_frame {p : Part} {c : ClientId} {tag : Byte} {n : Half} {f : FrameId} (names : n.toNat = f.val) :
    p.serveRetire c tag n = (p.retireFrame f).react.answer c 50 tag .done [] := by
  have below : n.toNat < 4096 := names ▸ f.isLt
  have same : (⟨n.toNat, below⟩ : FrameId) = f := Fin.ext names
  rw [Part.serveRetire, dif_pos below, same]

section Retire
variable {p : Part} {f : FrameId}

theorem retireFrame_free (free : (p.frame f).state = .free ∨ (p.frame f).state = .dirty) : p.retireFrame f =
    { p with pool := { p.pool with
      frames := tset p.pool.frames f { p.frame f with state := .retired, region := none, doomed := false } } } := by
  have uncounted : (tget p.pool.frames f).state.counted = false := by
    rcases free with e | e
    · exact congrArg FrameState.counted e
    · exact congrArg FrameState.counted e
  have left := leave_uncounted .retired uncounted
  rw [Part.retireFrame]
  rcases free with e | e
  · rw [e]
    exact congrArg (fun g => ({ p with pool := g } : Part)) left
  · rw [e]
    exact congrArg (fun g => ({ p with pool := g } : Part)) left

theorem retireFrame_spare (spare : (p.frame f).state = .spare) : p.retireFrame f =
    ({ p with pool := { p.pool with
      frames := tset p.pool.frames f { p.frame f with state := .retired, region := none, doomed := false } } } :
        Part).settleSpare p.pool := by
  have left := leave_uncounted (p := p.pool) .retired (congrArg FrameState.counted spare)
  rw [Part.retireFrame, spare]
  exact congrArg (fun g => ({ p with pool := g } : Part).settleSpare p.pool) left

theorem retireFrame_held (held : (p.frame f).state = .claimed ∨ (p.frame f).state = .held) :
    p.retireFrame f = if (p.frame f).doomed then p else p.doom f := by
  rw [Part.retireFrame]
  rcases held with e | e
  · rw [e]
  · rw [e]

theorem retireFrame_target {slot : SlotId} (target : (p.frame f).state = .target) (named : (p.frame f).region = some slot) :
    p.retireFrame f = p.abortMigration slot .retired := by
  rw [Part.retireFrame, target]
  dsimp only
  rw [named]

theorem retireFrame_retired (retired : (p.frame f).state = .retired) : p.retireFrame f = p := by
  rw [Part.retireFrame, retired]

end Retire

/-- Settles O58. -/
theorem retireActsByFrameState : Obligations.RetireActsByFrameState := by
  refine ⟨fun s tag n free => ⟨fun beyond => ?_, fun f names => ?_⟩, fun p slot r m stands moves => ⟨?_, ?_⟩, settleSpare_spec⟩
  · exact next_served (r := .retire n) free rfl (.inr rfl) (dif_neg (Nat.not_lt.2 beyond))
  · intro p g after out
    have retire : ∀ q, p.retireFrame f = q → after q := fun q acts =>
      next_served (r := .retire n) free rfl (.inr rfl) (acts ▸ serveRetire_frame names)
    refine ⟨fun idle => retire _ (retireFrame_free idle), fun spare => retire _ (retireFrame_spare spare),
      fun held sound => retire _ ?_, fun held doomed => retire _ ?_,
      fun slot target named => retire _ (retireFrame_target target named), fun retired => retire _ (retireFrame_retired retired)⟩
    · exact (retireFrame_held (p := p) held).trans (if_neg fun doomed => Bool.false_ne_true (sound.symm.trans doomed))
    · exact (retireFrame_held (p := p) held).trans (if_pos doomed)
  · exact (slot_abortMigration p slot .retired r stands).1
  · rw [frame_abortMigration p slot .retired r stands, moves]
    simp only [if_true]

/-! ### CONFIGURE (R9, R112, R140, R143, R163, R182) -/

theorem eightOfByte_beyond {b : Byte} (beyond : 7 < b.toNat) : eightOfByte b = none :=
  dif_neg (by omega)

theorem eightOfByte_ofNat (d : ClientId) : eightOfByte (BitVec.ofNat 8 d.val) = some d := by
  revert d
  decide

section Quota
variable {p : Part} {c : ClientId} {tag client : Byte} {v : Nat}

theorem configureQuota_unknown (beyond : 7 < client.toNat) :
    p.configureQuota c tag client v = p.answer c 48 tag .badValue [] := by
  rw [Part.configureQuota, eightOfByte_beyond beyond]

theorem configureQuota_eq (d : ClientId) : p.configureQuota c tag (BitVec.ofNat 8 d.val) v =
    if 4096 < v then p.answer c 48 tag .badValue []
    else if p.ownedSlots d = [] then (p.modClient d fun k => { k with quota := v }).answer c 48 tag .done []
    else p.answer c 48 tag .busy [] := by
  rw [Part.configureQuota, eightOfByte_ofNat]
  refine if_congr Iff.rfl rfl ?_
  cases p.ownedSlots d <;> rfl

end Quota

/-- R9: the spare target. -/
theorem setSpareTarget_raised {p : Part} {v : Nat} (raised : p.pool.spareTarget < v) :
    p.setSpareTarget v = ({ p with pool := { p.pool with spareTarget := v } } : Part).settleSpare p.pool := if_pos raised

theorem setSpareTarget_lowered {p : Part} {v : Nat} (lowered : v ≤ p.pool.spareTarget) : p.setSpareTarget v =
    { p with pool := ({ p.pool with spareTarget := v } : Pool).shed } := if_neg (Nat.not_lt.2 lowered)

theorem spareTarget_set (p : Part) (v : Nat) : (p.setSpareTarget v).pool.spareTarget = v := by
  by_cases raised : p.pool.spareTarget < v
  · rw [setSpareTarget_raised raised, pool_settleSpare]
    exact (moves_topUp _).target
  · rw [setSpareTarget_lowered (Nat.not_lt.1 raised)]
    exact (moves_shed _).target

/-- R9: the frames that a lowered target frees. -/
theorem frame_shed (p : Part) (v : Nat) (f : FrameId) :
    let spare := (List.finRange 4096).filter fun f => (p.frame f).state == .spare
    tget ({ p.pool with spareTarget := v } : Pool).shed.frames f =
      if f ∈ spare.reverse.take (spare.length - v) then { p.frame f with state := .free, region := none, doomed := false }
      else p.frame f := by
  intro spare
  have count : p.pool.count .spare = spare.length := count_eq p .spare
  have frames : p.pool.framesIn .spare = spare := framesIn_eq p .spare
  refine (frames_leaves _ ({ p.pool with spareTarget := v } : Pool) .free f).trans ?_
  rw [show ({ p.pool with spareTarget := v } : Pool).framesIn .spare = spare from frames,
    show ({ p.pool with spareTarget := v } : Pool).count .spare = spare.length from count]
  rfl

theorem setScrubInterval_cases (p : Part) (v : Nat) :
    (v = 0 → p.setScrubInterval v = { p with scrub := { p.scrub with interval := 0, timer := none } }) ∧
    (v ≠ 0 → (p.scrub.interval ≠ 0 ∨ p.scrub.current ≠ none) →
      p.setScrubInterval v = { p with scrub := { p.scrub with interval := v } }) ∧
    (v ≠ 0 → p.scrub.interval = 0 → p.scrub.current = none →
      p.setScrubInterval v = ({ p with scrub := { p.scrub with interval := v } } : Part).startScrubTimer) := by
  have starts : (p.scrub.interval == 0 && p.scrub.current.isNone) = true ↔
      p.scrub.interval = 0 ∧ p.scrub.current = none := by simp
  refine ⟨fun zero => ?_, fun some_ runs => ?_, fun some_ stopped idle => ?_⟩
  · subst zero
    rfl
  · exact (if_neg (mt beq_iff_eq.1 some_)).trans (if_neg fun h => by
      obtain ⟨stopped, idle⟩ := starts.1 h
      exact runs.elim (· stopped) (· idle))
  · exact (if_neg (mt beq_iff_eq.1 some_)).trans (if_pos (starts.2 ⟨stopped, idle⟩))

/-- R163: the idle timeout, set by a request whose taking restarts the idle timer. -/
theorem setIdleTimeout_taken (p : Part) (v : Nat) : p.taken.setIdleTimeout v = { p with power := { p.power with
    idleTimeout := v
    idleTimer := if v = 0 then none else some (10 * v) } } := by
  simp only [Part.setIdleTimeout, Part.taken, Part.startIdle, beq_iff_eq]

/-- R182: a selector that names no parameter. -/
theorem serveConfigure_unknown {p : Part} {c : ClientId} {tag selector client : Byte} {value : Half}
    (beyond : 5 < selector.toNat) :
    p.serveConfigure c tag selector client value = p.answer c 48 tag .badValue [] := by
  obtain ⟨n, named⟩ : ∃ n, selector.toNat = n + 6 := ⟨selector.toNat - 6, by omega⟩
  rw [Part.serveConfigure, named] <;> rfl

/-- Settles O57. -/
theorem configureSetsParameters : Obligations.ConfigureSetsParameters := by
  refine ⟨fun s tag client v free => ?_, fun p v => ?_, setScrubInterval_cases⟩
  · intro set
    have row : ∀ selector q, s.part.taken.serveConfigure 0 tag selector client v = q →
        (Host.Outcome.next (s.withPart (s.part.arrive 0 tag (.configure selector client v))) :
          Host.Outcome State Fault Refusal) = .next (s.withPart q.closeAct) :=
      fun selector q served => next_served free rfl (.inr rfl) served
    refine ⟨row 0 _ rfl, row 1 _ ?_, row 2 _ rfl, row 3 _ rfl, row 4 _ ?_, fun beyond => row 5 _ ?_, fun d names => ?_,
      fun selector beyond => row selector _ ?_⟩
    · rw [Bool.decide_and]
      rfl
    · rw [← setIdleTimeout_taken]
      rfl
    · exact configureQuota_unknown beyond
    · subst names
      refine ⟨fun beyond => row 5 _ ?_, fun within owns => row 5 _ ?_, fun within none => row 5 _ ?_⟩
      · exact (configureQuota_eq d).trans (if_pos beyond)
      · exact (configureQuota_eq d).trans ((if_neg (Nat.not_lt.2 within)).trans (if_neg owns))
      · exact (configureQuota_eq d).trans ((if_neg (Nat.not_lt.2 within)).trans (if_pos none))
    · exact serveConfigure_unknown beyond
  · intro q free spare raised shed began
    refine ⟨spareTarget_set p v, fun up => ?_, fun down => ?_⟩
    · have moved := settleSpare_spec { p with pool := { p.pool with spareTarget := v } } p.pool
      have e : q = _ := setSpareTarget_raised up
      have count : p.pool.count .spare = spare.length := count_eq p .spare
      rw [e]
      obtain ⟨frames, yes, no⟩ := moved
      refine ⟨frames, fun begins => yes ⟨?_, begins.2⟩, fun stays => no fun begins => stays ⟨?_, begins.2⟩⟩
      · rw [count]
        exact begins.1
      · rw [← count]
        exact begins.1
    · have e : q = _ := setSpareTarget_lowered down
      rw [e]
      exact ⟨rfl, frame_shed p v⟩

end Sys2Proof.Machine

end

section
/-! PROOFS. STANDBY, POWERDOWN and the idle timer (R163 to R166, R172). -/

namespace Sys2Proof.Machine

set_option Elab.async false

/-! ### The conditions (R164) -/

/-- R164: the six standby conditions. -/
def Part.mayStandby (p : Part) : Prop :=
  p.writeQueue = [] ∧
  (∀ slot r, p.region slot = some r → r.state ≠ .filling ∧ r.extension = none ∧ r.wipe = none) ∧
  (∀ c x, p.work c = some x →
    (∀ v a ph, x ≠ .read v a ph) ∧ (∀ a l ph, x ≠ .write a l ph) ∧ ∀ slot, x ≠ .flush slot) ∧
  p.thermal.cls ≠ .freeze ∧ p.thermal.cls ≠ .overheat

theorem isAccess_eq_false (x : Work) : x.isAccess = false ↔
    (∀ v a ph, x ≠ .read v a ph) ∧ (∀ a l ph, x ≠ .write a l ph) ∧ ∀ slot, x ≠ .flush slot := by
  cases x <;> simp [Work.isAccess]

theorem slotsWhere_isEmpty (p : Part) (P : Region → Bool) :
    (p.slotsWhere P).isEmpty = true ↔ ∀ slot r, p.region slot = some r → P r = false := by
  rw [List.isEmpty_iff, List.eq_nil_iff_forall_not_mem]
  simp only [mem_slotsWhere, not_exists, not_and, Bool.not_eq_true]

theorem standbyAllowed_iff (p : Part) : p.standbyAllowed = true ↔ p.mayStandby := by
  have regions : (p.slotsWhere fun r => r.state == .filling || r.extension.isSome || r.wipe.isSome).isEmpty = true ↔
      ∀ slot r, p.region slot = some r → r.state ≠ .filling ∧ r.extension = none ∧ r.wipe = none := by
    rw [slotsWhere_isEmpty]
    simp only [Bool.or_eq_false_iff, beq_eq_false_iff_ne, Option.isSome_eq_false_iff, Option.isNone_iff_eq_none, and_assoc]
  have work : (!(allClients.any fun c => ((p.work c).map Work.isAccess).getD false)) = true ↔
      ∀ c x, p.work c = some x →
        (∀ v a ph, x ≠ .read v a ph) ∧ (∀ a l ph, x ≠ .write a l ph) ∧ ∀ slot, x ≠ .flush slot := by
    rw [Bool.not_eq_true', List.any_eq_false]
    simp only [mem_allClients, forall_const, Bool.not_eq_true]
    refine forall_congr' fun c => ?_
    cases p.work c with
    | none => simp
    | some x => simpa using isAccess_eq_false x
  have cool : (!p.thermalLimit) = true ↔ p.thermal.cls ≠ .freeze ∧ p.thermal.cls ≠ .overheat := by
    simp [Part.thermalLimit]
  rw [Part.standbyAllowed, Bool.and_eq_true, Bool.and_eq_true, Bool.and_eq_true, List.isEmpty_iff, regions, work, cool,
    Part.mayStandby, and_assoc, and_assoc]

/-! ### Entering STANDBY (R155, R166) -/

theorem anyQueued_iff (p : Part) : (allClients.any fun c => !(p.client c).queue.isEmpty) = true ↔
    ∃ c, (p.client c).queue ≠ [] := by
  simp [mem_allClients]

/-- R166: the part that enters STANDBY, before its power state is set. -/
def Part.asleep (p : Part) : Part :=
  let q := (p.withdrawScrub.modBanks Bank.pauseCopy).stopIdle
  { q with power := { q.power with masked := p.pool.maskable } }

theorem enterStandby_eq (p : Part) : p.enterStandby = p.asleep.setPower
    (if (allClients.any fun c => !(p.client c).queue.isEmpty) = true then .waking .standby else .standby) := by
  unfold Part.enterStandby
  dsimp only
  split
  · rfl
  · rfl

theorem asleep_rest (p : Part) (st : PowerState) :
    let q := p.asleep.setPower st
    q.slots = p.slots ∧ q.pool = p.pool ∧ q.scrub = p.scrub ∧ q.zero = p.zero ∧ q.retire = p.retire ∧
      q.clients = p.clients ∧ q.tx = p.tx := by
  cases p
  exact ⟨rfl, rfl, rfl, rfl, rfl, rfl, rfl⟩

theorem mem_maskable (p : Pool) (g : SegId) : g ∈ p.maskable ↔ (tget p.segments g).cls ≠ .keep := by
  rw [Pool.maskable, mem_indices, bne_iff_ne]

/-- R155, R166: what the engines have waiting at a bank is withdrawn, but for a write half. -/
theorem bank_asleep (p : Part) (b : BankId) :
    let half : Prop := ∃ f t n l cs, (p.bank b).copy = some (.writeHalf f t n l cs)
    (half → p.asleep.bank b = { p.bank b with scrub := none }) ∧
    (¬ half → p.asleep.bank b = { p.bank b with scrub := none, copy := none, copyWait := 0 }) := by
  have bank : p.asleep.bank b = ({ p.bank b with scrub := none } : Bank).pauseCopy := by
    show (p.withdrawScrub.modBanks Bank.pauseCopy).bank b = _
    rw [bank_modBanks, Part.withdrawScrub, bank_modBanks]
  rw [bank, Bank.pauseCopy]
  refine ⟨fun ⟨f, t, n, l, cs, half⟩ => ?_, fun whole => ?_⟩
  · dsimp only
    rw [half]
  · dsimp only
    split
    · next half => exact absurd ⟨_, _, _, _, _, half⟩ whole
    · rfl

/-! ### Entering DOWN (R172) -/

/-- R172: the part that enters DOWN, before its power state is set. -/
def Part.shutDown (p : Part) : Part :=
  let q := (p.modBanks fun k => { k with slotTimer := none, owed := none }).stopIdle
  { q with scrub := { q.scrub with timer := none } }

theorem enterDown_eq (p : Part) : p.enterDown =
    p.shutDown.setPower (if (p.client 0).queue.isEmpty = true then .down else .waking .down) := by
  unfold Part.enterDown
  dsimp only
  split
  · rfl
  · rfl

theorem bank_shutDown (p : Part) (b : BankId) : p.shutDown.bank b = { p.bank b with slotTimer := none, owed := none } :=
  bank_modBanks p _ b

/-! ### The idle timer (R164) -/

theorem execIdle_due (s : State) (due : s.part.power.idleTimer = some 0) (running : s.part.running = true) :
    exec .idleTimerExpiry s = .next (s.withPart s.part.idleExpiry.closeAct) := by
  show execIdleTimerExpiry s = _
  rw [execIdleTimerExpiry, if_pos (by rw [running, due]; rfl)]

theorem execIdle_early (s : State) (early : s.part.power.idleTimer ≠ some 0) : exec .idleTimerExpiry s = .next s := by
  show execIdleTimerExpiry s = _
  rw [execIdleTimerExpiry, if_neg fun due => early (beq_iff_eq.1 (Bool.and_eq_true_iff.1 due).2)]

/-- Settles O59. -/
theorem standbyAndPowerdown : Obligations.StandbyAndPowerdown := by
  refine ⟨fun s => ?_, fun p => ?_, fun p => ?_, fun p => ?_⟩
  · intro p allowed
    have conditions : p.standbyAllowed = true ↔ allowed := standbyAllowed_iff p
    refine ⟨fun released active => ⟨fun due => ⟨fun may => ?_, fun not_ => ?_⟩, fun early => ?_⟩, fun tag free =>
      ⟨fun may => ?_, fun not_ => ?_, fun empty => ?_, fun ⟨slot, r, stands⟩ => ?_⟩⟩
    · rw [execIdle_due s due ((running_iff p).2 ⟨released, active⟩), Part.idleExpiry, if_pos (conditions.2 may)]
    · rw [execIdle_due s due ((running_iff p).2 ⟨released, active⟩), Part.idleExpiry, if_neg (mt conditions.1 not_)]
    · exact execIdle_early s early
    · exact next_served (r := .standby) free rfl (.inr rfl) (if_pos (conditions.2 may))
    · exact next_served (r := .standby) free rfl (.inr rfl) (if_neg (mt conditions.1 not_))
    · refine next_served (r := .powerdown) free rfl (.inr rfl) (if_pos ?_)
      refine (slotsWhere_isEmpty p _).2 fun slot r stands => ?_
      rw [empty slot] at stands
      cases stands
    · refine next_served (r := .powerdown) free rfl (.inr rfl) (if_neg fun empty => ?_)
      cases (slotsWhere_isEmpty p _).1 empty slot r stands
  · simp only [Part.startIdle, beq_iff_eq]
  · intro q
    have e : q = _ := enterStandby_eq p
    refine ⟨fun empty => ?_, fun queued => ?_, ?_, ?_, fun g => ?_, fun b => ?_, ?_⟩
    · rw [e, if_neg fun queued => ?_]
      · rfl
      · obtain ⟨c, queued⟩ := (anyQueued_iff p).1 queued
        exact queued (empty c)
    · rw [e, if_pos ((anyQueued_iff p).2 queued)]
      rfl
    · rw [e]
      rfl
    · rw [e]
      rfl
    · rw [e]
      exact mem_maskable p.pool g
    · rw [e]
      exact bank_asleep p b
    · rw [e]
      exact asleep_rest p _
  · intro q
    have e : q = _ := enterDown_eq p
    refine ⟨fun empty => ?_, fun queued => ?_, ?_, fun b => ?_, ?_⟩
    · rw [e, if_pos (List.isEmpty_iff.2 empty)]
      rfl
    · rw [e, if_neg fun empty => queued (List.isEmpty_iff.1 empty)]
      rfl
    · rw [e]
      rfl
    · rw [e]
      exact bank_shutDown p b
    · rw [e]
      exact ⟨rfl, rfl, rfl, rfl, rfl, rfl⟩

end Sys2Proof.Machine

end

section
/-! PROOFS. RESET (R3, R44, R118, R129, R184, R185, R189). -/

namespace Sys2Proof.Machine

set_option Elab.async false

/-! ### The requests that a soft reset ends (R118, R185) -/

theorem client_abortClient (p : Part) (c d : ClientId) : (p.abortClient c).client d =
    if c = d then { p.client d with queue := [], executing := none } else p.client d := by
  have queue : ∀ e, (p.abortQueue c).client e = if c = e then { p.client c with queue := [] } else p.client e := fun e => by
    rw [abortQueue_eq]
    exact client_modClient p c e _
  unfold Part.abortClient
  by_cases same : c = d
  · subst same
    rw [if_pos rfl]
    unfold Part.finish
    split
    · rw [client_answer, client_modClient, if_pos rfl, queue, if_pos rfl]
    · next idle =>
      rw [queue, if_pos rfl] at idle ⊢
      exact congrArg (fun e => ({ p.client c with queue := [], executing := e } : Client)) idle
  · rw [if_neg same, client_finish_ne _ c d _ _ (Ne.symm same), queue, if_neg same]

theorem client_abortClients (l : List ClientId) (p : Part) (d : ClientId) : (l.foldl Part.abortClient p).client d =
    if d ∈ l then { p.client d with queue := [], executing := none } else p.client d := by
  induction l generalizing p with
  | nil => rfl
  | cons c l ih =>
    rw [List.foldl_cons, ih, client_abortClient]
    by_cases same : c = d
    · subst same
      simp
    · rw [if_neg same]
      refine if_congr ?_ rfl rfl
      simp [Ne.symm same]

theorem client_serveReset (p : Part) (c d : ClientId) (tag : Byte) : (p.serveReset c tag).client d =
    if d = 0 then p.clearForReset.client d else { p.clearForReset.client d with queue := [], executing := none } := by
  have others : d ∈ ([1, 2, 3, 4, 5, 6, 7] : List ClientId) ↔ d ≠ 0 := by
    revert d
    decide
  rw [Part.serveReset, client_answer, client_abortClients]
  by_cases supervisor : d = 0
  · rw [if_neg (mt others.1 (not_not.2 supervisor)), if_pos supervisor]
  · rw [if_pos (others.2 supervisor), if_neg supervisor]

/-! ### The rest (R184) -/

theorem clearForReset_rest (p : Part) :
    let q := p.clearForReset
    q.cause = .soft ∧ q.thermal = p.thermal ∧ q.fills = [] ∧ q.writeQueue = [] ∧ q.posting = [] ∧ q.wipeHold = [] ∧
    q.retire = { p.retire with queue := [], engine := .idle } ∧ q.pool.spareTarget = p.pool.spareTarget ∧
    q.power = { p.power with
      idleTimer := if p.power.idleTimeout = 0 then none else some (10 * p.power.idleTimeout) } ∧ q.zero = p.zero := by
  cases p
  unfold Part.clearForReset Part.startIdle
  simp only [beq_iff_eq]
  split
  · exact ⟨rfl, rfl, rfl, rfl, rfl, rfl, rfl, rfl, rfl, rfl⟩
  · exact ⟨rfl, rfl, rfl, rfl, rfl, rfl, rfl, rfl, rfl, rfl⟩

theorem slots_clearForReset (p : Part) : p.clearForReset.slots = tmap Slot.softReset p.slots := by
  unfold Part.clearForReset
  dsimp only
  split
  · rfl
  · rfl

theorem clients_clearForReset (p : Part) :
    p.clearForReset.clients = tmapIdx (fun i k => k.softReset (i == 0)) p.clients := by
  unfold Part.clearForReset
  dsimp only
  split
  · rfl
  · rfl

theorem scrub_clearForReset (p : Part) : p.clearForReset.scrub = { p.scrub with
    current := none
    timer := if p.scrub.current = none then p.scrub.timer
      else if p.scrub.interval = 0 then none
      else some (p.scrub.interval *
        (if p.thermal.cls = .warm ∨ p.thermal.cls = .hot ∨ p.thermal.cls = .overheat then 50 else 100)) } := by
  unfold Part.clearForReset
  dsimp only
  split
  · next runs =>
    rw [if_neg (Option.isSome_iff_ne_none.1 runs), Part.abandonScrub, startScrubTimer_eq]
    rfl
  · next idle =>
    rw [Option.not_isSome_iff_eq_none] at idle
    rw [if_pos idle, ← idle]
    rfl

theorem bank_abandonScrub (p : Part) (b : BankId) : p.abandonScrub.bank b = { p.bank b with
    scrub := none
    running := (p.bank b).running.map fun x => { x with live := x.live && !x.op.isScrub } } := by
  show (p.withdrawScrub.disown (·.isScrub)).bank b = _
  rw [bank_disown, Part.withdrawScrub, bank_modBanks]

/-- R129: a bank after a soft reset: nothing waits but a ZERO STEP, and no operation but a ZERO STEP counts. -/
def Bank.afterReset (k : Bank) : Bank := { k with
  reads := [], fresh := [], turns := [], copy := none, scrub := none, copyWait := 0
  running := k.running.map fun x => { x with live := x.live && x.op.isZero } }

theorem bank_softReset (p : Part) (b : BankId) :
    ((p.modBanks Bank.softReset).disown fun op => !op.isZero).bank b = (p.bank b).afterReset := by
  rw [bank_disown, bank_modBanks]
  simp only [Bool.not_not]
  rfl

/-- R129: no SCRUB STEP counts any more when the scrub engine abandons its frame. -/
theorem afterReset_abandons (k : Bank) : ({ k.afterReset with
    scrub := none
    running := k.afterReset.running.map fun x => { x with live := x.live && !x.op.isScrub } } : Bank) = k.afterReset := by
  have stops : ∀ (live : Bool) (op : BankOp), (live && op.isZero && !op.isScrub) = (live && op.isZero) := by
    intro live op
    cases op <;> simp [BankOp.isZero, BankOp.isScrub]
  simp only [Bank.afterReset, Option.map_map, Function.comp_def, stops]

theorem bank_clearForReset (p : Part) (b : BankId) : p.clearForReset.bank b = (p.bank b).afterReset := by
  unfold Part.clearForReset
  dsimp only
  split
  · refine (bank_abandonScrub _ b).trans (Eq.trans ?_ (afterReset_abandons (p.bank b)))
    rw [← bank_softReset p b]
    rfl
  · exact bank_softReset p b

theorem frame_softReset (g : Frame) : g.softReset = { g with
    state := match g.state with
      | .claimed | .held => if g.doomed then .retired else .dirty
      | .target => .dirty
      | .free => .free
      | .dirty => .dirty
      | .spare => .spare
      | .retired => .retired
    region := none
    doomed := false } := by
  rw [Frame.softReset]
  cases g.state <;> rfl

/-- Settles O60. -/
theorem softResetClearsAndKeeps : Obligations.SoftResetClearsAndKeeps := by
  refine ⟨fun s tag free => next_served (r := .reset) free rfl (.inr rfl) rfl, fun p tag => ?_⟩
  intro q
  obtain ⟨x, told⟩ := reach_serveReset p 0 tag
  have e : q = p.clearForReset.told x := told
  have client : ∀ d, q.client d = _ := fun d => client_serveReset p 0 d tag
  have old : ∀ d, p.clearForReset.client d = (p.client d).softReset (d.val == 0) := fun d => by
    rw [Part.client, clients_clearForReset, tget_tmapIdx] <;> rfl
  have supervisor : ∀ d : ClientId, (d.val == 0) = (d == 0) := by decide
  obtain ⟨cause, thermal, fills, entries, posting, wipeHold, retire, target, power, zero⟩ := clearForReset_rest p
  refine ⟨?_, ?_, ?_, ?_, ?_, ?_, ?_, ?_, ?_, ?_, ?_, fun b => ?_, ?_, fun slot => ?_, fun c => ?_, fun c other => ?_, ?_, ?_,
    fun f => ?_⟩
  · rw [e]; exact cause
  · rw [e]; exact thermal
  · rw [e]; exact fills
  · rw [e]; exact entries
  · rw [e]; exact posting
  · rw [e]; exact wipeHold
  · rw [e]; exact retire
  · rw [e]; exact target
  · rw [e]; exact power
  · rw [e]; exact zero
  · rw [e]; exact scrub_clearForReset p
  · rw [e]
    exact (bank_clearForReset p b).trans rfl
  · exact ⟨_, List.getLast?_concat⟩
  · have slots : q.slots = tmap Slot.softReset p.slots := by
      rw [e]
      exact slots_clearForReset p
    rw [Part.region, Part.generation, slots, tget_tmap]
    exact ⟨rfl, rfl⟩
  · rw [client, old, supervisor]
    split
    · exact ⟨rfl, rfl, rfl, rfl⟩
    · exact ⟨rfl, rfl, rfl, rfl⟩
  · have bit : (c == 0) = false := beq_eq_false_iff_ne.2 other
    rw [client, if_neg other, old, supervisor, bit]
    exact ⟨rfl, rfl, rfl⟩
  · rw [client, if_pos rfl, old] <;> rfl
  · rw [client, if_pos rfl, old] <;> rfl
  · have pool : q.pool = p.clearForReset.pool := by rw [e]
    have reset : q.frame f = (p.frame f).softReset := by
      rw [Part.frame, pool, clearForReset_pool]
      exact tget_tmap _ _ f
    exact reset.trans (frame_softReset _)

end Sys2Proof.Machine

end

section
/-! PROOFS. The arbiter of a bank (R97, R98, R119, R120, R122 to R125). -/

namespace Sys2Proof.Machine

set_option Elab.async false

/-! ### The ranking (R122, R124, R125) -/

section Choose
variable {k : Bank} {heavy : Bool}

theorem choose_refresh {g : SegId} (owed : k.owed = some g) : k.choose heavy = some (.refresh g) := by
  rw [Bank.choose, owed]

variable (unowed : k.owed = none)
include unowed

theorem choose_late {o : CopyOp} (copy : k.copy = some o) (late : 16 ≤ k.copyWait) : k.choose heavy = some (.copy o) := by
  have due : (if Config.maxCopyWait ≤ k.copyWait then k.copy else none) = some o := (if_pos late).trans copy
  rw [Bank.choose, unowed]
  dsimp only
  rw [due]

variable (early : k.copyWait < 16 ∨ k.copy = none)
include early

theorem choose_early : k.choose heavy = if heavy && k.offers then some (.turn .drainOffer)
    else match k.reads with
      | r :: _ => some (.read r)
      | [] => match k.turns with
        | t :: _ => some (.turn t)
        | [] => match k.copy with
          | some c => some (.copy c)
          | none => match k.zero with
            | some (f, n) => some (.zero f n)
            | none => k.scrub.map fun x => .scrub x.1 x.2 := by
  have due : (if Config.maxCopyWait ≤ k.copyWait then k.copy else none) = none := by
    rcases early with few | none
    · exact if_neg (Nat.not_le.2 few)
    · rw [none, ite_self]
  rw [Bank.choose, unowed]
  dsimp only
  rw [due] <;> rfl

theorem choose_heavy (full : heavy = true) (offer : Turn.drainOffer ∈ k.turns) :
    k.choose heavy = some (.turn .drainOffer) := by
  have offers : k.offers = true := List.contains_iff_mem.2 offer
  rw [choose_early unowed early, full, offers]
  rfl

variable (light : heavy = false ∨ Turn.drainOffer ∉ k.turns)
include light

theorem choose_ranked : k.choose heavy = match k.reads with
      | r :: _ => some (.read r)
      | [] => match k.turns with
        | t :: _ => some (.turn t)
        | [] => match k.copy with
          | some c => some (.copy c)
          | none => match k.zero with
            | some (f, n) => some (.zero f n)
            | none => k.scrub.map fun x => .scrub x.1 x.2 := by
  have idle : ¬ (heavy && k.offers) = true := fun both => by
    obtain ⟨full, offers⟩ := Bool.and_eq_true_iff.1 both
    rcases light with light | none
    · exact Bool.false_ne_true (light.symm.trans full)
    · exact none (List.contains_iff_mem.1 offers)
  rw [choose_early unowed early, if_neg idle] <;> rfl

end Choose

/-! ### Acceptance (R119, R125) -/

theorem modBank_const (p : Part) (b : BankId) (f : Bank → Bank) : p.modBank b f = p.modBank b fun _ => f (p.bank b) := by
  simp only [Part.modBank, tmod, Part.bank]

theorem passCopy_eq (k : Bank) :
    k.passCopy = { k with copyWait := if k.copy = none then k.copyWait else min 16 (k.copyWait + 1) } := by
  unfold Bank.passCopy
  rw [saturate_eq]
  cases copy : k.copy with
  | none =>
    rw [if_neg (by simp), if_pos rfl, ← copy]
  | some o => rfl

/-- R125: a copy's wait count stays within 16. -/
theorem copyWait_passCopy {k : Bank} (few : k.copyWait ≤ 16) : k.passCopy.copyWait ≤ 16 := by
  rw [passCopy_eq]
  dsimp only
  split
  · exact few
  · exact Nat.min_le_left _ _

theorem copyWait_modBank {p : Part} {b d : BankId} {f : Bank → Bank} (kept : ∀ k : Bank, k.copyWait ≤ 16 → (f k).copyWait ≤ 16)
    (few : (p.bank d).copyWait ≤ 16) : ((p.modBank b f).bank d).copyWait ≤ 16 := by
  rw [bank_modBank]
  split
  · next same => exact kept _ (same ▸ few)
  · exact few

theorem copyWait_acceptAt (p : Part) (b d : BankId) (few : (p.bank d).copyWait ≤ 16) :
    ((p.acceptAt b).bank d).copyWait ≤ 16 := by
  unfold Part.acceptAt
  split
  · exact few
  · split
    · exact few
    · exact copyWait_modBank (fun k h => h) few
    · exact copyWait_modBank (fun k h => copyWait_passCopy (k := { k with reads := k.reads.tail }) h) few
    · unfold Part.acceptDrain
      dsimp only
      split
      · split
        · exact copyWait_modBank
            (fun k h => copyWait_passCopy (k := { k with turns := k.turns.filter (· != .drainOffer) }) h) few
        · exact copyWait_modBank (fun k h => h) few
      · exact copyWait_modBank (fun k h => h) few
    · exact copyWait_modBank (fun k h => copyWait_passCopy (k := { k with turns := k.turns.tail }) h) few
    · exact copyWait_modBank (fun k _ => Nat.zero_le 16) few
    · exact copyWait_modBank (fun k h => h) few
    · exact copyWait_modBank (fun k h => h) few

section Accept
variable {p : Part} {b : BankId}

theorem acceptAt_busy (busy : (p.bank b).running ≠ none) : p.acceptAt b = p := by
  rw [Part.acceptAt, if_pos (Option.isSome_iff_ne_none.2 busy)]

variable (idle : (p.bank b).running = none)
include idle

theorem acceptAt_idle : p.acceptAt b = match (p.bank b).choose p.heavy with
    | none => p
    | some (.refresh s) => p.modBank b fun k => ({ k with owed := none }).start (.refresh s)
    | some (.read r) => p.modBank b fun k => (({ k with reads := k.reads.tail }).passCopy).start (.lineRead r)
    | some (.turn .drainOffer) => p.acceptDrain b
    | some (.turn (.wipeStep s f n)) =>
      p.modBank b fun k => (({ k with turns := k.turns.tail }).passCopy).start (.wipeStep s f n)
    | some (.copy c) => p.modBank b fun k => ({ k with copy := none, copyWait := 0 }).start (.copy c)
    | some (.zero f n) => p.modBank b fun k => ({ k with zero := none }).start (.zeroStep f n)
    | some (.scrub f n) => p.modBank b fun k => ({ k with scrub := none }).start (.scrubStep f n) := by
  rw [Part.acceptAt, if_neg (by rw [idle]; exact Bool.false_ne_true)] <;> rfl

theorem acceptAt_offer (chosen : (p.bank b).choose p.heavy = some (.turn .drainOffer)) : p.acceptAt b = p.acceptDrain b := by
  rw [acceptAt_idle idle, chosen]

end Accept

theorem acceptDrain_candidate {p : Part} {b : BankId} {e : Entry} {f : FrameId} (first : p.candidate b = some e)
    (stands : p.currentFrame e = some f) : p.acceptDrain b = p.modBank b fun k =>
      (({ k with turns := k.turns.filter fun t => t != .drainOffer } : Bank).passCopy).start (.drain e f) := by
  rw [Part.acceptDrain, first]
  dsimp only
  rw [stands]

theorem acceptDrain_none {p : Part} {b : BankId} (none : p.candidate b = none) : p.acceptDrain b =
    p.modBank b fun k => { k with turns := k.turns.filter fun t => t != .drainOffer } := by
  rw [Part.acceptDrain, none]

end Sys2Proof.Machine

end

section
/-! PROOFS. DRAIN candidates and offers, the order of LINE READs, the arbiters at the end of an act (R97, R98, R119, R120,
R123): the obligation. -/

namespace Sys2Proof.Machine

set_option Elab.async false

/-! ### DRAIN candidates (R97) -/

/-- R97: what makes an entry drainable at a bank. -/
def Part.drains (p : Part) (b : BankId) (e : Entry) : Prop :=
  ∃ f, p.currentFrame e = some f ∧ bankOf f = b ∧
    (∀ slot r m, p.region slot = some r → r.migration = some m → m.source ≠ f) ∧
    ∀ d x g, (p.bank d).running = some ⟨.drain x g, true⟩ → ¬ (x.handle.slot = e.handle.slot ∧ x.offset = e.offset)

theorem bank_drains_iff (k : Bank) (e : Entry) : k.drains e = true ↔
    ∃ x g, k.running = some ⟨.drain x g, true⟩ ∧ x.handle.slot = e.handle.slot ∧ x.offset = e.offset := by
  unfold Bank.drains
  split
  · next x g running =>
    rw [same_iff]
    constructor
    · exact fun same => ⟨x, g, running, same⟩
    · rintro ⟨y, h, other, same⟩
      cases running.symm.trans other
      exact same
  · next none =>
    simp only [Bool.false_eq_true, false_iff]
    rintro ⟨x, g, running, -⟩
    exact none x g running

theorem drainableAt_iff (p : Part) (b : BankId) (e : Entry) : p.drainableAt b e = true ↔ p.drains b e := by
  unfold Part.drainableAt Part.drains
  cases p.currentFrame e with
  | none => simp
  | some f =>
    have source : (!p.isSource f) = true ↔
        ∀ slot r m, p.region slot = some r → r.migration = some m → m.source ≠ f := by
      rw [Bool.not_eq_true', ← Bool.not_eq_true, isSource_iff]
      simp only [not_exists, not_and, ne_eq]
    have drained : (!(p.banks.toList.any (·.drains e))) = true ↔ ∀ d x g,
        (p.bank d).running = some ⟨.drain x g, true⟩ → ¬ (x.handle.slot = e.handle.slot ∧ x.offset = e.offset) := by
      rw [Bool.not_eq_true', ← Bool.not_eq_true, anyBank_iff]
      simp only [bank_drains_iff, not_exists]
      exact forall_congr' fun d => forall_congr' fun x => forall_congr' fun g => not_and
    simp only [Bool.and_eq_true, beq_iff_eq, source, drained, Option.some.injEq, exists_eq_left', and_assoc]

theorem candidate_eq {p : Part} {b : BankId} {older younger : List Entry} {e : Entry}
    (order : p.writeQueue = older ++ e :: younger) (before : ∀ x ∈ older, ¬ p.drains b x) (first : p.drains b e) :
    p.candidate b = some e := by
  rw [Part.candidate, List.find?_eq_some_iff_append]
  refine ⟨(drainableAt_iff p b e).2 first, older, younger, order, fun x mem => ?_⟩
  rw [Bool.not_eq_true', ← Bool.not_eq_true, drainableAt_iff]
  exact before x mem

theorem candidate_none {p : Part} {b : BankId} (stuck : ∀ e ∈ p.writeQueue, ¬ p.drains b e) : p.candidate b = none :=
  List.find?_eq_none.2 fun e mem => mt (drainableAt_iff p b e).1 (stuck e mem)

/-! ### Offers (R120, R123) -/

/-- One bank's offer is withdrawn or made. -/
def Part.offerStep (test : Bank → Option Entry → Bool) (f : Bank → Bank) (q : Part) (b : BankId) : Part :=
  if test (q.bank b) (q.candidate b) then q.modBank b f else q

section Offers
variable {test : Bank → Option Entry → Bool} {f : Bank → Bank} (running : ∀ k, (f k).running = k.running)
include running

theorem candidate_offerStep (q : Part) (a b : BankId) : (q.offerStep test f a).candidate b = q.candidate b := by
  unfold Part.offerStep
  split
  · refine candidate_banks q _ (fun d e => ?_) b
    have bank : ((q.modBank a f).bank d).running = (q.bank d).running := by
      rw [bank_modBank]
      split
      · next same => rw [running, same]
      · rfl
    exact Bool.eq_iff_iff.2 (by rw [bank_drains_iff, bank_drains_iff]; exact bank ▸ Iff.rfl)
  · rfl

theorem bank_offerSteps (l : List BankId) (once : l.Nodup) (q : Part) (b : BankId) :
    (l.foldl (Part.offerStep test f) q).bank b =
      if b ∈ l ∧ test (q.bank b) (q.candidate b) = true then f (q.bank b) else q.bank b := by
  induction l generalizing q with
  | nil => simp
  | cons a l ih =>
    obtain ⟨new, once⟩ := List.nodup_cons.1 once
    have other : a ≠ b → (q.offerStep test f a).bank b = q.bank b := by
      intro other
      unfold Part.offerStep
      split
      · rw [bank_modBank, if_neg other]
      · rfl
    rw [List.foldl_cons, ih once, candidate_offerStep running]
    by_cases same : a = b
    · subst same
      rw [if_neg (fun h => new h.1)]
      unfold Part.offerStep
      by_cases passes : test (q.bank a) (q.candidate a) = true
      · rw [if_pos passes, if_pos ⟨List.mem_cons_self, passes⟩, bank_modBank_same]
      · rw [if_neg passes, if_neg (fun h => passes h.2)]
    · rw [other same]
      refine if_congr ?_ rfl rfl
      rw [List.mem_cons]
      exact and_congr_left fun _ => ⟨.inr, fun h => h.resolve_left (Ne.symm same)⟩

end Offers

theorem bank_withdrawOffers_eq (p : Part) (b : BankId) : p.withdrawOffers.bank b = { p.bank b with
    turns := if p.candidate b = none then (p.bank b).turns.filter (fun t => t != .drainOffer) else (p.bank b).turns } := by
  have steps : p.withdrawOffers.bank b = _ := bank_offerSteps (test := fun k e => k.offers && e.isNone)
    (f := fun k => { k with turns := k.turns.filter fun t => t != .drainOffer }) (fun _ => rfl) allBanks (by decide) p b
  rw [steps]
  by_cases none : p.candidate b = none
  · rw [if_pos none]
    by_cases offer : (p.bank b).offers = true
    · rw [if_pos ⟨mem_allBanks b, by rw [none, offer]; rfl⟩]
    · have whole : (p.bank b).turns.filter (fun t => t != .drainOffer) = (p.bank b).turns := by
        refine List.filter_eq_self.2 fun t mem => bne_iff_ne.2 ?_
        rintro rfl
        exact offer (List.contains_iff_mem.2 mem)
      rw [if_neg (fun h => offer (Bool.and_eq_true_iff.1 h.2).1), whole]
  · rw [if_neg none, if_neg]
    exact fun h => none (Option.isNone_iff_eq_none.1 (Bool.and_eq_true_iff.1 h.2).2)

theorem bank_makeOffers_eq (p : Part) (b : BankId) : p.makeOffers.bank b = { p.bank b with
    turns := if Turn.drainOffer ∈ (p.bank b).turns ∨ p.candidate b = none ∨ (p.bank b).draining = true
      then (p.bank b).turns else (p.bank b).turns ++ [.drainOffer] } := by
  have steps : p.makeOffers.bank b = _ := bank_offerSteps (test := fun k e => !k.offers && !k.draining && e.isSome)
    (f := fun k => { k with turns := k.turns ++ [.drainOffer] }) (fun _ => rfl) allBanks (by decide) p b
  have test : (!(p.bank b).offers && !(p.bank b).draining && (p.candidate b).isSome) = true ↔
      ¬ (Turn.drainOffer ∈ (p.bank b).turns ∨ p.candidate b = none ∨ (p.bank b).draining = true) := by
    rw [Bool.and_eq_true, Bool.and_eq_true, Bool.not_eq_true', ← Bool.not_eq_true, Bool.not_eq_true', ← Bool.not_eq_true,
      Bank.offers, List.contains_iff_mem, Option.isSome_iff_ne_none, not_or, not_or]
    exact ⟨fun ⟨⟨a, c⟩, d⟩ => ⟨a, d, c⟩, fun ⟨a, d, c⟩ => ⟨⟨a, c⟩, d⟩⟩
  rw [steps]
  by_cases stays : Turn.drainOffer ∈ (p.bank b).turns ∨ p.candidate b = none ∨ (p.bank b).draining = true
  · rw [if_pos stays, if_neg fun h => test.1 h.2 stays]
  · rw [if_neg stays, if_pos ⟨mem_allBanks b, test.2 stays⟩]

theorem draining_iff (k : Bank) : k.draining = true ↔ ∃ e f live, k.running = some ⟨.drain e f, live⟩ := by
  unfold Bank.draining
  split
  · next e f live running => exact iff_of_true rfl ⟨e, f, live, running⟩
  · next none =>
    refine iff_of_false Bool.false_ne_true ?_
    rintro ⟨e, f, live, running⟩
    exact none e f live running

/-! ### LINE READs of one act (R123) -/

theorem mem_insertRead (r x : LineRead) (l : List LineRead) : x ∈ insertRead r l ↔ x = r ∨ x ∈ l := by
  induction l with
  | nil => simp [insertRead]
  | cons y l ih =>
    rw [insertRead]
    split
    · simp
    · rw [List.mem_cons, ih, List.mem_cons]
      exact or_left_comm

theorem insertRead_ascends (r : LineRead) {l : List LineRead} (ascends : l.Pairwise fun x y => x.client < y.client)
    (other : ∀ x ∈ l, x.client ≠ r.client) : (insertRead r l).Pairwise fun x y => x.client < y.client := by
  induction l with
  | nil => exact List.pairwise_singleton _ _
  | cons y l ih =>
    obtain ⟨first, rest⟩ := List.pairwise_cons.1 ascends
    rw [insertRead]
    split
    · next below =>
      refine List.pairwise_cons.2 ⟨fun x mem => ?_, ascends⟩
      rcases List.mem_cons.1 mem with rfl | mem
      · exact below
      · exact below.trans (first x mem)
    · next above =>
      refine List.pairwise_cons.2 ⟨fun x mem => ?_, ih rest fun x mem => other x (List.mem_cons_of_mem y mem)⟩
      rcases (mem_insertRead r x l).1 mem with rfl | mem
      · exact lt_of_le_of_ne (not_lt.1 above) (other y List.mem_cons_self)
      · exact first x mem

/-! ### The obligation -/

/-- R122: each rank, in turn. -/
theorem choose_spec (k : Bank) (heavy : Bool) :
    (∀ g, k.owed = some g → k.choose heavy = some (.refresh g)) ∧
    (k.owed = none →
      (∀ o, k.copy = some o → 16 ≤ k.copyWait → k.choose heavy = some (.copy o)) ∧
      ((k.copyWait < 16 ∨ k.copy = none) →
        (heavy = true → Turn.drainOffer ∈ k.turns → k.choose heavy = some (.turn .drainOffer)) ∧
        ((heavy = false ∨ Turn.drainOffer ∉ k.turns) →
          (∀ r rest, k.reads = r :: rest → k.choose heavy = some (.read r)) ∧
          (∀ t rest, k.reads = [] → k.turns = t :: rest → k.choose heavy = some (.turn t)) ∧
          (∀ o, k.reads = [] → k.turns = [] → k.copy = some o → k.choose heavy = some (.copy o)) ∧
          (∀ f n, k.reads = [] → k.turns = [] → k.copy = none → k.zero = some (f, n) →
            k.choose heavy = some (.zero f n)) ∧
          (∀ f n, k.reads = [] → k.turns = [] → k.copy = none → k.zero = none → k.scrub = some (f, n) →
            k.choose heavy = some (.scrub f n)) ∧
          (k.reads = [] → k.turns = [] → k.copy = none → k.zero = none → k.scrub = none →
            k.choose heavy = none)))) := by
  refine ⟨fun g => choose_refresh, fun unowed => ⟨fun o => choose_late unowed, fun early =>
    ⟨choose_heavy unowed early, fun light => ?_⟩⟩⟩
  rw [choose_ranked unowed early light]
  refine ⟨fun r rest reads => ?_, fun t rest reads turns => ?_, fun o reads turns copy => ?_,
    fun f n reads turns copy zero => ?_, fun f n reads turns copy zero scrub => ?_, fun reads turns copy zero scrub => ?_⟩
  · rw [reads]
  · rw [reads, turns]
  · rw [reads, turns, copy]
  · rw [reads, turns, copy, zero]
  · rw [reads, turns, copy, zero, scrub] <;> rfl
  · rw [reads, turns, copy, zero, scrub] <;> rfl

/-- R119, R125: what each choice makes of the bank. -/
theorem acceptAt_starts {p : Part} {b : BankId} (idle : (p.bank b).running = none) :
    let k := p.bank b
    let passed := if k.copy = none then k.copyWait else min 16 (k.copyWait + 1)
    let starts : Bank → BankOp → Prop := fun x op => p.acceptAt b = p.modBank b fun _ => { x with running := some ⟨op, true⟩ }
    let chosen := k.choose p.heavy
    let others := k.turns.filter fun t => t != .drainOffer
    (chosen = none → p.acceptAt b = p) ∧
    (∀ g, chosen = some (.refresh g) → starts { k with owed := none } (.refresh g)) ∧
    (∀ r, chosen = some (.read r) → starts { k with reads := k.reads.tail, copyWait := passed } (.lineRead r)) ∧
    (∀ slot f n, chosen = some (.turn (.wipeStep slot f n)) →
      starts { k with turns := k.turns.tail, copyWait := passed } (.wipeStep slot f n)) ∧
    (∀ e f, chosen = some (.turn .drainOffer) → p.candidate b = some e → p.currentFrame e = some f →
      starts { k with turns := others, copyWait := passed } (.drain e f)) ∧
    (chosen = some (.turn .drainOffer) → p.candidate b = none →
      p.acceptAt b = p.modBank b fun _ => { k with turns := others }) ∧
    (∀ o, chosen = some (.copy o) → starts { k with copy := none, copyWait := 0 } (.copy o)) ∧
    (∀ f n, chosen = some (.zero f n) → starts { k with zero := none } (.zeroStep f n)) ∧
    (∀ f n, chosen = some (.scrub f n) → starts { k with scrub := none } (.scrubStep f n)) := by
  intro k passed starts chosen others
  have accepts := acceptAt_idle idle
  refine ⟨fun none => ?_, fun g refresh => ?_, fun r read => ?_, fun slot f n wipe => ?_, fun e f offer first stands => ?_,
    fun offer none => ?_, fun o copy => ?_, fun f n zero => ?_, fun f n scrub => ?_⟩
  · exact accepts.trans (by rw [show (p.bank b).choose p.heavy = _ from none])
  · rw [show (p.bank b).choose p.heavy = _ from refresh] at accepts
    exact accepts.trans (modBank_const p b _)
  · rw [show (p.bank b).choose p.heavy = _ from read] at accepts
    refine accepts.trans ((modBank_const p b _).trans ?_)
    rw [passCopy_eq] <;> rfl
  · rw [show (p.bank b).choose p.heavy = _ from wipe] at accepts
    refine accepts.trans ((modBank_const p b _).trans ?_)
    rw [passCopy_eq] <;> rfl
  · refine (acceptAt_offer idle offer).trans ((acceptDrain_candidate first stands).trans ((modBank_const p b _).trans ?_))
    rw [passCopy_eq] <;> rfl
  · exact (acceptAt_offer idle offer).trans ((acceptDrain_none none).trans (modBank_const p b _))
  · rw [show (p.bank b).choose p.heavy = _ from copy] at accepts
    exact accepts.trans (modBank_const p b _)
  · rw [show (p.bank b).choose p.heavy = _ from zero] at accepts
    exact accepts.trans (modBank_const p b _)
  · rw [show (p.bank b).choose p.heavy = _ from scrub] at accepts
    exact accepts.trans (modBank_const p b _)

/-- Settles O53. -/
theorem arbiterRanksOperations : Obligations.ArbiterRanksOperations := by
  refine ⟨choose_spec, copyWait_acceptAt, fun p b => ?_, fun p b => ?_, fun p r => rfl,
    fun r l ascends other => ⟨insertRead_ascends r ascends other, fun x => mem_insertRead r x l⟩, fun p => rfl⟩
  · intro k passed starts chosen others
    exact ⟨acceptAt_busy, acceptAt_starts⟩
  · intro drainable k
    exact ⟨fun e => rfl, fun older e younger order before first => candidate_eq order before first, candidate_none,
      bank_withdrawOffers_eq p b, bank_makeOffers_eq p b, draining_iff k⟩

end Sys2Proof.Machine

end
